-- ==== Sys2Proof/Word.lean ====
section
/-!
DEFINITION. The word types of the machine: 32-bit register values and addresses (00_scope.md R3, R7, R10),
bytes of memory (20_memory.md R70) and the 5-bit register fields of an instruction (00_scope.md R12).
-/

namespace Sys2Proof

/-- A 32-bit pattern: the content of an x or f register, the pc, an address, an instruction word (R3, R7, R10). -/
abbrev Word := BitVec 32

/-- One byte of memory (R70). -/
abbrev Byte := BitVec 8

/-- A register field of an instruction: a number from 0 to 31 (R12). -/
abbrev Reg := BitVec 5

end Sys2Proof
end

