-- ==== Sys2Proof/Config.lean ====
section
/-!
DEFINITION. The parameters of the machine that an implementation fixes and no rule of the spec gives a value to
(00_scope.md R8). The open functions and the open constant are opaque: no proof can see their values, so a claim
about them holds for every choice. The open function of `ecall_handler` is over machine states and stands beside their type,
in Machine/State.lean (log 8); `MEM_VALID`, a parameter too, is plain data of the state (log 1).
-/

namespace Sys2Proof

/-- The rounding directions FP arithmetic is specified for. 45_f_arith.md R262 gives one: to nearest, ties to even. -/
inductive RoundDirection where
  | nearestEven
  deriving DecidableEq, Repr

/-- `EXP_Q16`: NPU.VEXP's function on one element. 47_npu.md R324, R327; 93_implementation_defined.md U1 (log 12). -/
opaque Config.expQ16 : Word → Word

/-- `RSQRT_Q16`: NPU.VRSQRT's function, total, zero and negative arguments included. R324, R328; U2 (log 12). -/
opaque Config.rsqrtQ16 : Word → Word

/-- `GELU_LUT`: NPU.GELU's table as a total function. R324, R335; U3 (log 12). -/
opaque Config.geluLut : Word → Word

/-- `VMAX_EMPTY`: the result of NPU.VMAX over no elements. R331; U4 (log 13). -/
opaque Config.vmaxEmpty : Word

/-- `FP_ROUND`: the direction FP arithmetic rounds in, fixed to nearest-even by R262 (decision D17; log 11). -/
def Config.fpRound : RoundDirection := .nearestEven

/-- `RESET_PC`: where a run starts. R52 leaves it open but for being a multiple of 4.
DESIGN CHOICE, unsafe: the address the spec's own example programs are loaded at (log 2). -/
def Config.resetPc : Word := 0x00001000#32

/-- What a valid byte of memory that nothing has written reads as. R52 leaves it open.
DESIGN CHOICE, unsafe: zero at every address (log 7). -/
def Config.launchByte (_addr : Nat) : Byte := 0x00#8

end Sys2Proof
end

