-- ==== Sys2Proof/Syntax.lean ====
section
/-!
DEFINITION. The 88 instructions of 00_scope.md R2, one constructor for each row of spec/opcode_table.json, in the
table's order. A register operand is the 5-bit field; `imm` is the immediate of the row's format as 30_encoding.md
R120 to R124 assemble it, a 32-bit pattern (00_scope.md R12); `shamt` is `inst[24:20]` (R125).

The fields the source leaves open (R136) are operands too, so that no bit of a word is lost: `funct3` of JALR, `rd`,
`rs1` and `imm` of FENCE, `rm` (`inst[14:12]`) of the FP arithmetic and conversions, `fmt` (`inst[26:25]`) of the four
fused multiply-adds, `rs2` of FMV.X.W, FMV.W.X and FCLASS.S, `rd` of NPU.MACC, `rs2` of NPU.VRSQRT, NPU.RELU,
NPU.CLAMP and NPU.GELU, `rs1` and `rs2` of NPU.RSTACC. No meaning reads them (logs 14 and 15).
-/

namespace Sys2Proof

/-- The instructions of the machine (R2). -/
inductive Instr where
  -- R-type integer, 40_rv32i_alu.md
  /-- ADD, R161. -/
  | add (rd rs1 rs2 : Reg)
  /-- SUB, R162. -/
  | sub (rd rs1 rs2 : Reg)
  /-- SLL, R163. -/
  | sll (rd rs1 rs2 : Reg)
  /-- SLT, R164. -/
  | slt (rd rs1 rs2 : Reg)
  /-- SLTU, R165. -/
  | sltu (rd rs1 rs2 : Reg)
  /-- XOR, R166. -/
  | xor (rd rs1 rs2 : Reg)
  /-- SRL, R167. -/
  | srl (rd rs1 rs2 : Reg)
  /-- SRA, R168. -/
  | sra (rd rs1 rs2 : Reg)
  /-- OR, R169. -/
  | or (rd rs1 rs2 : Reg)
  /-- AND, R170. -/
  | and (rd rs1 rs2 : Reg)
  -- I-type arithmetic, 40_rv32i_alu.md
  /-- ADDI, R171. -/
  | addi (rd rs1 : Reg) (imm : Word)
  /-- SLTI, R172. -/
  | slti (rd rs1 : Reg) (imm : Word)
  /-- SLTIU, R173. -/
  | sltiu (rd rs1 : Reg) (imm : Word)
  /-- XORI, R174. -/
  | xori (rd rs1 : Reg) (imm : Word)
  /-- ORI, R175. -/
  | ori (rd rs1 : Reg) (imm : Word)
  /-- ANDI, R176. -/
  | andi (rd rs1 : Reg) (imm : Word)
  /-- SLLI, R177. -/
  | slli (rd rs1 shamt : Reg)
  /-- SRLI, R178. -/
  | srli (rd rs1 shamt : Reg)
  /-- SRAI, R179. -/
  | srai (rd rs1 shamt : Reg)
  -- loads and stores, 41_rv32i_loadstore.md
  /-- LB, R191. -/
  | lb (rd rs1 : Reg) (imm : Word)
  /-- LH, R192. -/
  | lh (rd rs1 : Reg) (imm : Word)
  /-- LW, R193. -/
  | lw (rd rs1 : Reg) (imm : Word)
  /-- LBU, R194. -/
  | lbu (rd rs1 : Reg) (imm : Word)
  /-- LHU, R195. -/
  | lhu (rd rs1 : Reg) (imm : Word)
  /-- SB, R196. -/
  | sb (rs1 rs2 : Reg) (imm : Word)
  /-- SH, R197. -/
  | sh (rs1 rs2 : Reg) (imm : Word)
  /-- SW, R198. -/
  | sw (rs1 rs2 : Reg) (imm : Word)
  -- branches, upper immediates and jumps, 42_rv32i_control.md
  /-- BEQ, R211. -/
  | beq (rs1 rs2 : Reg) (imm : Word)
  /-- BNE, R212. -/
  | bne (rs1 rs2 : Reg) (imm : Word)
  /-- BLT, R213. -/
  | blt (rs1 rs2 : Reg) (imm : Word)
  /-- BGE, R214. -/
  | bge (rs1 rs2 : Reg) (imm : Word)
  /-- BLTU, R215. -/
  | bltu (rs1 rs2 : Reg) (imm : Word)
  /-- BGEU, R216. -/
  | bgeu (rs1 rs2 : Reg) (imm : Word)
  /-- LUI, R217. -/
  | lui (rd : Reg) (imm : Word)
  /-- AUIPC, R218. -/
  | auipc (rd : Reg) (imm : Word)
  /-- JAL, R219. -/
  | jal (rd : Reg) (imm : Word)
  /-- JALR, R220. -/
  | jalr (rd rs1 : Reg) (imm : Word) (funct3 : BitVec 3)
  -- system and memory ordering, 43_rv32i_system.md
  /-- ECALL, R230. -/
  | ecall
  /-- EBREAK, R231. -/
  | ebreak
  /-- FENCE, R232. -/
  | fence (rd rs1 : Reg) (imm : BitVec 12)
  -- multiply and divide, 44_m_extension.md
  /-- MUL, R241. -/
  | mul (rd rs1 rs2 : Reg)
  /-- MULH, R242. -/
  | mulh (rd rs1 rs2 : Reg)
  /-- MULHSU, R243. -/
  | mulhsu (rd rs1 rs2 : Reg)
  /-- MULHU, R244. -/
  | mulhu (rd rs1 rs2 : Reg)
  /-- DIV, R245. -/
  | div (rd rs1 rs2 : Reg)
  /-- DIVU, R246. -/
  | divu (rd rs1 rs2 : Reg)
  /-- REM, R247. -/
  | rem (rd rs1 rs2 : Reg)
  /-- REMU, R248. -/
  | remu (rd rs1 rs2 : Reg)
  -- FP load and store, arithmetic, fused multiply-add, 45_f_arith.md
  /-- FLW, R265. -/
  | flw (rd rs1 : Reg) (imm : Word)
  /-- FSW, R266. -/
  | fsw (rs1 rs2 : Reg) (imm : Word)
  /-- FADD.S, R267. -/
  | faddS (rd rs1 rs2 : Reg) (rm : BitVec 3)
  /-- FSUB.S, R268. -/
  | fsubS (rd rs1 rs2 : Reg) (rm : BitVec 3)
  /-- FMUL.S, R269. -/
  | fmulS (rd rs1 rs2 : Reg) (rm : BitVec 3)
  /-- FDIV.S, R270. -/
  | fdivS (rd rs1 rs2 : Reg) (rm : BitVec 3)
  /-- FSQRT.S, R271. -/
  | fsqrtS (rd rs1 : Reg) (rm : BitVec 3)
  /-- FMADD.S, R273. -/
  | fmaddS (rd rs1 rs2 rs3 : Reg) (rm : BitVec 3) (fmt : BitVec 2)
  /-- FMSUB.S, R274. -/
  | fmsubS (rd rs1 rs2 rs3 : Reg) (rm : BitVec 3) (fmt : BitVec 2)
  /-- FNMSUB.S, R275. -/
  | fnmsubS (rd rs1 rs2 rs3 : Reg) (rm : BitVec 3) (fmt : BitVec 2)
  /-- FNMADD.S, R276. -/
  | fnmaddS (rd rs1 rs2 rs3 : Reg) (rm : BitVec 3) (fmt : BitVec 2)
  -- FP sign injection, min/max, comparison, conversion, move, classify, 46_f_misc.md
  /-- FSGNJ.S, R290. -/
  | fsgnjS (rd rs1 rs2 : Reg)
  /-- FSGNJN.S, R291. -/
  | fsgnjnS (rd rs1 rs2 : Reg)
  /-- FSGNJX.S, R292. -/
  | fsgnjxS (rd rs1 rs2 : Reg)
  /-- FMIN.S, R293. -/
  | fminS (rd rs1 rs2 : Reg)
  /-- FMAX.S, R294. -/
  | fmaxS (rd rs1 rs2 : Reg)
  /-- FEQ.S, R295. -/
  | feqS (rd rs1 rs2 : Reg)
  /-- FLT.S, R296. -/
  | fltS (rd rs1 rs2 : Reg)
  /-- FLE.S, R297. -/
  | fleS (rd rs1 rs2 : Reg)
  /-- FCVT.W.S, R298. -/
  | fcvtWS (rd rs1 : Reg) (rm : BitVec 3)
  /-- FCVT.WU.S, R299. -/
  | fcvtWuS (rd rs1 : Reg) (rm : BitVec 3)
  /-- FCVT.S.W, R300. -/
  | fcvtSW (rd rs1 : Reg) (rm : BitVec 3)
  /-- FCVT.S.WU, R301. -/
  | fcvtSWu (rd rs1 : Reg) (rm : BitVec 3)
  /-- FMV.X.W, R302. -/
  | fmvXW (rd rs1 rs2 : Reg)
  /-- FMV.W.X, R303. -/
  | fmvWX (rd rs1 rs2 : Reg)
  /-- FCLASS.S, R304. -/
  | fclassS (rd rs1 rs2 : Reg)
  -- custom NPU, 47_npu.md
  /-- NPU.MACC, R325. -/
  | npuMacc (rd rs1 rs2 : Reg)
  /-- NPU.VMAC, R326. -/
  | npuVmac (rd rs1 rs2 : Reg)
  /-- NPU.VEXP, R327. -/
  | npuVexp (rd rs1 rs2 : Reg)
  /-- NPU.VRSQRT, R328. -/
  | npuVrsqrt (rd rs1 rs2 : Reg)
  /-- NPU.VMUL, R329. -/
  | npuVmul (rd rs1 rs2 : Reg)
  /-- NPU.VREDUCE, R330. -/
  | npuVreduce (rd rs1 rs2 : Reg)
  /-- NPU.VMAX, R331. -/
  | npuVmax (rd rs1 rs2 : Reg)
  /-- NPU.RELU, R332. -/
  | npuRelu (rd rs1 rs2 : Reg)
  /-- NPU.QMUL, R333. -/
  | npuQmul (rd rs1 rs2 : Reg)
  /-- NPU.CLAMP, R334. -/
  | npuClamp (rd rs1 rs2 : Reg)
  /-- NPU.GELU, R335. -/
  | npuGelu (rd rs1 rs2 : Reg)
  /-- NPU.RSTACC, R336. -/
  | npuRstacc (rd rs1 rs2 : Reg)
  /-- NPU.LDVEC, R337. -/
  | npuLdvec (rd rs1 : Reg) (imm : Word)
  /-- NPU.STVEC, R338. -/
  | npuStvec (rs1 rs2 : Reg) (imm : Word)
  deriving DecidableEq, Repr

end Sys2Proof
end

