-- ==== Sys2Proof/Machine/State.lean ====
section
/-!
DEFINITION. The whole state of the machine as plain data (10_state.md), the reasons a step can end without a next state
(60_exceptions.md R360) and the state a run starts from (70_reset_and_hazards.md R400, R401).
-/

namespace Sys2Proof.Machine

/-- The five exception flags of `fcsr`, 10_state.md R42. The word view with the standard bit places is `Fcsr.toWord` in
Machine/Flags.lean: no instruction reads it (R45), so the flags are kept as five Booleans, as R42 allows (log 20). -/
structure FFlags where
  /-- Invalid operation. -/
  nv : Bool
  /-- Divide by zero. -/
  dz : Bool
  /-- Overflow. -/
  of : Bool
  /-- Underflow. -/
  uf : Bool
  /-- Inexact. -/
  nx : Bool
  deriving DecidableEq, Repr

/-- The floating-point control and status register, R42. -/
structure Fcsr where
  /-- The rounding-mode field. State the source names; nothing reads or writes it (R44, R45). -/
  frm : BitVec 3
  /-- The sticky exception flags (R43). -/
  fflags : FFlags
  deriving DecidableEq, Repr

/-- Memory: the bytes that differ from what an unlisted address reads as, by address (R49; 20_memory.md R70). The one
canonical form is `Memory.wf`, in Machine/Ops.lean. -/
abbrev Memory := List Host.Cell

/-- One region of `MEM_VALID`: the addresses `base` to `base + size - 1` (20_memory.md R71). -/
structure Region where
  base : Nat
  size : Nat
  deriving DecidableEq, Repr

/-- The machine state of the spec, the tuple at the head of 10_state.md: "Nothing else is state." -/
structure Arch where
  /-- The integer registers, R30. Cell 0 belongs to x0: `readX` never reads it, `writeX` never writes it (R31; log 23). -/
  x : Vector Word 32
  /-- The program counter, R35. -/
  pc : Word
  /-- The floating-point registers, R40. -/
  f : Vector Word 32
  /-- `fcsr`, R42. -/
  fcsr : Fcsr
  /-- The low half of the accumulator, R46. -/
  accLo : Word
  /-- The high half of the accumulator, R46. -/
  accHi : Word
  /-- The NPU vector registers, R47. -/
  vreg : Vector Word 4
  /-- The bytes of memory, R49. -/
  mem : Memory
  deriving DecidableEq, Repr

end Sys2Proof.Machine

namespace Sys2Proof

/-- `ecall_handler` when nothing is known of it: any function from the machine state at the ECALL to a new machine state, or to
none where it stops (60_exceptions.md R374; 00_scope.md R8). No proof can see its values (log 8). -/
opaque Config.ecallHandler : Machine.Arch → Option Machine.Arch

end Sys2Proof

namespace Sys2Proof.Machine

/-- Which function `ecall_handler` is in a run, as plain data (60_exceptions.md R374; log 8). What each answers for a machine
state is `EcallHandler.answer`, in Machine/Ops.lean. -/
inductive EcallHandler where
  /-- "The default handler is `stop`" (R374). -/
  | stop
  /-- Always resume behind the ECALL with nothing else changed: R374's convention with no result (general knowledge G25). -/
  | resume
  /-- A function given by its graph: from a listed state resume with the state beside it, from any other stop. -/
  | table (rows : List (Arch × Arch))
  /-- The open function `Config.ecallHandler`: any handler at all. -/
  | host
  deriving DecidableEq, Repr

/-- The spec's state and, as plain data, the two parameters of 00_scope.md R8 that a run is relative to. -/
structure State extends Arch where
  /-- `MEM_VALID` (20_memory.md R71) as a list of regions. No step changes it. The model's own field (log 1). -/
  memMap : List Region
  /-- `ecall_handler` (60_exceptions.md R374): the host's function from machine states to a new state or stop. No step changes
  it. The model's own field (log 8). -/
  ecallHandler : EcallHandler
  deriving DecidableEq, Repr

/-- The exceptions of 60_exceptions.md R360. Each ends the run (R362), `environmentCall` only when the host's handler
stops (R374). A fault carries the record's name and info value; the state delivered with it is the state the step
started from (R363; log 10). -/
inductive Fault where
  /-- Raised by the fetch when `pc[1:0]` is not `00` (20_memory.md R80). Safe: the spec's own stop; where a real
  emulator went on, a claim would only be unprovable (log 19). -/
  | instructionAddressMisaligned (pc : Word)
  /-- Raised by the fetch when a byte of `pc .. pc+3` is outside `MEM_VALID` (R81). Safe: as above. -/
  | instructionAccessFault (pc : Word)
  /-- Raised by the decode step for a word that matches no row of the opcode table (30_encoding.md R135). Safe: as above. -/
  | illegalInstruction (inst : Word)
  /-- Raised by EBREAK, always (43_rv32i_system.md R231). Safe: the run stops (R362). -/
  | breakpoint (pc : Word)
  /-- Raised by ECALL when the host's handler stops (R230, R374). Safe: the default handler is `stop`. -/
  | environmentCall
  /-- Raised by a read that touches a byte outside `MEM_VALID`, with the address of the access's first byte (R71). Safe. -/
  | loadAccessFault (addr : Word)
  /-- Raised by a write that touches a byte outside `MEM_VALID`, with the address of the access's first byte (R71). Safe. -/
  | storeAccessFault (addr : Word)
  deriving DecidableEq, Repr

/-- Refusals. No meaning of this model refuses. -/
inductive Refusal where
  /-- An instruction without a meaning in `exec`. No arm of `exec` raises it. Safe: a claim about it is unprovable. -/
  | notModelled (mnemonic : String)
  deriving DecidableEq, Repr

/-- The state at the start of a run (R52, R401). The source fixes x0 alone; every other value is a launch parameter, so
the values here are the model's and a claim from this state is about this launch only. DESIGN CHOICE, unsafe: logs 1 to 8.
Memory lists nothing: the host places the program (R400; log 9). -/
def State.reset : State where
  x := Vector.replicate 32 0#32
  pc := Config.resetPc
  f := Vector.replicate 32 0#32
  fcsr := { frm := 0#3, fflags := { nv := false, dz := false, of := false, uf := false, nx := false } }
  accLo := 0#32
  accHi := 0#32
  vreg := Vector.replicate 4 0#32
  mem := []
  memMap := [{ base := 0, size := 2 ^ 32 }]
  ecallHandler := .stop

end Sys2Proof.Machine
end

