-- ==== Sys2Proof/Machine/Flags.lean ====
section
/-!
DEFINITION. The floating-point exception flags: the sets an operation signals, and how they accumulate in `fcsr`
(10_state.md R42, R43; 45_f_arith.md R263).
-/

namespace Sys2Proof.Machine

/-- No flag is signalled. -/
def FFlags.none : FFlags := { nv := false, dz := false, of := false, uf := false, nx := false }

/-- Invalid operation. -/
def FFlags.invalid : FFlags := { FFlags.none with nv := true }

/-- Divide by zero. -/
def FFlags.divByZero : FFlags := { FFlags.none with dz := true }

/-- Overflow, which is always inexact too: `{OF, NX}` (R262). -/
def FFlags.overflow : FFlags := { FFlags.none with of := true, nx := true }

/-- Underflow, which is signalled only when inexact: `{UF, NX}` (R262). -/
def FFlags.underflow : FFlags := { FFlags.none with uf := true, nx := true }

/-- Inexact. -/
def FFlags.inexact : FFlags := { FFlags.none with nx := true }

/-- `a` when `b` holds, no flag otherwise. -/
def FFlags.when (b : Bool) (a : FFlags) : FFlags := if b then a else FFlags.none

/-- `fflags |= {...}` (R43): the flags are sticky. -/
def FFlags.union (a b : FFlags) : FFlags where
  nv := a.nv || b.nv
  dz := a.dz || b.dz
  of := a.of || b.of
  uf := a.uf || b.uf
  nx := a.nx || b.nx

/-- `fflags` as five bits, NV DZ OF UF NX from bit 4 down to bit 0 (R42). -/
def FFlags.toBits (a : FFlags) : BitVec 5 :=
  BitVec.ofBool a.nv ++ BitVec.ofBool a.dz ++ BitVec.ofBool a.of ++ BitVec.ofBool a.uf ++ BitVec.ofBool a.nx

/-- `fcsr` as a 32-bit word: `frm` in bits 7:5, the flags in bits 4:0, bits 31:8 zero (R42). For display: no instruction
reads it (R45). PRESUMED: the bit places are the standard RISC-V ones, 93_implementation_defined.md G1 (log 20). -/
def Fcsr.toWord (c : Fcsr) : Word := 0#24 ++ c.frm ++ c.fflags.toBits

/-- An FP instruction that signals `new` sets those flags and leaves the others as they were (R43). -/
def State.raiseFlags (s : State) (new : FFlags) : State :=
  { s with fcsr := { s.fcsr with fflags := s.fcsr.fflags.union new } }

end Sys2Proof.Machine
end

