-- ==== Sys2Proof/WellFormed.lean ====
section
/-!
DEFINITION. Which terms of `Instr` are instructions: the immediate of each format must be a value that 30_encoding.md
R120 to R124 can assemble. Every other operand is a field of its exact width and has no further condition (10_state.md
R33: "there is no instruction-specific restriction on register numbers").
-/

namespace Sys2Proof

/-- The I-type immediate: "-2048 to 2047" (R120). -/
def fitsI (imm : Word) : Bool := decide (-2048 ≤ imm.toInt) && decide (imm.toInt ≤ 2047)

/-- The S-type immediate: "Range -2048 to 2047" (R121). -/
def fitsS (imm : Word) : Bool := decide (-2048 ≤ imm.toInt) && decide (imm.toInt ≤ 2047)

/-- The B-type immediate: "Range -4096 to 4094, even values only" (R122). -/
def fitsB (imm : Word) : Bool :=
  decide (-4096 ≤ imm.toInt) && decide (imm.toInt ≤ 4094) && !imm.getLsbD 0

/-- The U-type immediate: "the 20-bit field in the upper 20 bits, zeros in the lower 12" (R123). -/
def fitsU (imm : Word) : Bool := imm.extractLsb' 0 12 == 0#12

/-- The J-type immediate: "Range -1048576 to 1048574, even values only" (R124). -/
def fitsJ (imm : Word) : Bool :=
  decide (-1048576 ≤ imm.toInt) && decide (imm.toInt ≤ 1048574) && !imm.getLsbD 0

/-- A term of `Instr` is well formed when its immediate is one its format can hold. -/
def Instr.wf : Instr → Bool
  | .add _ _ _ => true
  | .sub _ _ _ => true
  | .sll _ _ _ => true
  | .slt _ _ _ => true
  | .sltu _ _ _ => true
  | .xor _ _ _ => true
  | .srl _ _ _ => true
  | .sra _ _ _ => true
  | .or _ _ _ => true
  | .and _ _ _ => true
  | .addi _ _ imm => fitsI imm
  | .slti _ _ imm => fitsI imm
  | .sltiu _ _ imm => fitsI imm
  | .xori _ _ imm => fitsI imm
  | .ori _ _ imm => fitsI imm
  | .andi _ _ imm => fitsI imm
  | .slli _ _ _ => true
  | .srli _ _ _ => true
  | .srai _ _ _ => true
  | .lb _ _ imm => fitsI imm
  | .lh _ _ imm => fitsI imm
  | .lw _ _ imm => fitsI imm
  | .lbu _ _ imm => fitsI imm
  | .lhu _ _ imm => fitsI imm
  | .sb _ _ imm => fitsS imm
  | .sh _ _ imm => fitsS imm
  | .sw _ _ imm => fitsS imm
  | .beq _ _ imm => fitsB imm
  | .bne _ _ imm => fitsB imm
  | .blt _ _ imm => fitsB imm
  | .bge _ _ imm => fitsB imm
  | .bltu _ _ imm => fitsB imm
  | .bgeu _ _ imm => fitsB imm
  | .lui _ imm => fitsU imm
  | .auipc _ imm => fitsU imm
  | .jal _ imm => fitsJ imm
  | .jalr _ _ imm _ => fitsI imm
  | .ecall => true
  | .ebreak => true
  | .fence _ _ _ => true
  | .mul _ _ _ => true
  | .mulh _ _ _ => true
  | .mulhsu _ _ _ => true
  | .mulhu _ _ _ => true
  | .div _ _ _ => true
  | .divu _ _ _ => true
  | .rem _ _ _ => true
  | .remu _ _ _ => true
  | .flw _ _ imm => fitsI imm
  | .fsw _ _ imm => fitsS imm
  | .faddS _ _ _ _ => true
  | .fsubS _ _ _ _ => true
  | .fmulS _ _ _ _ => true
  | .fdivS _ _ _ _ => true
  | .fsqrtS _ _ _ => true
  | .fmaddS _ _ _ _ _ _ => true
  | .fmsubS _ _ _ _ _ _ => true
  | .fnmsubS _ _ _ _ _ _ => true
  | .fnmaddS _ _ _ _ _ _ => true
  | .fsgnjS _ _ _ => true
  | .fsgnjnS _ _ _ => true
  | .fsgnjxS _ _ _ => true
  | .fminS _ _ _ => true
  | .fmaxS _ _ _ => true
  | .feqS _ _ _ => true
  | .fltS _ _ _ => true
  | .fleS _ _ _ => true
  | .fcvtWS _ _ _ => true
  | .fcvtWuS _ _ _ => true
  | .fcvtSW _ _ _ => true
  | .fcvtSWu _ _ _ => true
  | .fmvXW _ _ _ => true
  | .fmvWX _ _ _ => true
  | .fclassS _ _ _ => true
  | .npuMacc _ _ _ => true
  | .npuVmac _ _ _ => true
  | .npuVexp _ _ _ => true
  | .npuVrsqrt _ _ _ => true
  | .npuVmul _ _ _ => true
  | .npuVreduce _ _ _ => true
  | .npuVmax _ _ _ => true
  | .npuRelu _ _ _ => true
  | .npuQmul _ _ _ => true
  | .npuClamp _ _ _ => true
  | .npuGelu _ _ _ => true
  | .npuRstacc _ _ _ => true
  | .npuLdvec _ _ imm => fitsI imm
  | .npuStvec _ _ imm => fitsS imm

end Sys2Proof
end

