-- ==== Sys2Proof/Decode.lean ====
section
/-!
DEFINITION. Decoding and encoding, 30_encoding.md. `decode` is the tree of R128 to R134 over the fields of R112; it is
total, depends on nothing but the word (R144) and rejects an unlisted word by name (R135). `encode` lays a well-formed
instruction out in its format (R113 to R119). `opcodeTable` is section 4's table as data.
-/

namespace Sys2Proof

/-- Why bytes are no instruction. -/
inductive Reject where
  /-- The word matches no row of the opcode table (R135). -/
  | illegalInstruction (w : Word)
  /-- Fewer than the four bytes an instruction has (R110). -/
  | truncated
  deriving DecidableEq, Repr

/-! Fields of the word, R112 and R119. -/

/-- `inst[6:0]`. -/
def opcodeOf (w : Word) : BitVec 7 := w.extractLsb' 0 7
/-- `inst[11:7]`. -/
def rdOf (w : Word) : Reg := w.extractLsb' 7 5
/-- `inst[14:12]`. -/
def funct3Of (w : Word) : BitVec 3 := w.extractLsb' 12 3
/-- `inst[19:15]`. -/
def rs1Of (w : Word) : Reg := w.extractLsb' 15 5
/-- `inst[24:20]`. -/
def rs2Of (w : Word) : Reg := w.extractLsb' 20 5
/-- `inst[31:25]`. -/
def funct7Of (w : Word) : BitVec 7 := w.extractLsb' 25 7
/-- `inst[31:27]`, R119. -/
def rs3Of (w : Word) : Reg := w.extractLsb' 27 5
/-- `inst[26:25]`, the two bits R119 leaves unnamed. -/
def fmtOf (w : Word) : BitVec 2 := w.extractLsb' 25 2

/-! Immediates, section 2: each is assembled into a 32-bit pattern. -/

/-- I-type: `sext(inst[31:20])`, R120. -/
def immI (w : Word) : Word := (w.extractLsb' 20 12).signExtend 32
/-- S-type: `sext(inst[31:25], inst[11:7])`, R121. -/
def immS (w : Word) : Word := (w.extractLsb' 25 7 ++ w.extractLsb' 7 5).signExtend 32
/-- B-type: `sext(inst[31], inst[7], inst[30:25], inst[11:8], 0)`, R122. -/
def immB (w : Word) : Word :=
  (w.extractLsb' 31 1 ++ w.extractLsb' 7 1 ++ w.extractLsb' 25 6 ++ w.extractLsb' 8 4 ++ 0#1).signExtend 32
/-- U-type: `inst[31:12]` above twelve zeros, R123. -/
def immU (w : Word) : Word := w.extractLsb' 12 20 ++ 0#12
/-- J-type: `sext(inst[31], inst[19:12], inst[20], inst[30:21], 0)`, R124. -/
def immJ (w : Word) : Word :=
  (w.extractLsb' 31 1 ++ w.extractLsb' 12 8 ++ w.extractLsb' 20 1 ++ w.extractLsb' 21 10 ++ 0#1).signExtend 32

/-- Opcode `0110011`, column `funct7 = 0000000` of R129. -/
def decodeOp0 (w : Word) : Except Reject Instr :=
  match funct3Of w with
  | 0b000#3 => .ok (.add (rdOf w) (rs1Of w) (rs2Of w))
  | 0b001#3 => .ok (.sll (rdOf w) (rs1Of w) (rs2Of w))
  | 0b010#3 => .ok (.slt (rdOf w) (rs1Of w) (rs2Of w))
  | 0b011#3 => .ok (.sltu (rdOf w) (rs1Of w) (rs2Of w))
  | 0b100#3 => .ok (.xor (rdOf w) (rs1Of w) (rs2Of w))
  | 0b101#3 => .ok (.srl (rdOf w) (rs1Of w) (rs2Of w))
  | 0b110#3 => .ok (.or (rdOf w) (rs1Of w) (rs2Of w))
  | 0b111#3 => .ok (.and (rdOf w) (rs1Of w) (rs2Of w))
  | _ => .error (.illegalInstruction w)

/-- Opcode `0110011`, column `funct7 = 0100000` of R129. -/
def decodeOp32 (w : Word) : Except Reject Instr :=
  match funct3Of w with
  | 0b000#3 => .ok (.sub (rdOf w) (rs1Of w) (rs2Of w))
  | 0b101#3 => .ok (.sra (rdOf w) (rs1Of w) (rs2Of w))
  | _ => .error (.illegalInstruction w)

/-- Opcode `0110011`, column `funct7 = 0000001` of R129 (the M extension). -/
def decodeOpM (w : Word) : Except Reject Instr :=
  match funct3Of w with
  | 0b000#3 => .ok (.mul (rdOf w) (rs1Of w) (rs2Of w))
  | 0b001#3 => .ok (.mulh (rdOf w) (rs1Of w) (rs2Of w))
  | 0b010#3 => .ok (.mulhsu (rdOf w) (rs1Of w) (rs2Of w))
  | 0b011#3 => .ok (.mulhu (rdOf w) (rs1Of w) (rs2Of w))
  | 0b100#3 => .ok (.div (rdOf w) (rs1Of w) (rs2Of w))
  | 0b101#3 => .ok (.divu (rdOf w) (rs1Of w) (rs2Of w))
  | 0b110#3 => .ok (.rem (rdOf w) (rs1Of w) (rs2Of w))
  | 0b111#3 => .ok (.remu (rdOf w) (rs1Of w) (rs2Of w))
  | _ => .error (.illegalInstruction w)

/-- Opcode `0110011`, R129. -/
def decodeOp (w : Word) : Except Reject Instr :=
  match funct7Of w with
  | 0b0000000#7 => decodeOp0 w
  | 0b0100000#7 => decodeOp32 w
  | 0b0000001#7 => decodeOpM w
  | _ => .error (.illegalInstruction w)

/-- Opcode `0010011`, `funct3 = 001`: SLLI and nothing else (R125, R130). -/
def decodeSlli (w : Word) : Except Reject Instr :=
  match funct7Of w with
  | 0b0000000#7 => .ok (.slli (rdOf w) (rs1Of w) (rs2Of w))
  | _ => .error (.illegalInstruction w)

/-- Opcode `0010011`, `funct3 = 101`: SRLI or SRAI (R125, R130). -/
def decodeShiftRight (w : Word) : Except Reject Instr :=
  match funct7Of w with
  | 0b0000000#7 => .ok (.srli (rdOf w) (rs1Of w) (rs2Of w))
  | 0b0100000#7 => .ok (.srai (rdOf w) (rs1Of w) (rs2Of w))
  | _ => .error (.illegalInstruction w)

/-- Opcode `0010011`, R130. -/
def decodeOpImm (w : Word) : Except Reject Instr :=
  match funct3Of w with
  | 0b000#3 => .ok (.addi (rdOf w) (rs1Of w) (immI w))
  | 0b001#3 => decodeSlli w
  | 0b010#3 => .ok (.slti (rdOf w) (rs1Of w) (immI w))
  | 0b011#3 => .ok (.sltiu (rdOf w) (rs1Of w) (immI w))
  | 0b100#3 => .ok (.xori (rdOf w) (rs1Of w) (immI w))
  | 0b101#3 => decodeShiftRight w
  | 0b110#3 => .ok (.ori (rdOf w) (rs1Of w) (immI w))
  | 0b111#3 => .ok (.andi (rdOf w) (rs1Of w) (immI w))
  | _ => .error (.illegalInstruction w)

/-- Opcode `0000011`, R131. -/
def decodeLoad (w : Word) : Except Reject Instr :=
  match funct3Of w with
  | 0b000#3 => .ok (.lb (rdOf w) (rs1Of w) (immI w))
  | 0b001#3 => .ok (.lh (rdOf w) (rs1Of w) (immI w))
  | 0b010#3 => .ok (.lw (rdOf w) (rs1Of w) (immI w))
  | 0b100#3 => .ok (.lbu (rdOf w) (rs1Of w) (immI w))
  | 0b101#3 => .ok (.lhu (rdOf w) (rs1Of w) (immI w))
  | _ => .error (.illegalInstruction w)

/-- Opcode `0100011`, R131. -/
def decodeStore (w : Word) : Except Reject Instr :=
  match funct3Of w with
  | 0b000#3 => .ok (.sb (rs1Of w) (rs2Of w) (immS w))
  | 0b001#3 => .ok (.sh (rs1Of w) (rs2Of w) (immS w))
  | 0b010#3 => .ok (.sw (rs1Of w) (rs2Of w) (immS w))
  | _ => .error (.illegalInstruction w)

/-- Opcode `1100011`, R131. -/
def decodeBranch (w : Word) : Except Reject Instr :=
  match funct3Of w with
  | 0b000#3 => .ok (.beq (rs1Of w) (rs2Of w) (immB w))
  | 0b001#3 => .ok (.bne (rs1Of w) (rs2Of w) (immB w))
  | 0b100#3 => .ok (.blt (rs1Of w) (rs2Of w) (immB w))
  | 0b101#3 => .ok (.bge (rs1Of w) (rs2Of w) (immB w))
  | 0b110#3 => .ok (.bltu (rs1Of w) (rs2Of w) (immB w))
  | 0b111#3 => .ok (.bgeu (rs1Of w) (rs2Of w) (immB w))
  | _ => .error (.illegalInstruction w)

/-- Opcode `1110011`: "exactly two words of this opcode are instructions" (R132). -/
def decodeSystem (w : Word) : Except Reject Instr :=
  if w = 0x00000073#32 then .ok .ecall
  else if w = 0x00100073#32 then .ok .ebreak
  else .error (.illegalInstruction w)

/-- Opcode `0001111`, R132. -/
def decodeFence (w : Word) : Except Reject Instr :=
  match funct3Of w with
  | 0b000#3 => .ok (.fence (rdOf w) (rs1Of w) (w.extractLsb' 20 12))
  | _ => .error (.illegalInstruction w)

/-- Opcode `0000111`, R131. -/
def decodeFlw (w : Word) : Except Reject Instr :=
  match funct3Of w with
  | 0b010#3 => .ok (.flw (rdOf w) (rs1Of w) (immI w))
  | _ => .error (.illegalInstruction w)

/-- Opcode `0100111`, R131. -/
def decodeFsw (w : Word) : Except Reject Instr :=
  match funct3Of w with
  | 0b010#3 => .ok (.fsw (rs1Of w) (rs2Of w) (immS w))
  | _ => .error (.illegalInstruction w)

/-- `funct7 = 0101100`: FSQRT.S when `rs2 = 00000` (R126, R133). -/
def decodeFsqrt (w : Word) : Except Reject Instr :=
  match rs2Of w with
  | 0b00000#5 => .ok (.fsqrtS (rdOf w) (rs1Of w) (funct3Of w))
  | _ => .error (.illegalInstruction w)

/-- `funct7 = 0010000`, R133. -/
def decodeFsgnj (w : Word) : Except Reject Instr :=
  match funct3Of w with
  | 0b000#3 => .ok (.fsgnjS (rdOf w) (rs1Of w) (rs2Of w))
  | 0b001#3 => .ok (.fsgnjnS (rdOf w) (rs1Of w) (rs2Of w))
  | 0b010#3 => .ok (.fsgnjxS (rdOf w) (rs1Of w) (rs2Of w))
  | _ => .error (.illegalInstruction w)

/-- `funct7 = 0010100`, R133. -/
def decodeFminmax (w : Word) : Except Reject Instr :=
  match funct3Of w with
  | 0b000#3 => .ok (.fminS (rdOf w) (rs1Of w) (rs2Of w))
  | 0b001#3 => .ok (.fmaxS (rdOf w) (rs1Of w) (rs2Of w))
  | _ => .error (.illegalInstruction w)

/-- `funct7 = 1010000`, R133. -/
def decodeFcmp (w : Word) : Except Reject Instr :=
  match funct3Of w with
  | 0b010#3 => .ok (.feqS (rdOf w) (rs1Of w) (rs2Of w))
  | 0b001#3 => .ok (.fltS (rdOf w) (rs1Of w) (rs2Of w))
  | 0b000#3 => .ok (.fleS (rdOf w) (rs1Of w) (rs2Of w))
  | _ => .error (.illegalInstruction w)

/-- `funct7 = 1100000`, selected by `rs2` (R126, R133). -/
def decodeFcvtToInt (w : Word) : Except Reject Instr :=
  match rs2Of w with
  | 0b00000#5 => .ok (.fcvtWS (rdOf w) (rs1Of w) (funct3Of w))
  | 0b00001#5 => .ok (.fcvtWuS (rdOf w) (rs1Of w) (funct3Of w))
  | _ => .error (.illegalInstruction w)

/-- `funct7 = 1101000`, selected by `rs2` (R126, R133). -/
def decodeFcvtFromInt (w : Word) : Except Reject Instr :=
  match rs2Of w with
  | 0b00000#5 => .ok (.fcvtSW (rdOf w) (rs1Of w) (funct3Of w))
  | 0b00001#5 => .ok (.fcvtSWu (rdOf w) (rs1Of w) (funct3Of w))
  | _ => .error (.illegalInstruction w)

/-- `funct7 = 1110000`, R133. -/
def decodeFmvXClass (w : Word) : Except Reject Instr :=
  match funct3Of w with
  | 0b000#3 => .ok (.fmvXW (rdOf w) (rs1Of w) (rs2Of w))
  | 0b001#3 => .ok (.fclassS (rdOf w) (rs1Of w) (rs2Of w))
  | _ => .error (.illegalInstruction w)

/-- `funct7 = 1111000`, R133. -/
def decodeFmvWX (w : Word) : Except Reject Instr :=
  match funct3Of w with
  | 0b000#3 => .ok (.fmvWX (rdOf w) (rs1Of w) (rs2Of w))
  | _ => .error (.illegalInstruction w)

/-- Opcode `1010011`, R133. -/
def decodeFp (w : Word) : Except Reject Instr :=
  match funct7Of w with
  | 0b0000000#7 => .ok (.faddS (rdOf w) (rs1Of w) (rs2Of w) (funct3Of w))
  | 0b0000100#7 => .ok (.fsubS (rdOf w) (rs1Of w) (rs2Of w) (funct3Of w))
  | 0b0001000#7 => .ok (.fmulS (rdOf w) (rs1Of w) (rs2Of w) (funct3Of w))
  | 0b0001100#7 => .ok (.fdivS (rdOf w) (rs1Of w) (rs2Of w) (funct3Of w))
  | 0b0101100#7 => decodeFsqrt w
  | 0b0010000#7 => decodeFsgnj w
  | 0b0010100#7 => decodeFminmax w
  | 0b1010000#7 => decodeFcmp w
  | 0b1100000#7 => decodeFcvtToInt w
  | 0b1101000#7 => decodeFcvtFromInt w
  | 0b1110000#7 => decodeFmvXClass w
  | 0b1111000#7 => decodeFmvWX w
  | _ => .error (.illegalInstruction w)

/-- Opcode `0001011`, `funct3 = 000`, R134. -/
def decodeNpuArray (w : Word) : Except Reject Instr :=
  match funct7Of w with
  | 0b0000000#7 => .ok (.npuMacc (rdOf w) (rs1Of w) (rs2Of w))
  | 0b0000001#7 => .ok (.npuVmac (rdOf w) (rs1Of w) (rs2Of w))
  | 0b0000010#7 => .ok (.npuVexp (rdOf w) (rs1Of w) (rs2Of w))
  | 0b0000011#7 => .ok (.npuVrsqrt (rdOf w) (rs1Of w) (rs2Of w))
  | 0b0000100#7 => .ok (.npuVmul (rdOf w) (rs1Of w) (rs2Of w))
  | 0b0000101#7 => .ok (.npuVreduce (rdOf w) (rs1Of w) (rs2Of w))
  | 0b0000110#7 => .ok (.npuVmax (rdOf w) (rs1Of w) (rs2Of w))
  | _ => .error (.illegalInstruction w)

/-- Opcode `0001011`, `funct3` 001 to 101: the instruction when `funct7 = 0000000` (R134). -/
def decodeNpuScalar (w : Word) (i : Instr) : Except Reject Instr :=
  if funct7Of w = 0b0000000#7 then .ok i else .error (.illegalInstruction w)

/-- Opcode `0001011`, R134; NPU.STVEC is in the S format (R127, 90_conflicts.md C1; log 16). -/
def decodeNpu (w : Word) : Except Reject Instr :=
  match funct3Of w with
  | 0b000#3 => decodeNpuArray w
  | 0b001#3 => decodeNpuScalar w (.npuRelu (rdOf w) (rs1Of w) (rs2Of w))
  | 0b010#3 => decodeNpuScalar w (.npuQmul (rdOf w) (rs1Of w) (rs2Of w))
  | 0b011#3 => decodeNpuScalar w (.npuClamp (rdOf w) (rs1Of w) (rs2Of w))
  | 0b100#3 => decodeNpuScalar w (.npuGelu (rdOf w) (rs1Of w) (rs2Of w))
  | 0b101#3 => decodeNpuScalar w (.npuRstacc (rdOf w) (rs1Of w) (rs2Of w))
  | 0b110#3 => .ok (.npuLdvec (rdOf w) (rs1Of w) (immI w))
  | 0b111#3 => .ok (.npuStvec (rs1Of w) (rs2Of w) (immS w))
  | _ => .error (.illegalInstruction w)

/-- The decoder: the major opcode selects the group (R128); any other word is illegal (R135). -/
def decode (w : Word) : Except Reject Instr :=
  match opcodeOf w with
  | 0b0110011#7 => decodeOp w
  | 0b0010011#7 => decodeOpImm w
  | 0b0000011#7 => decodeLoad w
  | 0b0100011#7 => decodeStore w
  | 0b1100011#7 => decodeBranch w
  | 0b0110111#7 => .ok (.lui (rdOf w) (immU w))
  | 0b0010111#7 => .ok (.auipc (rdOf w) (immU w))
  | 0b1101111#7 => .ok (.jal (rdOf w) (immJ w))
  | 0b1100111#7 => .ok (.jalr (rdOf w) (rs1Of w) (immI w) (funct3Of w))
  | 0b1110011#7 => decodeSystem w
  | 0b0001111#7 => decodeFence w
  | 0b0000111#7 => decodeFlw w
  | 0b0100111#7 => decodeFsw w
  | 0b1010011#7 => decodeFp w
  | 0b1000011#7 => .ok (.fmaddS (rdOf w) (rs1Of w) (rs2Of w) (rs3Of w) (funct3Of w) (fmtOf w))
  | 0b1000111#7 => .ok (.fmsubS (rdOf w) (rs1Of w) (rs2Of w) (rs3Of w) (funct3Of w) (fmtOf w))
  | 0b1001011#7 => .ok (.fnmsubS (rdOf w) (rs1Of w) (rs2Of w) (rs3Of w) (funct3Of w) (fmtOf w))
  | 0b1001111#7 => .ok (.fnmaddS (rdOf w) (rs1Of w) (rs2Of w) (rs3Of w) (funct3Of w) (fmtOf w))
  | 0b0001011#7 => decodeNpu w
  | _ => .error (.illegalInstruction w)

/-- The word whose byte at the lowest address is `b0`: `inst = mem[pc+3], mem[pc+2], mem[pc+1], mem[pc]` (R75, R110). -/
def wordOfBytes (b0 b1 b2 b3 : Byte) : Word := b3 ++ b2 ++ b1 ++ b0

/-- Byte `i` of a word, `v[8i+7 : 8i]` (20_memory.md R73). -/
def byteOfWord (w : Word) (i : Nat) : Byte := w.extractLsb' (8 * i) 8

/-- The four bytes of a word as memory holds it, the lowest address first (R75). -/
def bytesOfWord (w : Word) : List Byte := [byteOfWord w 0, byteOfWord w 1, byteOfWord w 2, byteOfWord w 3]

/-- Decoding of bytes: the instruction at the front and the bytes after it. Every instruction is four bytes (R110). -/
def decodeBytes : List Byte → Except Reject (Instr × List Byte)
  | b0 :: b1 :: b2 :: b3 :: rest =>
    match decode (wordOfBytes b0 b1 b2 b3) with
    | .ok i => .ok (i, rest)
    | .error e => .error e
  | _ => .error .truncated

/-- The instruction the decoder reads from the table's bits `w` of an instruction of `nbits` bits: the bits are laid out
as bytes in memory order and given to `decodeBytes`. Every row of the table has 32 bits (R110). -/
def decodeTableWord (nbits w : Nat) : Option Instr :=
  match decodeBytes (bytesOfWord (BitVec.ofNat 32 (w % 2 ^ nbits))) with
  | .ok (i, _) => some i
  | .error _ => none

/-! The encoder: the layouts of R113 to R119. -/

/-- R format, R113. -/
def encR (f7 : BitVec 7) (r2 r1 : Reg) (f3 : BitVec 3) (d : Reg) (op : BitVec 7) : Word :=
  f7 ++ r2 ++ r1 ++ f3 ++ d ++ op

/-- R4 format, R119. -/
def encR4 (r3 : Reg) (fm : BitVec 2) (r2 r1 : Reg) (f3 : BitVec 3) (d : Reg) (op : BitVec 7) : Word :=
  r3 ++ fm ++ r2 ++ r1 ++ f3 ++ d ++ op

/-- I format with the raw field `inst[31:20]`, R114. -/
def encIRaw (imm12 : BitVec 12) (r1 : Reg) (f3 : BitVec 3) (d : Reg) (op : BitVec 7) : Word :=
  imm12 ++ r1 ++ f3 ++ d ++ op

/-- I format, R114, R120: the field is the immediate's low twelve bits. -/
def encI (imm : Word) (r1 : Reg) (f3 : BitVec 3) (d : Reg) (op : BitVec 7) : Word :=
  encIRaw (imm.extractLsb' 0 12) r1 f3 d op

/-- S format, R115, R121. -/
def encS (imm : Word) (r2 r1 : Reg) (f3 : BitVec 3) (op : BitVec 7) : Word :=
  imm.extractLsb' 5 7 ++ r2 ++ r1 ++ f3 ++ imm.extractLsb' 0 5 ++ op

/-- B format, R116, R122. -/
def encB (imm : Word) (r2 r1 : Reg) (f3 : BitVec 3) (op : BitVec 7) : Word :=
  imm.extractLsb' 12 1 ++ imm.extractLsb' 5 6 ++ r2 ++ r1 ++ f3 ++ imm.extractLsb' 1 4 ++ imm.extractLsb' 11 1 ++ op

/-- U format, R117, R123. -/
def encU (imm : Word) (d : Reg) (op : BitVec 7) : Word :=
  imm.extractLsb' 12 20 ++ d ++ op

/-- J format, R118, R124. -/
def encJ (imm : Word) (d : Reg) (op : BitVec 7) : Word :=
  imm.extractLsb' 20 1 ++ imm.extractLsb' 1 10 ++ imm.extractLsb' 11 1 ++ imm.extractLsb' 12 8 ++ d ++ op

/-- The word of a well-formed instruction, from section 4's rows and the layouts of section 1. -/
def encode : Instr → Word
  | .add rd rs1 rs2 => encR 0b0000000#7 rs2 rs1 0b000#3 rd 0b0110011#7
  | .sub rd rs1 rs2 => encR 0b0100000#7 rs2 rs1 0b000#3 rd 0b0110011#7
  | .sll rd rs1 rs2 => encR 0b0000000#7 rs2 rs1 0b001#3 rd 0b0110011#7
  | .slt rd rs1 rs2 => encR 0b0000000#7 rs2 rs1 0b010#3 rd 0b0110011#7
  | .sltu rd rs1 rs2 => encR 0b0000000#7 rs2 rs1 0b011#3 rd 0b0110011#7
  | .xor rd rs1 rs2 => encR 0b0000000#7 rs2 rs1 0b100#3 rd 0b0110011#7
  | .srl rd rs1 rs2 => encR 0b0000000#7 rs2 rs1 0b101#3 rd 0b0110011#7
  | .sra rd rs1 rs2 => encR 0b0100000#7 rs2 rs1 0b101#3 rd 0b0110011#7
  | .or rd rs1 rs2 => encR 0b0000000#7 rs2 rs1 0b110#3 rd 0b0110011#7
  | .and rd rs1 rs2 => encR 0b0000000#7 rs2 rs1 0b111#3 rd 0b0110011#7
  | .addi rd rs1 imm => encI imm rs1 0b000#3 rd 0b0010011#7
  | .slti rd rs1 imm => encI imm rs1 0b010#3 rd 0b0010011#7
  | .sltiu rd rs1 imm => encI imm rs1 0b011#3 rd 0b0010011#7
  | .xori rd rs1 imm => encI imm rs1 0b100#3 rd 0b0010011#7
  | .ori rd rs1 imm => encI imm rs1 0b110#3 rd 0b0010011#7
  | .andi rd rs1 imm => encI imm rs1 0b111#3 rd 0b0010011#7
  | .slli rd rs1 shamt => encR 0b0000000#7 shamt rs1 0b001#3 rd 0b0010011#7
  | .srli rd rs1 shamt => encR 0b0000000#7 shamt rs1 0b101#3 rd 0b0010011#7
  | .srai rd rs1 shamt => encR 0b0100000#7 shamt rs1 0b101#3 rd 0b0010011#7
  | .lb rd rs1 imm => encI imm rs1 0b000#3 rd 0b0000011#7
  | .lh rd rs1 imm => encI imm rs1 0b001#3 rd 0b0000011#7
  | .lw rd rs1 imm => encI imm rs1 0b010#3 rd 0b0000011#7
  | .lbu rd rs1 imm => encI imm rs1 0b100#3 rd 0b0000011#7
  | .lhu rd rs1 imm => encI imm rs1 0b101#3 rd 0b0000011#7
  | .sb rs1 rs2 imm => encS imm rs2 rs1 0b000#3 0b0100011#7
  | .sh rs1 rs2 imm => encS imm rs2 rs1 0b001#3 0b0100011#7
  | .sw rs1 rs2 imm => encS imm rs2 rs1 0b010#3 0b0100011#7
  | .beq rs1 rs2 imm => encB imm rs2 rs1 0b000#3 0b1100011#7
  | .bne rs1 rs2 imm => encB imm rs2 rs1 0b001#3 0b1100011#7
  | .blt rs1 rs2 imm => encB imm rs2 rs1 0b100#3 0b1100011#7
  | .bge rs1 rs2 imm => encB imm rs2 rs1 0b101#3 0b1100011#7
  | .bltu rs1 rs2 imm => encB imm rs2 rs1 0b110#3 0b1100011#7
  | .bgeu rs1 rs2 imm => encB imm rs2 rs1 0b111#3 0b1100011#7
  | .lui rd imm => encU imm rd 0b0110111#7
  | .auipc rd imm => encU imm rd 0b0010111#7
  | .jal rd imm => encJ imm rd 0b1101111#7
  | .jalr rd rs1 imm funct3 => encI imm rs1 funct3 rd 0b1100111#7
  | .ecall => 0x00000073#32
  | .ebreak => 0x00100073#32
  | .fence rd rs1 imm => encIRaw imm rs1 0b000#3 rd 0b0001111#7
  | .mul rd rs1 rs2 => encR 0b0000001#7 rs2 rs1 0b000#3 rd 0b0110011#7
  | .mulh rd rs1 rs2 => encR 0b0000001#7 rs2 rs1 0b001#3 rd 0b0110011#7
  | .mulhsu rd rs1 rs2 => encR 0b0000001#7 rs2 rs1 0b010#3 rd 0b0110011#7
  | .mulhu rd rs1 rs2 => encR 0b0000001#7 rs2 rs1 0b011#3 rd 0b0110011#7
  | .div rd rs1 rs2 => encR 0b0000001#7 rs2 rs1 0b100#3 rd 0b0110011#7
  | .divu rd rs1 rs2 => encR 0b0000001#7 rs2 rs1 0b101#3 rd 0b0110011#7
  | .rem rd rs1 rs2 => encR 0b0000001#7 rs2 rs1 0b110#3 rd 0b0110011#7
  | .remu rd rs1 rs2 => encR 0b0000001#7 rs2 rs1 0b111#3 rd 0b0110011#7
  | .flw rd rs1 imm => encI imm rs1 0b010#3 rd 0b0000111#7
  | .fsw rs1 rs2 imm => encS imm rs2 rs1 0b010#3 0b0100111#7
  | .faddS rd rs1 rs2 rm => encR 0b0000000#7 rs2 rs1 rm rd 0b1010011#7
  | .fsubS rd rs1 rs2 rm => encR 0b0000100#7 rs2 rs1 rm rd 0b1010011#7
  | .fmulS rd rs1 rs2 rm => encR 0b0001000#7 rs2 rs1 rm rd 0b1010011#7
  | .fdivS rd rs1 rs2 rm => encR 0b0001100#7 rs2 rs1 rm rd 0b1010011#7
  | .fsqrtS rd rs1 rm => encR 0b0101100#7 0b00000#5 rs1 rm rd 0b1010011#7
  | .fmaddS rd rs1 rs2 rs3 rm fmt => encR4 rs3 fmt rs2 rs1 rm rd 0b1000011#7
  | .fmsubS rd rs1 rs2 rs3 rm fmt => encR4 rs3 fmt rs2 rs1 rm rd 0b1000111#7
  | .fnmsubS rd rs1 rs2 rs3 rm fmt => encR4 rs3 fmt rs2 rs1 rm rd 0b1001011#7
  | .fnmaddS rd rs1 rs2 rs3 rm fmt => encR4 rs3 fmt rs2 rs1 rm rd 0b1001111#7
  | .fsgnjS rd rs1 rs2 => encR 0b0010000#7 rs2 rs1 0b000#3 rd 0b1010011#7
  | .fsgnjnS rd rs1 rs2 => encR 0b0010000#7 rs2 rs1 0b001#3 rd 0b1010011#7
  | .fsgnjxS rd rs1 rs2 => encR 0b0010000#7 rs2 rs1 0b010#3 rd 0b1010011#7
  | .fminS rd rs1 rs2 => encR 0b0010100#7 rs2 rs1 0b000#3 rd 0b1010011#7
  | .fmaxS rd rs1 rs2 => encR 0b0010100#7 rs2 rs1 0b001#3 rd 0b1010011#7
  | .feqS rd rs1 rs2 => encR 0b1010000#7 rs2 rs1 0b010#3 rd 0b1010011#7
  | .fltS rd rs1 rs2 => encR 0b1010000#7 rs2 rs1 0b001#3 rd 0b1010011#7
  | .fleS rd rs1 rs2 => encR 0b1010000#7 rs2 rs1 0b000#3 rd 0b1010011#7
  | .fcvtWS rd rs1 rm => encR 0b1100000#7 0b00000#5 rs1 rm rd 0b1010011#7
  | .fcvtWuS rd rs1 rm => encR 0b1100000#7 0b00001#5 rs1 rm rd 0b1010011#7
  | .fcvtSW rd rs1 rm => encR 0b1101000#7 0b00000#5 rs1 rm rd 0b1010011#7
  | .fcvtSWu rd rs1 rm => encR 0b1101000#7 0b00001#5 rs1 rm rd 0b1010011#7
  | .fmvXW rd rs1 rs2 => encR 0b1110000#7 rs2 rs1 0b000#3 rd 0b1010011#7
  | .fmvWX rd rs1 rs2 => encR 0b1111000#7 rs2 rs1 0b000#3 rd 0b1010011#7
  | .fclassS rd rs1 rs2 => encR 0b1110000#7 rs2 rs1 0b001#3 rd 0b1010011#7
  | .npuMacc rd rs1 rs2 => encR 0b0000000#7 rs2 rs1 0b000#3 rd 0b0001011#7
  | .npuVmac rd rs1 rs2 => encR 0b0000001#7 rs2 rs1 0b000#3 rd 0b0001011#7
  | .npuVexp rd rs1 rs2 => encR 0b0000010#7 rs2 rs1 0b000#3 rd 0b0001011#7
  | .npuVrsqrt rd rs1 rs2 => encR 0b0000011#7 rs2 rs1 0b000#3 rd 0b0001011#7
  | .npuVmul rd rs1 rs2 => encR 0b0000100#7 rs2 rs1 0b000#3 rd 0b0001011#7
  | .npuVreduce rd rs1 rs2 => encR 0b0000101#7 rs2 rs1 0b000#3 rd 0b0001011#7
  | .npuVmax rd rs1 rs2 => encR 0b0000110#7 rs2 rs1 0b000#3 rd 0b0001011#7
  | .npuRelu rd rs1 rs2 => encR 0b0000000#7 rs2 rs1 0b001#3 rd 0b0001011#7
  | .npuQmul rd rs1 rs2 => encR 0b0000000#7 rs2 rs1 0b010#3 rd 0b0001011#7
  | .npuClamp rd rs1 rs2 => encR 0b0000000#7 rs2 rs1 0b011#3 rd 0b0001011#7
  | .npuGelu rd rs1 rs2 => encR 0b0000000#7 rs2 rs1 0b100#3 rd 0b0001011#7
  | .npuRstacc rd rs1 rs2 => encR 0b0000000#7 rs2 rs1 0b101#3 rd 0b0001011#7
  | .npuLdvec rd rs1 imm => encI imm rs1 0b110#3 rd 0b0001011#7
  | .npuStvec rs1 rs2 imm => encS imm rs2 rs1 0b111#3 0b0001011#7

/-! The opcode table of section 4 as data. -/

/-- The mnemonic of an instruction's row. -/
def Instr.mnemonic : Instr → String
  | .add _ _ _ => "ADD"
  | .sub _ _ _ => "SUB"
  | .sll _ _ _ => "SLL"
  | .slt _ _ _ => "SLT"
  | .sltu _ _ _ => "SLTU"
  | .xor _ _ _ => "XOR"
  | .srl _ _ _ => "SRL"
  | .sra _ _ _ => "SRA"
  | .or _ _ _ => "OR"
  | .and _ _ _ => "AND"
  | .addi _ _ _ => "ADDI"
  | .slti _ _ _ => "SLTI"
  | .sltiu _ _ _ => "SLTIU"
  | .xori _ _ _ => "XORI"
  | .ori _ _ _ => "ORI"
  | .andi _ _ _ => "ANDI"
  | .slli _ _ _ => "SLLI"
  | .srli _ _ _ => "SRLI"
  | .srai _ _ _ => "SRAI"
  | .lb _ _ _ => "LB"
  | .lh _ _ _ => "LH"
  | .lw _ _ _ => "LW"
  | .lbu _ _ _ => "LBU"
  | .lhu _ _ _ => "LHU"
  | .sb _ _ _ => "SB"
  | .sh _ _ _ => "SH"
  | .sw _ _ _ => "SW"
  | .beq _ _ _ => "BEQ"
  | .bne _ _ _ => "BNE"
  | .blt _ _ _ => "BLT"
  | .bge _ _ _ => "BGE"
  | .bltu _ _ _ => "BLTU"
  | .bgeu _ _ _ => "BGEU"
  | .lui _ _ => "LUI"
  | .auipc _ _ => "AUIPC"
  | .jal _ _ => "JAL"
  | .jalr _ _ _ _ => "JALR"
  | .ecall => "ECALL"
  | .ebreak => "EBREAK"
  | .fence _ _ _ => "FENCE"
  | .mul _ _ _ => "MUL"
  | .mulh _ _ _ => "MULH"
  | .mulhsu _ _ _ => "MULHSU"
  | .mulhu _ _ _ => "MULHU"
  | .div _ _ _ => "DIV"
  | .divu _ _ _ => "DIVU"
  | .rem _ _ _ => "REM"
  | .remu _ _ _ => "REMU"
  | .flw _ _ _ => "FLW"
  | .fsw _ _ _ => "FSW"
  | .faddS _ _ _ _ => "FADD.S"
  | .fsubS _ _ _ _ => "FSUB.S"
  | .fmulS _ _ _ _ => "FMUL.S"
  | .fdivS _ _ _ _ => "FDIV.S"
  | .fsqrtS _ _ _ => "FSQRT.S"
  | .fmaddS _ _ _ _ _ _ => "FMADD.S"
  | .fmsubS _ _ _ _ _ _ => "FMSUB.S"
  | .fnmsubS _ _ _ _ _ _ => "FNMSUB.S"
  | .fnmaddS _ _ _ _ _ _ => "FNMADD.S"
  | .fsgnjS _ _ _ => "FSGNJ.S"
  | .fsgnjnS _ _ _ => "FSGNJN.S"
  | .fsgnjxS _ _ _ => "FSGNJX.S"
  | .fminS _ _ _ => "FMIN.S"
  | .fmaxS _ _ _ => "FMAX.S"
  | .feqS _ _ _ => "FEQ.S"
  | .fltS _ _ _ => "FLT.S"
  | .fleS _ _ _ => "FLE.S"
  | .fcvtWS _ _ _ => "FCVT.W.S"
  | .fcvtWuS _ _ _ => "FCVT.WU.S"
  | .fcvtSW _ _ _ => "FCVT.S.W"
  | .fcvtSWu _ _ _ => "FCVT.S.WU"
  | .fmvXW _ _ _ => "FMV.X.W"
  | .fmvWX _ _ _ => "FMV.W.X"
  | .fclassS _ _ _ => "FCLASS.S"
  | .npuMacc _ _ _ => "NPU.MACC"
  | .npuVmac _ _ _ => "NPU.VMAC"
  | .npuVexp _ _ _ => "NPU.VEXP"
  | .npuVrsqrt _ _ _ => "NPU.VRSQRT"
  | .npuVmul _ _ _ => "NPU.VMUL"
  | .npuVreduce _ _ _ => "NPU.VREDUCE"
  | .npuVmax _ _ _ => "NPU.VMAX"
  | .npuRelu _ _ _ => "NPU.RELU"
  | .npuQmul _ _ _ => "NPU.QMUL"
  | .npuClamp _ _ _ => "NPU.CLAMP"
  | .npuGelu _ _ _ => "NPU.GELU"
  | .npuRstacc _ _ _ => "NPU.RSTACC"
  | .npuLdvec _ _ _ => "NPU.LDVEC"
  | .npuStvec _ _ _ => "NPU.STVEC"

/-- One row of the opcode table: a word `w` is the row's instruction when `w &&& mask = pattern`. -/
structure OpcodeRow where
  mnemonic : String
  pattern : Word
  mask : Word
  deriving DecidableEq, Repr

/-- Rows 1 to 22 of the table. -/
def opcodeRows1 : List OpcodeRow := [
  ⟨"ADD", 0x00000033#32, 0xFE00707F#32⟩,
  ⟨"SUB", 0x40000033#32, 0xFE00707F#32⟩,
  ⟨"SLL", 0x00001033#32, 0xFE00707F#32⟩,
  ⟨"SLT", 0x00002033#32, 0xFE00707F#32⟩,
  ⟨"SLTU", 0x00003033#32, 0xFE00707F#32⟩,
  ⟨"XOR", 0x00004033#32, 0xFE00707F#32⟩,
  ⟨"SRL", 0x00005033#32, 0xFE00707F#32⟩,
  ⟨"SRA", 0x40005033#32, 0xFE00707F#32⟩,
  ⟨"OR", 0x00006033#32, 0xFE00707F#32⟩,
  ⟨"AND", 0x00007033#32, 0xFE00707F#32⟩,
  ⟨"ADDI", 0x00000013#32, 0x0000707F#32⟩,
  ⟨"SLTI", 0x00002013#32, 0x0000707F#32⟩,
  ⟨"SLTIU", 0x00003013#32, 0x0000707F#32⟩,
  ⟨"XORI", 0x00004013#32, 0x0000707F#32⟩,
  ⟨"ORI", 0x00006013#32, 0x0000707F#32⟩,
  ⟨"ANDI", 0x00007013#32, 0x0000707F#32⟩,
  ⟨"SLLI", 0x00001013#32, 0xFE00707F#32⟩,
  ⟨"SRLI", 0x00005013#32, 0xFE00707F#32⟩,
  ⟨"SRAI", 0x40005013#32, 0xFE00707F#32⟩,
  ⟨"LB", 0x00000003#32, 0x0000707F#32⟩,
  ⟨"LH", 0x00001003#32, 0x0000707F#32⟩,
  ⟨"LW", 0x00002003#32, 0x0000707F#32⟩]

/-- Rows 23 to 44 of the table. -/
def opcodeRows2 : List OpcodeRow := [
  ⟨"LBU", 0x00004003#32, 0x0000707F#32⟩,
  ⟨"LHU", 0x00005003#32, 0x0000707F#32⟩,
  ⟨"SB", 0x00000023#32, 0x0000707F#32⟩,
  ⟨"SH", 0x00001023#32, 0x0000707F#32⟩,
  ⟨"SW", 0x00002023#32, 0x0000707F#32⟩,
  ⟨"BEQ", 0x00000063#32, 0x0000707F#32⟩,
  ⟨"BNE", 0x00001063#32, 0x0000707F#32⟩,
  ⟨"BLT", 0x00004063#32, 0x0000707F#32⟩,
  ⟨"BGE", 0x00005063#32, 0x0000707F#32⟩,
  ⟨"BLTU", 0x00006063#32, 0x0000707F#32⟩,
  ⟨"BGEU", 0x00007063#32, 0x0000707F#32⟩,
  ⟨"LUI", 0x00000037#32, 0x0000007F#32⟩,
  ⟨"AUIPC", 0x00000017#32, 0x0000007F#32⟩,
  ⟨"JAL", 0x0000006F#32, 0x0000007F#32⟩,
  ⟨"JALR", 0x00000067#32, 0x0000007F#32⟩,
  ⟨"ECALL", 0x00000073#32, 0xFFFFFFFF#32⟩,
  ⟨"EBREAK", 0x00100073#32, 0xFFFFFFFF#32⟩,
  ⟨"FENCE", 0x0000000F#32, 0x0000707F#32⟩,
  ⟨"MUL", 0x02000033#32, 0xFE00707F#32⟩,
  ⟨"MULH", 0x02001033#32, 0xFE00707F#32⟩,
  ⟨"MULHSU", 0x02002033#32, 0xFE00707F#32⟩,
  ⟨"MULHU", 0x02003033#32, 0xFE00707F#32⟩]

/-- Rows 45 to 66 of the table. -/
def opcodeRows3 : List OpcodeRow := [
  ⟨"DIV", 0x02004033#32, 0xFE00707F#32⟩,
  ⟨"DIVU", 0x02005033#32, 0xFE00707F#32⟩,
  ⟨"REM", 0x02006033#32, 0xFE00707F#32⟩,
  ⟨"REMU", 0x02007033#32, 0xFE00707F#32⟩,
  ⟨"FLW", 0x00002007#32, 0x0000707F#32⟩,
  ⟨"FSW", 0x00002027#32, 0x0000707F#32⟩,
  ⟨"FADD.S", 0x00000053#32, 0xFE00007F#32⟩,
  ⟨"FSUB.S", 0x08000053#32, 0xFE00007F#32⟩,
  ⟨"FMUL.S", 0x10000053#32, 0xFE00007F#32⟩,
  ⟨"FDIV.S", 0x18000053#32, 0xFE00007F#32⟩,
  ⟨"FSQRT.S", 0x58000053#32, 0xFFF0007F#32⟩,
  ⟨"FMADD.S", 0x00000043#32, 0x0000007F#32⟩,
  ⟨"FMSUB.S", 0x00000047#32, 0x0000007F#32⟩,
  ⟨"FNMSUB.S", 0x0000004B#32, 0x0000007F#32⟩,
  ⟨"FNMADD.S", 0x0000004F#32, 0x0000007F#32⟩,
  ⟨"FSGNJ.S", 0x20000053#32, 0xFE00707F#32⟩,
  ⟨"FSGNJN.S", 0x20001053#32, 0xFE00707F#32⟩,
  ⟨"FSGNJX.S", 0x20002053#32, 0xFE00707F#32⟩,
  ⟨"FMIN.S", 0x28000053#32, 0xFE00707F#32⟩,
  ⟨"FMAX.S", 0x28001053#32, 0xFE00707F#32⟩,
  ⟨"FEQ.S", 0xA0002053#32, 0xFE00707F#32⟩,
  ⟨"FLT.S", 0xA0001053#32, 0xFE00707F#32⟩]

/-- Rows 67 to 88 of the table. -/
def opcodeRows4 : List OpcodeRow := [
  ⟨"FLE.S", 0xA0000053#32, 0xFE00707F#32⟩,
  ⟨"FCVT.W.S", 0xC0000053#32, 0xFFF0007F#32⟩,
  ⟨"FCVT.WU.S", 0xC0100053#32, 0xFFF0007F#32⟩,
  ⟨"FCVT.S.W", 0xD0000053#32, 0xFFF0007F#32⟩,
  ⟨"FCVT.S.WU", 0xD0100053#32, 0xFFF0007F#32⟩,
  ⟨"FMV.X.W", 0xE0000053#32, 0xFE00707F#32⟩,
  ⟨"FMV.W.X", 0xF0000053#32, 0xFE00707F#32⟩,
  ⟨"FCLASS.S", 0xE0001053#32, 0xFE00707F#32⟩,
  ⟨"NPU.MACC", 0x0000000B#32, 0xFE00707F#32⟩,
  ⟨"NPU.VMAC", 0x0200000B#32, 0xFE00707F#32⟩,
  ⟨"NPU.VEXP", 0x0400000B#32, 0xFE00707F#32⟩,
  ⟨"NPU.VRSQRT", 0x0600000B#32, 0xFE00707F#32⟩,
  ⟨"NPU.VMUL", 0x0800000B#32, 0xFE00707F#32⟩,
  ⟨"NPU.VREDUCE", 0x0A00000B#32, 0xFE00707F#32⟩,
  ⟨"NPU.VMAX", 0x0C00000B#32, 0xFE00707F#32⟩,
  ⟨"NPU.RELU", 0x0000100B#32, 0xFE00707F#32⟩,
  ⟨"NPU.QMUL", 0x0000200B#32, 0xFE00707F#32⟩,
  ⟨"NPU.CLAMP", 0x0000300B#32, 0xFE00707F#32⟩,
  ⟨"NPU.GELU", 0x0000400B#32, 0xFE00707F#32⟩,
  ⟨"NPU.RSTACC", 0x0000500B#32, 0xFE00707F#32⟩,
  ⟨"NPU.LDVEC", 0x0000600B#32, 0x0000707F#32⟩,
  ⟨"NPU.STVEC", 0x0000700B#32, 0x0000707F#32⟩]

/-- All 88 rows, in the table's order. -/
def opcodeTable : List OpcodeRow := opcodeRows1 ++ opcodeRows2 ++ opcodeRows3 ++ opcodeRows4

/-- The row's test of a word (R144). -/
def OpcodeRow.holds (r : OpcodeRow) (w : Word) : Bool := w &&& r.mask == r.pattern

end Sys2Proof
end

