-- ==== Sys2Proof/Machine/Ops.lean ====
section
/-!
DEFINITION. The named operations over registers, memory and exceptions: 00_scope.md R13, 10_state.md, 20_memory.md and
60_exceptions.md. Every read and write of state goes through these.
-/

namespace Sys2Proof.Machine

/-! ## Registers -/

/-- `x[i]`: "x[0] reads as 0x00000000 always" (10_state.md R31). -/
def State.readX (s : State) (r : Reg) : Word :=
  if r = 0#5 then 0#32 else s.x[r.toNat]'r.isLt

/-- `x[i] <- v`: "x[0] <- v changes nothing" (R31). The one place where writes to x0 are discarded. -/
def State.writeX (s : State) (r : Reg) (v : Word) : State :=
  if r = 0#5 then s else { s with x := s.x.set r.toNat v r.isLt }

/-- `f[i]` (R40). None is hardwired: f0 is an ordinary register. -/
def State.readF (s : State) (r : Reg) : Word := s.f[r.toNat]'r.isLt

/-- `f[i] <- v` (R40). -/
def State.writeF (s : State) (r : Reg) (v : Word) : State :=
  { s with f := s.f.set r.toNat v r.isLt }

/-- The vector register a field names: the field number modulo 4 (47_npu.md R337, R338; 90_conflicts.md C6). -/
def vregIndex (r : Reg) : BitVec 2 := r.extractLsb' 0 2

/-- `vreg[k]` (R47). -/
def State.readV (s : State) (k : BitVec 2) : Word := s.vreg[k.toNat]'k.isLt

/-- `vreg[k] <- v` (R47). -/
def State.writeV (s : State) (k : BitVec 2) (v : Word) : State :=
  { s with vreg := s.vreg.set k.toNat v k.isLt }

/-- `acc`: the 64-bit pattern of the two halves, `acc_hi` above `acc_lo` (R46). -/
def State.acc (s : State) : BitVec 64 := s.accHi ++ s.accLo

/-- `acc <- v`: `acc_lo <- v[31:0]`, `acc_hi <- v[63:32]` (R46). -/
def State.writeAcc (s : State) (v : BitVec 64) : State :=
  { s with accLo := v.extractLsb' 0 32, accHi := v.extractLsb' 32 32 }

/-- `pc <- t` (R35). -/
def State.setPc (s : State) (t : Word) : State := { s with pc := t }

/-- An instruction that does not write `pc`: the next one is at `pc + 4`, modulo 2^32 (R36, R37). -/
def State.advance (s : State) : State := s.setPc (s.pc + 4#32)

/-! ## Memory -/

/-- What an unlisted address reads as (10_state.md R52). DESIGN CHOICE, unsafe (log 7). -/
def Memory.unlisted (a : Nat) : Byte := Config.launchByte a

/-- The byte at an address. -/
def Memory.get : Memory → Nat → Byte
  | [], a => Memory.unlisted a
  | c :: m, a => if c.1 = a then c.2 else Memory.get m a

/-- Insert a cell before the first cell of a higher address. -/
def Memory.insert : Memory → Nat → Byte → Memory
  | [], a, v => [(a, v)]
  | c :: m, a, v => if a < c.1 then (a, v) :: c :: m else c :: Memory.insert m a v

/-- The memory without any cell of the address. -/
def Memory.erase (m : Memory) (a : Nat) : Memory := m.filter (fun c => c.1 != a)

/-- Write one byte, keeping the canonical form: the value an unlisted address reads as is not listed. -/
def Memory.put (m : Memory) (a : Nat) (v : Byte) : Memory :=
  if v = Memory.unlisted a then m.erase a else (m.erase a).insert a v

/-- The canonical form: addresses strictly rising and below 2^32 (20_memory.md R70), and no cell equal to what an unlisted
address reads as (log 24). -/
def Memory.wf : Memory → Bool
  | [] => true
  | c :: m => decide (c.1 < 2 ^ 32) && (c.2 != Memory.unlisted c.1) && m.all (fun d => decide (c.1 < d.1)) && Memory.wf m

/-- `MEM_VALID(a)` of a memory map: some region holds the address (20_memory.md R71). -/
def validIn (map : List Region) (a : Nat) : Bool :=
  map.any fun r => decide (r.base ≤ a) && decide (a < r.base + r.size)

/-- `MEM_VALID(a)` (R71). -/
def State.valid (s : State) (a : Word) : Bool := validIn s.memMap a.toNat

/-- "An access is admitted only when every byte it touches is valid" (R71): the bytes `a .. a+n-1`, modulo 2^32 (R70). -/
def State.accessible (s : State) (a : Word) : Nat → Bool
  | 0 => true
  | n + 1 => s.accessible a n && s.valid (a + BitVec.ofNat 32 n)

/-- `mem[a]`. -/
def State.byteAt (s : State) (a : Word) : Byte := s.mem.get a.toNat

/-- `MemRead(a, 2)` of an admitted access: the lowest address is least significant (R72, R74). -/
def State.halfAt (s : State) (a : Word) : BitVec 16 := s.byteAt (a + 1#32) ++ s.byteAt a

/-- `MemRead(a, 4)` of an admitted access (R72, R74). -/
def State.wordAt (s : State) (a : Word) : Word :=
  wordOfBytes (s.byteAt a) (s.byteAt (a + 1#32)) (s.byteAt (a + 2#32)) (s.byteAt (a + 3#32))

/-- `mem[a] <- v`: the one operation that writes memory. -/
def State.putByte (s : State) (a : Word) (v : Byte) : State := { s with mem := s.mem.put a.toNat v }

/-- `MemWrite(a, 2, v)` of an admitted access: `mem[a+i] <- v[8i+7 : 8i]` (R73). -/
def State.putHalf (s : State) (a : Word) (v : BitVec 16) : State :=
  (s.putByte a (v.extractLsb' 0 8)).putByte (a + 1#32) (v.extractLsb' 8 8)

/-- `MemWrite(a, 4, v)` of an admitted access (R73). -/
def State.putWord (s : State) (a : Word) (v : Word) : State :=
  (((s.putByte a (byteOfWord v 0)).putByte (a + 1#32) (byteOfWord v 1)).putByte (a + 2#32) (byteOfWord v 2)).putByte
    (a + 3#32) (byteOfWord v 3)

/-! ## Exceptions -/

/-- The outcome of a step of this machine. -/
abbrev Result := Host.Outcome State Fault Refusal

/-- What `ecall_handler` answers for the machine state at an ECALL: the state to resume from, or none to stop
(60_exceptions.md R374; log 8). -/
def EcallHandler.answer (h : EcallHandler) (a : Arch) : Option Arch :=
  match h with
  | .stop => none
  | .resume => some { a with pc := a.pc + 4#32 }
  | .table rows => rows.lookup a
  | .host => Config.ecallHandler a

/-- The host goes on after an ECALL: the hart continues from the machine state the handler returned, its `pc` included
(60_exceptions.md R366, R374; log 21). The memory map and the handler are no part of that state. -/
def State.resumeFrom (s : State) (a : Arch) : State := { s with toArch := a }

/-- Delivery of an exception to the host, 60_exceptions.md R362: `EnvironmentCall` goes to `ecall_handler`, which from
the machine state at the ECALL returns a new one or stops (R374; log 8); the other six stop the run. There is no trap
entry inside the machine: no vector, no saved pc, no status change. The step has changed nothing and `pc` is at the
instruction (R363): the state delivered is `s`. -/
def deliver (e : Fault) (s : State) : Result :=
  match e with
  | .environmentCall =>
    match s.ecallHandler.answer s.toArch with
    | none => .fault .environmentCall
    | some a => .next (s.resumeFrom a)
  | e => .fault e

/-- The outcome of a computation that either completes or raises an exception. -/
def finish (s : State) : Except Fault State → Result
  | .ok t => .next t
  | .error e => deliver e s

/-! ## Guarded accesses and the fetch -/

/-- A read of `n` bytes at `a` by a load-like instruction: `LoadAccessFault(a)` when a byte is invalid (R71, R72). -/
def guardLoad (s : State) (a : Word) (n : Nat) : Except Fault Unit :=
  if s.accessible a n then .ok () else .error (.loadAccessFault a)

/-- A write of `n` bytes at `a`: `StoreAccessFault(a)` when a byte is invalid (R71, R73). -/
def guardStore (s : State) (a : Word) (n : Nat) : Except Fault Unit :=
  if s.accessible a n then .ok () else .error (.storeAccessFault a)

/-- The fetch, 00_scope.md R15: the address check (20_memory.md R80), then `MemRead(pc, 4)` with its fault renamed (R81);
in this order (60_exceptions.md R364). It reads the memory that stores write (R90; logs 18 and 19). -/
def fetch (s : State) : Except Fault Word :=
  if s.pc.extractLsb' 0 2 ≠ 0#2 then .error (.instructionAddressMisaligned s.pc)
  else if s.accessible s.pc 4 then .ok (s.wordAt s.pc)
  else .error (.instructionAccessFault s.pc)

end Sys2Proof.Machine
end

