-- ==== Sys2Proof/Machine/Operands.lean ====
section
/-!
DEFINITION. Operand forms and the ways an instruction completes: the effective address, the element addresses and counts
of the NPU's array instructions, the shift amount, the truth value of a comparison, the ascending loop of the array
instructions, and the completions that write one destination and advance the pc.
-/

namespace Sys2Proof.Machine

/-- `ea = x[rs1] + imm`, wrapping: the one addressing mode of the machine (41_rv32i_loadstore.md R190). -/
def effAddr (s : State) (rs1 : Reg) (imm : Word) : Word := s.readX rs1 + imm

/-- The shift amount of a register shift: the low five bits, "bits 31:5 are ignored" (40_rv32i_alu.md R163). -/
def shiftAmount (v : Word) : Nat := (v.extractLsb' 0 5).toNat

/-- `cond ? 1 : 0` (00_scope.md R16). -/
def boolWord (b : Bool) : Word := if b then 1#32 else 0#32

/-- The element count held in a register: "the full 32-bit register read as unsigned" (47_npu.md R321; log 17). -/
def elemCount (s : State) (r : Reg) : Nat := (s.readX r).toNat

/-- The address of element `i` of an array of `size`-byte elements at `base`, wrapping (R321). -/
def elemAddr (base : Word) (size i : Nat) : Word := base + BitVec.ofNat 32 (size * i)

/-- `for i = 0 .. n-1` in ascending order, stopping at the first fault (R322, R323). -/
def ascending {β : Type} (body : Nat → β → Except Fault β) (init : β) : Nat → Except Fault β
  | 0 => .ok init
  | n + 1 =>
    match ascending body init n with
    | .ok b => body n b
    | .error e => .error e

/-- `clamp(v, lo, hi)` (R339). -/
def clamp (v lo hi : Int) : Int := if v < lo then lo else if hi < v then hi else v

/-! ## Completions: the destination is written and the next pc is `pc + 4` (10_state.md R36) -/

/-- `x[rd] <- v`. -/
def completeX (s : State) (rd : Reg) (v : Word) : Result := .next (s.writeX rd v).advance

/-- `f[rd] <- v`, no flag. -/
def completeF (s : State) (rd : Reg) (v : Word) : Result := .next (s.writeF rd v).advance

/-- `f[rd] <- r.1` with the flags `r.2` signalled (10_state.md R43). -/
def completeFFlags (s : State) (rd : Reg) (r : Word × FFlags) : Result :=
  .next ((s.writeF rd r.1).raiseFlags r.2).advance

/-- `x[rd] <- v` with flags signalled; "discarded when rd = 0; the flags are still set" (46_f_misc.md R305). -/
def completeXFlags (s : State) (rd : Reg) (v : Word) (flags : FFlags) : Result :=
  .next ((s.writeX rd v).raiseFlags flags).advance

/-- A guarded access followed by a completion: the exception is delivered when the guard fails, and then nothing is
written (60_exceptions.md R363). -/
def guarded (s : State) (g : Except Fault Unit) (k : Result) : Result :=
  match g with
  | .ok () => k
  | .error e => deliver e s

/-- A load of `n` bytes at `x[rs1] + imm` into `x[rd]`: the read is made, and can fault, also when `rd = 0` (41_rv32i_loadstore.md R199). -/
def loadX (s : State) (n : Nat) (rd rs1 : Reg) (imm : Word) (value : Word → Word) : Result :=
  let ea := effAddr s rs1 imm
  guarded s (guardLoad s ea n) (completeX s rd (value ea))

/-- A store of `n` bytes at `x[rs1] + imm`, `write` being the write of an admitted access (R199). -/
def storeAt (s : State) (n : Nat) (rs1 : Reg) (imm : Word) (write : Word → State) : Result :=
  let ea := effAddr s rs1 imm
  guarded s (guardStore s ea n) (.next (write ea).advance)

end Sys2Proof.Machine
end

