-- ==== Sys2Proof/Machine/Alu.lean ====
section
/-!
DEFINITION. The 19 integer computational instructions, 40_rv32i_alu.md R160 to R180: a 32-bit result into `x[rd]`, no flag,
no memory, no exception, next pc `pc + 4` (R160). Sources are read before the destination is written.
-/

namespace Sys2Proof.Machine

/-- ADD, R161. -/
def execAdd (rd rs1 rs2 : Reg) (s : State) : Result := completeX s rd (s.readX rs1 + s.readX rs2)

/-- SUB, R162. -/
def execSub (rd rs1 rs2 : Reg) (s : State) : Result := completeX s rd (s.readX rs1 - s.readX rs2)

/-- SLL, R163. -/
def execSll (rd rs1 rs2 : Reg) (s : State) : Result :=
  completeX s rd (s.readX rs1 <<< shiftAmount (s.readX rs2))

/-- SLT, R164. -/
def execSlt (rd rs1 rs2 : Reg) (s : State) : Result :=
  completeX s rd (boolWord (decide ((s.readX rs1).toInt < (s.readX rs2).toInt)))

/-- SLTU, R165. -/
def execSltu (rd rs1 rs2 : Reg) (s : State) : Result :=
  completeX s rd (boolWord (decide ((s.readX rs1).toNat < (s.readX rs2).toNat)))

/-- XOR, R166. -/
def execXor (rd rs1 rs2 : Reg) (s : State) : Result := completeX s rd (s.readX rs1 ^^^ s.readX rs2)

/-- SRL, R167: zeros enter at bit 31. -/
def execSrl (rd rs1 rs2 : Reg) (s : State) : Result :=
  completeX s rd (s.readX rs1 >>> shiftAmount (s.readX rs2))

/-- SRA, R168: copies of bit 31 enter at the top. -/
def execSra (rd rs1 rs2 : Reg) (s : State) : Result :=
  completeX s rd ((s.readX rs1).sshiftRight (shiftAmount (s.readX rs2)))

/-- OR, R169. -/
def execOr (rd rs1 rs2 : Reg) (s : State) : Result := completeX s rd (s.readX rs1 ||| s.readX rs2)

/-- AND, R170. -/
def execAnd (rd rs1 rs2 : Reg) (s : State) : Result := completeX s rd (s.readX rs1 &&& s.readX rs2)

/-- ADDI, R171. -/
def execAddi (rd rs1 : Reg) (imm : Word) (s : State) : Result := completeX s rd (s.readX rs1 + imm)

/-- SLTI, R172. -/
def execSlti (rd rs1 : Reg) (imm : Word) (s : State) : Result :=
  completeX s rd (boolWord (decide ((s.readX rs1).toInt < imm.toInt)))

/-- SLTIU, R173: the immediate is sign-extended first and then read as unsigned. -/
def execSltiu (rd rs1 : Reg) (imm : Word) (s : State) : Result :=
  completeX s rd (boolWord (decide ((s.readX rs1).toNat < imm.toNat)))

/-- XORI, R174. -/
def execXori (rd rs1 : Reg) (imm : Word) (s : State) : Result := completeX s rd (s.readX rs1 ^^^ imm)

/-- ORI, R175. -/
def execOri (rd rs1 : Reg) (imm : Word) (s : State) : Result := completeX s rd (s.readX rs1 ||| imm)

/-- ANDI, R176. -/
def execAndi (rd rs1 : Reg) (imm : Word) (s : State) : Result := completeX s rd (s.readX rs1 &&& imm)

/-- SLLI, R177. -/
def execSlli (rd rs1 shamt : Reg) (s : State) : Result := completeX s rd (s.readX rs1 <<< shamt.toNat)

/-- SRLI, R178. -/
def execSrli (rd rs1 shamt : Reg) (s : State) : Result := completeX s rd (s.readX rs1 >>> shamt.toNat)

/-- SRAI, R179. -/
def execSrai (rd rs1 shamt : Reg) (s : State) : Result := completeX s rd ((s.readX rs1).sshiftRight shamt.toNat)

end Sys2Proof.Machine
end

