-- ==== Sys2Proof/Machine/Control.lean ====
section
/-!
DEFINITION. Branches, upper immediates and jumps, 42_rv32i_control.md R210 to R223. No control transfer raises an exception:
a target that is not a multiple of 4 faults at the next fetch (R221). There is no delay slot (R222).
-/

namespace Sys2Proof.Machine

/-- `if cond then pc <- pc + imm`, relative to the branch itself (R210); no register, flag or memory is written. -/
def branchIf (s : State) (cond : Bool) (imm : Word) : Result :=
  .next (if cond then s.setPc (s.pc + imm) else s.advance)

/-- BEQ, R211. -/
def execBeq (rs1 rs2 : Reg) (imm : Word) (s : State) : Result :=
  branchIf s (decide (s.readX rs1 = s.readX rs2)) imm

/-- BNE, R212. -/
def execBne (rs1 rs2 : Reg) (imm : Word) (s : State) : Result :=
  branchIf s (decide (s.readX rs1 ≠ s.readX rs2)) imm

/-- BLT, R213. -/
def execBlt (rs1 rs2 : Reg) (imm : Word) (s : State) : Result :=
  branchIf s (decide ((s.readX rs1).toInt < (s.readX rs2).toInt)) imm

/-- BGE, R214. -/
def execBge (rs1 rs2 : Reg) (imm : Word) (s : State) : Result :=
  branchIf s (decide ((s.readX rs2).toInt ≤ (s.readX rs1).toInt)) imm

/-- BLTU, R215. -/
def execBltu (rs1 rs2 : Reg) (imm : Word) (s : State) : Result :=
  branchIf s (decide ((s.readX rs1).toNat < (s.readX rs2).toNat)) imm

/-- BGEU, R216. -/
def execBgeu (rs1 rs2 : Reg) (imm : Word) (s : State) : Result :=
  branchIf s (decide ((s.readX rs2).toNat ≤ (s.readX rs1).toNat)) imm

/-- LUI, R217: the U-type immediate, shifted once (90_conflicts.md C4). -/
def execLui (rd : Reg) (imm : Word) (s : State) : Result := completeX s rd imm

/-- AUIPC, R218: `pc` is the address of the AUIPC itself. -/
def execAuipc (rd : Reg) (imm : Word) (s : State) : Result := completeX s rd (s.pc + imm)

/-- A jump: `x[rd] <- pc + 4; pc <- t`, both with `pc` the address of the jump (R219, R220). -/
def linkAndJump (s : State) (rd : Reg) (t : Word) : Result := .next ((s.writeX rd (s.pc + 4#32)).setPc t)

/-- JAL, R219. -/
def execJal (rd : Reg) (imm : Word) (s : State) : Result := linkAndJump s rd (s.pc + imm)

/-- JALR, R220: the target is computed from the old `x[rs1]`, and bit 0 of the sum is cleared. `funct3` is ignored
(30_encoding.md R136; log 14). -/
def execJalr (rd rs1 : Reg) (imm : Word) (_funct3 : BitVec 3) (s : State) : Result :=
  linkAndJump s rd ((s.readX rs1 + imm) &&& 0xFFFFFFFE#32)

end Sys2Proof.Machine
end

