-- ==== Sys2Proof/Machine/Float.lean ====
section
/-!
DEFINITION. Binary32 arithmetic as 45_f_arith.md and 46_f_misc.md give it: the number format (R260), the NaN predicates
(R261), the one rounding function (R262) and the operations written over it. Each operation is a function from patterns to
a pattern and the set of flags it signals. Exact results are integers, ratios and square roots of natural numbers, so
nothing is rounded before `round`.

UNVERIFIED: what R260 to R306 themselves mark as general knowledge (IEEE 754 and RISC-V) is followed as they write it
(log 25).
-/

namespace Sys2Proof.Machine

/-! ## The format, R260 and R261 -/

/-- `s = p[31]`. -/
def fpSign (p : Word) : Bool := p.getLsbD 31

/-- `e = p[30:23]`, bias 127. -/
def fpExp (p : Word) : Nat := (p.extractLsb' 23 8).toNat

/-- `m = p[22:0]`. -/
def fpFrac (p : Word) : Nat := (p.extractLsb' 0 23).toNat

/-- `e = 255` and `m != 0` (R261). -/
def isNaN (p : Word) : Bool := fpExp p == 255 && fpFrac p != 0

/-- A NaN with `m[22] = 0` (R261). -/
def isSNaN (p : Word) : Bool := isNaN p && !p.getLsbD 22

/-- A NaN with `m[22] = 1` (R261). -/
def isQNaN (p : Word) : Bool := isNaN p && p.getLsbD 22

/-- `e = 255` and `m = 0` (R260). -/
def isInf (p : Word) : Bool := fpExp p == 255 && fpFrac p == 0

/-- `p[30:0] = 0` (R261). -/
def isZero (p : Word) : Bool := fpExp p == 0 && fpFrac p == 0

/-- The canonical NaN (R261). -/
def canonicalNaN : Word := 0x7FC00000#32

/-- The infinity of a sign (R260). -/
def fpInf (sg : Bool) : Word := if sg then 0xFF800000#32 else 0x7F800000#32

/-- The zero of a sign (R260). -/
def fpZero (sg : Bool) : Word := if sg then 0x80000000#32 else 0x00000000#32

/-- `neg(p) = p ^ 0x80000000` (R268, R272). -/
def fpNeg (p : Word) : Word := p ^^^ 0x80000000#32

/-- The magnitude of a finite pattern's value in units of `2^-149` (R260): `m` for a subnormal,
`(2^23 + m) * 2^(e - 1)` for a normal. Every finite value is a whole number of these units. -/
def fpUnits (p : Word) : Nat :=
  if fpExp p = 0 then fpFrac p else (2 ^ 23 + fpFrac p) * 2 ^ (fpExp p - 1)

/-- `val(p)` of a finite pattern, in units of `2^-149` (R260). -/
def fpInt (p : Word) : Int := if fpSign p then -(fpUnits p : Int) else (fpUnits p : Int)

/-! ## Rounding, R262 -/

/-- A positive real number, held exactly: `n / d`, or the square root of `n / d`. -/
inductive Magnitude where
  | ratio (n d : Nat)
  | root (n d : Nat)
  deriving DecidableEq, Repr

/-- The bits of the integer square root below bit `b`, from the highest down. -/
def isqrtFrom (n : Nat) : Nat → Nat → Nat
  | 0, r => r
  | b + 1, r => isqrtFrom n b (if (r + 2 ^ b) * (r + 2 ^ b) ≤ n then r + 2 ^ b else r)

/-- The integer square root: the greatest `r` with `r * r ≤ n`. -/
def isqrt (n : Nat) : Nat := isqrtFrom n (Nat.log2 n / 2 + 1) 0

/-- `n * 2^k` when `k` is positive. -/
def scaleNum (n : Nat) (k : Int) : Nat := n * 2 ^ k.toNat

/-- `d * 2^(-k)` when `k` is negative: `n / d * 2^k = scaleNum n k / scaleDen d k`. -/
def scaleDen (d : Nat) (k : Int) : Nat := d * 2 ^ (-k).toNat

/-- The greatest integer not above `x * 2^k`. -/
def Magnitude.floorAt (x : Magnitude) (k : Int) : Nat :=
  match x with
  | .ratio n d => scaleNum n k / scaleDen d k
  | .root n d => isqrt (scaleNum n (2 * k) / scaleDen d (2 * k))

/-- Whether `x * 2^k` is an integer. -/
def Magnitude.exactAt (x : Magnitude) (k : Int) : Bool :=
  match x with
  | .ratio n d => scaleNum n k % scaleDen d k == 0
  | .root n d =>
    let q := scaleNum n (2 * k) / scaleDen d (2 * k)
    scaleNum n (2 * k) % scaleDen d (2 * k) == 0 && isqrt q * isqrt q == q

/-- The `e` with `2^e ≤ n / d < 2^(e+1)`. -/
def ratioLog2 (n d : Nat) : Int :=
  let c : Int := (Nat.log2 n : Int) - (Nat.log2 d : Int)
  if scaleDen d (-c) ≤ scaleNum n (-c) then c else c - 1

/-- The `e` with `2^e ≤ x < 2^(e+1)`. -/
def Magnitude.log2 : Magnitude → Int
  | .ratio n d => ratioLog2 n d
  | .root n d => ratioLog2 n d / 2

/-- `x` rounded to a multiple of `2^-k` in the given direction: the multiple and whether it is `x` itself. For the nearest
with ties to the even multiple, `x * 2^(k+1)` tells the half bit and whether anything lies below it. -/
def Magnitude.roundAt (dir : RoundDirection) (x : Magnitude) (k : Int) : Nat × Bool :=
  match dir with
  | .nearestEven =>
    let twice := x.floorAt (k + 1)
    let half := twice % 2 == 1
    let rest := !x.exactAt (k + 1)
    let q := twice / 2
    (if half && (rest || q % 2 == 1) then q + 1 else q, !half && !rest)

/-- The pattern with magnitude bits `m` and a sign. -/
def pack (sg : Bool) (m : Nat) : Word := BitVec.ofNat 32 (m + (if sg then 2 ^ 31 else 0))

/-- `round(r)` for `r` of sign `sg` and magnitude `x > 0`, and the flags it signals (R262). With `e` the exponent of `x`,
`u * 2^(e-23)` is `x` rounded to 24 significant bits with no limit on the exponent: it is at least `2^128` when `e` is at
least 128 or the rounding carried out of `e = 127`, and below `2^-126` when `e` is below -127 or is -127 with no carry. A
tiny result is rounded again, to a multiple of `2^-149`; "tiny (judged after rounding)". -/
def roundWith (dir : RoundDirection) (sg : Bool) (x : Magnitude) : Word × FFlags :=
  let e := x.log2
  let u := x.roundAt dir (23 - e)
  if 128 ≤ e ∨ (e = 127 ∧ u.1 = 2 ^ 24) then (fpInf sg, FFlags.overflow)
  else if e < -127 ∨ (e = -127 ∧ u.1 < 2 ^ 24) then
    let v := x.roundAt dir 149
    (pack sg v.1, FFlags.when (!v.2) FFlags.underflow)
  else (pack sg ((e + 126) * 2 ^ 23 + u.1).toNat, FFlags.when (!u.2) FFlags.inexact)

/-- `round` in the machine's direction `FP_ROUND` (R262, decision D17; log 11). -/
def round (sg : Bool) (x : Magnitude) : Word × FFlags := roundWith Config.fpRound sg x

/-- `round(r)` of the non-zero rational `r = n / d`. -/
def roundRatio (n : Int) (d : Nat) : Word × FFlags := round (decide (n < 0)) (.ratio n.natAbs d)

/-! ## Arithmetic, R267 to R272 -/

/-- NV when an operand is a signaling NaN, with the canonical NaN: the NaN case of every arithmetic rule (R264). -/
def nanResult (signaling : Bool) : Word × FFlags := (canonicalNaN, FFlags.when signaling FFlags.invalid)

/-- An invalid operation: NV and the canonical NaN (R263). -/
def invalidResult : Word × FFlags := (canonicalNaN, FFlags.invalid)

/-- `fp_add(a, b)`, R267. -/
def fpAdd (a b : Word) : Word × FFlags :=
  if isNaN a || isNaN b then nanResult (isSNaN a || isSNaN b)
  else if isInf a && isInf b then if fpSign a != fpSign b then invalidResult else (a, FFlags.none)
  else if isInf a then (a, FFlags.none)
  else if isInf b then (b, FFlags.none)
  else
    let r := fpInt a + fpInt b
    if r = 0 then
      if isZero a && isZero b && fpSign a == fpSign b then (a, FFlags.none) else (0x00000000#32, FFlags.none)
    else roundRatio r (2 ^ 149)

/-- FSUB.S's function, `fp_add(a, neg(b))`, R268. -/
def fpSub (a b : Word) : Word × FFlags := fpAdd a (fpNeg b)

/-- FMUL.S's function, R269. -/
def fpMul (a b : Word) : Word × FFlags :=
  if isNaN a || isNaN b then nanResult (isSNaN a || isSNaN b)
  else
    let sg := fpSign a != fpSign b
    if (isInf a && isZero b) || (isZero a && isInf b) then invalidResult
    else if isInf a || isInf b then (fpInf sg, FFlags.none)
    else if isZero a || isZero b then (fpZero sg, FFlags.none)
    else roundRatio (fpInt a * fpInt b) (2 ^ 298)

/-- FDIV.S's function, R270. -/
def fpDiv (a b : Word) : Word × FFlags :=
  if isNaN a || isNaN b then nanResult (isSNaN a || isSNaN b)
  else
    let sg := fpSign a != fpSign b
    if (isZero a && isZero b) || (isInf a && isInf b) then invalidResult
    else if isInf a then (fpInf sg, FFlags.none)
    else if isInf b then (fpZero sg, FFlags.none)
    else if isZero b then (fpInf sg, FFlags.divByZero)
    else if isZero a then (fpZero sg, FFlags.none)
    else round sg (.ratio (fpUnits a) (fpUnits b))

/-- FSQRT.S's function, R271: the exact real square root, then `round`. -/
def fpSqrt (a : Word) : Word × FFlags :=
  if isNaN a then nanResult (isSNaN a)
  else if isZero a then (a, FFlags.none)
  else if fpSign a then invalidResult
  else if isInf a then (a, FFlags.none)
  else round false (.root (fpUnits a) (2 ^ 149))

/-- `fp_fma(a, b, c)`, R272: the product and the sum are exact and rounded once. -/
def fpFma (a b c : Word) : Word × FFlags :=
  let invalidProduct := (isInf a && isZero b) || (isZero a && isInf b)
  if isNaN a || isNaN b || isNaN c || invalidProduct then
    nanResult (isSNaN a || isSNaN b || isSNaN c || invalidProduct)
  else
    let sp := fpSign a != fpSign b
    if isInf a || isInf b then
      if isInf c && fpSign c != sp then invalidResult else (fpInf sp, FFlags.none)
    else if isInf c then (c, FFlags.none)
    else
      let r := fpInt a * fpInt b + fpInt c * 2 ^ 149
      if r = 0 then
        if (isZero a || isZero b) && isZero c && sp == fpSign c then (fpZero sp, FFlags.none)
        else (0x00000000#32, FFlags.none)
      else roundRatio r (2 ^ 298)

/-! ## Minimum, maximum and comparison, R293 to R297 and R305 -/

/-- A number that orders non-NaN patterns as `val` extended with the infinities does (R293, R305), in units of `2^-149`:
every finite magnitude is below `2^278` units. -/
def fpOrder (p : Word) : Int :=
  if isInf p then (if fpSign p then -(2 ^ 278) else 2 ^ 278) else fpInt p

/-- `fp_less(a, b)`: the order on non-NaN patterns in which `-0 < +0` (R293). -/
def fpLess (a b : Word) : Bool :=
  decide (fpOrder a < fpOrder b) || (a == 0x80000000#32 && b == 0x00000000#32)

/-- FMIN.S's function, R293. -/
def fpMin (a b : Word) : Word × FFlags :=
  let flags := FFlags.when (isSNaN a || isSNaN b) FFlags.invalid
  if isNaN a && isNaN b then (canonicalNaN, flags)
  else if isNaN a then (b, flags)
  else if isNaN b then (a, flags)
  else if fpLess a b then (a, flags)
  else (b, flags)

/-- FMAX.S's function, R294. -/
def fpMax (a b : Word) : Word × FFlags :=
  let flags := FFlags.when (isSNaN a || isSNaN b) FFlags.invalid
  if isNaN a && isNaN b then (canonicalNaN, flags)
  else if isNaN a then (b, flags)
  else if isNaN b then (a, flags)
  else if fpLess a b then (b, flags)
  else (a, flags)

/-- FEQ.S's function, R295: NV on a signaling NaN only. -/
def fpEq (a b : Word) : Bool × FFlags :=
  (!(isNaN a || isNaN b) && decide (fpOrder a = fpOrder b), FFlags.when (isSNaN a || isSNaN b) FFlags.invalid)

/-- FLT.S's function, R296: NV on any NaN. -/
def fpLt (a b : Word) : Bool × FFlags :=
  (!(isNaN a || isNaN b) && decide (fpOrder a < fpOrder b), FFlags.when (isNaN a || isNaN b) FFlags.invalid)

/-- FLE.S's function, R297: NV on any NaN. -/
def fpLe (a b : Word) : Bool × FFlags :=
  (!(isNaN a || isNaN b) && decide (fpOrder a ≤ fpOrder b), FFlags.when (isNaN a || isNaN b) FFlags.invalid)

/-! ## Conversions, R298 to R301 and R306 -/

/-- A finite pattern's value truncated toward zero: `trunc(val(a))` (R306). -/
def fpTrunc (a : Word) : Int := (fpInt a).tdiv (2 ^ 149)

/-- Conversion to an integer in `lo .. hi`: truncation always, NaN to `hi`, saturation with NV alone, else NX when inexact
(R298, R299, R306). -/
def fpToInt (lo hi : Int) (a : Word) : Int × FFlags :=
  if isNaN a then (hi, FFlags.invalid)
  else if isInf a then (if fpSign a then lo else hi, FFlags.invalid)
  else
    let t := fpTrunc a
    if hi < t then (hi, FFlags.invalid)
    else if t < lo then (lo, FFlags.invalid)
    else (t, FFlags.when (decide (t * 2 ^ 149 ≠ fpInt a)) FFlags.inexact)

/-- Conversion of the exact integer `n`: `+0` for zero, else `round(n)` (R300, R301, R306). -/
def fpOfInt (n : Int) : Word × FFlags :=
  if n = 0 then (0x00000000#32, FFlags.none) else roundRatio n 1

/-! ## Sign injection and classification, R290 to R292 and R304 -/

/-- A sign bit above the magnitude of `a`: `{sign, a[30:0]}` (R290). -/
def withSign (sg : Bool) (a : Word) : Word := BitVec.ofBool sg ++ a.extractLsb' 0 31

/-- The class of a pattern, 0 to 9, by the table of R304. -/
def fpClass (a : Word) : Nat :=
  if isSNaN a then 8
  else if isNaN a then 9
  else if isInf a then (if fpSign a then 0 else 7)
  else if isZero a then (if fpSign a then 3 else 4)
  else if fpExp a = 0 then (if fpSign a then 2 else 5)
  else (if fpSign a then 1 else 6)

end Sys2Proof.Machine
end

