-- ==== Sys2Proof/Machine/FpArith.lean ====
section
/-!
DEFINITION. FP load and store, arithmetic and fused multiply-add, 45_f_arith.md R265 to R276. The arithmetic reads f
registers, writes `f[rd]`, signals flags, touches no memory and raises no exception. `rm` (`inst[14:12]`) and `fmt`
(`inst[26:25]`) are ignored (R277; 30_encoding.md R136; logs 14 and 15).
-/

namespace Sys2Proof.Machine

/-- FLW, R265: the 32 bits are copied as they are; `rd = 0` names f0. -/
def execFlw (rd rs1 : Reg) (imm : Word) (s : State) : Result :=
  let ea := effAddr s rs1 imm
  guarded s (guardLoad s ea 4) (completeF s rd (s.wordAt ea))

/-- FSW, R266: the 32 bits are stored as they are. -/
def execFsw (rs1 rs2 : Reg) (imm : Word) (s : State) : Result :=
  storeAt s 4 rs1 imm fun ea => s.putWord ea (s.readF rs2)

/-- FADD.S, R267. -/
def execFaddS (rd rs1 rs2 : Reg) (_rm : BitVec 3) (s : State) : Result :=
  completeFFlags s rd (fpAdd (s.readF rs1) (s.readF rs2))

/-- FSUB.S, R268. -/
def execFsubS (rd rs1 rs2 : Reg) (_rm : BitVec 3) (s : State) : Result :=
  completeFFlags s rd (fpSub (s.readF rs1) (s.readF rs2))

/-- FMUL.S, R269. -/
def execFmulS (rd rs1 rs2 : Reg) (_rm : BitVec 3) (s : State) : Result :=
  completeFFlags s rd (fpMul (s.readF rs1) (s.readF rs2))

/-- FDIV.S, R270. -/
def execFdivS (rd rs1 rs2 : Reg) (_rm : BitVec 3) (s : State) : Result :=
  completeFFlags s rd (fpDiv (s.readF rs1) (s.readF rs2))

/-- FSQRT.S, R271. -/
def execFsqrtS (rd rs1 : Reg) (_rm : BitVec 3) (s : State) : Result :=
  completeFFlags s rd (fpSqrt (s.readF rs1))

/-- FMADD.S, R273: the product plus `f[rs3]`. -/
def execFmaddS (rd rs1 rs2 rs3 : Reg) (_rm : BitVec 3) (_fmt : BitVec 2) (s : State) : Result :=
  completeFFlags s rd (fpFma (s.readF rs1) (s.readF rs2) (s.readF rs3))

/-- FMSUB.S, R274: the product minus `f[rs3]`. -/
def execFmsubS (rd rs1 rs2 rs3 : Reg) (_rm : BitVec 3) (_fmt : BitVec 2) (s : State) : Result :=
  completeFFlags s rd (fpFma (s.readF rs1) (s.readF rs2) (fpNeg (s.readF rs3)))

/-- FNMSUB.S, R275: minus the product, plus `f[rs3]`. -/
def execFnmsubS (rd rs1 rs2 rs3 : Reg) (_rm : BitVec 3) (_fmt : BitVec 2) (s : State) : Result :=
  completeFFlags s rd (fpFma (fpNeg (s.readF rs1)) (s.readF rs2) (s.readF rs3))

/-- FNMADD.S, R276: minus the product, minus `f[rs3]`. -/
def execFnmaddS (rd rs1 rs2 rs3 : Reg) (_rm : BitVec 3) (_fmt : BitVec 2) (s : State) : Result :=
  completeFFlags s rd (fpFma (fpNeg (s.readF rs1)) (s.readF rs2) (fpNeg (s.readF rs3)))

end Sys2Proof.Machine
end

