-- ==== Sys2Proof/Machine/FpMisc.lean ====
section
/-!
DEFINITION. FP sign injection, minimum and maximum, comparison, conversion, move and classification, 46_f_misc.md R290 to
R306. None touches memory, none raises an exception, the next pc is `pc + 4`.
-/

namespace Sys2Proof.Machine

/-- FSGNJ.S, R290: the sign of `f[rs2]` above the magnitude of `f[rs1]`; no flag, no canonicalization. -/
def execFsgnjS (rd rs1 rs2 : Reg) (s : State) : Result :=
  completeF s rd (withSign (fpSign (s.readF rs2)) (s.readF rs1))

/-- FSGNJN.S, R291: the sign inverted. -/
def execFsgnjnS (rd rs1 rs2 : Reg) (s : State) : Result :=
  completeF s rd (withSign (!fpSign (s.readF rs2)) (s.readF rs1))

/-- FSGNJX.S, R292: the exclusive-or of the signs. -/
def execFsgnjxS (rd rs1 rs2 : Reg) (s : State) : Result :=
  completeF s rd (withSign (fpSign (s.readF rs1) != fpSign (s.readF rs2)) (s.readF rs1))

/-- FMIN.S, R293. -/
def execFminS (rd rs1 rs2 : Reg) (s : State) : Result :=
  completeFFlags s rd (fpMin (s.readF rs1) (s.readF rs2))

/-- FMAX.S, R294. -/
def execFmaxS (rd rs1 rs2 : Reg) (s : State) : Result :=
  completeFFlags s rd (fpMax (s.readF rs1) (s.readF rs2))

/-- FEQ.S, R295. -/
def execFeqS (rd rs1 rs2 : Reg) (s : State) : Result :=
  let r := fpEq (s.readF rs1) (s.readF rs2)
  completeXFlags s rd (boolWord r.1) r.2

/-- FLT.S, R296. -/
def execFltS (rd rs1 rs2 : Reg) (s : State) : Result :=
  let r := fpLt (s.readF rs1) (s.readF rs2)
  completeXFlags s rd (boolWord r.1) r.2

/-- FLE.S, R297. -/
def execFleS (rd rs1 rs2 : Reg) (s : State) : Result :=
  let r := fpLe (s.readF rs1) (s.readF rs2)
  completeXFlags s rd (boolWord r.1) r.2

/-- FCVT.W.S, R298: to a signed 32-bit integer. `rm` is ignored (45_f_arith.md R277; log 15). -/
def execFcvtWS (rd rs1 : Reg) (_rm : BitVec 3) (s : State) : Result :=
  let r := fpToInt (-2147483648) 2147483647 (s.readF rs1)
  completeXFlags s rd (BitVec.ofInt 32 r.1) r.2

/-- FCVT.WU.S, R299: to an unsigned 32-bit integer. -/
def execFcvtWuS (rd rs1 : Reg) (_rm : BitVec 3) (s : State) : Result :=
  let r := fpToInt 0 4294967295 (s.readF rs1)
  completeXFlags s rd (BitVec.ofInt 32 r.1) r.2

/-- FCVT.S.W, R300: from the signed value of `x[rs1]`. -/
def execFcvtSW (rd rs1 : Reg) (_rm : BitVec 3) (s : State) : Result :=
  completeFFlags s rd (fpOfInt (s.readX rs1).toInt)

/-- FCVT.S.WU, R301: from the unsigned value of `x[rs1]`. -/
def execFcvtSWu (rd rs1 : Reg) (_rm : BitVec 3) (s : State) : Result :=
  completeFFlags s rd (fpOfInt ((s.readX rs1).toNat : Int))

/-- FMV.X.W, R302: all 32 bits, unchanged. `rs2` is ignored (30_encoding.md R136; log 14). -/
def execFmvXW (rd rs1 _rs2 : Reg) (s : State) : Result := completeX s rd (s.readF rs1)

/-- FMV.W.X, R303. -/
def execFmvWX (rd rs1 _rs2 : Reg) (s : State) : Result := completeF s rd (s.readX rs1)

/-- FCLASS.S, R304: `1 << k` with `k` the class; no flag. -/
def execFclassS (rd rs1 _rs2 : Reg) (s : State) : Result :=
  completeX s rd (1#32 <<< fpClass (s.readF rs1))

end Sys2Proof.Machine
end

