-- ==== Sys2Proof/Machine/LoadStore.lean ====
section
/-!
DEFINITION. The integer loads and stores, 41_rv32i_loadstore.md R190 to R199: any alignment, little-endian, an access fault
when a byte is outside `MEM_VALID`, and then nothing is written.
-/

namespace Sys2Proof.Machine

/-- LB, R191. -/
def execLb (rd rs1 : Reg) (imm : Word) (s : State) : Result :=
  loadX s 1 rd rs1 imm fun ea => (s.byteAt ea).signExtend 32

/-- LH, R192. -/
def execLh (rd rs1 : Reg) (imm : Word) (s : State) : Result :=
  loadX s 2 rd rs1 imm fun ea => (s.halfAt ea).signExtend 32

/-- LW, R193. -/
def execLw (rd rs1 : Reg) (imm : Word) (s : State) : Result :=
  loadX s 4 rd rs1 imm fun ea => s.wordAt ea

/-- LBU, R194. -/
def execLbu (rd rs1 : Reg) (imm : Word) (s : State) : Result :=
  loadX s 1 rd rs1 imm fun ea => (s.byteAt ea).zeroExtend 32

/-- LHU, R195. -/
def execLhu (rd rs1 : Reg) (imm : Word) (s : State) : Result :=
  loadX s 2 rd rs1 imm fun ea => (s.halfAt ea).zeroExtend 32

/-- SB, R196: `x[rs2][7:0]`. -/
def execSb (rs1 rs2 : Reg) (imm : Word) (s : State) : Result :=
  storeAt s 1 rs1 imm fun ea => s.putByte ea ((s.readX rs2).extractLsb' 0 8)

/-- SH, R197: `x[rs2][15:0]`. -/
def execSh (rs1 rs2 : Reg) (imm : Word) (s : State) : Result :=
  storeAt s 2 rs1 imm fun ea => s.putHalf ea ((s.readX rs2).extractLsb' 0 16)

/-- SW, R198. -/
def execSw (rs1 rs2 : Reg) (imm : Word) (s : State) : Result :=
  storeAt s 4 rs1 imm fun ea => s.putWord ea (s.readX rs2)

end Sys2Proof.Machine
end

