-- ==== Sys2Proof/Machine/MulDiv.lean ====
section
/-!
DEFINITION. The M extension, 44_m_extension.md R240 to R249. Operands are read as integers, the result is computed exactly
and narrowed at the end. No operand value raises an exception (R240).
-/

namespace Sys2Proof.Machine

/-- `trunc_64(p)[63:32]` of an exact product (R242 to R244). -/
def highHalf (p : Int) : Word := (BitVec.ofInt 64 p).extractLsb' 32 32

/-- MUL, R241. -/
def execMul (rd rs1 rs2 : Reg) (s : State) : Result :=
  completeX s rd (BitVec.ofNat 32 ((s.readX rs1).toNat * (s.readX rs2).toNat))

/-- MULH, R242: signed by signed. -/
def execMulh (rd rs1 rs2 : Reg) (s : State) : Result :=
  completeX s rd (highHalf ((s.readX rs1).toInt * (s.readX rs2).toInt))

/-- MULHSU, R243: `x[rs1]` signed, `x[rs2]` unsigned. -/
def execMulhsu (rd rs1 rs2 : Reg) (s : State) : Result :=
  completeX s rd (highHalf ((s.readX rs1).toInt * ((s.readX rs2).toNat : Int)))

/-- MULHU, R244: unsigned by unsigned. -/
def execMulhu (rd rs1 rs2 : Reg) (s : State) : Result :=
  completeX s rd (highHalf (((s.readX rs1).toNat : Int) * ((s.readX rs2).toNat : Int)))

/-- DIV's function, R245: toward zero; `0xFFFFFFFF` for a zero divisor, `0x80000000` for the signed overflow. -/
def divSigned (a b : Word) : Word :=
  if b.toInt = 0 then 0xFFFFFFFF#32
  else if a.toInt = -2147483648 ∧ b.toInt = -1 then 0x80000000#32
  else BitVec.ofInt 32 (a.toInt.tdiv b.toInt)

/-- DIVU's function, R246. -/
def divUnsigned (a b : Word) : Word :=
  if b.toNat = 0 then 0xFFFFFFFF#32 else BitVec.ofNat 32 (a.toNat / b.toNat)

/-- REM's function, R247: the remainder of R245's quotient; `x[rs1]` for a zero divisor, 0 for the signed overflow. -/
def remSigned (a b : Word) : Word :=
  if b.toInt = 0 then a
  else if a.toInt = -2147483648 ∧ b.toInt = -1 then 0x00000000#32
  else BitVec.ofInt 32 (a.toInt - b.toInt * a.toInt.tdiv b.toInt)

/-- REMU's function, R248. -/
def remUnsigned (a b : Word) : Word :=
  if b.toNat = 0 then a else BitVec.ofNat 32 (a.toNat % b.toNat)

/-- DIV, R245. -/
def execDiv (rd rs1 rs2 : Reg) (s : State) : Result := completeX s rd (divSigned (s.readX rs1) (s.readX rs2))

/-- DIVU, R246. -/
def execDivu (rd rs1 rs2 : Reg) (s : State) : Result := completeX s rd (divUnsigned (s.readX rs1) (s.readX rs2))

/-- REM, R247. -/
def execRem (rd rs1 rs2 : Reg) (s : State) : Result := completeX s rd (remSigned (s.readX rs1) (s.readX rs2))

/-- REMU, R248. -/
def execRemu (rd rs1 rs2 : Reg) (s : State) : Result := completeX s rd (remUnsigned (s.readX rs1) (s.readX rs2))

end Sys2Proof.Machine
end

