-- ==== Sys2Proof/Machine/Npu.lean ====
section
/-!
DEFINITION. The fourteen custom NPU instructions, 47_npu.md R320 to R339. They set no FP flag, raise nothing but the access
faults of their memory accesses, and the next pc is `pc + 4`, always (R320). The fields R136 leaves open are ignored (log 14).
-/

namespace Sys2Proof.Machine

/-- `acc <- trunc_64(signed(acc) + p)`: the addition wraps modulo 2^64 (R325). -/
def accPlus (s : State) (p : Int) : BitVec 64 := BitVec.ofInt 64 (s.acc.toInt + p)

/-- The end of an array instruction that updates its destination after the last read: a fault leaves the whole state
unchanged (R323). -/
def afterReads {β : Type} (s : State) (r : Except Fault β) (k : β → State) : Result :=
  match r with
  | .ok b => .next (k b).advance
  | .error e => deliver e s

/-- NPU.MACC, R325; `rd` is ignored. -/
def execNpuMacc (_rd rs1 rs2 : Reg) (s : State) : Result :=
  .next (s.writeAcc (accPlus s ((s.readX rs1).toInt * (s.readX rs2).toInt))).advance

/-- One element of NPU.VMAC's sum: A is read before B (R326). -/
def vmacElem (s : State) (a b : Word) (i : Nat) (sum : Int) : Except Fault Int := do
  guardLoad s (elemAddr a 1 i) 1
  guardLoad s (elemAddr b 1 i) 1
  .ok (sum + (s.byteAt (elemAddr a 1 i)).toInt * (s.byteAt (elemAddr b 1 i)).toInt)

/-- NPU.VMAC, R326: the count is `x[rd]`, which is read and not written (R321). -/
def execNpuVmac (rd rs1 rs2 : Reg) (s : State) : Result :=
  afterReads s (ascending (vmacElem s (s.readX rs1) (s.readX rs2)) 0 (elemCount s rd)) fun sum =>
    s.writeAcc (accPlus s sum)

/-- One element of NPU.VEXP: the source is read, the result computed, the destination written (R322, R327). -/
def vexpElem (src dst : Word) (i : Nat) (t : State) : Except Fault State := do
  guardLoad t (elemAddr src 4 i) 4
  guardStore t (elemAddr dst 4 i) 4
  .ok (t.putWord (elemAddr dst 4 i) (Config.expQ16 (t.wordAt (elemAddr src 4 i))))

/-- NPU.VEXP, R327: `EXP_Q16` of each word (R324; log 12). A fault in the middle carries no state, so nothing is said of
the destination array then (R323; log 10). -/
def execNpuVexp (rd rs1 rs2 : Reg) (s : State) : Result :=
  afterReads s (ascending (vexpElem (s.readX rs1) (s.readX rs2)) s (elemCount s rd)) id

/-- NPU.VRSQRT, R328: one word of memory; `rs2` is ignored (R324; log 12). -/
def execNpuVrsqrt (rd rs1 _rs2 : Reg) (s : State) : Result :=
  guarded s (guardLoad s (s.readX rs1) 4) (completeX s rd (Config.rsqrtQ16 (s.wordAt (s.readX rs1))))

/-- NPU.VMUL's value for the element `v` and the scale `k`: the exact product shifted right arithmetically by 16 and
clamped to a signed byte (R329, R339). Division of an integer by a positive number rounds toward minus infinity. -/
def vmulValue (v : Byte) (k : Int) : Byte := BitVec.ofInt 8 (clamp (v.toInt * k / 65536) (-128) 127)

/-- One element of NPU.VMUL: the source is read, the result computed, the destination written (R322, R329). -/
def vmulElem (src dst : Word) (k : Int) (i : Nat) (t : State) : Except Fault State := do
  guardLoad t (elemAddr src 1 i) 1
  guardStore t (elemAddr dst 1 i) 1
  .ok (t.putByte (elemAddr dst 1 i) (vmulValue (t.byteAt (elemAddr src 1 i)) k))

/-- NPU.VMUL, R329: `acc_lo` is the scale, read as signed; `acc` is not changed. -/
def execNpuVmul (rd rs1 rs2 : Reg) (s : State) : Result :=
  afterReads s (ascending (vmulElem (s.readX rs1) (s.readX rs2) s.accLo.toInt) s (elemCount s rd)) id

/-- One element of NPU.VREDUCE's sum (R330). -/
def vreduceElem (s : State) (base : Word) (i : Nat) (sum : Int) : Except Fault Int := do
  guardLoad s (elemAddr base 4 i) 4
  .ok (sum + (s.wordAt (elemAddr base 4 i)).toInt)

/-- NPU.VREDUCE, R330: the sum modulo 2^32; the empty sum is 0. -/
def execNpuVreduce (rd rs1 rs2 : Reg) (s : State) : Result :=
  afterReads s (ascending (vreduceElem s (s.readX rs1)) 0 (elemCount s rs2)) fun sum =>
    s.writeX rd (BitVec.ofInt 32 sum)

/-- One element of NPU.VMAX's maximum (R331). -/
def vmaxElem (s : State) (base : Word) (i : Nat) (best : Int) : Except Fault Int := do
  guardLoad s (elemAddr base 4 i) 4
  .ok (max best (s.wordAt (elemAddr base 4 i)).toInt)

/-- NPU.VMAX, R331: `VMAX_EMPTY` for no elements (log 13), else the maximum of the signed words; the loop starts from the
least int32, below which no element is. -/
def execNpuVmax (rd rs1 rs2 : Reg) (s : State) : Result :=
  if elemCount s rs2 = 0 then completeX s rd Config.vmaxEmpty
  else
    afterReads s (ascending (vmaxElem s (s.readX rs1)) (-2147483648) (elemCount s rs2)) fun best =>
      s.writeX rd (BitVec.ofInt 32 best)

/-- NPU.RELU, R332. -/
def execNpuRelu (rd rs1 _rs2 : Reg) (s : State) : Result :=
  completeX s rd (if (s.readX rs1).toInt < 0 then 0#32 else s.readX rs1)

/-- NPU.QMUL, R333: bits 39:8 of the exact product. -/
def execNpuQmul (rd rs1 rs2 : Reg) (s : State) : Result :=
  completeX s rd (BitVec.ofInt 32 ((s.readX rs1).toInt * (s.readX rs2).toInt / 256))

/-- NPU.CLAMP, R334. -/
def execNpuClamp (rd rs1 _rs2 : Reg) (s : State) : Result :=
  completeX s rd (BitVec.ofInt 32 (clamp (s.readX rs1).toInt (-128) 127))

/-- NPU.GELU, R335: the table is configuration, not memory (R324; log 12). -/
def execNpuGelu (rd rs1 _rs2 : Reg) (s : State) : Result := completeX s rd (Config.geluLut (s.readX rs1))

/-- NPU.RSTACC, R336: `x[rd] <- acc_lo; acc <- 0`. -/
def execNpuRstacc (rd _rs1 _rs2 : Reg) (s : State) : Result :=
  .next ((s.writeX rd s.accLo).writeAcc 0#64).advance

/-- NPU.LDVEC, R337: the `rd` field selects the vector register. -/
def execNpuLdvec (rd rs1 : Reg) (imm : Word) (s : State) : Result :=
  let ea := effAddr s rs1 imm
  guarded s (guardLoad s ea 4) (.next (s.writeV (vregIndex rd) (s.wordAt ea)).advance)

/-- NPU.STVEC, R338: the `rs2` field selects the vector register. -/
def execNpuStvec (rs1 rs2 : Reg) (imm : Word) (s : State) : Result :=
  storeAt s 4 rs1 imm fun ea => s.putWord ea (s.readV (vregIndex rs2))

end Sys2Proof.Machine
end

