-- ==== Sys2Proof/Machine/System.lean ====
section
/-!
DEFINITION. ECALL, EBREAK and FENCE, 43_rv32i_system.md R230 to R233.
-/

namespace Sys2Proof.Machine

/-- ECALL, R230: `raise EnvironmentCall()`; the host's handler resumes or stops (60_exceptions.md R362, R374; log 8). -/
def execEcall (s : State) : Result := deliver .environmentCall s

/-- EBREAK, R231: `raise Breakpoint(pc)`; the run ends there (log 22). -/
def execEbreak (s : State) : Result := deliver (.breakpoint s.pc) s

/-- FENCE, R232: nothing; every field is ignored (30_encoding.md R136). -/
def execFence (_rd _rs1 : Reg) (_imm : BitVec 12) (s : State) : Result := .next s.advance

end Sys2Proof.Machine
end

