-- ==== Sys2Proof/Machine/Dispatch.lean ====
section
/-! DEFINITION. The dispatch: one arm for each instruction, one direct call of its meaning (00_scope.md R15, stage 3). -/

namespace Sys2Proof.Machine

def exec (i : Instr) (s : State) : Host.Outcome State Fault Refusal :=
  match i with
  | .add rd rs1 rs2 => Sys2Proof.Machine.execAdd rd rs1 rs2 s
  | .sub rd rs1 rs2 => Sys2Proof.Machine.execSub rd rs1 rs2 s
  | .sll rd rs1 rs2 => Sys2Proof.Machine.execSll rd rs1 rs2 s
  | .slt rd rs1 rs2 => Sys2Proof.Machine.execSlt rd rs1 rs2 s
  | .sltu rd rs1 rs2 => Sys2Proof.Machine.execSltu rd rs1 rs2 s
  | .xor rd rs1 rs2 => Sys2Proof.Machine.execXor rd rs1 rs2 s
  | .srl rd rs1 rs2 => Sys2Proof.Machine.execSrl rd rs1 rs2 s
  | .sra rd rs1 rs2 => Sys2Proof.Machine.execSra rd rs1 rs2 s
  | .or rd rs1 rs2 => Sys2Proof.Machine.execOr rd rs1 rs2 s
  | .and rd rs1 rs2 => Sys2Proof.Machine.execAnd rd rs1 rs2 s
  | .addi rd rs1 imm => Sys2Proof.Machine.execAddi rd rs1 imm s
  | .slti rd rs1 imm => Sys2Proof.Machine.execSlti rd rs1 imm s
  | .sltiu rd rs1 imm => Sys2Proof.Machine.execSltiu rd rs1 imm s
  | .xori rd rs1 imm => Sys2Proof.Machine.execXori rd rs1 imm s
  | .ori rd rs1 imm => Sys2Proof.Machine.execOri rd rs1 imm s
  | .andi rd rs1 imm => Sys2Proof.Machine.execAndi rd rs1 imm s
  | .slli rd rs1 shamt => Sys2Proof.Machine.execSlli rd rs1 shamt s
  | .srli rd rs1 shamt => Sys2Proof.Machine.execSrli rd rs1 shamt s
  | .srai rd rs1 shamt => Sys2Proof.Machine.execSrai rd rs1 shamt s
  | .lb rd rs1 imm => Sys2Proof.Machine.execLb rd rs1 imm s
  | .lh rd rs1 imm => Sys2Proof.Machine.execLh rd rs1 imm s
  | .lw rd rs1 imm => Sys2Proof.Machine.execLw rd rs1 imm s
  | .lbu rd rs1 imm => Sys2Proof.Machine.execLbu rd rs1 imm s
  | .lhu rd rs1 imm => Sys2Proof.Machine.execLhu rd rs1 imm s
  | .sb rs1 rs2 imm => Sys2Proof.Machine.execSb rs1 rs2 imm s
  | .sh rs1 rs2 imm => Sys2Proof.Machine.execSh rs1 rs2 imm s
  | .sw rs1 rs2 imm => Sys2Proof.Machine.execSw rs1 rs2 imm s
  | .beq rs1 rs2 imm => Sys2Proof.Machine.execBeq rs1 rs2 imm s
  | .bne rs1 rs2 imm => Sys2Proof.Machine.execBne rs1 rs2 imm s
  | .blt rs1 rs2 imm => Sys2Proof.Machine.execBlt rs1 rs2 imm s
  | .bge rs1 rs2 imm => Sys2Proof.Machine.execBge rs1 rs2 imm s
  | .bltu rs1 rs2 imm => Sys2Proof.Machine.execBltu rs1 rs2 imm s
  | .bgeu rs1 rs2 imm => Sys2Proof.Machine.execBgeu rs1 rs2 imm s
  | .lui rd imm => Sys2Proof.Machine.execLui rd imm s
  | .auipc rd imm => Sys2Proof.Machine.execAuipc rd imm s
  | .jal rd imm => Sys2Proof.Machine.execJal rd imm s
  | .jalr rd rs1 imm funct3 => Sys2Proof.Machine.execJalr rd rs1 imm funct3 s
  | .ecall => Sys2Proof.Machine.execEcall s
  | .ebreak => Sys2Proof.Machine.execEbreak s
  | .fence rd rs1 imm => Sys2Proof.Machine.execFence rd rs1 imm s
  | .mul rd rs1 rs2 => Sys2Proof.Machine.execMul rd rs1 rs2 s
  | .mulh rd rs1 rs2 => Sys2Proof.Machine.execMulh rd rs1 rs2 s
  | .mulhsu rd rs1 rs2 => Sys2Proof.Machine.execMulhsu rd rs1 rs2 s
  | .mulhu rd rs1 rs2 => Sys2Proof.Machine.execMulhu rd rs1 rs2 s
  | .div rd rs1 rs2 => Sys2Proof.Machine.execDiv rd rs1 rs2 s
  | .divu rd rs1 rs2 => Sys2Proof.Machine.execDivu rd rs1 rs2 s
  | .rem rd rs1 rs2 => Sys2Proof.Machine.execRem rd rs1 rs2 s
  | .remu rd rs1 rs2 => Sys2Proof.Machine.execRemu rd rs1 rs2 s
  | .flw rd rs1 imm => Sys2Proof.Machine.execFlw rd rs1 imm s
  | .fsw rs1 rs2 imm => Sys2Proof.Machine.execFsw rs1 rs2 imm s
  | .faddS rd rs1 rs2 rm => Sys2Proof.Machine.execFaddS rd rs1 rs2 rm s
  | .fsubS rd rs1 rs2 rm => Sys2Proof.Machine.execFsubS rd rs1 rs2 rm s
  | .fmulS rd rs1 rs2 rm => Sys2Proof.Machine.execFmulS rd rs1 rs2 rm s
  | .fdivS rd rs1 rs2 rm => Sys2Proof.Machine.execFdivS rd rs1 rs2 rm s
  | .fsqrtS rd rs1 rm => Sys2Proof.Machine.execFsqrtS rd rs1 rm s
  | .fmaddS rd rs1 rs2 rs3 rm fmt => Sys2Proof.Machine.execFmaddS rd rs1 rs2 rs3 rm fmt s
  | .fmsubS rd rs1 rs2 rs3 rm fmt => Sys2Proof.Machine.execFmsubS rd rs1 rs2 rs3 rm fmt s
  | .fnmsubS rd rs1 rs2 rs3 rm fmt => Sys2Proof.Machine.execFnmsubS rd rs1 rs2 rs3 rm fmt s
  | .fnmaddS rd rs1 rs2 rs3 rm fmt => Sys2Proof.Machine.execFnmaddS rd rs1 rs2 rs3 rm fmt s
  | .fsgnjS rd rs1 rs2 => Sys2Proof.Machine.execFsgnjS rd rs1 rs2 s
  | .fsgnjnS rd rs1 rs2 => Sys2Proof.Machine.execFsgnjnS rd rs1 rs2 s
  | .fsgnjxS rd rs1 rs2 => Sys2Proof.Machine.execFsgnjxS rd rs1 rs2 s
  | .fminS rd rs1 rs2 => Sys2Proof.Machine.execFminS rd rs1 rs2 s
  | .fmaxS rd rs1 rs2 => Sys2Proof.Machine.execFmaxS rd rs1 rs2 s
  | .feqS rd rs1 rs2 => Sys2Proof.Machine.execFeqS rd rs1 rs2 s
  | .fltS rd rs1 rs2 => Sys2Proof.Machine.execFltS rd rs1 rs2 s
  | .fleS rd rs1 rs2 => Sys2Proof.Machine.execFleS rd rs1 rs2 s
  | .fcvtWS rd rs1 rm => Sys2Proof.Machine.execFcvtWS rd rs1 rm s
  | .fcvtWuS rd rs1 rm => Sys2Proof.Machine.execFcvtWuS rd rs1 rm s
  | .fcvtSW rd rs1 rm => Sys2Proof.Machine.execFcvtSW rd rs1 rm s
  | .fcvtSWu rd rs1 rm => Sys2Proof.Machine.execFcvtSWu rd rs1 rm s
  | .fmvXW rd rs1 rs2 => Sys2Proof.Machine.execFmvXW rd rs1 rs2 s
  | .fmvWX rd rs1 rs2 => Sys2Proof.Machine.execFmvWX rd rs1 rs2 s
  | .fclassS rd rs1 rs2 => Sys2Proof.Machine.execFclassS rd rs1 rs2 s
  | .npuMacc rd rs1 rs2 => Sys2Proof.Machine.execNpuMacc rd rs1 rs2 s
  | .npuVmac rd rs1 rs2 => Sys2Proof.Machine.execNpuVmac rd rs1 rs2 s
  | .npuVexp rd rs1 rs2 => Sys2Proof.Machine.execNpuVexp rd rs1 rs2 s
  | .npuVrsqrt rd rs1 rs2 => Sys2Proof.Machine.execNpuVrsqrt rd rs1 rs2 s
  | .npuVmul rd rs1 rs2 => Sys2Proof.Machine.execNpuVmul rd rs1 rs2 s
  | .npuVreduce rd rs1 rs2 => Sys2Proof.Machine.execNpuVreduce rd rs1 rs2 s
  | .npuVmax rd rs1 rs2 => Sys2Proof.Machine.execNpuVmax rd rs1 rs2 s
  | .npuRelu rd rs1 rs2 => Sys2Proof.Machine.execNpuRelu rd rs1 rs2 s
  | .npuQmul rd rs1 rs2 => Sys2Proof.Machine.execNpuQmul rd rs1 rs2 s
  | .npuClamp rd rs1 rs2 => Sys2Proof.Machine.execNpuClamp rd rs1 rs2 s
  | .npuGelu rd rs1 rs2 => Sys2Proof.Machine.execNpuGelu rd rs1 rs2 s
  | .npuRstacc rd rs1 rs2 => Sys2Proof.Machine.execNpuRstacc rd rs1 rs2 s
  | .npuLdvec rd rs1 imm => Sys2Proof.Machine.execNpuLdvec rd rs1 imm s
  | .npuStvec rs1 rs2 imm => Sys2Proof.Machine.execNpuStvec rs1 rs2 imm s

end Sys2Proof.Machine
end

