-- ==== Sys2Proof/Machine/Step.lean ====
section
/-!
DEFINITION. One step of the hart, 00_scope.md R15: fetch, decode, execute. A step ends in a next state or in one of the
exceptions of 60_exceptions.md R360, the first in the order of R364.
-/

namespace Sys2Proof.Machine

/-- One step (R15). The meanings set the next pc themselves, `pc + 4` where the instruction sets none (10_state.md R36). -/
def step (s : State) : Host.Outcome State Fault Refusal :=
  match fetch s with
  | .error e => deliver e s
  | .ok w =>
    match decode w with
    | .error _ => deliver (.illegalInstruction w) s
    | .ok i => exec i s

/-- `s` with the instruction of the table's bits `w` stored where the next step fetches: the four bytes at `pc`, little-endian
(20_memory.md R75). The fetch needs `pc` to be a multiple of 4 (R80) and its bytes to be valid (R81), so `pc` is aligned
down, and a region for the four bytes is added where the memory map lacks them; from `State.reset` neither changes anything
(log 9). Bits above `nbits` are zero. -/
def State.withFetchWord (s : State) (nbits w : Nat) : State :=
  let pc := s.pc &&& 0xFFFFFFFC#32
  let map := if s.accessible pc 4 then s.memMap else { base := pc.toNat, size := 4 } :: s.memMap
  ({ s with pc := pc, memMap := map }).putWord pc (BitVec.ofNat 32 (w % 2 ^ nbits))

end Sys2Proof.Machine
end

