-- ==== Sys2Proof/Machine/Names.lean ====
section
/-!
DEFINITION. Names and numbers for people, which no meaning reads: register aliases (10_state.md R32, R41), the lanes of a
vector register (R47), cause codes (60_exceptions.md R361), assembler text (30_encoding.md R140, R143) and the
pseudo-instructions as the instructions they stand for (R141, R142).
-/

namespace Sys2Proof.Machine

/-- The ABI names of x0 to x31 (R32); x8 is also called `fp`. -/
def xNames : List String :=
  ["zero", "ra", "sp", "gp", "tp", "t0", "t1", "t2", "s0", "s1", "a0", "a1", "a2", "a3", "a4", "a5",
    "a6", "a7", "s2", "s3", "s4", "s5", "s6", "s7", "s8", "s9", "s10", "s11", "t3", "t4", "t5", "t6"]

/-- The ABI names of f0 to f31 (R41). -/
def fNames : List String :=
  ["ft0", "ft1", "ft2", "ft3", "ft4", "ft5", "ft6", "ft7", "fs0", "fs1", "fa0", "fa1", "fa2", "fa3", "fa4", "fa5",
    "fa6", "fa7", "fs2", "fs3", "fs4", "fs5", "fs6", "fs7", "fs8", "fs9", "fs10", "fs11", "ft8", "ft9", "ft10", "ft11"]

/-- The ABI name of an x register (R32). -/
def xName (r : Reg) : String := xNames.getD r.toNat ""

/-- The ABI name of an f register (R41). -/
def fName (r : Reg) : String := fNames.getD r.toNat ""

/-- Lane `j` of a vector register, bits `8j+7 : 8j`: a signed 8-bit integer (R47, decision D26). -/
def lane (v : Word) (j : Nat) : Byte := v.extractLsb' (8 * j) 8

/-- The `mcause` number of RISC-V for an exception, "for display" (R361, general knowledge G9). -/
def Fault.cause : Fault → Nat
  | .instructionAddressMisaligned _ => 0
  | .instructionAccessFault _ => 1
  | .illegalInstruction _ => 2
  | .breakpoint _ => 3
  | .loadAccessFault _ => 5
  | .storeAccessFault _ => 7
  | .environmentCall => 11

/-! ## Assembler text -/

/-- `x0` to `x31`. -/
def xReg (r : Reg) : String := "x" ++ toString r.toNat

/-- `f0` to `f31`. -/
def fReg (r : Reg) : String := "f" ++ toString r.toNat

/-- `v0` to `v31`: the field number, of which the low two bits select the register (R143). -/
def vReg (r : Reg) : String := "v" ++ toString r.toNat

/-- A signed immediate. -/
def number (imm : Word) : String := toString imm.toInt

/-- `imm(rs1)`. -/
def based (imm : Word) (rs1 : Reg) : String := number imm ++ "(" ++ xReg rs1 ++ ")"

/-- The address a branch or JAL at `pc` names: "the assembler encodes target - pc" (R140). -/
def target (pc imm : Word) : String := toString (pc + imm).toNat

/-- The operands after the mnemonic, separated by commas. -/
def operands (l : List String) : String := " " ++ String.intercalate ", " l

/-- The operands of an instruction at `pc`, in the order of R140 and R143. -/
def operandText (pc : Word) : Instr → String
  | .add rd rs1 rs2 => operands [xReg rd, xReg rs1, xReg rs2]
  | .sub rd rs1 rs2 => operands [xReg rd, xReg rs1, xReg rs2]
  | .sll rd rs1 rs2 => operands [xReg rd, xReg rs1, xReg rs2]
  | .slt rd rs1 rs2 => operands [xReg rd, xReg rs1, xReg rs2]
  | .sltu rd rs1 rs2 => operands [xReg rd, xReg rs1, xReg rs2]
  | .xor rd rs1 rs2 => operands [xReg rd, xReg rs1, xReg rs2]
  | .srl rd rs1 rs2 => operands [xReg rd, xReg rs1, xReg rs2]
  | .sra rd rs1 rs2 => operands [xReg rd, xReg rs1, xReg rs2]
  | .or rd rs1 rs2 => operands [xReg rd, xReg rs1, xReg rs2]
  | .and rd rs1 rs2 => operands [xReg rd, xReg rs1, xReg rs2]
  | .addi rd rs1 imm => operands [xReg rd, xReg rs1, number imm]
  | .slti rd rs1 imm => operands [xReg rd, xReg rs1, number imm]
  | .sltiu rd rs1 imm => operands [xReg rd, xReg rs1, number imm]
  | .xori rd rs1 imm => operands [xReg rd, xReg rs1, number imm]
  | .ori rd rs1 imm => operands [xReg rd, xReg rs1, number imm]
  | .andi rd rs1 imm => operands [xReg rd, xReg rs1, number imm]
  | .slli rd rs1 shamt => operands [xReg rd, xReg rs1, toString shamt.toNat]
  | .srli rd rs1 shamt => operands [xReg rd, xReg rs1, toString shamt.toNat]
  | .srai rd rs1 shamt => operands [xReg rd, xReg rs1, toString shamt.toNat]
  | .lb rd rs1 imm => operands [xReg rd, based imm rs1]
  | .lh rd rs1 imm => operands [xReg rd, based imm rs1]
  | .lw rd rs1 imm => operands [xReg rd, based imm rs1]
  | .lbu rd rs1 imm => operands [xReg rd, based imm rs1]
  | .lhu rd rs1 imm => operands [xReg rd, based imm rs1]
  | .sb rs1 rs2 imm => operands [xReg rs2, based imm rs1]
  | .sh rs1 rs2 imm => operands [xReg rs2, based imm rs1]
  | .sw rs1 rs2 imm => operands [xReg rs2, based imm rs1]
  | .beq rs1 rs2 imm => operands [xReg rs1, xReg rs2, target pc imm]
  | .bne rs1 rs2 imm => operands [xReg rs1, xReg rs2, target pc imm]
  | .blt rs1 rs2 imm => operands [xReg rs1, xReg rs2, target pc imm]
  | .bge rs1 rs2 imm => operands [xReg rs1, xReg rs2, target pc imm]
  | .bltu rs1 rs2 imm => operands [xReg rs1, xReg rs2, target pc imm]
  | .bgeu rs1 rs2 imm => operands [xReg rs1, xReg rs2, target pc imm]
  | .lui rd imm => operands [xReg rd, toString (imm.extractLsb' 12 20).toNat]
  | .auipc rd imm => operands [xReg rd, toString (imm.extractLsb' 12 20).toNat]
  | .jal rd imm => operands [xReg rd, target pc imm]
  | .jalr rd rs1 imm _ => operands [xReg rd, based imm rs1]
  | .ecall => ""
  | .ebreak => ""
  | .fence _ _ _ => ""
  | .mul rd rs1 rs2 => operands [xReg rd, xReg rs1, xReg rs2]
  | .mulh rd rs1 rs2 => operands [xReg rd, xReg rs1, xReg rs2]
  | .mulhsu rd rs1 rs2 => operands [xReg rd, xReg rs1, xReg rs2]
  | .mulhu rd rs1 rs2 => operands [xReg rd, xReg rs1, xReg rs2]
  | .div rd rs1 rs2 => operands [xReg rd, xReg rs1, xReg rs2]
  | .divu rd rs1 rs2 => operands [xReg rd, xReg rs1, xReg rs2]
  | .rem rd rs1 rs2 => operands [xReg rd, xReg rs1, xReg rs2]
  | .remu rd rs1 rs2 => operands [xReg rd, xReg rs1, xReg rs2]
  | .flw rd rs1 imm => operands [fReg rd, based imm rs1]
  | .fsw rs1 rs2 imm => operands [fReg rs2, based imm rs1]
  | .faddS rd rs1 rs2 _ => operands [fReg rd, fReg rs1, fReg rs2]
  | .fsubS rd rs1 rs2 _ => operands [fReg rd, fReg rs1, fReg rs2]
  | .fmulS rd rs1 rs2 _ => operands [fReg rd, fReg rs1, fReg rs2]
  | .fdivS rd rs1 rs2 _ => operands [fReg rd, fReg rs1, fReg rs2]
  | .fsqrtS rd rs1 _ => operands [fReg rd, fReg rs1]
  | .fmaddS rd rs1 rs2 rs3 _ _ => operands [fReg rd, fReg rs1, fReg rs2, fReg rs3]
  | .fmsubS rd rs1 rs2 rs3 _ _ => operands [fReg rd, fReg rs1, fReg rs2, fReg rs3]
  | .fnmsubS rd rs1 rs2 rs3 _ _ => operands [fReg rd, fReg rs1, fReg rs2, fReg rs3]
  | .fnmaddS rd rs1 rs2 rs3 _ _ => operands [fReg rd, fReg rs1, fReg rs2, fReg rs3]
  | .fsgnjS rd rs1 rs2 => operands [fReg rd, fReg rs1, fReg rs2]
  | .fsgnjnS rd rs1 rs2 => operands [fReg rd, fReg rs1, fReg rs2]
  | .fsgnjxS rd rs1 rs2 => operands [fReg rd, fReg rs1, fReg rs2]
  | .fminS rd rs1 rs2 => operands [fReg rd, fReg rs1, fReg rs2]
  | .fmaxS rd rs1 rs2 => operands [fReg rd, fReg rs1, fReg rs2]
  | .feqS rd rs1 rs2 => operands [xReg rd, fReg rs1, fReg rs2]
  | .fltS rd rs1 rs2 => operands [xReg rd, fReg rs1, fReg rs2]
  | .fleS rd rs1 rs2 => operands [xReg rd, fReg rs1, fReg rs2]
  | .fcvtWS rd rs1 _ => operands [xReg rd, fReg rs1]
  | .fcvtWuS rd rs1 _ => operands [xReg rd, fReg rs1]
  | .fcvtSW rd rs1 _ => operands [fReg rd, xReg rs1]
  | .fcvtSWu rd rs1 _ => operands [fReg rd, xReg rs1]
  | .fmvXW rd rs1 _ => operands [xReg rd, fReg rs1]
  | .fmvWX rd rs1 _ => operands [fReg rd, xReg rs1]
  | .fclassS rd rs1 _ => operands [xReg rd, fReg rs1]
  | .npuMacc rd rs1 rs2 => operands [xReg rd, xReg rs1, xReg rs2]
  | .npuVmac rd rs1 rs2 => operands [xReg rd, xReg rs1, xReg rs2]
  | .npuVexp rd rs1 rs2 => operands [xReg rd, xReg rs1, xReg rs2]
  | .npuVrsqrt rd rs1 rs2 => operands [xReg rd, xReg rs1, xReg rs2]
  | .npuVmul rd rs1 rs2 => operands [xReg rd, xReg rs1, xReg rs2]
  | .npuVreduce rd rs1 rs2 => operands [xReg rd, xReg rs1, xReg rs2]
  | .npuVmax rd rs1 rs2 => operands [xReg rd, xReg rs1, xReg rs2]
  | .npuRelu rd rs1 rs2 => operands [xReg rd, xReg rs1, xReg rs2]
  | .npuQmul rd rs1 rs2 => operands [xReg rd, xReg rs1, xReg rs2]
  | .npuClamp rd rs1 rs2 => operands [xReg rd, xReg rs1, xReg rs2]
  | .npuGelu rd rs1 rs2 => operands [xReg rd, xReg rs1, xReg rs2]
  | .npuRstacc rd rs1 rs2 => operands [xReg rd, xReg rs1, xReg rs2]
  | .npuLdvec rd rs1 imm => operands [vReg rd, based imm rs1]
  | .npuStvec rs1 rs2 imm => operands [vReg rs2, based imm rs1]

/-- The assembler text of an instruction at `pc`: the mnemonic in lower case, destination first (R140). -/
def asm (pc : Word) (i : Instr) : String := i.mnemonic.toLower ++ operandText pc i

/-! ## Pseudo-instructions -/

/-- The pseudo-instructions of the source (R141: the first three) and of RISC-V (R142, general knowledge G8). A branch or
jump names its target by the offset from the instruction. -/
inductive Pseudo where
  | fmvS (fd fs : Reg)
  | fnegS (fd fs : Reg)
  | fabsS (fd fs : Reg)
  | nop
  | li (rd : Reg) (imm : Word)
  | mv (rd rs : Reg)
  | not (rd rs : Reg)
  | neg (rd rs : Reg)
  | seqz (rd rs : Reg)
  | snez (rd rs : Reg)
  | beqz (rs : Reg) (offset : Word)
  | bnez (rs : Reg) (offset : Word)
  | j (offset : Word)
  | jr (rs : Reg)
  | ret
  | call (offset : Word)
  deriving DecidableEq, Repr

/-- The low part of a 32-bit constant: `lo12 = sext(imm[11:0])` (R142). -/
def lowPart (imm : Word) : Word := (imm.extractLsb' 0 12).signExtend 32

/-- The instructions a pseudo-instruction stands for, in order (R141, R142). -/
def expand : Pseudo → List Instr
  | .fmvS fd fs => [.fsgnjS fd fs fs]
  | .fnegS fd fs => [.fsgnjnS fd fs fs]
  | .fabsS fd fs => [.fsgnjxS fd fs fs]
  | .nop => [.addi 0 0 0#32]
  | .li rd imm => if fitsI imm then [.addi rd 0 imm] else [.lui rd (imm - lowPart imm), .addi rd rd (lowPart imm)]
  | .mv rd rs => [.addi rd rs 0#32]
  | .not rd rs => [.xori rd rs (-1#32)]
  | .neg rd rs => [.sub rd 0 rs]
  | .seqz rd rs => [.sltiu rd rs 1#32]
  | .snez rd rs => [.sltu rd 0 rs]
  | .beqz rs offset => [.beq rs 0 offset]
  | .bnez rs offset => [.bne rs 0 offset]
  | .j offset => [.jal 0 offset]
  | .jr rs => [.jalr 0 rs 0#32 0#3]
  | .ret => [.jalr 0 1 0#32 0#3]
  | .call offset => [.jal 1 offset]

end Sys2Proof.Machine
end

