-- ==== Sys2Proof/Safety.lean ====
section
/-!
DEFINITION. The terms the claims are stated in: the invariant of the machine, what a step leaves unchanged, the ways an
instruction completes, the classes of instructions the spec's tables name, and the rules of floating point in terms of real
numbers. Nothing here is read by the machine.
-/

namespace Sys2Proof

/-! ## Classes of instructions -/

/-- The fourteen instructions at opcode `0x0B` (47_npu.md R320). -/
def Instr.isNpu (i : Instr) : Bool :=
  ["NPU.MACC", "NPU.VMAC", "NPU.VEXP", "NPU.VRSQRT", "NPU.VMUL", "NPU.VREDUCE", "NPU.VMAX", "NPU.RELU", "NPU.QMUL",
    "NPU.CLAMP", "NPU.GELU", "NPU.RSTACC", "NPU.LDVEC", "NPU.STVEC"].contains i.mnemonic

/-- The instructions that write `acc` (10_state.md R46). -/
def Instr.writesAcc (i : Instr) : Bool := ["NPU.MACC", "NPU.VMAC", "NPU.RSTACC"].contains i.mnemonic

/-- The instructions that set the pc themselves (10_state.md R35): the branches, JAL and JALR. -/
def Instr.isControl (i : Instr) : Bool :=
  ["BEQ", "BNE", "BLT", "BGE", "BLTU", "BGEU", "JAL", "JALR"].contains i.mnemonic

/-- The instructions that raise `LoadAccessFault` (60_exceptions.md R360). -/
def Instr.readsMemory (i : Instr) : Bool :=
  ["LB", "LH", "LW", "LBU", "LHU", "FLW", "NPU.LDVEC", "NPU.VRSQRT", "NPU.VMAC", "NPU.VREDUCE", "NPU.VMAX", "NPU.VEXP",
    "NPU.VMUL"].contains i.mnemonic

/-- The instructions that write memory, and so raise `StoreAccessFault` (10_state.md R50; 60_exceptions.md R360). -/
def Instr.writesMemory (i : Instr) : Bool :=
  ["SB", "SH", "SW", "FSW", "NPU.STVEC", "NPU.VEXP", "NPU.VMUL"].contains i.mnemonic

/-- ECALL and EBREAK, which raise their exception always (60_exceptions.md R360). -/
def Instr.isSystem (i : Instr) : Bool := ["ECALL", "EBREAK"].contains i.mnemonic

/-- The instructions that write `x[rd]`, by the table of 10_state.md R33. -/
def Instr.writesX (i : Instr) : Bool :=
  ["ADD", "SUB", "SLL", "SLT", "SLTU", "XOR", "SRL", "SRA", "OR", "AND", "MUL", "MULH", "MULHSU", "MULHU", "DIV", "DIVU",
    "REM", "REMU", "ADDI", "SLTI", "SLTIU", "XORI", "ORI", "ANDI", "SLLI", "SRLI", "SRAI", "LB", "LH", "LW", "LBU", "LHU",
    "LUI", "AUIPC", "JAL", "JALR", "FEQ.S", "FLT.S", "FLE.S", "FCVT.W.S", "FCVT.WU.S", "FMV.X.W", "FCLASS.S",
    "NPU.VRSQRT", "NPU.VREDUCE", "NPU.VMAX", "NPU.RELU", "NPU.CLAMP", "NPU.GELU", "NPU.QMUL",
    "NPU.RSTACC"].contains i.mnemonic

/-- The instructions that write `f[rd]`: the F instructions of 45_f_arith.md and 46_f_misc.md with an FP result. -/
def Instr.writesF (i : Instr) : Bool :=
  ["FLW", "FADD.S", "FSUB.S", "FMUL.S", "FDIV.S", "FSQRT.S", "FMADD.S", "FMSUB.S", "FNMSUB.S", "FNMADD.S", "FSGNJ.S",
    "FSGNJN.S", "FSGNJX.S", "FMIN.S", "FMAX.S", "FCVT.S.W", "FCVT.S.WU", "FMV.W.X"].contains i.mnemonic

/-- The instructions that can set a flag of `fcsr`, by the table of 45_f_arith.md R263. -/
def Instr.signals (i : Instr) : Bool :=
  ["FADD.S", "FSUB.S", "FMUL.S", "FDIV.S", "FSQRT.S", "FMADD.S", "FMSUB.S", "FNMSUB.S", "FNMADD.S", "FMIN.S", "FMAX.S",
    "FEQ.S", "FLT.S", "FLE.S", "FCVT.W.S", "FCVT.WU.S", "FCVT.S.W", "FCVT.S.WU"].contains i.mnemonic

/-- The computational instructions with an FP result (45_f_arith.md R264). -/
def Instr.isFpArith (i : Instr) : Bool :=
  ["FADD.S", "FSUB.S", "FMUL.S", "FDIV.S", "FSQRT.S", "FMADD.S", "FMSUB.S", "FNMSUB.S", "FNMADD.S"].contains i.mnemonic

/-- The number in the `rd` field, bits 11:7 of the instruction's word (30_encoding.md R112). -/
def Instr.rdField (i : Instr) : Reg := rdOf (encode i)

end Sys2Proof

namespace Sys2Proof.Machine

/-! ## The invariant -/

/-- A machine state in good order over a memory map: the memory has its canonical form (20_memory.md R70), it lists bytes of
`MEM_VALID` only (10_state.md R49), the cell of x0 is zero (R31) and the pc is even (R37). -/
def Arch.ok (map : List Region) (a : Arch) : Bool :=
  a.mem.wf && a.mem.all (fun c => validIn map c.1) && a.x[0] == 0#32 && !a.pc.getLsbD 0

/-- A handler that from a state in good order resumes with a state in good order, or stops. R374: "A proof about a program
containing ECALL holds only relative to the handler assumed"; this is what the invariant assumes of it. -/
def EcallHandler.KeepsOrder (h : EcallHandler) (map : List Region) : Prop :=
  ∀ a b, h.answer a = some b → a.ok map = true → b.ok map = true

/-- The invariant that every step keeps: the state is in good order, and the handler keeps states in good order. -/
def State.Inv (s : State) : Prop := s.toArch.ok s.memMap = true ∧ s.ecallHandler.KeepsOrder s.memMap

/-- A handler that cannot see `fcsr` and `acc_hi`: for states that differ in these alone it answers alike, but for these. -/
def EcallHandler.Blind (h : EcallHandler) : Prop :=
  ∀ (a : Arch) (c : Fcsr) (v : Word),
    (∀ b, h.answer a = some b →
      ∃ c' v', h.answer { a with fcsr := c, accHi := v } = some { b with fcsr := c', accHi := v' }) ∧
    (h.answer a = none → h.answer { a with fcsr := c, accHi := v } = none)

/-! ## What stays and what changes -/

/-- The `n` bytes at `a` are all in `MEM_VALID` (20_memory.md R71). -/
def AllValid (s : State) (a : Word) (n : Nat) : Prop := ∀ i, i < n → s.valid (a + BitVec.ofNat 32 i) = true

/-- The word in memory at an address, the byte at the lowest address least significant (20_memory.md R72, R75). -/
def wordIn (s : State) (a : Word) : Word :=
  s.byteAt (a + 3#32) ++ s.byteAt (a + 2#32) ++ s.byteAt (a + 1#32) ++ s.byteAt a

/-- Every x register reads as before. -/
def KeepsX (s t : State) : Prop := ∀ r, t.readX r = s.readX r

/-- `x[rd] <- v` and no other x register; nothing when `rd = 0` (10_state.md R31). -/
def WritesX (s t : State) (rd : Reg) (v : Word) : Prop :=
  t.readX rd = (if rd = 0#5 then 0#32 else v) ∧ ∀ r, r ≠ rd → t.readX r = s.readX r

/-- Every f register reads as before. -/
def KeepsF (s t : State) : Prop := ∀ r, t.readF r = s.readF r

/-- `f[rd] <- v` and no other f register. -/
def WritesF (s t : State) (rd : Reg) (v : Word) : Prop :=
  t.readF rd = v ∧ ∀ r, r ≠ rd → t.readF r = s.readF r

/-- `fcsr` is as before, rounding mode and flags. -/
def KeepsFcsr (s t : State) : Prop := t.fcsr = s.fcsr

/-- The flags of `new` are set, the others are as before, and so is the rounding mode (10_state.md R43, R45). -/
def Signals (s t : State) (new : FFlags) : Prop :=
  t.fcsr = { frm := s.fcsr.frm, fflags := s.fcsr.fflags.union new }

/-- The accumulator is as before. -/
def KeepsAcc (s t : State) : Prop := t.accLo = s.accLo ∧ t.accHi = s.accHi

/-- `acc` is `v`: the low half is `v[31:0]`, the high half `v[63:32]` (10_state.md R46). -/
def WritesAcc (t : State) (v : BitVec 64) : Prop := t.accLo = v.extractLsb' 0 32 ∧ t.accHi = v.extractLsb' 32 32

/-- Every vector register reads as before. -/
def KeepsV (s t : State) : Prop := ∀ k, t.readV k = s.readV k

/-- The NPU state is as before. -/
def KeepsNpu (s t : State) : Prop := KeepsAcc s t ∧ KeepsV s t

/-- Every byte of memory reads as before. -/
def KeepsMem (s t : State) : Prop := ∀ a, t.byteAt a = s.byteAt a

/-- Every byte of memory outside the `n` bytes at `a` reads as before. -/
def KeepsMemOutside (s t : State) (a : Word) (n : Nat) : Prop :=
  ∀ b, (∀ i, i < n → b ≠ a + BitVec.ofNat 32 i) → t.byteAt b = s.byteAt b

/-- `MemWrite(a, n, v)`, `v` given as a word: byte `i` of `v` lies at `a + i`, every other byte is as before
(20_memory.md R73). -/
def WritesMem (s t : State) (a : Word) (n : Nat) (v : Word) : Prop :=
  (∀ i, i < n → t.byteAt (a + BitVec.ofNat 32 i) = v.extractLsb' (8 * i) 8) ∧ KeepsMemOutside s t a n

/-- The parameters a run is relative to are as before: the memory map and the host's handler. -/
def KeepsHost (s t : State) : Prop := t.memMap = s.memMap ∧ t.ecallHandler = s.ecallHandler

/-- Every register but the pc is as before: x, f, `fcsr`, `acc` and the vector registers. -/
def KeepsRegs (s t : State) : Prop := KeepsX s t ∧ KeepsF s t ∧ KeepsFcsr s t ∧ KeepsNpu s t

/-! ## The ways an instruction completes -/

/-- The outcome is a next state with `x[rd] <- v` and the pc at `pc + 4`; nothing else changes. -/
def CompletesX (s : State) (o : Result) (rd : Reg) (v : Word) : Prop :=
  ∃ t, o = .next t ∧ t.pc = s.pc + 4#32 ∧ WritesX s t rd v ∧
    KeepsF s t ∧ KeepsFcsr s t ∧ KeepsNpu s t ∧ KeepsMem s t ∧ KeepsHost s t

/-- The outcome is a next state with `x[rd] <- v`, the flags `new` signalled and the pc at `pc + 4`; nothing else changes. -/
def CompletesXSignals (s : State) (o : Result) (rd : Reg) (v : Word) (new : FFlags) : Prop :=
  ∃ t, o = .next t ∧ t.pc = s.pc + 4#32 ∧ WritesX s t rd v ∧ Signals s t new ∧
    KeepsF s t ∧ KeepsNpu s t ∧ KeepsMem s t ∧ KeepsHost s t

/-- The outcome is a next state with `f[rd] <- v`, the flags `new` signalled and the pc at `pc + 4`; nothing else changes. -/
def CompletesF (s : State) (o : Result) (rd : Reg) (v : Word) (new : FFlags) : Prop :=
  ∃ t, o = .next t ∧ t.pc = s.pc + 4#32 ∧ WritesF s t rd v ∧ Signals s t new ∧
    KeepsX s t ∧ KeepsNpu s t ∧ KeepsMem s t ∧ KeepsHost s t

/-- The outcome is a next state with `acc <- v` and the pc at `pc + 4`; nothing else changes. -/
def CompletesAcc (s : State) (o : Result) (v : BitVec 64) : Prop :=
  ∃ t, o = .next t ∧ t.pc = s.pc + 4#32 ∧ WritesAcc t v ∧
    KeepsX s t ∧ KeepsF s t ∧ KeepsFcsr s t ∧ KeepsV s t ∧ KeepsMem s t ∧ KeepsHost s t

/-- The outcome is a next state with `MemWrite(a, n, v)` done and the pc at `pc + 4`; nothing else changes. -/
def CompletesStore (s : State) (o : Result) (a : Word) (n : Nat) (v : Word) : Prop :=
  ∃ t, o = .next t ∧ t.pc = s.pc + 4#32 ∧ WritesMem s t a n v ∧ KeepsRegs s t ∧ KeepsHost s t

/-- The outcome is a next state with the pc at `target`; nothing else changes. -/
def GoesTo (s : State) (o : Result) (target : Word) : Prop :=
  ∃ t, o = .next t ∧ t.pc = target ∧ KeepsRegs s t ∧ KeepsMem s t ∧ KeepsHost s t

/-- The outcome is a next state with `x[rd] <- link` and the pc at `target`; nothing else changes. -/
def LinksAndGoesTo (s : State) (o : Result) (rd : Reg) (link target : Word) : Prop :=
  ∃ t, o = .next t ∧ t.pc = target ∧ WritesX s t rd link ∧
    KeepsF s t ∧ KeepsFcsr s t ∧ KeepsNpu s t ∧ KeepsMem s t ∧ KeepsHost s t

/-- A run of `n` writes, each of `size` bytes at `dst + size * i` and of a value read from the state before it, ends in the
outcome, with the pc at `pc + 4`, no register changed, and no byte outside the array (R322). -/
def CompletesInOrder (s : State) (o : Result) (dst : Word) (size n : ℕ) (value : State → ℕ → Word) : Prop :=
  ∃ (m : ℕ → State) (t : State), o = .next t ∧ m 0 = s ∧
    (∀ i, i < n → WritesMem (m i) (m (i + 1)) (dst + BitVec.ofNat 32 (size * i)) size (value (m i) i)) ∧
    KeepsMem (m n) t ∧ KeepsMemOutside s t dst (size * n) ∧ t.pc = s.pc + 4#32 ∧ KeepsRegs s t ∧ KeepsHost s t

/-- Instructions executed one after another, each on the state the one before left. -/
def execAll : List Instr → State → Result
  | [], s => .next s
  | i :: rest, s =>
    match exec i s with
    | .next t => execAll rest t
    | o => o

/-- The offset of a pseudo-instruction is one its branch or jump can hold (30_encoding.md R122, R124, R142). -/
def Pseudo.fits : Pseudo → Bool
  | .beqz _ offset => fitsB offset
  | .bnez _ offset => fitsB offset
  | .j offset => fitsJ offset
  | .call offset => fitsJ offset
  | _ => true

/-- Every word with the bits of a row of the opcode table decodes to the row's instruction (30_encoding.md R144). -/
def Decodes (pattern mask : Word) (f : Word → Instr) : Prop := ∀ w, w &&& mask = pattern → decode w = .ok (f w)

/-- Every word with the property is rejected as an illegal instruction (30_encoding.md R135). -/
def Illegal (p : Word → Prop) : Prop := ∀ w, p w → decode w = .error (.illegalInstruction w)

/-! ## Floating point in terms of real numbers -/

/-- `val(p)` of a finite pattern, by the table of 45_f_arith.md R260. -/
def fpVal (p : Word) : ℚ :=
  (if fpSign p then -1 else 1) *
    (if fpExp p = 0 then (fpFrac p : ℚ) * 2 ^ (-149 : ℤ) else ((2 ^ 23 + fpFrac p : ℕ) : ℚ) * 2 ^ ((fpExp p : ℤ) - 150))

/-- A finite pattern: neither NaN nor infinity. -/
def isFinite (p : Word) : Bool := !isNaN p && !isInf p

/-- `k` is the integer nearest to `y`, the even one of two at the same distance. -/
def NearestEven (y : ℝ) (k : ℕ) : Prop := |y - k| < 1 / 2 ∨ (|y - k| = 1 / 2 ∧ k % 2 = 0)

/-- `encode(v)` of 45_f_arith.md R262 with the sign of `r`: `p` is finite, its sign is that of `r`, its magnitude is `v`. -/
def Encodes (r : ℝ) (p : Word) (v : ℝ) : Prop :=
  isFinite p = true ∧ (fpSign p = true ↔ r < 0) ∧ |(fpVal p : ℝ)| = v

/-- `round(r)` of 45_f_arith.md R262: `p` is the pattern delivered and `fl` the flags signalled for the real `r`. With
`2^e <= |r| < 2^(e+1)`, `u` is `|r|` rounded to 24 significant bits with no limit on the exponent. -/
def RoundedTo (r : ℝ) (p : Word) (fl : FFlags) : Prop :=
  ∃ (e : ℤ) (k : ℕ) (u : ℝ),
    (2 : ℝ) ^ e ≤ |r| ∧ |r| < 2 ^ (e + 1) ∧ NearestEven (|r| / 2 ^ (e - 23)) k ∧ u = k * 2 ^ (e - 23) ∧
    (2 ^ (128 : ℤ) ≤ u → p = (if r < 0 then 0xFF800000#32 else 0x7F800000#32) ∧ fl = FFlags.overflow) ∧
    (u < 2 ^ (-126 : ℤ) → ∃ m : ℕ, NearestEven (|r| / 2 ^ (-149 : ℤ)) m ∧ Encodes r p (m * 2 ^ (-149 : ℤ)) ∧
      fl = if m * 2 ^ (-149 : ℤ) = |r| then FFlags.none else FFlags.underflow) ∧
    (2 ^ (-126 : ℤ) ≤ u → u < 2 ^ (128 : ℤ) → Encodes r p u ∧ fl = if u = |r| then FFlags.none else FFlags.inexact)

/-- `fp_add(a, b)`, 45_f_arith.md R267. -/
def AddRule (a b p : Word) (fl : FFlags) : Prop :=
  if isNaN a || isNaN b then p = 0x7FC00000#32 ∧ fl = FFlags.when (isSNaN a || isSNaN b) FFlags.invalid
  else if isInf a && isInf b then
    if fpSign a != fpSign b then p = 0x7FC00000#32 ∧ fl = FFlags.invalid else p = a ∧ fl = FFlags.none
  else if isInf a then p = a ∧ fl = FFlags.none
  else if isInf b then p = b ∧ fl = FFlags.none
  else if fpVal a + fpVal b = 0 then
    p = (if isZero a && isZero b && fpSign a == fpSign b then a else 0x00000000#32) ∧ fl = FFlags.none
  else RoundedTo ((fpVal a + fpVal b : ℚ) : ℝ) p fl

/-- A pattern with sign `sg` and the 31 low bits of `m`: the `{sg, m[30:0]}` of 45_f_arith.md R269. -/
def withSignBit (sg : Bool) (m : Word) : Word := if sg then m ||| 0x80000000#32 else m &&& 0x7FFFFFFF#32

/-- FMUL.S, 45_f_arith.md R269. -/
def MulRule (a b p : Word) (fl : FFlags) : Prop :=
  if isNaN a || isNaN b then p = 0x7FC00000#32 ∧ fl = FFlags.when (isSNaN a || isSNaN b) FFlags.invalid
  else if (isInf a && isZero b) || (isZero a && isInf b) then p = 0x7FC00000#32 ∧ fl = FFlags.invalid
  else if isInf a || isInf b then p = withSignBit (fpSign a != fpSign b) 0x7F800000#32 ∧ fl = FFlags.none
  else if isZero a || isZero b then p = withSignBit (fpSign a != fpSign b) 0x00000000#32 ∧ fl = FFlags.none
  else RoundedTo ((fpVal a * fpVal b : ℚ) : ℝ) p fl

/-- FDIV.S, 45_f_arith.md R270. -/
def DivRule (a b p : Word) (fl : FFlags) : Prop :=
  if isNaN a || isNaN b then p = 0x7FC00000#32 ∧ fl = FFlags.when (isSNaN a || isSNaN b) FFlags.invalid
  else if (isZero a && isZero b) || (isInf a && isInf b) then p = 0x7FC00000#32 ∧ fl = FFlags.invalid
  else if isInf a then p = withSignBit (fpSign a != fpSign b) 0x7F800000#32 ∧ fl = FFlags.none
  else if isInf b then p = withSignBit (fpSign a != fpSign b) 0x00000000#32 ∧ fl = FFlags.none
  else if isZero b then p = withSignBit (fpSign a != fpSign b) 0x7F800000#32 ∧ fl = FFlags.divByZero
  else if isZero a then p = withSignBit (fpSign a != fpSign b) 0x00000000#32 ∧ fl = FFlags.none
  else RoundedTo ((fpVal a / fpVal b : ℚ) : ℝ) p fl

/-- FSQRT.S, 45_f_arith.md R271. -/
def SqrtRule (a p : Word) (fl : FFlags) : Prop :=
  if isNaN a then p = 0x7FC00000#32 ∧ fl = FFlags.when (isSNaN a) FFlags.invalid
  else if isZero a then p = a ∧ fl = FFlags.none
  else if fpSign a then p = 0x7FC00000#32 ∧ fl = FFlags.invalid
  else if isInf a then p = a ∧ fl = FFlags.none
  else RoundedTo (Real.sqrt (fpVal a : ℝ)) p fl

/-- `fp_fma(a, b, c)`, 45_f_arith.md R272. -/
def FmaRule (a b c p : Word) (fl : FFlags) : Prop :=
  if isNaN a || isNaN b || isNaN c || (isInf a && isZero b) || (isZero a && isInf b) then
    p = 0x7FC00000#32 ∧
      fl = FFlags.when (isSNaN a || isSNaN b || isSNaN c || (isInf a && isZero b) || (isZero a && isInf b)) FFlags.invalid
  else if isInf a || isInf b then
    if isInf c && fpSign c != (fpSign a != fpSign b) then p = 0x7FC00000#32 ∧ fl = FFlags.invalid
    else p = withSignBit (fpSign a != fpSign b) 0x7F800000#32 ∧ fl = FFlags.none
  else if isInf c then p = c ∧ fl = FFlags.none
  else if fpVal a * fpVal b + fpVal c = 0 then
    p = (if (isZero a || isZero b) && isZero c && (fpSign a != fpSign b) == fpSign c
      then withSignBit (fpSign c) 0x00000000#32 else 0x00000000#32) ∧ fl = FFlags.none
  else RoundedTo ((fpVal a * fpVal b + fpVal c : ℚ) : ℝ) p fl

/-- `val(a) < val(b)` on non-NaN patterns, with the infinities at the ends (46_f_misc.md R293, R305). -/
def FpLt (a b : Word) : Prop :=
  if isInf a then fpSign a = true ∧ b ≠ a
  else if isInf b then fpSign b = false
  else fpVal a < fpVal b

/-- `val(a) = val(b)` on non-NaN patterns; an infinity is equal to itself only (46_f_misc.md R305). -/
def FpEqual (a b : Word) : Prop := if isInf a || isInf b then a = b else fpVal a = fpVal b

/-- `fp_less(a, b)` of 46_f_misc.md R293: the order in which `-0 < +0`. -/
def FpBefore (a b : Word) : Prop := FpLt a b ∨ (a = 0x80000000#32 ∧ b = 0x00000000#32)

/-- `trunc(v)` of 46_f_misc.md R306: toward zero. -/
def truncRat (v : ℚ) : ℤ := if 0 ≤ v then ⌊v⌋ else ⌈v⌉

/-- Conversion of `a` to an integer of `lo .. hi`, 46_f_misc.md R298, R299 and R306. -/
def ToIntRule (lo hi : ℤ) (a : Word) (n : ℤ) (fl : FFlags) : Prop :=
  if isNaN a then n = hi ∧ fl = FFlags.invalid
  else if isInf a then n = (if fpSign a then lo else hi) ∧ fl = FFlags.invalid
  else if hi < truncRat (fpVal a) then n = hi ∧ fl = FFlags.invalid
  else if truncRat (fpVal a) < lo then n = lo ∧ fl = FFlags.invalid
  else n = truncRat (fpVal a) ∧ fl = if (n : ℚ) = fpVal a then FFlags.none else FFlags.inexact

/-- Conversion of the integer `n`, 46_f_misc.md R300, R301 and R306. -/
def OfIntRule (n : ℤ) (p : Word) (fl : FFlags) : Prop :=
  if n = 0 then p = 0x00000000#32 ∧ fl = FFlags.none else RoundedTo (n : ℝ) p fl

end Sys2Proof.Machine
end

