-- ==== Sys2Proof/Certificates/Slice0/Obligations.lean ====
section
/-!
DEFINITION. The statements for the provers, in the terms of Safety.lean. Every statement is over all states and operands that
meet its hypotheses; sums, products, quotients and orders are those of the integers, the rationals or the reals, narrowed at
the end, as 00_scope.md R10 and R11 write them.
-/

section
open Sys2Proof Sys2Proof.Machine

/-! ## Decoding and encoding -/

/-- Words that the spec writes out with the instruction they stand for (30_encoding.md R144). -/
def Obligations.KnownWordsDecode : Prop :=
  decode 0x002081B3#32 = .ok (.add 3 1 2) ∧ decode 0x00A00513#32 = .ok (.addi 10 0 10#32) ∧
  decode 0x4040D193#32 = .ok (.srai 3 1 4) ∧ decode 0xFFC32283#32 = .ok (.lw 5 6 (-4#32)) ∧
  decode 0xFE532E23#32 = .ok (.sw 6 5 (-4#32)) ∧ decode 0xFE029CE3#32 = .ok (.bne 5 0 (-8#32)) ∧
  decode 0x123452B7#32 = .ok (.lui 5 0x12345000#32) ∧ decode 0xFFDFF06F#32 = .ok (.jal 0 (-4#32)) ∧
  decode 0x007280E7#32 = .ok (.jalr 1 5 7#32 0) ∧ decode 0x00100073#32 = .ok .ebreak ∧
  decode 0x0220A1B3#32 = .ok (.mulhsu 3 1 2) ∧ decode 0x18208243#32 = .ok (.fmaddS 4 1 2 3 0 0) ∧
  decode 0xC01082D3#32 = .ok (.fcvtWuS 5 1 0) ∧ decode 0x02B5060B#32 = .ok (.npuVmac 12 10 11) ∧
  decode 0xFE657E0B#32 = .ok (.npuStvec 10 6 (-4#32))

/-- Decoding the word of a well-formed instruction gives the instruction back, every operand at every value. -/
def Obligations.DecodeEncode : Prop := ∀ i : Instr, i.wf = true → decode (encode i) = .ok i

/-- A word that decodes is the encoding of the instruction it decodes to: no bit of it is dropped. -/
def Obligations.EncodeDecode : Prop := ∀ (w : Word) (i : Instr), decode w = .ok i → i.wf = true ∧ encode i = w

/-- Decoding is the test of the 88 rows of the opcode table (30_encoding.md R144): no word matches two rows, a word that
matches none is rejected, and a word that matches one is that row's instruction with the fields the word holds. -/
def Obligations.DecodeFollowsTheTable : Prop :=
  opcodeTable.length = 88 ∧
  opcodeTable.Pairwise (fun a b => ∀ w, ¬(w &&& a.mask = a.pattern ∧ w &&& b.mask = b.pattern)) ∧
  (∀ w, (∀ r ∈ opcodeTable, w &&& r.mask ≠ r.pattern) → decode w = .error (.illegalInstruction w)) ∧
  (∀ w, ∀ r ∈ opcodeTable, w &&& r.mask = r.pattern →
    ∃ i, decode w = .ok i ∧ i.mnemonic = r.mnemonic ∧ i.wf = true ∧ encode i = w)

/-- Each immediate bit by bit from the word, and its range (30_encoding.md R120 to R124). -/
def Obligations.ImmediatesAreAssembled : Prop :=
  ∀ w : Word,
    ((∀ j, j < 11 → (immI w).getLsbD j = w.getLsbD (j + 20)) ∧ (∀ j, 11 ≤ j → j < 32 → (immI w).getLsbD j = w.getLsbD 31) ∧
      -2048 ≤ (immI w).toInt ∧ (immI w).toInt ≤ 2047) ∧
    ((∀ j, j < 5 → (immS w).getLsbD j = w.getLsbD (j + 7)) ∧
      (∀ j, 5 ≤ j → j < 11 → (immS w).getLsbD j = w.getLsbD (j + 20)) ∧
      (∀ j, 11 ≤ j → j < 32 → (immS w).getLsbD j = w.getLsbD 31) ∧
      -2048 ≤ (immS w).toInt ∧ (immS w).toInt ≤ 2047) ∧
    ((immB w).getLsbD 0 = false ∧ (∀ j, 1 ≤ j → j < 5 → (immB w).getLsbD j = w.getLsbD (j + 7)) ∧
      (∀ j, 5 ≤ j → j < 11 → (immB w).getLsbD j = w.getLsbD (j + 20)) ∧ (immB w).getLsbD 11 = w.getLsbD 7 ∧
      (∀ j, 12 ≤ j → j < 32 → (immB w).getLsbD j = w.getLsbD 31) ∧
      -4096 ≤ (immB w).toInt ∧ (immB w).toInt ≤ 4094) ∧
    ((∀ j, j < 12 → (immU w).getLsbD j = false) ∧ (∀ j, 12 ≤ j → j < 32 → (immU w).getLsbD j = w.getLsbD j)) ∧
    ((immJ w).getLsbD 0 = false ∧ (∀ j, 1 ≤ j → j < 11 → (immJ w).getLsbD j = w.getLsbD (j + 20)) ∧
      (immJ w).getLsbD 11 = w.getLsbD 20 ∧ (∀ j, 12 ≤ j → j < 20 → (immJ w).getLsbD j = w.getLsbD j) ∧
      (∀ j, 20 ≤ j → j < 32 → (immJ w).getLsbD j = w.getLsbD 31) ∧
      -1048576 ≤ (immJ w).toInt ∧ (immJ w).toInt ≤ 1048574)

/-! ## The step -/

/-- A step runs the decoded instruction (00_scope.md R15): at an aligned pc whose four bytes are valid, it is `exec` of the
instruction those bytes decode to; nothing is added around it, since the meanings set the next pc themselves. -/
def Obligations.StepRunsTheDecodedInstruction : Prop :=
  ∀ (s : State) (i : Instr), s.pc.toNat % 4 = 0 → AllValid s s.pc 4 → decode (wordIn s s.pc) = .ok i →
    step s = exec i s

/-- What a fetch stops on, and in which order (20_memory.md R80, R81; 60_exceptions.md R364). -/
def Obligations.FetchFaultsInOrder : Prop :=
  ∀ s : State,
    (s.pc.toNat % 4 ≠ 0 → step s = .fault (.instructionAddressMisaligned s.pc)) ∧
    (s.pc.toNat % 4 = 0 → ¬AllValid s s.pc 4 → step s = .fault (.instructionAccessFault s.pc))

/-- A word that matches no row of the opcode table is an illegal instruction, and only such a word is (30_encoding.md R135). -/
def Obligations.IllegalWordsStop : Prop :=
  (∀ s : State, s.pc.toNat % 4 = 0 → AllValid s s.pc 4 →
    ((∀ r ∈ opcodeTable, wordIn s s.pc &&& r.mask ≠ r.pattern) ↔
      step s = .fault (.illegalInstruction (wordIn s s.pc)))) ∧
  (∀ r ∈ opcodeTable, 0x00000000#32 &&& r.mask ≠ r.pattern ∧ 0xFFFFFFFF#32 &&& r.mask ≠ r.pattern)

/-- A word stored by SW is the instruction fetched from its address by the very next step (20_memory.md R75, R90). -/
def Obligations.StoredWordIsFetched : Prop :=
  ∀ (s t : State) (rs1 rs2 : Reg) (imm : Word) (i : Instr),
    exec (.sw rs1 rs2 imm) s = .next t → (s.readX rs1 + imm).toNat % 4 = 0 → decode (s.readX rs2) = .ok i →
      step (t.setPc (s.readX rs1 + imm)) = exec i (t.setPc (s.readX rs1 + imm))

/-- The invariant: canonical memory inside `MEM_VALID`, x0's cell zero, the pc even, and a handler of ECALL that keeps these. -/
def Obligations.StepKeepsInv : Prop := ∀ s t : State, s.Inv → step s = .next t → t.Inv

/-- The state after reset meets the invariant, and would with a handler that always resumes, which keeps order over every memory
map; x0 reads zero and the pc is a multiple of 4 with valid bytes (10_state.md R52; the launch values are the model's). -/
def Obligations.ResetMeetsInv : Prop :=
  State.reset.Inv ∧ (∀ map, EcallHandler.stop.KeepsOrder map ∧ EcallHandler.resume.KeepsOrder map) ∧
  State.reset.readX 0 = 0#32 ∧ State.reset.pc.toNat % 4 = 0 ∧ AllValid State.reset State.reset.pc 4

/-- The parameters of a run: no step changes `MEM_VALID` or `ecall_handler` (00_scope.md R8), ECALL included (60_exceptions.md
R374). The two fields are the model's own (logs 1 and 8). -/
def Obligations.StepKeepsTheParameters : Prop :=
  ∀ s t : State, step s = .next t → t.memMap = s.memMap ∧ t.ecallHandler = s.ecallHandler

/-! ## Rules over all instructions -/

/-- `fcsr` only accumulates flags (10_state.md R43, R45): an instruction sets some flags, clears none and leaves the rounding
mode, and one outside the table of 45_f_arith.md R263 sets none. ECALL is left out: what it resumes with is the host's. -/
def Obligations.FcsrOnlyAccumulates : Prop :=
  ∀ (i : Instr) (s t : State), i ≠ .ecall → exec i s = .next t →
    ∃ new, Signals s t new ∧ (i.signals = false → KeepsFcsr s t)

/-- The NPU state is written by the instructions 10_state.md R46 to R48 name and no others, and no instruction at opcode
`0x0B` writes an f register, a flag or another pc than `pc + 4` (47_npu.md R320). -/
def Obligations.NpuStateIsSeparate : Prop :=
  ∀ (i : Instr) (s t : State), i ≠ .ecall → exec i s = .next t →
    (i.writesAcc = false → KeepsAcc s t) ∧ (i.mnemonic ≠ "NPU.LDVEC" → KeepsV s t) ∧
    (i.isNpu = false → KeepsNpu s t) ∧ (i.isNpu = true → KeepsF s t ∧ KeepsFcsr s t ∧ t.pc = s.pc + 4#32)

/-- An instruction that is no branch and no jump goes on at `pc + 4`, modulo 2^32 (10_state.md R36, R37). -/
def Obligations.SequentialPc : Prop :=
  ∀ (i : Instr) (s t : State), i ≠ .ecall → i.isControl = false → exec i s = .next t →
    t.pc.toNat = (s.pc.toNat + 4) % 2 ^ 32

/-- Only the stores of 10_state.md R50 change memory. -/
def Obligations.OnlyStoresChangeMemory : Prop :=
  ∀ (i : Instr) (s t : State), i ≠ .ecall → i.writesMemory = false → exec i s = .next t → KeepsMem s t

/-- An instruction changes at most the x register or the f register its `rd` field names, and only if the tables of
10_state.md R33 say it writes one; x0 reads zero and its write is discarded, whatever the state (R31). -/
def Obligations.RegisterWriters : Prop :=
  (∀ (i : Instr) (s t : State), i ≠ .ecall → exec i s = .next t →
    (∀ r, t.readX r ≠ s.readX r → i.writesX = true ∧ r = i.rdField ∧ r ≠ 0#5) ∧
    (∀ r, t.readF r ≠ s.readF r → i.writesF = true ∧ r = i.rdField)) ∧
  (∀ s : State, s.readX 0#5 = 0#32 ∧ ∀ v, s.writeX 0#5 v = s)

/-- The seven exceptions, who raises each, when, and with which info value; the model refuses nothing (60_exceptions.md R360). -/
def Obligations.ExceptionsAreTheSeven : Prop :=
  (∀ (s : State) (r : Refusal), step s ≠ .refused r) ∧
  (∀ (s : State) (e : Fault), step s = .fault e →
    match e with
    | .instructionAddressMisaligned a => a = s.pc ∧ s.pc.toNat % 4 ≠ 0
    | .instructionAccessFault a => a = s.pc ∧ ¬AllValid s s.pc 4
    | .illegalInstruction w => w = wordIn s s.pc ∧ ∀ r ∈ opcodeTable, w &&& r.mask ≠ r.pattern
    | .breakpoint a => a = s.pc ∧ decode (wordIn s s.pc) = .ok .ebreak
    | .environmentCall => decode (wordIn s s.pc) = .ok .ecall ∧ s.ecallHandler.answer s.toArch = none
    | .loadAccessFault a =>
      ∃ i n, decode (wordIn s s.pc) = .ok i ∧ i.readsMemory = true ∧ n ∈ [1, 2, 4] ∧ ¬AllValid s a n
    | .storeAccessFault a =>
      ∃ i n, decode (wordIn s s.pc) = .ok i ∧ i.writesMemory = true ∧ n ∈ [1, 2, 4] ∧ ¬AllValid s a n)

/-- What never raises an exception (60_exceptions.md R375): an instruction that reaches no memory, but for ECALL and EBREAK,
and, where all memory is valid, every instruction but those two, at any alignment. -/
def Obligations.NothingElseTraps : Prop :=
  ∀ (i : Instr) (s : State), i.isSystem = false →
    ((i.readsMemory = false ∧ i.writesMemory = false) ∨ ∀ a, s.valid a = true) → ∃ t, exec i s = .next t

/-- What the registers `fcsr` and `acc_hi` hold is hidden from the program (10_state.md R44, R45, R46): two states that differ in
these alone take the same step, to states that differ in these alone. The host sees the whole state, so at an ECALL this needs a
handler that does not look at them (60_exceptions.md R374). -/
def Obligations.HiddenStateIsInvisible : Prop :=
  ∀ (s : State) (c : Fcsr) (h : Word), (decode (wordIn s s.pc) ≠ .ok .ecall ∨ s.ecallHandler.Blind) →
    (∀ t, step s = .next t →
      ∃ c' h', step { s with fcsr := c, accHi := h } = .next { t with fcsr := c', accHi := h' }) ∧
    (∀ e, step s = .fault e → step { s with fcsr := c, accHi := h } = .fault e)

/-- The memory primitives (20_memory.md R72, R73, R84): what is written is read back, at any alignment and across the top of
the address space, and no other byte changes. -/
def Obligations.WriteThenRead : Prop :=
  ∀ (s : State) (a : Word),
    (∀ v, (s.putByte a v).byteAt a = v ∧ KeepsMemOutside s (s.putByte a v) a 1) ∧
    (∀ v, (s.putHalf a v).halfAt a = v ∧ KeepsMemOutside s (s.putHalf a v) a 2) ∧
    (∀ v, (s.putWord a v).wordAt a = v ∧ KeepsMemOutside s (s.putWord a v) a 4)

/-! ## Integer computational instructions, 40_rv32i_alu.md -/

/-- The ten R-type instructions: encoding, result, and nothing else changed (R160 to R170). -/
def Obligations.RegisterArithmetic : Prop :=
  (∀ (s : State) (rd rs1 rs2 : Reg),
    let a := s.readX rs1
    let b := s.readX rs2
    CompletesX s (exec (.add rd rs1 rs2) s) rd (BitVec.ofNat 32 (a.toNat + b.toNat)) ∧
    CompletesX s (exec (.sub rd rs1 rs2) s) rd (BitVec.ofInt 32 ((a.toNat : ℤ) - b.toNat)) ∧
    CompletesX s (exec (.sll rd rs1 rs2) s) rd (BitVec.ofNat 32 (a.toNat * 2 ^ (b.toNat % 32))) ∧
    CompletesX s (exec (.slt rd rs1 rs2) s) rd (if a.toInt < b.toInt then 1#32 else 0#32) ∧
    CompletesX s (exec (.sltu rd rs1 rs2) s) rd (if a.toNat < b.toNat then 1#32 else 0#32) ∧
    CompletesX s (exec (.xor rd rs1 rs2) s) rd (a ^^^ b) ∧
    CompletesX s (exec (.srl rd rs1 rs2) s) rd (BitVec.ofNat 32 (a.toNat / 2 ^ (b.toNat % 32))) ∧
    CompletesX s (exec (.sra rd rs1 rs2) s) rd (BitVec.ofInt 32 (a.toInt / 2 ^ (b.toNat % 32))) ∧
    CompletesX s (exec (.or rd rs1 rs2) s) rd (a ||| b) ∧
    CompletesX s (exec (.and rd rs1 rs2) s) rd (a &&& b)) ∧
  Decodes 0x00000033#32 0xFE00707F#32 (fun w => .add (rdOf w) (rs1Of w) (rs2Of w)) ∧
  Decodes 0x40000033#32 0xFE00707F#32 (fun w => .sub (rdOf w) (rs1Of w) (rs2Of w)) ∧
  Decodes 0x00001033#32 0xFE00707F#32 (fun w => .sll (rdOf w) (rs1Of w) (rs2Of w)) ∧
  Decodes 0x00002033#32 0xFE00707F#32 (fun w => .slt (rdOf w) (rs1Of w) (rs2Of w)) ∧
  Decodes 0x00003033#32 0xFE00707F#32 (fun w => .sltu (rdOf w) (rs1Of w) (rs2Of w)) ∧
  Decodes 0x00004033#32 0xFE00707F#32 (fun w => .xor (rdOf w) (rs1Of w) (rs2Of w)) ∧
  Decodes 0x00005033#32 0xFE00707F#32 (fun w => .srl (rdOf w) (rs1Of w) (rs2Of w)) ∧
  Decodes 0x40005033#32 0xFE00707F#32 (fun w => .sra (rdOf w) (rs1Of w) (rs2Of w)) ∧
  Decodes 0x00006033#32 0xFE00707F#32 (fun w => .or (rdOf w) (rs1Of w) (rs2Of w)) ∧
  Decodes 0x00007033#32 0xFE00707F#32 (fun w => .and (rdOf w) (rs1Of w) (rs2Of w))

/-- The nine I-type instructions: encoding, result, and nothing else changed; a shift whose upper immediate bits hold anything
else is illegal (R171 to R179). -/
def Obligations.ImmediateArithmetic : Prop :=
  (∀ (s : State) (rd rs1 : Reg) (imm : Word),
    let a := s.readX rs1
    CompletesX s (exec (.addi rd rs1 imm) s) rd (BitVec.ofNat 32 (a.toNat + imm.toNat)) ∧
    CompletesX s (exec (.slti rd rs1 imm) s) rd (if a.toInt < imm.toInt then 1#32 else 0#32) ∧
    CompletesX s (exec (.sltiu rd rs1 imm) s) rd (if a.toNat < imm.toNat then 1#32 else 0#32) ∧
    CompletesX s (exec (.xori rd rs1 imm) s) rd (a ^^^ imm) ∧
    CompletesX s (exec (.ori rd rs1 imm) s) rd (a ||| imm) ∧
    CompletesX s (exec (.andi rd rs1 imm) s) rd (a &&& imm)) ∧
  (∀ (s : State) (rd rs1 shamt : Reg),
    let a := s.readX rs1
    CompletesX s (exec (.slli rd rs1 shamt) s) rd (BitVec.ofNat 32 (a.toNat * 2 ^ shamt.toNat)) ∧
    CompletesX s (exec (.srli rd rs1 shamt) s) rd (BitVec.ofNat 32 (a.toNat / 2 ^ shamt.toNat)) ∧
    CompletesX s (exec (.srai rd rs1 shamt) s) rd (BitVec.ofInt 32 (a.toInt / 2 ^ shamt.toNat))) ∧
  Decodes 0x00000013#32 0x0000707F#32 (fun w => .addi (rdOf w) (rs1Of w) (immI w)) ∧
  Decodes 0x00002013#32 0x0000707F#32 (fun w => .slti (rdOf w) (rs1Of w) (immI w)) ∧
  Decodes 0x00003013#32 0x0000707F#32 (fun w => .sltiu (rdOf w) (rs1Of w) (immI w)) ∧
  Decodes 0x00004013#32 0x0000707F#32 (fun w => .xori (rdOf w) (rs1Of w) (immI w)) ∧
  Decodes 0x00006013#32 0x0000707F#32 (fun w => .ori (rdOf w) (rs1Of w) (immI w)) ∧
  Decodes 0x00007013#32 0x0000707F#32 (fun w => .andi (rdOf w) (rs1Of w) (immI w)) ∧
  Decodes 0x00001013#32 0xFE00707F#32 (fun w => .slli (rdOf w) (rs1Of w) (rs2Of w)) ∧
  Decodes 0x00005013#32 0xFE00707F#32 (fun w => .srli (rdOf w) (rs1Of w) (rs2Of w)) ∧
  Decodes 0x40005013#32 0xFE00707F#32 (fun w => .srai (rdOf w) (rs1Of w) (rs2Of w)) ∧
  Illegal (fun w => opcodeOf w = 0b0010011#7 ∧ funct3Of w = 0b001#3 ∧ funct7Of w ≠ 0b0000000#7) ∧
  Illegal (fun w => opcodeOf w = 0b0010011#7 ∧ funct3Of w = 0b101#3 ∧
    funct7Of w ≠ 0b0000000#7 ∧ funct7Of w ≠ 0b0100000#7)

/-! ## Loads and stores, 41_rv32i_loadstore.md, 45_f_arith.md -/

/-- The five loads at any alignment: the value when every byte is valid, the access fault otherwise (R190 to R195, R199). -/
def Obligations.Loads : Prop :=
  (∀ (s : State) (rd rs1 : Reg) (imm : Word),
    let ea := s.readX rs1 + imm
    let b0 := s.byteAt ea
    let b1 := s.byteAt (ea + 1#32)
    (AllValid s ea 1 →
      CompletesX s (exec (.lb rd rs1 imm) s) rd (BitVec.ofInt 32 b0.toInt) ∧
      CompletesX s (exec (.lbu rd rs1 imm) s) rd (BitVec.ofNat 32 b0.toNat)) ∧
    (¬AllValid s ea 1 →
      exec (.lb rd rs1 imm) s = .fault (.loadAccessFault ea) ∧ exec (.lbu rd rs1 imm) s = .fault (.loadAccessFault ea)) ∧
    (AllValid s ea 2 →
      CompletesX s (exec (.lh rd rs1 imm) s) rd (BitVec.ofInt 32 (b1 ++ b0).toInt) ∧
      CompletesX s (exec (.lhu rd rs1 imm) s) rd (BitVec.ofNat 32 (b1 ++ b0).toNat)) ∧
    (¬AllValid s ea 2 →
      exec (.lh rd rs1 imm) s = .fault (.loadAccessFault ea) ∧ exec (.lhu rd rs1 imm) s = .fault (.loadAccessFault ea)) ∧
    (AllValid s ea 4 → CompletesX s (exec (.lw rd rs1 imm) s) rd (wordIn s ea)) ∧
    (¬AllValid s ea 4 → exec (.lw rd rs1 imm) s = .fault (.loadAccessFault ea))) ∧
  Decodes 0x00000003#32 0x0000707F#32 (fun w => .lb (rdOf w) (rs1Of w) (immI w)) ∧
  Decodes 0x00001003#32 0x0000707F#32 (fun w => .lh (rdOf w) (rs1Of w) (immI w)) ∧
  Decodes 0x00002003#32 0x0000707F#32 (fun w => .lw (rdOf w) (rs1Of w) (immI w)) ∧
  Decodes 0x00004003#32 0x0000707F#32 (fun w => .lbu (rdOf w) (rs1Of w) (immI w)) ∧
  Decodes 0x00005003#32 0x0000707F#32 (fun w => .lhu (rdOf w) (rs1Of w) (immI w))

/-- The three stores at any alignment: the low bytes of `x[rs2]` at `x[rs1] + imm` and no other byte when every byte is valid,
the access fault otherwise (R190, R196 to R199). -/
def Obligations.Stores : Prop :=
  (∀ (s : State) (rs1 rs2 : Reg) (imm : Word),
    let ea := s.readX rs1 + imm
    (AllValid s ea 1 → CompletesStore s (exec (.sb rs1 rs2 imm) s) ea 1 (s.readX rs2)) ∧
    (¬AllValid s ea 1 → exec (.sb rs1 rs2 imm) s = .fault (.storeAccessFault ea)) ∧
    (AllValid s ea 2 → CompletesStore s (exec (.sh rs1 rs2 imm) s) ea 2 (s.readX rs2)) ∧
    (¬AllValid s ea 2 → exec (.sh rs1 rs2 imm) s = .fault (.storeAccessFault ea)) ∧
    (AllValid s ea 4 → CompletesStore s (exec (.sw rs1 rs2 imm) s) ea 4 (s.readX rs2)) ∧
    (¬AllValid s ea 4 → exec (.sw rs1 rs2 imm) s = .fault (.storeAccessFault ea))) ∧
  Decodes 0x00000023#32 0x0000707F#32 (fun w => .sb (rs1Of w) (rs2Of w) (immS w)) ∧
  Decodes 0x00001023#32 0x0000707F#32 (fun w => .sh (rs1Of w) (rs2Of w) (immS w)) ∧
  Decodes 0x00002023#32 0x0000707F#32 (fun w => .sw (rs1Of w) (rs2Of w) (immS w))

/-- FLW and FSW copy 32 bits as they are: no canonical NaN, no flag; f0 is an ordinary register (R265, R266). -/
def Obligations.FloatLoadStore : Prop :=
  (∀ (s : State) (rd rs1 rs2 : Reg) (imm : Word),
    let ea := s.readX rs1 + imm
    (AllValid s ea 4 →
      CompletesF s (exec (.flw rd rs1 imm) s) rd (wordIn s ea) FFlags.none ∧
      CompletesStore s (exec (.fsw rs1 rs2 imm) s) ea 4 (s.readF rs2)) ∧
    (¬AllValid s ea 4 →
      exec (.flw rd rs1 imm) s = .fault (.loadAccessFault ea) ∧
      exec (.fsw rs1 rs2 imm) s = .fault (.storeAccessFault ea))) ∧
  Decodes 0x00002007#32 0x0000707F#32 (fun w => .flw (rdOf w) (rs1Of w) (immI w)) ∧
  Decodes 0x00002027#32 0x0000707F#32 (fun w => .fsw (rs1Of w) (rs2Of w) (immS w))

/-! ## Control transfer and system, 42_rv32i_control.md, 43_rv32i_system.md -/

/-- The six branches: the pc and nothing else, relative to the branch itself (R210 to R216). -/
def Obligations.Branches : Prop :=
  (∀ (s : State) (rs1 rs2 : Reg) (imm : Word),
    let a := s.readX rs1
    let b := s.readX rs2
    GoesTo s (exec (.beq rs1 rs2 imm) s) (if a = b then s.pc + imm else s.pc + 4#32) ∧
    GoesTo s (exec (.bne rs1 rs2 imm) s) (if a ≠ b then s.pc + imm else s.pc + 4#32) ∧
    GoesTo s (exec (.blt rs1 rs2 imm) s) (if a.toInt < b.toInt then s.pc + imm else s.pc + 4#32) ∧
    GoesTo s (exec (.bge rs1 rs2 imm) s) (if a.toInt ≥ b.toInt then s.pc + imm else s.pc + 4#32) ∧
    GoesTo s (exec (.bltu rs1 rs2 imm) s) (if a.toNat < b.toNat then s.pc + imm else s.pc + 4#32) ∧
    GoesTo s (exec (.bgeu rs1 rs2 imm) s) (if a.toNat ≥ b.toNat then s.pc + imm else s.pc + 4#32)) ∧
  Decodes 0x00000063#32 0x0000707F#32 (fun w => .beq (rs1Of w) (rs2Of w) (immB w)) ∧
  Decodes 0x00001063#32 0x0000707F#32 (fun w => .bne (rs1Of w) (rs2Of w) (immB w)) ∧
  Decodes 0x00004063#32 0x0000707F#32 (fun w => .blt (rs1Of w) (rs2Of w) (immB w)) ∧
  Decodes 0x00005063#32 0x0000707F#32 (fun w => .bge (rs1Of w) (rs2Of w) (immB w)) ∧
  Decodes 0x00006063#32 0x0000707F#32 (fun w => .bltu (rs1Of w) (rs2Of w) (immB w)) ∧
  Decodes 0x00007063#32 0x0000707F#32 (fun w => .bgeu (rs1Of w) (rs2Of w) (immB w))

/-- LUI and AUIPC: the 20-bit field above twelve zeros, alone or added to the instruction's own address (R217, R218). -/
def Obligations.UpperImmediates : Prop :=
  (∀ (s : State) (rd : Reg) (imm : Word),
    CompletesX s (exec (.lui rd imm) s) rd imm ∧ CompletesX s (exec (.auipc rd imm) s) rd (s.pc + imm)) ∧
  Decodes 0x00000037#32 0x0000007F#32 (fun w => .lui (rdOf w) (w.extractLsb' 12 20 ++ 0#12)) ∧
  Decodes 0x00000017#32 0x0000007F#32 (fun w => .auipc (rdOf w) (w.extractLsb' 12 20 ++ 0#12))

/-- JAL and JALR: the link register and the target, computed from the old `x[rs1]`, with bit 0 of JALR's sum cleared and its
`funct3` ignored (R219, R220). -/
def Obligations.Jumps : Prop :=
  (∀ (s : State) (rd rs1 : Reg) (imm : Word) (funct3 : BitVec 3),
    LinksAndGoesTo s (exec (.jal rd imm) s) rd (s.pc + 4#32) (s.pc + imm) ∧
    LinksAndGoesTo s (exec (.jalr rd rs1 imm funct3) s) rd (s.pc + 4#32)
      (BitVec.ofNat 32 (2 * ((s.readX rs1 + imm).toNat / 2)))) ∧
  Decodes 0x0000006F#32 0x0000007F#32 (fun w => .jal (rdOf w) (immJ w)) ∧
  Decodes 0x00000067#32 0x0000007F#32 (fun w => .jalr (rdOf w) (rs1Of w) (immI w) (funct3Of w))

/-- FENCE decodes with any fields and only advances the pc (R232). -/
def Obligations.Fence : Prop :=
  (∀ (s : State) (rd rs1 : Reg) (imm : BitVec 12), GoesTo s (exec (.fence rd rs1 imm) s) (s.pc + 4#32)) ∧
  Decodes 0x0000000F#32 0x0000707F#32 (fun w => .fence (rdOf w) (rs1Of w) (w.extractLsb' 20 12)) ∧
  Illegal (fun w => opcodeOf w = 0b0001111#7 ∧ funct3Of w ≠ 0b000#3)

/-- ECALL goes to the host with the state as it was (R230; 60_exceptions.md R362, R374): the handler is applied to the machine
state at the ECALL, `pc` included, and the hart goes on from the state it answers with, or the run ends with the environment
call. Then each form of the handler: the default that stops, the one that always resumes behind the ECALL, a table of states, and
the open function, whatever it is. These forms are the model's choice (log 8). -/
def Obligations.EnvironmentCall : Prop :=
  (∀ (s : State) (a : Arch), s.ecallHandler.answer s.toArch = some a →
    ∃ t, exec .ecall s = .next t ∧ t.toArch = a ∧ KeepsHost s t) ∧
  (∀ s : State, s.ecallHandler.answer s.toArch = none → exec .ecall s = .fault .environmentCall) ∧
  (∀ s : State, s.ecallHandler = .stop → exec .ecall s = .fault .environmentCall) ∧
  (∀ s : State, s.ecallHandler = .resume → GoesTo s (exec .ecall s) (s.pc + 4#32)) ∧
  (∀ (s : State) (before after : List (Arch × Arch)) (a : Arch),
    s.ecallHandler = .table (before ++ (s.toArch, a) :: after) → (∀ r ∈ before, r.1 ≠ s.toArch) →
      ∃ t, exec .ecall s = .next t ∧ t.toArch = a ∧ KeepsHost s t) ∧
  (∀ (s : State) (rows : List (Arch × Arch)), s.ecallHandler = .table rows → (∀ r ∈ rows, r.1 ≠ s.toArch) →
    exec .ecall s = .fault .environmentCall) ∧
  (∀ s : State, s.ecallHandler = .host →
    exec .ecall s =
      match Config.ecallHandler s.toArch with
      | some a => .next { s with toArch := a }
      | none => .fault .environmentCall) ∧
  (∀ w, decode w = .ok .ecall ↔ w = 0x00000073#32)

/-- EBREAK always ends the run with the breakpoint and its own address (R231; 60_exceptions.md R362). -/
def Obligations.Breakpoint : Prop :=
  (∀ s : State, exec .ebreak s = .fault (.breakpoint s.pc)) ∧ (∀ w, decode w = .ok .ebreak ↔ w = 0x00100073#32)

/-! ## Multiply and divide, 44_m_extension.md -/

/-- The four multiplications: slices of the exact product under each reading of the signs (R240 to R244). -/
def Obligations.Multiply : Prop :=
  (∀ (s : State) (rd rs1 rs2 : Reg),
    let a := s.readX rs1
    let b := s.readX rs2
    CompletesX s (exec (.mul rd rs1 rs2) s) rd (BitVec.ofNat 32 (a.toNat * b.toNat)) ∧
    CompletesX s (exec (.mulh rd rs1 rs2) s) rd (BitVec.ofInt 32 (a.toInt * b.toInt / 2 ^ 32)) ∧
    CompletesX s (exec (.mulhsu rd rs1 rs2) s) rd (BitVec.ofInt 32 (a.toInt * b.toNat / 2 ^ 32)) ∧
    CompletesX s (exec (.mulhu rd rs1 rs2) s) rd (BitVec.ofNat 32 (a.toNat * b.toNat / 2 ^ 32))) ∧
  Decodes 0x02000033#32 0xFE00707F#32 (fun w => .mul (rdOf w) (rs1Of w) (rs2Of w)) ∧
  Decodes 0x02001033#32 0xFE00707F#32 (fun w => .mulh (rdOf w) (rs1Of w) (rs2Of w)) ∧
  Decodes 0x02002033#32 0xFE00707F#32 (fun w => .mulhsu (rdOf w) (rs1Of w) (rs2Of w)) ∧
  Decodes 0x02003033#32 0xFE00707F#32 (fun w => .mulhu (rdOf w) (rs1Of w) (rs2Of w))

/-- The four divisions: quotient toward zero, remainder that goes with it, and the fixed results for a zero divisor and the
signed overflow; nothing traps (R240, R245 to R248). -/
def Obligations.Divide : Prop :=
  (∀ (s : State) (rd rs1 rs2 : Reg),
    let a := s.readX rs1
    let b := s.readX rs2
    let q := truncRat ((a.toInt : ℚ) / b.toInt)
    CompletesX s (exec (.div rd rs1 rs2) s) rd
      (if b = 0#32 then 0xFFFFFFFF#32 else if a = 0x80000000#32 ∧ b = 0xFFFFFFFF#32 then 0x80000000#32
        else BitVec.ofInt 32 q) ∧
    CompletesX s (exec (.divu rd rs1 rs2) s) rd
      (if b = 0#32 then 0xFFFFFFFF#32 else BitVec.ofNat 32 (a.toNat / b.toNat)) ∧
    CompletesX s (exec (.rem rd rs1 rs2) s) rd
      (if b = 0#32 then a else if a = 0x80000000#32 ∧ b = 0xFFFFFFFF#32 then 0#32
        else BitVec.ofInt 32 (a.toInt - b.toInt * q)) ∧
    CompletesX s (exec (.remu rd rs1 rs2) s) rd (if b = 0#32 then a else BitVec.ofNat 32 (a.toNat % b.toNat))) ∧
  Decodes 0x02004033#32 0xFE00707F#32 (fun w => .div (rdOf w) (rs1Of w) (rs2Of w)) ∧
  Decodes 0x02005033#32 0xFE00707F#32 (fun w => .divu (rdOf w) (rs1Of w) (rs2Of w)) ∧
  Decodes 0x02006033#32 0xFE00707F#32 (fun w => .rem (rdOf w) (rs1Of w) (rs2Of w)) ∧
  Decodes 0x02007033#32 0xFE00707F#32 (fun w => .remu (rdOf w) (rs1Of w) (rs2Of w))

/-- The laws of R247 and R249 between the results: dividend = divisor times quotient plus remainder, the remainder smaller
than the divisor and of the dividend's sign or zero; and the 64-bit products are the pairs of high and low halves. -/
def Obligations.MultiplyDivideLaws : Prop :=
  ∀ (s : State) (rd rs1 rs2 : Reg), rd ≠ 0#5 →
    ∃ q r qu ru lo h hs hu : State,
      exec (.div rd rs1 rs2) s = .next q ∧ exec (.rem rd rs1 rs2) s = .next r ∧
      exec (.divu rd rs1 rs2) s = .next qu ∧ exec (.remu rd rs1 rs2) s = .next ru ∧
      exec (.mul rd rs1 rs2) s = .next lo ∧ exec (.mulh rd rs1 rs2) s = .next h ∧
      exec (.mulhsu rd rs1 rs2) s = .next hs ∧ exec (.mulhu rd rs1 rs2) s = .next hu ∧
      let a := s.readX rs1
      let b := s.readX rs2
      (b ≠ 0#32 → ¬(a = 0x80000000#32 ∧ b = 0xFFFFFFFF#32) →
        a.toInt = b.toInt * (q.readX rd).toInt + (r.readX rd).toInt) ∧
      (b ≠ 0#32 → |(r.readX rd).toInt| < |b.toInt| ∧
        ((r.readX rd).toInt = 0 ∨ ((r.readX rd).toInt < 0 ↔ a.toInt < 0))) ∧
      (b ≠ 0#32 → a.toNat = b.toNat * (qu.readX rd).toNat + (ru.readX rd).toNat ∧ (ru.readX rd).toNat < b.toNat) ∧
      (h.readX rd ++ lo.readX rd).toInt = a.toInt * b.toInt ∧
      (hs.readX rd ++ lo.readX rd).toInt = a.toInt * b.toNat ∧
      (hu.readX rd ++ lo.readX rd).toNat = a.toNat * b.toNat

/-! ## Floating point, 45_f_arith.md, 46_f_misc.md -/

/-- The NaN patterns and the predicates on patterns (R261). -/
def Obligations.NanPatterns : Prop :=
  (∀ p : Word,
    (isNaN p = true ↔ p.extractLsb' 23 8 = 0xFF#8 ∧ p.extractLsb' 0 23 ≠ 0#23) ∧
    (isQNaN p = true ↔ isNaN p = true ∧ p.getLsbD 22 = true) ∧ (isSNaN p = true ↔ isNaN p = true ∧ p.getLsbD 22 = false) ∧
    (isInf p = true ↔ p = 0x7F800000#32 ∨ p = 0xFF800000#32) ∧ (isZero p = true ↔ p.extractLsb' 0 31 = 0#31) ∧
    fpSign p = p.getLsbD 31) ∧
  isQNaN canonicalNaN = true ∧ canonicalNaN = 0x7FC00000#32 ∧
  (∀ p ∈ [0x7FC00000#32, 0x7FC00001#32, 0xFFC00000#32, 0x7FFFFFFF#32], isQNaN p = true) ∧
  (∀ p ∈ [0x7F800001#32, 0x7FA00000#32, 0xFF800001#32, 0x7FBFFFFF#32], isSNaN p = true)

/-- The landmarks of the number format (R260), and that a finite value has one pattern, but for the two zeros (R262). -/
def Obligations.FiniteValues : Prop :=
  (∀ p q : Word, isFinite p = true → isFinite q = true → fpVal p = fpVal q →
    p = q ∨ (isZero p = true ∧ isZero q = true)) ∧
  fpVal 0x3F800000#32 = 1 ∧ fpVal 0xBF800000#32 = -1 ∧ fpVal 0x40000000#32 = 2 ∧ fpVal 0x3F000000#32 = 1 / 2 ∧
  fpVal 0x7F7FFFFF#32 = (2 ^ 24 - 1) * 2 ^ 104 ∧ fpVal 0x00800000#32 = 1 / 2 ^ 126 ∧ fpVal 0x00000001#32 = 1 / 2 ^ 149

/-- FADD.S and FSUB.S: the special cases, the exact sum rounded once to nearest even, and the flags, whatever `rm` and `frm`
hold (R262, R267, R268, R277). -/
def Obligations.FloatAddSub : Prop :=
  (∀ (s : State) (rd rs1 rs2 : Reg) (rm : BitVec 3),
    (∃ p fl, AddRule (s.readF rs1) (s.readF rs2) p fl ∧ CompletesF s (exec (.faddS rd rs1 rs2 rm) s) rd p fl) ∧
    (∃ p fl, AddRule (s.readF rs1) (s.readF rs2 ^^^ 0x80000000#32) p fl ∧
      CompletesF s (exec (.fsubS rd rs1 rs2 rm) s) rd p fl)) ∧
  Decodes 0x00000053#32 0xFE00007F#32 (fun w => .faddS (rdOf w) (rs1Of w) (rs2Of w) (funct3Of w)) ∧
  Decodes 0x08000053#32 0xFE00007F#32 (fun w => .fsubS (rdOf w) (rs1Of w) (rs2Of w) (funct3Of w))

/-- FMUL.S: the special cases, the exact product rounded once, and the flags (R262, R269). -/
def Obligations.FloatMultiply : Prop :=
  (∀ (s : State) (rd rs1 rs2 : Reg) (rm : BitVec 3),
    ∃ p fl, MulRule (s.readF rs1) (s.readF rs2) p fl ∧ CompletesF s (exec (.fmulS rd rs1 rs2 rm) s) rd p fl) ∧
  Decodes 0x10000053#32 0xFE00007F#32 (fun w => .fmulS (rdOf w) (rs1Of w) (rs2Of w) (funct3Of w))

/-- FDIV.S: the special cases, division by zero among them, the exact quotient rounded once, and the flags (R262, R270). -/
def Obligations.FloatDivide : Prop :=
  (∀ (s : State) (rd rs1 rs2 : Reg) (rm : BitVec 3),
    ∃ p fl, DivRule (s.readF rs1) (s.readF rs2) p fl ∧ CompletesF s (exec (.fdivS rd rs1 rs2 rm) s) rd p fl) ∧
  Decodes 0x18000053#32 0xFE00007F#32 (fun w => .fdivS (rdOf w) (rs1Of w) (rs2Of w) (funct3Of w))

/-- FSQRT.S: the special cases, the real square root rounded once, and the flags; it decodes with `rs2 = 00000` only
(R262, R271). -/
def Obligations.FloatSquareRoot : Prop :=
  (∀ (s : State) (rd rs1 : Reg) (rm : BitVec 3),
    ∃ p fl, SqrtRule (s.readF rs1) p fl ∧ CompletesF s (exec (.fsqrtS rd rs1 rm) s) rd p fl) ∧
  Decodes 0x58000053#32 0xFFF0007F#32 (fun w => .fsqrtS (rdOf w) (rs1Of w) (funct3Of w)) ∧
  Illegal (fun w => opcodeOf w = 0b1010011#7 ∧ funct7Of w = 0b0101100#7 ∧ rs2Of w ≠ 0#5)

/-- The four fused multiply-adds: one rounding of the exact product plus addend, the negations on the operands, `rm` and
`fmt` ignored (R262, R272 to R276). -/
def Obligations.FusedMultiplyAdd : Prop :=
  (∀ (s : State) (rd rs1 rs2 rs3 : Reg) (rm : BitVec 3) (fmt : BitVec 2),
    let a := s.readF rs1
    let b := s.readF rs2
    let c := s.readF rs3
    let na := a ^^^ 0x80000000#32
    let nc := c ^^^ 0x80000000#32
    (∃ p fl, FmaRule a b c p fl ∧ CompletesF s (exec (.fmaddS rd rs1 rs2 rs3 rm fmt) s) rd p fl) ∧
    (∃ p fl, FmaRule a b nc p fl ∧ CompletesF s (exec (.fmsubS rd rs1 rs2 rs3 rm fmt) s) rd p fl) ∧
    (∃ p fl, FmaRule na b c p fl ∧ CompletesF s (exec (.fnmsubS rd rs1 rs2 rs3 rm fmt) s) rd p fl) ∧
    (∃ p fl, FmaRule na b nc p fl ∧ CompletesF s (exec (.fnmaddS rd rs1 rs2 rs3 rm fmt) s) rd p fl)) ∧
  Decodes 0x00000043#32 0x0000007F#32
    (fun w => .fmaddS (rdOf w) (rs1Of w) (rs2Of w) (rs3Of w) (funct3Of w) (fmtOf w)) ∧
  Decodes 0x00000047#32 0x0000007F#32
    (fun w => .fmsubS (rdOf w) (rs1Of w) (rs2Of w) (rs3Of w) (funct3Of w) (fmtOf w)) ∧
  Decodes 0x0000004B#32 0x0000007F#32
    (fun w => .fnmsubS (rdOf w) (rs1Of w) (rs2Of w) (rs3Of w) (funct3Of w) (fmtOf w)) ∧
  Decodes 0x0000004F#32 0x0000007F#32
    (fun w => .fnmaddS (rdOf w) (rs1Of w) (rs2Of w) (rs3Of w) (funct3Of w) (fmtOf w))

/-- The computational instructions with an FP result deliver no NaN but the canonical one (R264). -/
def Obligations.ArithmeticNanIsCanonical : Prop :=
  ∀ (i : Instr) (s t : State), i.isFpArith = true → exec i s = .next t →
    isNaN (t.readF i.rdField) = true → t.readF i.rdField = 0x7FC00000#32

/-- What R263 and R271 say follows from the rules: an addition or subtraction never underflows, because a tiny sum is exact;
a square root signals nothing but NV and NX; division by zero is FDIV.S's alone. -/
def Obligations.FlagsThatCannotBe : Prop :=
  ∀ (i : Instr) (s t : State), i ≠ .ecall → exec i s = .next t →
    (i.mnemonic ∈ ["FADD.S", "FSUB.S", "FSQRT.S"] → t.fcsr.fflags.uf = s.fcsr.fflags.uf) ∧
    (i.mnemonic = "FSQRT.S" → t.fcsr.fflags.of = s.fcsr.fflags.of) ∧
    (i.mnemonic ≠ "FDIV.S" → t.fcsr.fflags.dz = s.fcsr.fflags.dz)

/-- The sign injections act on bits: no canonical NaN, no flag (R290 to R292). -/
def Obligations.SignInjection : Prop :=
  (∀ (s : State) (rd rs1 rs2 : Reg),
    let a := s.readF rs1
    let b := s.readF rs2
    CompletesF s (exec (.fsgnjS rd rs1 rs2) s) rd
      ((a &&& 0x7FFFFFFF#32) ||| (b &&& 0x80000000#32)) FFlags.none ∧
    CompletesF s (exec (.fsgnjnS rd rs1 rs2) s) rd
      ((a &&& 0x7FFFFFFF#32) ||| (~~~b &&& 0x80000000#32)) FFlags.none ∧
    CompletesF s (exec (.fsgnjxS rd rs1 rs2) s) rd (a ^^^ (b &&& 0x80000000#32)) FFlags.none) ∧
  Decodes 0x20000053#32 0xFE00707F#32 (fun w => .fsgnjS (rdOf w) (rs1Of w) (rs2Of w)) ∧
  Decodes 0x20001053#32 0xFE00707F#32 (fun w => .fsgnjnS (rdOf w) (rs1Of w) (rs2Of w)) ∧
  Decodes 0x20002053#32 0xFE00707F#32 (fun w => .fsgnjxS (rdOf w) (rs1Of w) (rs2Of w)) ∧
  Illegal (fun w => opcodeOf w = 0b1010011#7 ∧ funct7Of w = 0b0010000#7 ∧ 3 ≤ (funct3Of w).toNat)

/-- FMIN.S and FMAX.S: the order in which -0 < +0, the operand delivered as it is, the non-NaN operand beside a NaN, the
canonical NaN for two, NV for a signaling NaN (R293, R294). -/
def Obligations.MinimumMaximum : Prop :=
  (∀ (s : State) (rd rs1 rs2 : Reg),
    let a := s.readF rs1
    let b := s.readF rs2
    let fl := FFlags.when (isSNaN a || isSNaN b) FFlags.invalid
    let ends := fun (p : Word) (o : Result) => CompletesF s o rd p fl
    (isNaN a = true → isNaN b = true →
      ends 0x7FC00000#32 (exec (.fminS rd rs1 rs2) s) ∧ ends 0x7FC00000#32 (exec (.fmaxS rd rs1 rs2) s)) ∧
    (isNaN a = true → isNaN b = false →
      ends b (exec (.fminS rd rs1 rs2) s) ∧ ends b (exec (.fmaxS rd rs1 rs2) s)) ∧
    (isNaN a = false → isNaN b = true →
      ends a (exec (.fminS rd rs1 rs2) s) ∧ ends a (exec (.fmaxS rd rs1 rs2) s)) ∧
    (isNaN a = false → isNaN b = false → FpBefore a b →
      ends a (exec (.fminS rd rs1 rs2) s) ∧ ends b (exec (.fmaxS rd rs1 rs2) s)) ∧
    (isNaN a = false → isNaN b = false → ¬FpBefore a b →
      ends b (exec (.fminS rd rs1 rs2) s) ∧ ends a (exec (.fmaxS rd rs1 rs2) s))) ∧
  Decodes 0x28000053#32 0xFE00707F#32 (fun w => .fminS (rdOf w) (rs1Of w) (rs2Of w)) ∧
  Decodes 0x28001053#32 0xFE00707F#32 (fun w => .fmaxS (rdOf w) (rs1Of w) (rs2Of w)) ∧
  Illegal (fun w => opcodeOf w = 0b1010011#7 ∧ funct7Of w = 0b0010100#7 ∧ 2 ≤ (funct3Of w).toNat)

/-- The comparisons are on values; a NaN compares false; NV on a signaling NaN for FEQ.S, on any NaN for FLT.S and FLE.S
(R295 to R297, R305). -/
def Obligations.Comparisons : Prop :=
  (∀ (s : State) (rd rs1 rs2 : Reg),
    let a := s.readF rs1
    let b := s.readF rs2
    let nan := isNaN a || isNaN b
    let quiet := FFlags.when (isSNaN a || isSNaN b) FFlags.invalid
    let loud := FFlags.when nan FFlags.invalid
    let ends := fun (yes : Bool) (fl : FFlags) (o : Result) => CompletesXSignals s o rd (if yes then 1#32 else 0#32) fl
    (nan = true →
      ends false quiet (exec (.feqS rd rs1 rs2) s) ∧ ends false loud (exec (.fltS rd rs1 rs2) s) ∧
      ends false loud (exec (.fleS rd rs1 rs2) s)) ∧
    (nan = false → FpLt a b →
      ends false quiet (exec (.feqS rd rs1 rs2) s) ∧ ends true loud (exec (.fltS rd rs1 rs2) s) ∧
      ends true loud (exec (.fleS rd rs1 rs2) s)) ∧
    (nan = false → FpEqual a b →
      ends true quiet (exec (.feqS rd rs1 rs2) s) ∧ ends false loud (exec (.fltS rd rs1 rs2) s) ∧
      ends true loud (exec (.fleS rd rs1 rs2) s)) ∧
    (nan = false → FpLt b a →
      ends false quiet (exec (.feqS rd rs1 rs2) s) ∧ ends false loud (exec (.fltS rd rs1 rs2) s) ∧
      ends false loud (exec (.fleS rd rs1 rs2) s)) ∧
    (nan = false → FpLt a b ∨ FpEqual a b ∨ FpLt b a)) ∧
  Decodes 0xA0002053#32 0xFE00707F#32 (fun w => .feqS (rdOf w) (rs1Of w) (rs2Of w)) ∧
  Decodes 0xA0001053#32 0xFE00707F#32 (fun w => .fltS (rdOf w) (rs1Of w) (rs2Of w)) ∧
  Decodes 0xA0000053#32 0xFE00707F#32 (fun w => .fleS (rdOf w) (rs1Of w) (rs2Of w)) ∧
  Illegal (fun w => opcodeOf w = 0b1010011#7 ∧ funct7Of w = 0b1010000#7 ∧ 3 ≤ (funct3Of w).toNat)

/-- FCVT.W.S and FCVT.WU.S: truncation whatever `rm` holds, saturation with NV alone, NX when inexact (R298, R299, R306). -/
def Obligations.FloatToInteger : Prop :=
  (∀ (s : State) (rd rs1 : Reg) (rm : BitVec 3),
    (∃ n fl, ToIntRule (-2 ^ 31) (2 ^ 31 - 1) (s.readF rs1) n fl ∧
      CompletesXSignals s (exec (.fcvtWS rd rs1 rm) s) rd (BitVec.ofInt 32 n) fl) ∧
    (∃ n fl, ToIntRule 0 (2 ^ 32 - 1) (s.readF rs1) n fl ∧
      CompletesXSignals s (exec (.fcvtWuS rd rs1 rm) s) rd (BitVec.ofInt 32 n) fl)) ∧
  Decodes 0xC0000053#32 0xFFF0007F#32 (fun w => .fcvtWS (rdOf w) (rs1Of w) (funct3Of w)) ∧
  Decodes 0xC0100053#32 0xFFF0007F#32 (fun w => .fcvtWuS (rdOf w) (rs1Of w) (funct3Of w)) ∧
  Illegal (fun w => opcodeOf w = 0b1010011#7 ∧ funct7Of w = 0b1100000#7 ∧ 2 ≤ (rs2Of w).toNat)

/-- FCVT.S.W and FCVT.S.WU: the exact integer rounded once (R262, R300, R301, R306). -/
def Obligations.IntegerToFloat : Prop :=
  (∀ (s : State) (rd rs1 : Reg) (rm : BitVec 3),
    (∃ p fl, OfIntRule (s.readX rs1).toInt p fl ∧ CompletesF s (exec (.fcvtSW rd rs1 rm) s) rd p fl) ∧
    (∃ p fl, OfIntRule (s.readX rs1).toNat p fl ∧ CompletesF s (exec (.fcvtSWu rd rs1 rm) s) rd p fl)) ∧
  Decodes 0xD0000053#32 0xFFF0007F#32 (fun w => .fcvtSW (rdOf w) (rs1Of w) (funct3Of w)) ∧
  Decodes 0xD0100053#32 0xFFF0007F#32 (fun w => .fcvtSWu (rdOf w) (rs1Of w) (funct3Of w)) ∧
  Illegal (fun w => opcodeOf w = 0b1010011#7 ∧ funct7Of w = 0b1101000#7 ∧ 2 ≤ (rs2Of w).toNat)

/-- Integers of magnitude up to `2^24` convert exactly, with no flag, and back to themselves (R306). -/
def Obligations.SmallIntegersRoundTrip : Prop :=
  ∀ (s : State) (fd xd rs1 : Reg) (rm rm' : BitVec 3), |(s.readX rs1).toInt| ≤ 2 ^ 24 → xd ≠ 0#5 →
    ∃ t u, exec (.fcvtSW fd rs1 rm) s = .next t ∧ fpVal (t.readF fd) = (s.readX rs1).toInt ∧ KeepsFcsr s t ∧
      exec (.fcvtWS xd fd rm') t = .next u ∧ u.readX xd = s.readX rs1 ∧ KeepsFcsr s u

/-- The moves copy 32 bits; FCLASS.S gives the one bit of the table of R304, no flag; the `rs2` field is ignored (R302 to R304). -/
def Obligations.MovesAndClass : Prop :=
  (∀ (s : State) (rd rs1 rs2 : Reg),
    let a := s.readF rs1
    let classIs := fun (bit : Word) => CompletesX s (exec (.fclassS rd rs1 rs2) s) rd bit
    let subnormal := fpExp a = 0 ∧ fpFrac a ≠ 0
    let normal := 1 ≤ fpExp a ∧ fpExp a ≤ 254
    CompletesX s (exec (.fmvXW rd rs1 rs2) s) rd a ∧
    CompletesF s (exec (.fmvWX rd rs1 rs2) s) rd (s.readX rs1) FFlags.none ∧
    (a = 0xFF800000#32 → classIs 0x001#32) ∧ (fpSign a = true → normal → classIs 0x002#32) ∧
    (fpSign a = true → subnormal → classIs 0x004#32) ∧ (a = 0x80000000#32 → classIs 0x008#32) ∧
    (a = 0x00000000#32 → classIs 0x010#32) ∧ (fpSign a = false → subnormal → classIs 0x020#32) ∧
    (fpSign a = false → normal → classIs 0x040#32) ∧ (a = 0x7F800000#32 → classIs 0x080#32) ∧
    (isSNaN a = true → classIs 0x100#32) ∧ (isQNaN a = true → classIs 0x200#32) ∧
    ∃ k, k < 10 ∧ classIs (1#32 <<< k)) ∧
  Decodes 0xE0000053#32 0xFE00707F#32 (fun w => .fmvXW (rdOf w) (rs1Of w) (rs2Of w)) ∧
  Decodes 0xF0000053#32 0xFE00707F#32 (fun w => .fmvWX (rdOf w) (rs1Of w) (rs2Of w)) ∧
  Decodes 0xE0001053#32 0xFE00707F#32 (fun w => .fclassS (rdOf w) (rs1Of w) (rs2Of w)) ∧
  Illegal (fun w => opcodeOf w = 0b1010011#7 ∧ funct7Of w = 0b1110000#7 ∧ 2 ≤ (funct3Of w).toNat) ∧
  Illegal (fun w => opcodeOf w = 0b1010011#7 ∧ funct7Of w = 0b1111000#7 ∧ funct3Of w ≠ 0b000#3)

/-! ## The NPU, 47_npu.md -/

/-- NPU.MACC and NPU.VMAC add to the accumulator modulo 2^64, NPU.RSTACC reads out its low half and clears it; the `rd` of the
first is ignored, that of the second names the count (R321, R325, R326, R336). -/
def Obligations.NpuAccumulator : Prop :=
  (∀ (s : State) (rd rs1 rs2 : Reg),
    let a := s.readX rs1
    let b := s.readX rs2
    let n := (s.readX rd).toNat
    let acc := (s.accHi ++ s.accLo).toInt
    CompletesAcc s (exec (.npuMacc rd rs1 rs2) s) (BitVec.ofInt 64 (acc + a.toInt * b.toInt)) ∧
    ((∀ i, i < n → s.valid (a + BitVec.ofNat 32 i) = true ∧ s.valid (b + BitVec.ofNat 32 i) = true) →
      CompletesAcc s (exec (.npuVmac rd rs1 rs2) s)
        (BitVec.ofInt 64 (acc + ∑ i ∈ Finset.range n,
          (s.byteAt (a + BitVec.ofNat 32 i)).toInt * (s.byteAt (b + BitVec.ofNat 32 i)).toInt))) ∧
    (∃ t, exec (.npuRstacc rd rs1 rs2) s = .next t ∧ t.pc = s.pc + 4#32 ∧ WritesX s t rd s.accLo ∧ WritesAcc t 0#64 ∧
      KeepsF s t ∧ KeepsFcsr s t ∧ KeepsV s t ∧ KeepsMem s t ∧ KeepsHost s t)) ∧
  Decodes 0x0000000B#32 0xFE00707F#32 (fun w => .npuMacc (rdOf w) (rs1Of w) (rs2Of w)) ∧
  Decodes 0x0200000B#32 0xFE00707F#32 (fun w => .npuVmac (rdOf w) (rs1Of w) (rs2Of w)) ∧
  Decodes 0x0000500B#32 0xFE00707F#32 (fun w => .npuRstacc (rdOf w) (rs1Of w) (rs2Of w)) ∧
  Illegal (fun w => opcodeOf w = 0b0001011#7 ∧ funct3Of w = 0b101#3 ∧ funct7Of w ≠ 0b0000000#7)

/-- NPU.VRSQRT, NPU.VREDUCE and NPU.VMAX on valid arrays: the parameter's value, the sum modulo 2^32, the greatest signed
element (`VMAX_EMPTY` of no elements, whatever it is) (R321, R328, R330, R331). -/
def Obligations.NpuReductions : Prop :=
  (∀ (s : State) (rd rs1 rs2 : Reg),
    let a := s.readX rs1
    let n := (s.readX rs2).toNat
    let elem := fun (i : ℕ) => wordIn s (a + BitVec.ofNat 32 (4 * i))
    (AllValid s a 4 →
      CompletesX s (exec (.npuVrsqrt rd rs1 rs2) s) rd (Config.rsqrtQ16 (wordIn s a))) ∧
    (¬AllValid s a 4 → exec (.npuVrsqrt rd rs1 rs2) s = .fault (.loadAccessFault a)) ∧
    ((∀ i, i < n → AllValid s (a + BitVec.ofNat 32 (4 * i)) 4) →
      CompletesX s (exec (.npuVreduce rd rs1 rs2) s) rd
        (BitVec.ofInt 32 (∑ i ∈ Finset.range n, (elem i).toInt)) ∧
      (n = 0 → CompletesX s (exec (.npuVmax rd rs1 rs2) s) rd Config.vmaxEmpty) ∧
      (0 < n → ∃ k, k < n ∧ (∀ i, i < n → (elem i).toInt ≤ (elem k).toInt) ∧
        CompletesX s (exec (.npuVmax rd rs1 rs2) s) rd (elem k)))) ∧
  Decodes 0x0600000B#32 0xFE00707F#32 (fun w => .npuVrsqrt (rdOf w) (rs1Of w) (rs2Of w)) ∧
  Decodes 0x0A00000B#32 0xFE00707F#32 (fun w => .npuVreduce (rdOf w) (rs1Of w) (rs2Of w)) ∧
  Decodes 0x0C00000B#32 0xFE00707F#32 (fun w => .npuVmax (rdOf w) (rs1Of w) (rs2Of w))

/-- NPU.VEXP and NPU.VMUL on valid arrays, overlapping ones included: element by element in ascending order, each read before
its write; the scale is `acc_lo` as a signed number, the product is exact, the shift rounds down, the clamp is to a signed
byte (R321, R322, R327, R329, R339). -/
def Obligations.NpuArraysInOrder : Prop :=
  (∀ (s : State) (rd rs1 rs2 : Reg),
    let n := (s.readX rd).toNat
    let src := s.readX rs1
    let dst := s.readX rs2
    ((∀ i, i < n → AllValid s (src + BitVec.ofNat 32 (4 * i)) 4 ∧ AllValid s (dst + BitVec.ofNat 32 (4 * i)) 4) →
      CompletesInOrder s (exec (.npuVexp rd rs1 rs2) s) dst 4 n
        (fun m i => Config.expQ16 (wordIn m (src + BitVec.ofNat 32 (4 * i))))) ∧
    ((∀ i, i < n → s.valid (src + BitVec.ofNat 32 i) = true ∧ s.valid (dst + BitVec.ofNat 32 i) = true) →
      CompletesInOrder s (exec (.npuVmul rd rs1 rs2) s) dst 1 n
        (fun m i => BitVec.ofInt 32
          (max (-128) (min 127 ((m.byteAt (src + BitVec.ofNat 32 i)).toInt * s.accLo.toInt / 65536)))))) ∧
  Decodes 0x0400000B#32 0xFE00707F#32 (fun w => .npuVexp (rdOf w) (rs1Of w) (rs2Of w)) ∧
  Decodes 0x0800000B#32 0xFE00707F#32 (fun w => .npuVmul (rdOf w) (rs1Of w) (rs2Of w))

/-- In place or with disjoint arrays, each destination element is the function of the source element's old value (R322). -/
def Obligations.NpuArraysElementwise : Prop :=
  ∀ (s t : State) (rd rs1 rs2 : Reg),
    let n := (s.readX rd).toNat
    let src := s.readX rs1
    let dst := s.readX rs2
    let apart := fun (len : ℕ) => ∀ i j, i < len → j < len → src + BitVec.ofNat 32 i ≠ dst + BitVec.ofNat 32 j
    (exec (.npuVexp rd rs1 rs2) s = .next t → 4 * n ≤ 2 ^ 32 → (src = dst ∨ apart (4 * n)) →
      ∀ i, i < n → wordIn t (dst + BitVec.ofNat 32 (4 * i)) =
        Config.expQ16 (wordIn s (src + BitVec.ofNat 32 (4 * i)))) ∧
    (exec (.npuVmul rd rs1 rs2) s = .next t → (src = dst ∨ apart n) →
      ∀ i, i < n → (t.byteAt (dst + BitVec.ofNat 32 i)).toInt =
        max (-128) (min 127 ((s.byteAt (src + BitVec.ofNat 32 i)).toInt * s.accLo.toInt / 65536)))

/-- An access fault inside an array instruction: the first faulting access in ascending order is the one reported, with the
element's address; within an element the first array comes before the second, and a read before its write (R323, R326;
60_exceptions.md R364). -/
def Obligations.NpuArrayFaults : Prop :=
  ∀ (s : State) (rd rs1 rs2 : Reg) (k : ℕ),
    let a := s.readX rs1
    let b := s.readX rs2
    let byte := fun (x : Word) (i : ℕ) => AllValid s (x + BitVec.ofNat 32 i) 1
    let word := fun (x : Word) (i : ℕ) => AllValid s (x + BitVec.ofNat 32 (4 * i)) 4
    (k < (s.readX rd).toNat → (∀ i, i < k → byte a i ∧ byte b i) →
      (¬byte a k →
        exec (.npuVmac rd rs1 rs2) s = .fault (.loadAccessFault (a + BitVec.ofNat 32 k)) ∧
        exec (.npuVmul rd rs1 rs2) s = .fault (.loadAccessFault (a + BitVec.ofNat 32 k))) ∧
      (byte a k → ¬byte b k →
        exec (.npuVmac rd rs1 rs2) s = .fault (.loadAccessFault (b + BitVec.ofNat 32 k)) ∧
        exec (.npuVmul rd rs1 rs2) s = .fault (.storeAccessFault (b + BitVec.ofNat 32 k)))) ∧
    (k < (s.readX rd).toNat → (∀ i, i < k → word a i ∧ word b i) →
      (¬word a k → exec (.npuVexp rd rs1 rs2) s = .fault (.loadAccessFault (a + BitVec.ofNat 32 (4 * k)))) ∧
      (word a k → ¬word b k →
        exec (.npuVexp rd rs1 rs2) s = .fault (.storeAccessFault (b + BitVec.ofNat 32 (4 * k))))) ∧
    (k < (s.readX rs2).toNat → (∀ i, i < k → word a i) → ¬word a k →
      exec (.npuVreduce rd rs1 rs2) s = .fault (.loadAccessFault (a + BitVec.ofNat 32 (4 * k))) ∧
      exec (.npuVmax rd rs1 rs2) s = .fault (.loadAccessFault (a + BitVec.ofNat 32 (4 * k))))

/-- NPU.RELU, NPU.QMUL, NPU.CLAMP and NPU.GELU: the rule's value in `x[rd]`, GELU's being the parameter's whatever it is, and
nothing else; the `rs2` of the one-operand forms is ignored (R332 to R335). -/
def Obligations.NpuScalars : Prop :=
  (∀ (s : State) (rd rs1 rs2 : Reg),
    let a := s.readX rs1
    let b := s.readX rs2
    CompletesX s (exec (.npuRelu rd rs1 rs2) s) rd (BitVec.ofInt 32 (max a.toInt 0)) ∧
    CompletesX s (exec (.npuQmul rd rs1 rs2) s) rd (BitVec.ofInt 32 (a.toInt * b.toInt / 256)) ∧
    CompletesX s (exec (.npuClamp rd rs1 rs2) s) rd (BitVec.ofInt 32 (max (-128) (min 127 a.toInt))) ∧
    CompletesX s (exec (.npuGelu rd rs1 rs2) s) rd (Config.geluLut a)) ∧
  Decodes 0x0000100B#32 0xFE00707F#32 (fun w => .npuRelu (rdOf w) (rs1Of w) (rs2Of w)) ∧
  Decodes 0x0000200B#32 0xFE00707F#32 (fun w => .npuQmul (rdOf w) (rs1Of w) (rs2Of w)) ∧
  Decodes 0x0000300B#32 0xFE00707F#32 (fun w => .npuClamp (rdOf w) (rs1Of w) (rs2Of w)) ∧
  Decodes 0x0000400B#32 0xFE00707F#32 (fun w => .npuGelu (rdOf w) (rs1Of w) (rs2Of w))

/-- NPU.LDVEC and NPU.STVEC move four bytes between memory and the vector register the field names modulo 4, at any alignment,
or raise the access fault (R337, R338). -/
def Obligations.NpuVectorMoves : Prop :=
  (∀ (s : State) (rd rs1 rs2 : Reg) (imm : Word),
    let ea := s.readX rs1 + imm
    (AllValid s ea 4 →
      (∃ t, exec (.npuLdvec rd rs1 imm) s = .next t ∧ t.pc = s.pc + 4#32 ∧
        t.readV (BitVec.ofNat 2 (rd.toNat % 4)) = wordIn s ea ∧
        (∀ k, k ≠ BitVec.ofNat 2 (rd.toNat % 4) → t.readV k = s.readV k) ∧
        KeepsX s t ∧ KeepsF s t ∧ KeepsFcsr s t ∧ KeepsAcc s t ∧ KeepsMem s t ∧ KeepsHost s t) ∧
      CompletesStore s (exec (.npuStvec rs1 rs2 imm) s) ea 4 (s.readV (BitVec.ofNat 2 (rs2.toNat % 4)))) ∧
    (¬AllValid s ea 4 →
      exec (.npuLdvec rd rs1 imm) s = .fault (.loadAccessFault ea) ∧
      exec (.npuStvec rs1 rs2 imm) s = .fault (.storeAccessFault ea))) ∧
  Decodes 0x0000600B#32 0x0000707F#32 (fun w => .npuLdvec (rdOf w) (rs1Of w) (immI w)) ∧
  Decodes 0x0000700B#32 0x0000707F#32 (fun w => .npuStvec (rs1Of w) (rs2Of w) (immS w))

/-! ## Pseudo-instructions, 30_encoding.md R141, R142 -/

/-- The pseudo-instructions expand to well-formed instructions that do what their names say: copy, negate and take the absolute
value of an f register; load any 32-bit constant, in two instructions where one cannot hold it; copy, invert, negate and test
an x register; branch on zero, jump, return and call. The list of R142 and the names' meanings are general knowledge (G8). -/
def Obligations.PseudoInstructions : Prop :=
  (∀ p : Pseudo, p.fits = true → ∀ i ∈ expand p, i.wf = true) ∧
  (∀ (s : State) (fd fs : Reg),
    let a := s.readF fs
    CompletesF s (execAll (expand (.fmvS fd fs)) s) fd a FFlags.none ∧
    CompletesF s (execAll (expand (.fnegS fd fs)) s) fd (a ^^^ 0x80000000#32) FFlags.none ∧
    CompletesF s (execAll (expand (.fabsS fd fs)) s) fd (a &&& 0x7FFFFFFF#32) FFlags.none) ∧
  (∀ (s : State) (rd : Reg) (imm : Word), ∃ t, execAll (expand (.li rd imm)) s = .next t ∧
    t.pc = s.pc + BitVec.ofNat 32 (4 * (expand (.li rd imm)).length) ∧ WritesX s t rd imm ∧
    KeepsF s t ∧ KeepsFcsr s t ∧ KeepsNpu s t ∧ KeepsMem s t ∧ KeepsHost s t) ∧
  (∀ (s : State) (rd rs : Reg),
    let a := s.readX rs
    CompletesX s (execAll (expand (.mv rd rs)) s) rd a ∧
    CompletesX s (execAll (expand (.not rd rs)) s) rd (~~~a) ∧
    CompletesX s (execAll (expand (.neg rd rs)) s) rd (BitVec.ofInt 32 (-a.toInt)) ∧
    CompletesX s (execAll (expand (.seqz rd rs)) s) rd (if a = 0#32 then 1#32 else 0#32) ∧
    CompletesX s (execAll (expand (.snez rd rs)) s) rd (if a = 0#32 then 0#32 else 1#32)) ∧
  (∀ (s : State) (rs : Reg) (offset : Word),
    let a := s.readX rs
    let even := fun (v : Word) => BitVec.ofNat 32 (2 * (v.toNat / 2))
    GoesTo s (execAll (expand .nop) s) (s.pc + 4#32) ∧
    GoesTo s (execAll (expand (.beqz rs offset)) s) (if a = 0#32 then s.pc + offset else s.pc + 4#32) ∧
    GoesTo s (execAll (expand (.bnez rs offset)) s) (if a = 0#32 then s.pc + 4#32 else s.pc + offset) ∧
    GoesTo s (execAll (expand (.j offset)) s) (s.pc + offset) ∧
    GoesTo s (execAll (expand (.jr rs)) s) (even a) ∧
    GoesTo s (execAll (expand .ret) s) (even (s.readX 1)) ∧
    LinksAndGoesTo s (execAll (expand (.call offset)) s) 1 (s.pc + 4#32) (s.pc + offset))

end
end

