-- ==== Sys2Proof/Laws/Encoding.lean ====
section
/-!
SUPPORT. The encoders bit by bit, the fields of an encoded word, the immediates there and back, and what the masks of the
opcode table keep of a word.
-/

namespace Sys2Proof

/-! ## The encoders bit by bit -/

theorem encR_getLsbD (f7 : BitVec 7) (r2 r1 : Reg) (f3 : BitVec 3) (d : Reg) (op : BitVec 7) {i : Nat} (hi : i < 32) :
    (encR f7 r2 r1 f3 d op).getLsbD i =
      (if i < 7 then op.getLsbD i else if i < 12 then d.getLsbD (i - 7) else if i < 15 then f3.getLsbD (i - 12) else if i < 20 then r1.getLsbD (i - 15) else if i < 25 then r2.getLsbD (i - 20) else f7.getLsbD (i - 25)) := by
  unfold encR
  change BitVec.getLsbD (w := 7+5+5+3+5+7) _ i = _
  simp only [BitVec.getLsbD_append]
  split_ifs <;> first | omega | congr 1

theorem encR4_getLsbD (r3 : Reg) (fm : BitVec 2) (r2 r1 : Reg) (f3 : BitVec 3) (d : Reg) (op : BitVec 7) {i : Nat} (hi : i < 32) :
    (encR4 r3 fm r2 r1 f3 d op).getLsbD i =
      (if i < 7 then op.getLsbD i else if i < 12 then d.getLsbD (i - 7) else if i < 15 then f3.getLsbD (i - 12) else if i < 20 then r1.getLsbD (i - 15) else if i < 25 then r2.getLsbD (i - 20) else if i < 27 then fm.getLsbD (i - 25) else r3.getLsbD (i - 27)) := by
  unfold encR4
  change BitVec.getLsbD (w := 5+2+5+5+3+5+7) _ i = _
  simp only [BitVec.getLsbD_append]
  split_ifs <;> first | omega | congr 1

theorem encIRaw_getLsbD (i12 : BitVec 12) (r1 : Reg) (f3 : BitVec 3) (d : Reg) (op : BitVec 7) {i : Nat} (hi : i < 32) :
    (encIRaw i12 r1 f3 d op).getLsbD i =
      (if i < 7 then op.getLsbD i else if i < 12 then d.getLsbD (i - 7) else if i < 15 then f3.getLsbD (i - 12) else if i < 20 then r1.getLsbD (i - 15) else i12.getLsbD (i - 20)) := by
  unfold encIRaw
  change BitVec.getLsbD (w := 12+5+3+5+7) _ i = _
  simp only [BitVec.getLsbD_append]
  split_ifs <;> first | omega | congr 1

theorem encS_getLsbD (imm : Word) (r2 r1 : Reg) (f3 : BitVec 3) (op : BitVec 7) {i : Nat} (hi : i < 32) :
    (encS imm r2 r1 f3 op).getLsbD i =
      (if i < 7 then op.getLsbD i else if i < 12 then imm.getLsbD (i - 7) else if i < 15 then f3.getLsbD (i - 12) else if i < 20 then r1.getLsbD (i - 15) else if i < 25 then r2.getLsbD (i - 20) else imm.getLsbD (5 + (i - 25))) := by
  unfold encS
  change BitVec.getLsbD (w := 7+5+5+3+5+7) _ i = _
  simp only [BitVec.getLsbD_append, BitVec.getLsbD_extractLsb']
  split_ifs <;> first | omega | (congr 1; done) | (rw [decide_eq_true (by omega), Bool.true_and]; congr 1 <;> omega)

theorem encB_getLsbD (imm : Word) (r2 r1 : Reg) (f3 : BitVec 3) (op : BitVec 7) {i : Nat} (hi : i < 32) :
    (encB imm r2 r1 f3 op).getLsbD i =
      (if i < 7 then op.getLsbD i else if i < 8 then imm.getLsbD (11 + (i - 7)) else if i < 12 then imm.getLsbD (1 + (i - 8)) else if i < 15 then f3.getLsbD (i - 12) else if i < 20 then r1.getLsbD (i - 15) else if i < 25 then r2.getLsbD (i - 20) else if i < 31 then imm.getLsbD (5 + (i - 25)) else imm.getLsbD (12 + (i - 31))) := by
  unfold encB
  change BitVec.getLsbD (w := 1+6+5+5+3+4+1+7) _ i = _
  simp only [BitVec.getLsbD_append, BitVec.getLsbD_extractLsb']
  split_ifs <;> first | omega | (congr 1; done) | (rw [decide_eq_true (by omega), Bool.true_and] <;> congr 1)

theorem encU_getLsbD (imm : Word) (d : Reg) (op : BitVec 7) {i : Nat} (hi : i < 32) :
    (encU imm d op).getLsbD i =
      (if i < 7 then op.getLsbD i else if i < 12 then d.getLsbD (i - 7) else imm.getLsbD (12 + (i - 12))) := by
  unfold encU
  change BitVec.getLsbD (w := 20+5+7) _ i = _
  simp only [BitVec.getLsbD_append, BitVec.getLsbD_extractLsb']
  split_ifs <;> first | omega | (congr 1; done) | (rw [decide_eq_true (by omega), Bool.true_and]; congr 1)

theorem encJ_getLsbD (imm : Word) (d : Reg) (op : BitVec 7) {i : Nat} (hi : i < 32) :
    (encJ imm d op).getLsbD i =
      (if i < 7 then op.getLsbD i else if i < 12 then d.getLsbD (i - 7) else if i < 20 then imm.getLsbD (12 + (i - 12)) else if i < 21 then imm.getLsbD (11 + (i - 20)) else if i < 31 then imm.getLsbD (1 + (i - 21)) else imm.getLsbD (20 + (i - 31))) := by
  unfold encJ
  change BitVec.getLsbD (w := 1+10+1+8+5+7) _ i = _
  simp only [BitVec.getLsbD_append, BitVec.getLsbD_extractLsb']
  split_ifs <;> first | omega | (congr 1; done) | (rw [decide_eq_true (by omega), Bool.true_and]; congr 1)

/-! ## Fields of an encoded word -/

@[simp] theorem opcodeOf_encR (f7 : BitVec 7) (r2 r1 : Reg) (f3 : BitVec 3) (d : Reg) (op : BitVec 7) : opcodeOf (encR f7 r2 r1 f3 d op) = op := by
  apply BitVec.eq_of_getLsbD_eq; intro i hi
  simp only [opcodeOf, BitVec.getLsbD_extractLsb', hi, decide_true, Bool.true_and]
  rw [encR_getLsbD _ _ _ _ _ _ (by omega)]
  split_ifs <;> first | omega | (congr 1; omega)

@[simp] theorem rdOf_encR (f7 : BitVec 7) (r2 r1 : Reg) (f3 : BitVec 3) (d : Reg) (op : BitVec 7) : rdOf (encR f7 r2 r1 f3 d op) = d := by
  apply BitVec.eq_of_getLsbD_eq; intro i hi
  simp only [rdOf, BitVec.getLsbD_extractLsb', hi, decide_true, Bool.true_and]
  rw [encR_getLsbD _ _ _ _ _ _ (by omega)]
  split_ifs <;> first | omega | (congr 1; omega)

@[simp] theorem funct3Of_encR (f7 : BitVec 7) (r2 r1 : Reg) (f3 : BitVec 3) (d : Reg) (op : BitVec 7) : funct3Of (encR f7 r2 r1 f3 d op) = f3 := by
  apply BitVec.eq_of_getLsbD_eq; intro i hi
  simp only [funct3Of, BitVec.getLsbD_extractLsb', hi, decide_true, Bool.true_and]
  rw [encR_getLsbD _ _ _ _ _ _ (by omega)]
  split_ifs <;> first | omega | (congr 1; omega)

@[simp] theorem rs1Of_encR (f7 : BitVec 7) (r2 r1 : Reg) (f3 : BitVec 3) (d : Reg) (op : BitVec 7) : rs1Of (encR f7 r2 r1 f3 d op) = r1 := by
  apply BitVec.eq_of_getLsbD_eq; intro i hi
  simp only [rs1Of, BitVec.getLsbD_extractLsb', hi, decide_true, Bool.true_and]
  rw [encR_getLsbD _ _ _ _ _ _ (by omega)]
  split_ifs <;> first | omega | (congr 1; omega)

@[simp] theorem rs2Of_encR (f7 : BitVec 7) (r2 r1 : Reg) (f3 : BitVec 3) (d : Reg) (op : BitVec 7) : rs2Of (encR f7 r2 r1 f3 d op) = r2 := by
  apply BitVec.eq_of_getLsbD_eq; intro i hi
  simp only [rs2Of, BitVec.getLsbD_extractLsb', hi, decide_true, Bool.true_and]
  rw [encR_getLsbD _ _ _ _ _ _ (by omega)]
  split_ifs <;> first | omega | (congr 1; omega)

@[simp] theorem funct7Of_encR (f7 : BitVec 7) (r2 r1 : Reg) (f3 : BitVec 3) (d : Reg) (op : BitVec 7) : funct7Of (encR f7 r2 r1 f3 d op) = f7 := by
  apply BitVec.eq_of_getLsbD_eq; intro i hi
  simp only [funct7Of, BitVec.getLsbD_extractLsb', hi, decide_true, Bool.true_and]
  rw [encR_getLsbD _ _ _ _ _ _ (by omega)]
  split_ifs <;> first | omega | (congr 1; omega)

@[simp] theorem opcodeOf_encR4 (r3 : Reg) (fm : BitVec 2) (r2 r1 : Reg) (f3 : BitVec 3) (d : Reg) (op : BitVec 7) : opcodeOf (encR4 r3 fm r2 r1 f3 d op) = op := by
  apply BitVec.eq_of_getLsbD_eq; intro i hi
  simp only [opcodeOf, BitVec.getLsbD_extractLsb', hi, decide_true, Bool.true_and]
  rw [encR4_getLsbD _ _ _ _ _ _ _ (by omega)]
  split_ifs <;> first | omega | (congr 1; omega)

@[simp] theorem rdOf_encR4 (r3 : Reg) (fm : BitVec 2) (r2 r1 : Reg) (f3 : BitVec 3) (d : Reg) (op : BitVec 7) : rdOf (encR4 r3 fm r2 r1 f3 d op) = d := by
  apply BitVec.eq_of_getLsbD_eq; intro i hi
  simp only [rdOf, BitVec.getLsbD_extractLsb', hi, decide_true, Bool.true_and]
  rw [encR4_getLsbD _ _ _ _ _ _ _ (by omega)]
  split_ifs <;> first | omega | (congr 1; omega)

@[simp] theorem funct3Of_encR4 (r3 : Reg) (fm : BitVec 2) (r2 r1 : Reg) (f3 : BitVec 3) (d : Reg) (op : BitVec 7) : funct3Of (encR4 r3 fm r2 r1 f3 d op) = f3 := by
  apply BitVec.eq_of_getLsbD_eq; intro i hi
  simp only [funct3Of, BitVec.getLsbD_extractLsb', hi, decide_true, Bool.true_and]
  rw [encR4_getLsbD _ _ _ _ _ _ _ (by omega)]
  split_ifs <;> first | omega | (congr 1; omega)

@[simp] theorem rs1Of_encR4 (r3 : Reg) (fm : BitVec 2) (r2 r1 : Reg) (f3 : BitVec 3) (d : Reg) (op : BitVec 7) : rs1Of (encR4 r3 fm r2 r1 f3 d op) = r1 := by
  apply BitVec.eq_of_getLsbD_eq; intro i hi
  simp only [rs1Of, BitVec.getLsbD_extractLsb', hi, decide_true, Bool.true_and]
  rw [encR4_getLsbD _ _ _ _ _ _ _ (by omega)]
  split_ifs <;> first | omega | (congr 1; omega)

@[simp] theorem rs2Of_encR4 (r3 : Reg) (fm : BitVec 2) (r2 r1 : Reg) (f3 : BitVec 3) (d : Reg) (op : BitVec 7) : rs2Of (encR4 r3 fm r2 r1 f3 d op) = r2 := by
  apply BitVec.eq_of_getLsbD_eq; intro i hi
  simp only [rs2Of, BitVec.getLsbD_extractLsb', hi, decide_true, Bool.true_and]
  rw [encR4_getLsbD _ _ _ _ _ _ _ (by omega)]
  split_ifs <;> first | omega | (congr 1; omega)

@[simp] theorem fmtOf_encR4 (r3 : Reg) (fm : BitVec 2) (r2 r1 : Reg) (f3 : BitVec 3) (d : Reg) (op : BitVec 7) : fmtOf (encR4 r3 fm r2 r1 f3 d op) = fm := by
  apply BitVec.eq_of_getLsbD_eq; intro i hi
  simp only [fmtOf, BitVec.getLsbD_extractLsb', hi, decide_true, Bool.true_and]
  rw [encR4_getLsbD _ _ _ _ _ _ _ (by omega)]
  split_ifs <;> first | omega | (congr 1; omega)

@[simp] theorem rs3Of_encR4 (r3 : Reg) (fm : BitVec 2) (r2 r1 : Reg) (f3 : BitVec 3) (d : Reg) (op : BitVec 7) : rs3Of (encR4 r3 fm r2 r1 f3 d op) = r3 := by
  apply BitVec.eq_of_getLsbD_eq; intro i hi
  simp only [rs3Of, BitVec.getLsbD_extractLsb', hi, decide_true, Bool.true_and]
  rw [encR4_getLsbD _ _ _ _ _ _ _ (by omega)]
  split_ifs <;> first | omega | (congr 1; omega)

@[simp] theorem opcodeOf_encIRaw (i12 : BitVec 12) (r1 : Reg) (f3 : BitVec 3) (d : Reg) (op : BitVec 7) : opcodeOf (encIRaw i12 r1 f3 d op) = op := by
  apply BitVec.eq_of_getLsbD_eq; intro i hi
  simp only [opcodeOf, BitVec.getLsbD_extractLsb', hi, decide_true, Bool.true_and]
  rw [encIRaw_getLsbD _ _ _ _ _ (by omega)]
  split_ifs <;> first | omega | (congr 1; omega)

@[simp] theorem rdOf_encIRaw (i12 : BitVec 12) (r1 : Reg) (f3 : BitVec 3) (d : Reg) (op : BitVec 7) : rdOf (encIRaw i12 r1 f3 d op) = d := by
  apply BitVec.eq_of_getLsbD_eq; intro i hi
  simp only [rdOf, BitVec.getLsbD_extractLsb', hi, decide_true, Bool.true_and]
  rw [encIRaw_getLsbD _ _ _ _ _ (by omega)]
  split_ifs <;> first | omega | (congr 1; omega)

@[simp] theorem funct3Of_encIRaw (i12 : BitVec 12) (r1 : Reg) (f3 : BitVec 3) (d : Reg) (op : BitVec 7) : funct3Of (encIRaw i12 r1 f3 d op) = f3 := by
  apply BitVec.eq_of_getLsbD_eq; intro i hi
  simp only [funct3Of, BitVec.getLsbD_extractLsb', hi, decide_true, Bool.true_and]
  rw [encIRaw_getLsbD _ _ _ _ _ (by omega)]
  split_ifs <;> first | omega | (congr 1; omega)

@[simp] theorem rs1Of_encIRaw (i12 : BitVec 12) (r1 : Reg) (f3 : BitVec 3) (d : Reg) (op : BitVec 7) : rs1Of (encIRaw i12 r1 f3 d op) = r1 := by
  apply BitVec.eq_of_getLsbD_eq; intro i hi
  simp only [rs1Of, BitVec.getLsbD_extractLsb', hi, decide_true, Bool.true_and]
  rw [encIRaw_getLsbD _ _ _ _ _ (by omega)]
  split_ifs <;> first | omega | (congr 1; omega)

@[simp] theorem opcodeOf_encS (imm : Word) (r2 r1 : Reg) (f3 : BitVec 3) (op : BitVec 7) : opcodeOf (encS imm r2 r1 f3 op) = op := by
  apply BitVec.eq_of_getLsbD_eq; intro i hi
  simp only [opcodeOf, BitVec.getLsbD_extractLsb', hi, decide_true, Bool.true_and]
  rw [encS_getLsbD _ _ _ _ _ (by omega)]
  split_ifs <;> first | omega | (congr 1; omega)

@[simp] theorem funct3Of_encS (imm : Word) (r2 r1 : Reg) (f3 : BitVec 3) (op : BitVec 7) : funct3Of (encS imm r2 r1 f3 op) = f3 := by
  apply BitVec.eq_of_getLsbD_eq; intro i hi
  simp only [funct3Of, BitVec.getLsbD_extractLsb', hi, decide_true, Bool.true_and]
  rw [encS_getLsbD _ _ _ _ _ (by omega)]
  split_ifs <;> first | omega | (congr 1; omega)

@[simp] theorem rs1Of_encS (imm : Word) (r2 r1 : Reg) (f3 : BitVec 3) (op : BitVec 7) : rs1Of (encS imm r2 r1 f3 op) = r1 := by
  apply BitVec.eq_of_getLsbD_eq; intro i hi
  simp only [rs1Of, BitVec.getLsbD_extractLsb', hi, decide_true, Bool.true_and]
  rw [encS_getLsbD _ _ _ _ _ (by omega)]
  split_ifs <;> first | omega | (congr 1; omega)

@[simp] theorem rs2Of_encS (imm : Word) (r2 r1 : Reg) (f3 : BitVec 3) (op : BitVec 7) : rs2Of (encS imm r2 r1 f3 op) = r2 := by
  apply BitVec.eq_of_getLsbD_eq; intro i hi
  simp only [rs2Of, BitVec.getLsbD_extractLsb', hi, decide_true, Bool.true_and]
  rw [encS_getLsbD _ _ _ _ _ (by omega)]
  split_ifs <;> first | omega | (congr 1; omega)

@[simp] theorem opcodeOf_encB (imm : Word) (r2 r1 : Reg) (f3 : BitVec 3) (op : BitVec 7) : opcodeOf (encB imm r2 r1 f3 op) = op := by
  apply BitVec.eq_of_getLsbD_eq; intro i hi
  simp only [opcodeOf, BitVec.getLsbD_extractLsb', hi, decide_true, Bool.true_and]
  rw [encB_getLsbD _ _ _ _ _ (by omega)]
  split_ifs <;> first | omega | (congr 1; omega)

@[simp] theorem funct3Of_encB (imm : Word) (r2 r1 : Reg) (f3 : BitVec 3) (op : BitVec 7) : funct3Of (encB imm r2 r1 f3 op) = f3 := by
  apply BitVec.eq_of_getLsbD_eq; intro i hi
  simp only [funct3Of, BitVec.getLsbD_extractLsb', hi, decide_true, Bool.true_and]
  rw [encB_getLsbD _ _ _ _ _ (by omega)]
  split_ifs <;> first | omega | (congr 1; omega)

@[simp] theorem rs1Of_encB (imm : Word) (r2 r1 : Reg) (f3 : BitVec 3) (op : BitVec 7) : rs1Of (encB imm r2 r1 f3 op) = r1 := by
  apply BitVec.eq_of_getLsbD_eq; intro i hi
  simp only [rs1Of, BitVec.getLsbD_extractLsb', hi, decide_true, Bool.true_and]
  rw [encB_getLsbD _ _ _ _ _ (by omega)]
  split_ifs <;> first | omega | (congr 1; omega)

@[simp] theorem rs2Of_encB (imm : Word) (r2 r1 : Reg) (f3 : BitVec 3) (op : BitVec 7) : rs2Of (encB imm r2 r1 f3 op) = r2 := by
  apply BitVec.eq_of_getLsbD_eq; intro i hi
  simp only [rs2Of, BitVec.getLsbD_extractLsb', hi, decide_true, Bool.true_and]
  rw [encB_getLsbD _ _ _ _ _ (by omega)]
  split_ifs <;> first | omega | (congr 1; omega)

@[simp] theorem opcodeOf_encU (imm : Word) (d : Reg) (op : BitVec 7) : opcodeOf (encU imm d op) = op := by
  apply BitVec.eq_of_getLsbD_eq; intro i hi
  simp only [opcodeOf, BitVec.getLsbD_extractLsb', hi, decide_true, Bool.true_and]
  rw [encU_getLsbD _ _ _ (by omega)]
  split_ifs <;> first | omega | (congr 1; omega)

@[simp] theorem rdOf_encU (imm : Word) (d : Reg) (op : BitVec 7) : rdOf (encU imm d op) = d := by
  apply BitVec.eq_of_getLsbD_eq; intro i hi
  simp only [rdOf, BitVec.getLsbD_extractLsb', hi, decide_true, Bool.true_and]
  rw [encU_getLsbD _ _ _ (by omega)]
  split_ifs <;> first | omega | (congr 1; omega)

@[simp] theorem opcodeOf_encJ (imm : Word) (d : Reg) (op : BitVec 7) : opcodeOf (encJ imm d op) = op := by
  apply BitVec.eq_of_getLsbD_eq; intro i hi
  simp only [opcodeOf, BitVec.getLsbD_extractLsb', hi, decide_true, Bool.true_and]
  rw [encJ_getLsbD _ _ _ (by omega)]
  split_ifs <;> first | omega | (congr 1; omega)

@[simp] theorem rdOf_encJ (imm : Word) (d : Reg) (op : BitVec 7) : rdOf (encJ imm d op) = d := by
  apply BitVec.eq_of_getLsbD_eq; intro i hi
  simp only [rdOf, BitVec.getLsbD_extractLsb', hi, decide_true, Bool.true_and]
  rw [encJ_getLsbD _ _ _ (by omega)]
  split_ifs <;> first | omega | (congr 1; omega)

/-! ## Immediates there and back -/

/-- A 32-bit pattern whose value fits in `j + 1` signed bits is the sign extension of its low `j + 1` bits. -/
theorem signExtend_low {j : Nat} (hj : j < 32) (imm : Word) (hlo : -2 ^ j ≤ imm.toInt) (hhi : imm.toInt < 2 ^ j) :
    (imm.extractLsb' 0 (j + 1)).signExtend 32 = imm := by
  apply BitVec.eq_of_toInt_eq
  have e : imm.extractLsb' 0 (j + 1) = imm.setWidth (j + 1) := by
    apply BitVec.eq_of_getLsbD_eq; intro i hi
    simp [hi]
  have dvd : 2 ^ (j + 1) ∣ 2 ^ 32 := Nat.pow_dvd_pow 2 hj
  rw [BitVec.toInt_signExtend_of_le hj, e, BitVec.toInt_setWidth, ← Int.bmod_bmod_of_dvd dvd,
    ← BitVec.toInt_eq_toNat_bmod]
  apply Int.bmod_eq_of_le_mul_two <;> push_cast <;> rw [pow_succ] <;> omega

/-- The sign extension of a field keeps the field. -/
theorem extractLsb'_signExtend {k : Nat} (hk : k ≤ 32) (x : BitVec k) : (x.signExtend 32).extractLsb' 0 k = x := by
  apply BitVec.eq_of_getLsbD_eq; intro i hi
  rw [BitVec.getLsbD_extractLsb', BitVec.getLsbD_signExtend]
  simp [hi, show i < 32 by omega]

/-- The value of a sign-extended field is in the field's signed range. -/
theorem toInt_signExtend_range {j : Nat} (hj : j < 32) (x : BitVec (j + 1)) :
    -2 ^ j ≤ (x.signExtend 32).toInt ∧ (x.signExtend 32).toInt < 2 ^ j := by
  rw [BitVec.toInt_signExtend_of_le hj]
  exact ⟨BitVec.le_toInt x, BitVec.toInt_lt⟩

theorem immI_encIRaw (i12 : BitVec 12) (r1 : Reg) (f3 : BitVec 3) (d : Reg) (op : BitVec 7) :
    immI (encIRaw i12 r1 f3 d op) = i12.signExtend 32 := by
  unfold immI
  congr 1
  apply BitVec.eq_of_getLsbD_eq; intro i hi
  simp only [BitVec.getLsbD_extractLsb', hi, decide_true, Bool.true_and]
  rw [encIRaw_getLsbD _ _ _ _ _ (by omega)]
  split_ifs <;> first | omega | congr 1; omega

@[simp] theorem opcodeOf_encI (imm : Word) (r1 : Reg) (f3 : BitVec 3) (d : Reg) (op : BitVec 7) :
    opcodeOf (encI imm r1 f3 d op) = op := opcodeOf_encIRaw ..
@[simp] theorem rdOf_encI (imm : Word) (r1 : Reg) (f3 : BitVec 3) (d : Reg) (op : BitVec 7) :
    rdOf (encI imm r1 f3 d op) = d := rdOf_encIRaw ..
@[simp] theorem funct3Of_encI (imm : Word) (r1 : Reg) (f3 : BitVec 3) (d : Reg) (op : BitVec 7) :
    funct3Of (encI imm r1 f3 d op) = f3 := funct3Of_encIRaw ..
@[simp] theorem rs1Of_encI (imm : Word) (r1 : Reg) (f3 : BitVec 3) (d : Reg) (op : BitVec 7) :
    rs1Of (encI imm r1 f3 d op) = r1 := rs1Of_encIRaw ..

theorem immI_encI {imm : Word} (h : fitsI imm = true) (r1 : Reg) (f3 : BitVec 3) (d : Reg) (op : BitVec 7) :
    immI (encI imm r1 f3 d op) = imm := by
  simp only [fitsI, Bool.and_eq_true, decide_eq_true_eq] at h
  rw [encI, immI_encIRaw]
  exact signExtend_low (by omega) imm (by omega) (by omega)

/-- The scattered bits of an S-type word are the low bits of the immediate. -/
theorem lowS_encS (imm : Word) (r2 r1 : Reg) (f3 : BitVec 3) (op : BitVec 7) :
    (encS imm r2 r1 f3 op).extractLsb' 25 7 ++ (encS imm r2 r1 f3 op).extractLsb' 7 5 = imm.extractLsb' 0 12 := by
  apply BitVec.eq_of_getLsbD_eq; intro i hi
  rw [BitVec.getLsbD_append]
  simp only [BitVec.getLsbD_extractLsb']
  rw [encS_getLsbD _ _ _ _ _ (by omega), encS_getLsbD _ _ _ _ _ (by omega)]
  interval_cases i <;> simp

theorem immS_encS {imm : Word} (h : fitsS imm = true) (r2 r1 : Reg) (f3 : BitVec 3) (op : BitVec 7) :
    immS (encS imm r2 r1 f3 op) = imm := by
  simp only [fitsS, Bool.and_eq_true, decide_eq_true_eq] at h
  unfold immS
  rw [lowS_encS]
  exact signExtend_low (j := 11) (by omega) imm (by omega) (by omega)

/-- The scattered bits of a B-type word are the low bits of an even immediate. -/
theorem lowB_encB (imm : Word) (h : imm.getLsbD 0 = false) (r2 r1 : Reg) (f3 : BitVec 3) (op : BitVec 7) :
    (encB imm r2 r1 f3 op).extractLsb' 31 1 ++ (encB imm r2 r1 f3 op).extractLsb' 7 1 ++
      (encB imm r2 r1 f3 op).extractLsb' 25 6 ++ (encB imm r2 r1 f3 op).extractLsb' 8 4 ++ 0#1 =
      imm.extractLsb' 0 13 := by
  apply BitVec.eq_of_getLsbD_eq; intro i hi
  simp only [BitVec.getLsbD_append, BitVec.getLsbD_extractLsb']
  interval_cases i <;> simp [encB_getLsbD, h, -BitVec.getLsbD_eq_getElem]

theorem immB_encB {imm : Word} (h : fitsB imm = true) (r2 r1 : Reg) (f3 : BitVec 3) (op : BitVec 7) :
    immB (encB imm r2 r1 f3 op) = imm := by
  simp only [fitsB, Bool.and_eq_true, decide_eq_true_eq, Bool.not_eq_true'] at h
  have even : imm.toInt % 2 = 0 := by
    have := h.2
    simp only [BitVec.getLsbD, Nat.testBit_zero, decide_eq_false_iff_not] at this
    rw [BitVec.toInt_eq_toNat_cond]; split <;> omega
  unfold immB
  rw [lowB_encB imm h.2]
  exact signExtend_low (j := 12) (by omega) imm (by omega) (by omega)

theorem immU_encU {imm : Word} (h : fitsU imm = true) (d : Reg) (op : BitVec 7) : immU (encU imm d op) = imm := by
  simp only [fitsU, beq_iff_eq] at h
  have low : ∀ i, i < 12 → imm.getLsbD i = false := fun i hl => by
    have := congrArg (·.getLsbD i) h
    simpa [BitVec.getLsbD_extractLsb', hl] using this
  have e : (encU imm d op).extractLsb' 12 20 = imm.extractLsb' 12 20 := by
    apply BitVec.eq_of_getLsbD_eq; intro i hi
    simp only [BitVec.getLsbD_extractLsb', hi, decide_true, Bool.true_and]
    rw [encU_getLsbD _ _ _ (by omega)]
    split_ifs <;> first | omega | (congr 1; omega)
  unfold immU
  rw [e]
  apply BitVec.eq_of_getLsbD_eq; intro i hi
  rw [BitVec.getLsbD_append]
  split
  · simp [low i ‹_›]
  · rw [BitVec.getLsbD_extractLsb', decide_eq_true (by omega), Bool.true_and]; congr 1; omega

/-- The scattered bits of a J-type word are the low bits of an even immediate. -/
theorem lowJ_encJ (imm : Word) (h : imm.getLsbD 0 = false) (d : Reg) (op : BitVec 7) :
    (encJ imm d op).extractLsb' 31 1 ++ (encJ imm d op).extractLsb' 12 8 ++
      (encJ imm d op).extractLsb' 20 1 ++ (encJ imm d op).extractLsb' 21 10 ++ 0#1 = imm.extractLsb' 0 21 := by
  apply BitVec.eq_of_getLsbD_eq; intro i hi
  simp only [BitVec.getLsbD_append, BitVec.getLsbD_extractLsb']
  interval_cases i <;> simp [encJ_getLsbD, h, -BitVec.getLsbD_eq_getElem]

theorem immJ_encJ {imm : Word} (h : fitsJ imm = true) (d : Reg) (op : BitVec 7) : immJ (encJ imm d op) = imm := by
  simp only [fitsJ, Bool.and_eq_true, decide_eq_true_eq, Bool.not_eq_true'] at h
  unfold immJ
  rw [lowJ_encJ imm h.2]
  exact signExtend_low (j := 20) (by omega) imm (by omega) (by omega)

/-! ## A word is the encoding of its fields -/

theorem encR_fields (w : Word) :
    encR (funct7Of w) (rs2Of w) (rs1Of w) (funct3Of w) (rdOf w) (opcodeOf w) = w := by
  apply BitVec.eq_of_getLsbD_eq; intro i hi
  rw [encR_getLsbD _ _ _ _ _ _ hi]
  interval_cases i <;> simp [funct7Of, rs2Of, rs1Of, funct3Of, rdOf, opcodeOf]

theorem encR4_fields (w : Word) :
    encR4 (rs3Of w) (fmtOf w) (rs2Of w) (rs1Of w) (funct3Of w) (rdOf w) (opcodeOf w) = w := by
  apply BitVec.eq_of_getLsbD_eq; intro i hi
  rw [encR4_getLsbD _ _ _ _ _ _ _ hi]
  interval_cases i <;> simp [rs3Of, fmtOf, rs2Of, rs1Of, funct3Of, rdOf, opcodeOf]

theorem encIRaw_fields (w : Word) :
    encIRaw (w.extractLsb' 20 12) (rs1Of w) (funct3Of w) (rdOf w) (opcodeOf w) = w := by
  apply BitVec.eq_of_getLsbD_eq; intro i hi
  rw [encIRaw_getLsbD _ _ _ _ _ hi]
  interval_cases i <;> simp [rs1Of, funct3Of, rdOf, opcodeOf]

theorem encI_fields (w : Word) : encI (immI w) (rs1Of w) (funct3Of w) (rdOf w) (opcodeOf w) = w := by
  rw [encI, immI, extractLsb'_signExtend (by omega)]
  exact encIRaw_fields w

theorem immS_low (w : Word) : (immS w).extractLsb' 0 12 = w.extractLsb' 25 7 ++ w.extractLsb' 7 5 :=
  extractLsb'_signExtend (by omega) _

theorem encS_fields (w : Word) : encS (immS w) (rs2Of w) (rs1Of w) (funct3Of w) (opcodeOf w) = w := by
  have bit : ∀ j, j < 12 → (immS w).getLsbD j =
      BitVec.getLsbD (w := 7 + 5) (w.extractLsb' 25 7 ++ w.extractLsb' 7 5) j := fun j hj => by
    have := congrArg (·.getLsbD j) (immS_low w)
    simpa [BitVec.getLsbD_extractLsb', hj] using this
  simp only [BitVec.getLsbD_append] at bit
  apply BitVec.eq_of_getLsbD_eq; intro i hi
  rw [encS_getLsbD _ _ _ _ _ hi]
  interval_cases i <;> simp [bit, rs2Of, rs1Of, funct3Of, opcodeOf, -BitVec.getLsbD_eq_getElem]

theorem immB_low (w : Word) :
    (immB w).extractLsb' 0 13 =
      w.extractLsb' 31 1 ++ w.extractLsb' 7 1 ++ w.extractLsb' 25 6 ++ w.extractLsb' 8 4 ++ 0#1 :=
  extractLsb'_signExtend (by omega) _

theorem encB_fields (w : Word) : encB (immB w) (rs2Of w) (rs1Of w) (funct3Of w) (opcodeOf w) = w := by
  have bit : ∀ j, j < 13 → (immB w).getLsbD j = BitVec.getLsbD (w := 1 + 1 + 6 + 4 + 1)
      (w.extractLsb' 31 1 ++ w.extractLsb' 7 1 ++ w.extractLsb' 25 6 ++ w.extractLsb' 8 4 ++ 0#1) j :=
    fun j hj => by
      have := congrArg (·.getLsbD j) (immB_low w)
      simpa [BitVec.getLsbD_extractLsb', hj] using this
  simp only [BitVec.getLsbD_append] at bit
  apply BitVec.eq_of_getLsbD_eq; intro i hi
  rw [encB_getLsbD _ _ _ _ _ hi]
  interval_cases i <;> simp [bit, rs2Of, rs1Of, funct3Of, opcodeOf, -BitVec.getLsbD_eq_getElem]

theorem encU_fields (w : Word) : encU (immU w) (rdOf w) (opcodeOf w) = w := by
  apply BitVec.eq_of_getLsbD_eq; intro i hi
  have bit : ∀ j, (immU w).getLsbD j = if j < 12 then false else (w.extractLsb' 12 20).getLsbD (j - 12) := fun j => by
    unfold immU
    change BitVec.getLsbD (w := 20 + 12) _ j = _
    rw [BitVec.getLsbD_append]; simp
  rw [encU_getLsbD _ _ _ hi]
  interval_cases i <;> simp [bit, rdOf, opcodeOf, -BitVec.getLsbD_eq_getElem]

theorem immJ_low (w : Word) :
    (immJ w).extractLsb' 0 21 =
      w.extractLsb' 31 1 ++ w.extractLsb' 12 8 ++ w.extractLsb' 20 1 ++ w.extractLsb' 21 10 ++ 0#1 :=
  extractLsb'_signExtend (by omega) _

theorem encJ_fields (w : Word) : encJ (immJ w) (rdOf w) (opcodeOf w) = w := by
  have bit : ∀ j, j < 21 → (immJ w).getLsbD j = BitVec.getLsbD (w := 1 + 8 + 1 + 10 + 1)
      (w.extractLsb' 31 1 ++ w.extractLsb' 12 8 ++ w.extractLsb' 20 1 ++ w.extractLsb' 21 10 ++ 0#1) j :=
    fun j hj => by
      have := congrArg (·.getLsbD j) (immJ_low w)
      simpa [BitVec.getLsbD_extractLsb', hj] using this
  simp only [BitVec.getLsbD_append] at bit
  apply BitVec.eq_of_getLsbD_eq; intro i hi
  rw [encJ_getLsbD _ _ _ hi]
  interval_cases i <;> simp [bit, rdOf, opcodeOf, -BitVec.getLsbD_eq_getElem]

/-! ## What the masks of the opcode table keep -/

theorem mask_funct7 (w : Word) :
    w &&& 0xFE00707F#32 = encR (funct7Of w) 0#5 0#5 (funct3Of w) 0#5 (opcodeOf w) := by
  apply BitVec.eq_of_getLsbD_eq; intro i hi
  rw [encR_getLsbD _ _ _ _ _ _ hi, BitVec.getLsbD_and]
  interval_cases i <;> simp [funct7Of, funct3Of, opcodeOf]

theorem mask_funct7_only (w : Word) : w &&& 0xFE00007F#32 = encR (funct7Of w) 0#5 0#5 0#3 0#5 (opcodeOf w) := by
  apply BitVec.eq_of_getLsbD_eq; intro i hi
  rw [encR_getLsbD _ _ _ _ _ _ hi, BitVec.getLsbD_and]
  interval_cases i <;> simp [funct7Of, opcodeOf]

theorem mask_funct7_rs2 (w : Word) : w &&& 0xFFF0007F#32 = encR (funct7Of w) (rs2Of w) 0#5 0#3 0#5 (opcodeOf w) := by
  apply BitVec.eq_of_getLsbD_eq; intro i hi
  rw [encR_getLsbD _ _ _ _ _ _ hi, BitVec.getLsbD_and]
  interval_cases i <;> simp [funct7Of, rs2Of, opcodeOf]

theorem mask_funct3 (w : Word) : w &&& 0x0000707F#32 = encR 0#7 0#5 0#5 (funct3Of w) 0#5 (opcodeOf w) := by
  apply BitVec.eq_of_getLsbD_eq; intro i hi
  rw [encR_getLsbD _ _ _ _ _ _ hi, BitVec.getLsbD_and]
  interval_cases i <;> simp [funct3Of, opcodeOf]

theorem mask_opcode (w : Word) : w &&& 0x0000007F#32 = encR 0#7 0#5 0#5 0#3 0#5 (opcodeOf w) := by
  apply BitVec.eq_of_getLsbD_eq; intro i hi
  rw [encR_getLsbD _ _ _ _ _ _ hi, BitVec.getLsbD_and]
  interval_cases i <;> simp [opcodeOf]

/-! ## What an immediate assembles to is an immediate of its format -/

theorem fitsI_immI (w : Word) : fitsI (immI w) = true := by
  have := toInt_signExtend_range (j := 11) (by omega) (w.extractLsb' 20 12)
  unfold fitsI immI
  simp only [Bool.and_eq_true, decide_eq_true_eq]
  constructor <;> simp at this ⊢ <;> omega

theorem fitsS_immS (w : Word) : fitsS (immS w) = true := by
  have := toInt_signExtend_range (j := 11) (by omega) (w.extractLsb' 25 7 ++ w.extractLsb' 7 5)
  unfold fitsS immS
  simp only [Bool.and_eq_true, decide_eq_true_eq]
  constructor <;> simp at this ⊢ <;> omega

theorem fitsU_immU (w : Word) : fitsU (immU w) = true := by
  simp only [fitsU, immU, beq_iff_eq]
  apply BitVec.eq_of_getLsbD_eq; intro i hi
  rw [BitVec.getLsbD_extractLsb', BitVec.getLsbD_append]
  simp [hi]

/-- An even pattern is an even integer. -/
theorem toInt_even {a : Word} (h : a.getLsbD 0 = false) : a.toInt % 2 = 0 := by
  have : a.toNat % 2 = 0 := by
    simp only [BitVec.getLsbD, Nat.testBit_zero, decide_eq_false_iff_not] at h; omega
  rw [BitVec.toInt_eq_toNat_cond]; split <;> omega

theorem fitsB_immB (w : Word) : fitsB (immB w) = true := by
  have h : (immB w).getLsbD 0 = false := by
    unfold immB; rw [BitVec.getLsbD_signExtend, BitVec.getLsbD_append]; simp
  have h2 := toInt_even h
  have := toInt_signExtend_range (j := 12) (by omega)
    (w.extractLsb' 31 1 ++ w.extractLsb' 7 1 ++ w.extractLsb' 25 6 ++ w.extractLsb' 8 4 ++ 0#1)
  change -2 ^ 12 ≤ (immB w).toInt ∧ (immB w).toInt < 2 ^ 12 at this
  simp only [fitsB, Bool.and_eq_true, decide_eq_true_eq, Bool.not_eq_true']
  refine ⟨⟨?_, ?_⟩, h⟩ <;> omega

theorem fitsJ_immJ (w : Word) : fitsJ (immJ w) = true := by
  have h : (immJ w).getLsbD 0 = false := by
    unfold immJ; rw [BitVec.getLsbD_signExtend, BitVec.getLsbD_append]; simp
  have h2 := toInt_even h
  have := toInt_signExtend_range (j := 20) (by omega)
    (w.extractLsb' 31 1 ++ w.extractLsb' 12 8 ++ w.extractLsb' 20 1 ++ w.extractLsb' 21 10 ++ 0#1)
  change -2 ^ 20 ≤ (immJ w).toInt ∧ (immJ w).toInt < 2 ^ 20 at this
  simp only [fitsJ, Bool.and_eq_true, decide_eq_true_eq, Bool.not_eq_true']
  refine ⟨⟨?_, ?_⟩, h⟩ <;> omega

end Sys2Proof
end

