-- ==== Sys2Proof/Laws/State.lean ====
section
/-!
SUPPORT. For each update of the state, each field and each register read that it leaves alone, and the value it writes where
it writes one.
-/

namespace Sys2Proof.Machine

variable (s : State)

/-! ### `writeX` -/

@[simp] theorem State.writeX_pc (r : Reg) (v : Word) : (s.writeX r v).pc = s.pc := by
  unfold State.writeX; split <;> rfl
@[simp] theorem State.writeX_f (r : Reg) (v : Word) : (s.writeX r v).f = s.f := by
  unfold State.writeX; split <;> rfl
@[simp] theorem State.writeX_fcsr (r : Reg) (v : Word) : (s.writeX r v).fcsr = s.fcsr := by
  unfold State.writeX; split <;> rfl
@[simp] theorem State.writeX_accLo (r : Reg) (v : Word) : (s.writeX r v).accLo = s.accLo := by
  unfold State.writeX; split <;> rfl
@[simp] theorem State.writeX_accHi (r : Reg) (v : Word) : (s.writeX r v).accHi = s.accHi := by
  unfold State.writeX; split <;> rfl
@[simp] theorem State.writeX_vreg (r : Reg) (v : Word) : (s.writeX r v).vreg = s.vreg := by
  unfold State.writeX; split <;> rfl
@[simp] theorem State.writeX_mem (r : Reg) (v : Word) : (s.writeX r v).mem = s.mem := by
  unfold State.writeX; split <;> rfl
@[simp] theorem State.writeX_memMap (r : Reg) (v : Word) : (s.writeX r v).memMap = s.memMap := by
  unfold State.writeX; split <;> rfl
@[simp] theorem State.writeX_ecallHandler (r : Reg) (v : Word) : (s.writeX r v).ecallHandler = s.ecallHandler := by
  unfold State.writeX; split <;> rfl
@[simp] theorem State.writeX_readF (r : Reg) (v : Word) (q : Reg) : (s.writeX r v).readF q = s.readF q := by
  unfold State.writeX; split <;> rfl
@[simp] theorem State.writeX_readV (r : Reg) (v : Word) (q : BitVec 2) : (s.writeX r v).readV q = s.readV q := by
  unfold State.writeX; split <;> rfl
@[simp] theorem State.writeX_byteAt (r : Reg) (v : Word) (q : Word) : (s.writeX r v).byteAt q = s.byteAt q := by
  unfold State.writeX; split <;> rfl
@[simp] theorem State.writeX_valid (r : Reg) (v : Word) (q : Word) : (s.writeX r v).valid q = s.valid q := by
  unfold State.writeX; split <;> rfl

/-! ### `writeF` -/

@[simp] theorem State.writeF_x (r : Reg) (v : Word) : (s.writeF r v).x = s.x := rfl
@[simp] theorem State.writeF_pc (r : Reg) (v : Word) : (s.writeF r v).pc = s.pc := rfl
@[simp] theorem State.writeF_fcsr (r : Reg) (v : Word) : (s.writeF r v).fcsr = s.fcsr := rfl
@[simp] theorem State.writeF_accLo (r : Reg) (v : Word) : (s.writeF r v).accLo = s.accLo := rfl
@[simp] theorem State.writeF_accHi (r : Reg) (v : Word) : (s.writeF r v).accHi = s.accHi := rfl
@[simp] theorem State.writeF_vreg (r : Reg) (v : Word) : (s.writeF r v).vreg = s.vreg := rfl
@[simp] theorem State.writeF_mem (r : Reg) (v : Word) : (s.writeF r v).mem = s.mem := rfl
@[simp] theorem State.writeF_memMap (r : Reg) (v : Word) : (s.writeF r v).memMap = s.memMap := rfl
@[simp] theorem State.writeF_ecallHandler (r : Reg) (v : Word) : (s.writeF r v).ecallHandler = s.ecallHandler := rfl
@[simp] theorem State.writeF_readX (r : Reg) (v : Word) (q : Reg) : (s.writeF r v).readX q = s.readX q := rfl
@[simp] theorem State.writeF_readV (r : Reg) (v : Word) (q : BitVec 2) : (s.writeF r v).readV q = s.readV q := rfl
@[simp] theorem State.writeF_byteAt (r : Reg) (v : Word) (q : Word) : (s.writeF r v).byteAt q = s.byteAt q := rfl
@[simp] theorem State.writeF_valid (r : Reg) (v : Word) (q : Word) : (s.writeF r v).valid q = s.valid q := rfl

/-! ### `writeV` -/

@[simp] theorem State.writeV_x (k : BitVec 2) (v : Word) : (s.writeV k v).x = s.x := rfl
@[simp] theorem State.writeV_pc (k : BitVec 2) (v : Word) : (s.writeV k v).pc = s.pc := rfl
@[simp] theorem State.writeV_f (k : BitVec 2) (v : Word) : (s.writeV k v).f = s.f := rfl
@[simp] theorem State.writeV_fcsr (k : BitVec 2) (v : Word) : (s.writeV k v).fcsr = s.fcsr := rfl
@[simp] theorem State.writeV_accLo (k : BitVec 2) (v : Word) : (s.writeV k v).accLo = s.accLo := rfl
@[simp] theorem State.writeV_accHi (k : BitVec 2) (v : Word) : (s.writeV k v).accHi = s.accHi := rfl
@[simp] theorem State.writeV_mem (k : BitVec 2) (v : Word) : (s.writeV k v).mem = s.mem := rfl
@[simp] theorem State.writeV_memMap (k : BitVec 2) (v : Word) : (s.writeV k v).memMap = s.memMap := rfl
@[simp] theorem State.writeV_ecallHandler (k : BitVec 2) (v : Word) : (s.writeV k v).ecallHandler = s.ecallHandler := rfl
@[simp] theorem State.writeV_readX (k : BitVec 2) (v : Word) (q : Reg) : (s.writeV k v).readX q = s.readX q := rfl
@[simp] theorem State.writeV_readF (k : BitVec 2) (v : Word) (q : Reg) : (s.writeV k v).readF q = s.readF q := rfl
@[simp] theorem State.writeV_byteAt (k : BitVec 2) (v : Word) (q : Word) : (s.writeV k v).byteAt q = s.byteAt q := rfl
@[simp] theorem State.writeV_valid (k : BitVec 2) (v : Word) (q : Word) : (s.writeV k v).valid q = s.valid q := rfl

/-! ### `writeAcc` -/

@[simp] theorem State.writeAcc_x (v : BitVec 64) : (s.writeAcc v).x = s.x := rfl
@[simp] theorem State.writeAcc_pc (v : BitVec 64) : (s.writeAcc v).pc = s.pc := rfl
@[simp] theorem State.writeAcc_f (v : BitVec 64) : (s.writeAcc v).f = s.f := rfl
@[simp] theorem State.writeAcc_fcsr (v : BitVec 64) : (s.writeAcc v).fcsr = s.fcsr := rfl
@[simp] theorem State.writeAcc_vreg (v : BitVec 64) : (s.writeAcc v).vreg = s.vreg := rfl
@[simp] theorem State.writeAcc_mem (v : BitVec 64) : (s.writeAcc v).mem = s.mem := rfl
@[simp] theorem State.writeAcc_memMap (v : BitVec 64) : (s.writeAcc v).memMap = s.memMap := rfl
@[simp] theorem State.writeAcc_ecallHandler (v : BitVec 64) : (s.writeAcc v).ecallHandler = s.ecallHandler := rfl
@[simp] theorem State.writeAcc_readX (v : BitVec 64) (q : Reg) : (s.writeAcc v).readX q = s.readX q := rfl
@[simp] theorem State.writeAcc_readF (v : BitVec 64) (q : Reg) : (s.writeAcc v).readF q = s.readF q := rfl
@[simp] theorem State.writeAcc_readV (v : BitVec 64) (q : BitVec 2) : (s.writeAcc v).readV q = s.readV q := rfl
@[simp] theorem State.writeAcc_byteAt (v : BitVec 64) (q : Word) : (s.writeAcc v).byteAt q = s.byteAt q := rfl
@[simp] theorem State.writeAcc_valid (v : BitVec 64) (q : Word) : (s.writeAcc v).valid q = s.valid q := rfl

/-! ### `setPc` -/

@[simp] theorem State.setPc_x (t : Word) : (s.setPc t).x = s.x := rfl
@[simp] theorem State.setPc_f (t : Word) : (s.setPc t).f = s.f := rfl
@[simp] theorem State.setPc_fcsr (t : Word) : (s.setPc t).fcsr = s.fcsr := rfl
@[simp] theorem State.setPc_accLo (t : Word) : (s.setPc t).accLo = s.accLo := rfl
@[simp] theorem State.setPc_accHi (t : Word) : (s.setPc t).accHi = s.accHi := rfl
@[simp] theorem State.setPc_vreg (t : Word) : (s.setPc t).vreg = s.vreg := rfl
@[simp] theorem State.setPc_mem (t : Word) : (s.setPc t).mem = s.mem := rfl
@[simp] theorem State.setPc_memMap (t : Word) : (s.setPc t).memMap = s.memMap := rfl
@[simp] theorem State.setPc_ecallHandler (t : Word) : (s.setPc t).ecallHandler = s.ecallHandler := rfl
@[simp] theorem State.setPc_readX (t : Word) (q : Reg) : (s.setPc t).readX q = s.readX q := rfl
@[simp] theorem State.setPc_readF (t : Word) (q : Reg) : (s.setPc t).readF q = s.readF q := rfl
@[simp] theorem State.setPc_readV (t : Word) (q : BitVec 2) : (s.setPc t).readV q = s.readV q := rfl
@[simp] theorem State.setPc_byteAt (t : Word) (q : Word) : (s.setPc t).byteAt q = s.byteAt q := rfl
@[simp] theorem State.setPc_valid (t : Word) (q : Word) : (s.setPc t).valid q = s.valid q := rfl

/-! ### `advance` -/

@[simp] theorem State.advance_x : (s.advance).x = s.x := rfl
@[simp] theorem State.advance_f : (s.advance).f = s.f := rfl
@[simp] theorem State.advance_fcsr : (s.advance).fcsr = s.fcsr := rfl
@[simp] theorem State.advance_accLo : (s.advance).accLo = s.accLo := rfl
@[simp] theorem State.advance_accHi : (s.advance).accHi = s.accHi := rfl
@[simp] theorem State.advance_vreg : (s.advance).vreg = s.vreg := rfl
@[simp] theorem State.advance_mem : (s.advance).mem = s.mem := rfl
@[simp] theorem State.advance_memMap : (s.advance).memMap = s.memMap := rfl
@[simp] theorem State.advance_ecallHandler : (s.advance).ecallHandler = s.ecallHandler := rfl
@[simp] theorem State.advance_readX (q : Reg) : (s.advance).readX q = s.readX q := rfl
@[simp] theorem State.advance_readF (q : Reg) : (s.advance).readF q = s.readF q := rfl
@[simp] theorem State.advance_readV (q : BitVec 2) : (s.advance).readV q = s.readV q := rfl
@[simp] theorem State.advance_byteAt (q : Word) : (s.advance).byteAt q = s.byteAt q := rfl
@[simp] theorem State.advance_valid (q : Word) : (s.advance).valid q = s.valid q := rfl

/-! ### `putByte` -/

@[simp] theorem State.putByte_x (a : Word) (v : Byte) : (s.putByte a v).x = s.x := rfl
@[simp] theorem State.putByte_pc (a : Word) (v : Byte) : (s.putByte a v).pc = s.pc := rfl
@[simp] theorem State.putByte_f (a : Word) (v : Byte) : (s.putByte a v).f = s.f := rfl
@[simp] theorem State.putByte_fcsr (a : Word) (v : Byte) : (s.putByte a v).fcsr = s.fcsr := rfl
@[simp] theorem State.putByte_accLo (a : Word) (v : Byte) : (s.putByte a v).accLo = s.accLo := rfl
@[simp] theorem State.putByte_accHi (a : Word) (v : Byte) : (s.putByte a v).accHi = s.accHi := rfl
@[simp] theorem State.putByte_vreg (a : Word) (v : Byte) : (s.putByte a v).vreg = s.vreg := rfl
@[simp] theorem State.putByte_memMap (a : Word) (v : Byte) : (s.putByte a v).memMap = s.memMap := rfl
@[simp] theorem State.putByte_ecallHandler (a : Word) (v : Byte) : (s.putByte a v).ecallHandler = s.ecallHandler := rfl
@[simp] theorem State.putByte_readX (a : Word) (v : Byte) (q : Reg) : (s.putByte a v).readX q = s.readX q := rfl
@[simp] theorem State.putByte_readF (a : Word) (v : Byte) (q : Reg) : (s.putByte a v).readF q = s.readF q := rfl
@[simp] theorem State.putByte_readV (a : Word) (v : Byte) (q : BitVec 2) : (s.putByte a v).readV q = s.readV q := rfl
@[simp] theorem State.putByte_valid (a : Word) (v : Byte) (q : Word) : (s.putByte a v).valid q = s.valid q := rfl

/-! ### `putHalf` -/

@[simp] theorem State.putHalf_x (a : Word) (v : BitVec 16) : (s.putHalf a v).x = s.x := by
  simp [State.putHalf]
@[simp] theorem State.putHalf_pc (a : Word) (v : BitVec 16) : (s.putHalf a v).pc = s.pc := by
  simp [State.putHalf]
@[simp] theorem State.putHalf_f (a : Word) (v : BitVec 16) : (s.putHalf a v).f = s.f := by
  simp [State.putHalf]
@[simp] theorem State.putHalf_fcsr (a : Word) (v : BitVec 16) : (s.putHalf a v).fcsr = s.fcsr := by
  simp [State.putHalf]
@[simp] theorem State.putHalf_accLo (a : Word) (v : BitVec 16) : (s.putHalf a v).accLo = s.accLo := by
  simp [State.putHalf]
@[simp] theorem State.putHalf_accHi (a : Word) (v : BitVec 16) : (s.putHalf a v).accHi = s.accHi := by
  simp [State.putHalf]
@[simp] theorem State.putHalf_vreg (a : Word) (v : BitVec 16) : (s.putHalf a v).vreg = s.vreg := by
  simp [State.putHalf]
@[simp] theorem State.putHalf_memMap (a : Word) (v : BitVec 16) : (s.putHalf a v).memMap = s.memMap := by
  simp [State.putHalf]
@[simp] theorem State.putHalf_ecallHandler (a : Word) (v : BitVec 16) : (s.putHalf a v).ecallHandler = s.ecallHandler := by
  simp [State.putHalf]
@[simp] theorem State.putHalf_readX (a : Word) (v : BitVec 16) (q : Reg) : (s.putHalf a v).readX q = s.readX q := by
  simp [State.putHalf]
@[simp] theorem State.putHalf_readF (a : Word) (v : BitVec 16) (q : Reg) : (s.putHalf a v).readF q = s.readF q := by
  simp [State.putHalf]
@[simp] theorem State.putHalf_readV (a : Word) (v : BitVec 16) (q : BitVec 2) : (s.putHalf a v).readV q = s.readV q := by
  simp [State.putHalf]
@[simp] theorem State.putHalf_valid (a : Word) (v : BitVec 16) (q : Word) : (s.putHalf a v).valid q = s.valid q := by
  simp [State.putHalf]

/-! ### `putWord` -/

@[simp] theorem State.putWord_x (a : Word) (v : Word) : (s.putWord a v).x = s.x := by
  simp [State.putWord]
@[simp] theorem State.putWord_pc (a : Word) (v : Word) : (s.putWord a v).pc = s.pc := by
  simp [State.putWord]
@[simp] theorem State.putWord_f (a : Word) (v : Word) : (s.putWord a v).f = s.f := by
  simp [State.putWord]
@[simp] theorem State.putWord_fcsr (a : Word) (v : Word) : (s.putWord a v).fcsr = s.fcsr := by
  simp [State.putWord]
@[simp] theorem State.putWord_accLo (a : Word) (v : Word) : (s.putWord a v).accLo = s.accLo := by
  simp [State.putWord]
@[simp] theorem State.putWord_accHi (a : Word) (v : Word) : (s.putWord a v).accHi = s.accHi := by
  simp [State.putWord]
@[simp] theorem State.putWord_vreg (a : Word) (v : Word) : (s.putWord a v).vreg = s.vreg := by
  simp [State.putWord]
@[simp] theorem State.putWord_memMap (a : Word) (v : Word) : (s.putWord a v).memMap = s.memMap := by
  simp [State.putWord]
@[simp] theorem State.putWord_ecallHandler (a : Word) (v : Word) : (s.putWord a v).ecallHandler = s.ecallHandler := by
  simp [State.putWord]
@[simp] theorem State.putWord_readX (a : Word) (v : Word) (q : Reg) : (s.putWord a v).readX q = s.readX q := by
  simp [State.putWord]
@[simp] theorem State.putWord_readF (a : Word) (v : Word) (q : Reg) : (s.putWord a v).readF q = s.readF q := by
  simp [State.putWord]
@[simp] theorem State.putWord_readV (a : Word) (v : Word) (q : BitVec 2) : (s.putWord a v).readV q = s.readV q := by
  simp [State.putWord]
@[simp] theorem State.putWord_valid (a : Word) (v : Word) (q : Word) : (s.putWord a v).valid q = s.valid q := by
  simp [State.putWord]

/-! ### `raiseFlags` -/

@[simp] theorem State.raiseFlags_x (new : FFlags) : (s.raiseFlags new).x = s.x := rfl
@[simp] theorem State.raiseFlags_pc (new : FFlags) : (s.raiseFlags new).pc = s.pc := rfl
@[simp] theorem State.raiseFlags_f (new : FFlags) : (s.raiseFlags new).f = s.f := rfl
@[simp] theorem State.raiseFlags_accLo (new : FFlags) : (s.raiseFlags new).accLo = s.accLo := rfl
@[simp] theorem State.raiseFlags_accHi (new : FFlags) : (s.raiseFlags new).accHi = s.accHi := rfl
@[simp] theorem State.raiseFlags_vreg (new : FFlags) : (s.raiseFlags new).vreg = s.vreg := rfl
@[simp] theorem State.raiseFlags_mem (new : FFlags) : (s.raiseFlags new).mem = s.mem := rfl
@[simp] theorem State.raiseFlags_memMap (new : FFlags) : (s.raiseFlags new).memMap = s.memMap := rfl
@[simp] theorem State.raiseFlags_ecallHandler (new : FFlags) : (s.raiseFlags new).ecallHandler = s.ecallHandler := rfl
@[simp] theorem State.raiseFlags_readX (new : FFlags) (q : Reg) : (s.raiseFlags new).readX q = s.readX q := rfl
@[simp] theorem State.raiseFlags_readF (new : FFlags) (q : Reg) : (s.raiseFlags new).readF q = s.readF q := rfl
@[simp] theorem State.raiseFlags_readV (new : FFlags) (q : BitVec 2) : (s.raiseFlags new).readV q = s.readV q := rfl
@[simp] theorem State.raiseFlags_byteAt (new : FFlags) (q : Word) : (s.raiseFlags new).byteAt q = s.byteAt q := rfl
@[simp] theorem State.raiseFlags_valid (new : FFlags) (q : Word) : (s.raiseFlags new).valid q = s.valid q := rfl

/-! ### The values written -/

@[simp] theorem State.setPc_pc (t : Word) : (s.setPc t).pc = t := rfl
@[simp] theorem State.advance_pc : s.advance.pc = s.pc + 4#32 := rfl
@[simp] theorem State.writeAcc_accLo (v : BitVec 64) : (s.writeAcc v).accLo = v.extractLsb' 0 32 := rfl
@[simp] theorem State.writeAcc_accHi (v : BitVec 64) : (s.writeAcc v).accHi = v.extractLsb' 32 32 := rfl
@[simp] theorem State.raiseFlags_fcsr (new : FFlags) :
    (s.raiseFlags new).fcsr = { frm := s.fcsr.frm, fflags := s.fcsr.fflags.union new } := rfl

/-- Two register numbers are the same when their values are. -/
theorem toNat_ne_of_ne {w : Nat} {a b : BitVec w} (h : a ≠ b) : a.toNat ≠ b.toNat := fun e => h (BitVec.eq_of_toNat_eq e)

/-! ### `resumeFrom` -/

@[simp] theorem State.resumeFrom_toArch (a : Arch) : (s.resumeFrom a).toArch = a := rfl
@[simp] theorem State.resumeFrom_memMap (a : Arch) : (s.resumeFrom a).memMap = s.memMap := rfl
@[simp] theorem State.resumeFrom_ecallHandler (a : Arch) : (s.resumeFrom a).ecallHandler = s.ecallHandler := rfl

/-! ### Reading back -/

/-- x0 reads zero in every state (10_state.md R31). -/
@[simp] theorem State.readX_zero : s.readX 0#5 = 0#32 := rfl

/-- A write to x0 changes nothing (R31). -/
@[simp] theorem State.writeX_zero (v : Word) : s.writeX 0#5 v = s := rfl

/-- What a register reads as after a write: the value, but for x0. -/
theorem State.writeX_readX_self (r : Reg) (v : Word) : (s.writeX r v).readX r = if r = 0#5 then 0#32 else v := by
  unfold State.readX State.writeX
  split <;> simp_all

/-- A write to one x register leaves the others. -/
theorem State.writeX_readX_of_ne {r q : Reg} (v : Word) (h : q ≠ r) : (s.writeX r v).readX q = s.readX q := by
  have hn := toNat_ne_of_ne h.symm
  by_cases hr : r = 0#5
  · rw [hr, State.writeX_zero]
  · simp [State.readX, State.writeX, hr, hn]

theorem State.writeF_readF_self (r : Reg) (v : Word) : (s.writeF r v).readF r = v := by
  simp [State.readF, State.writeF]

theorem State.writeF_readF_of_ne {r q : Reg} (v : Word) (h : q ≠ r) : (s.writeF r v).readF q = s.readF q := by
  have hn := toNat_ne_of_ne h.symm
  simp [State.readF, State.writeF, hn]

theorem State.writeV_readV_self (k : BitVec 2) (v : Word) : (s.writeV k v).readV k = v := by
  simp [State.readV, State.writeV]

theorem State.writeV_readV_of_ne {k q : BitVec 2} (v : Word) (h : q ≠ k) : (s.writeV k v).readV q = s.readV q := by
  have hn := toNat_ne_of_ne h.symm
  simp [State.readV, State.writeV, hn]

/-- The cell of x0 is never written (log 23). -/
theorem State.writeX_cell_zero (r : Reg) (v : Word) : (s.writeX r v).x[0] = s.x[0] := by
  unfold State.writeX
  split
  · rfl
  · have : r.toNat ≠ 0 := fun e => ‹¬r = 0#5› (BitVec.eq_of_toNat_eq e)
    simp [this]

/-! ### A state that differs in memory alone -/

@[simp] theorem State.withMem_readX (m : Memory) (q : Reg) : State.readX { s with mem := m } q = s.readX q := rfl
@[simp] theorem State.withMem_readF (m : Memory) (q : Reg) : State.readF { s with mem := m } q = s.readF q := rfl
@[simp] theorem State.withMem_readV (m : Memory) (q : BitVec 2) : State.readV { s with mem := m } q = s.readV q := rfl
@[simp] theorem State.withMem_valid (m : Memory) (q : Word) : State.valid { s with mem := m } q = s.valid q := rfl

/-! ### The flags -/

@[simp] theorem FFlags.union_none (a : FFlags) : a.union FFlags.none = a := by
  cases a; simp [FFlags.union, FFlags.none]

/-- Signalling nothing leaves the state as it is. -/
@[simp] theorem State.raiseFlags_none : s.raiseFlags FFlags.none = s := by
  simp [State.raiseFlags]

end Sys2Proof.Machine
end

