-- ==== Sys2Proof/Laws/Memory.lean ====
section
/-!
SUPPORT. The laws of memory: a read after a write, the canonical form, and the wider accesses built from bytes.
-/

namespace Sys2Proof.Machine

/-! ## Reads and writes of one byte -/

@[simp] theorem Memory.erase_cons (c : Host.Cell) (m : Memory) (a : Nat) :
    Memory.erase (c :: m) a = if c.1 = a then Memory.erase m a else c :: Memory.erase m a := by
  by_cases h : c.1 = a <;> simp [Memory.erase, h]

theorem Memory.get_erase_self (m : Memory) (a : Nat) : (m.erase a).get a = Memory.unlisted a := by
  induction m with
  | nil => rfl
  | cons c m ih => by_cases h : c.1 = a <;> simp [h, ih, Memory.get]

theorem Memory.get_erase_of_ne (m : Memory) {a b : Nat} (h : b ≠ a) : (m.erase a).get b = m.get b := by
  induction m with
  | nil => rfl
  | cons c m ih =>
    by_cases hc : c.1 = a
    · simp [hc, ih, Memory.get, h.symm]
    · simp [hc, ih, Memory.get]

theorem Memory.get_insert_of_ne (m : Memory) {a b : Nat} (v : Byte) (h : b ≠ a) : (m.insert a v).get b = m.get b := by
  induction m with
  | nil => simp [Memory.insert, Memory.get, h.symm]
  | cons c m ih => simp only [Memory.insert]; split <;> simp [Memory.get, h.symm, ih]

theorem Memory.get_insert_self (m : Memory) {a : Nat} (v : Byte) (h : ∀ c ∈ m, c.1 ≠ a) : (m.insert a v).get a = v := by
  induction m with
  | nil => simp [Memory.insert, Memory.get]
  | cons c m ih =>
    have hc := h c (by simp)
    have hm := ih fun d hd => h d (by simp [hd])
    simp only [Memory.insert]; split <;> simp [Memory.get, hc, hm]

theorem Memory.erase_ne (m : Memory) (a : Nat) : ∀ c ∈ m.erase a, c.1 ≠ a := by
  intro c hc
  simpa using (List.mem_filter.mp hc).2

/-- What is written is read back. -/
theorem Memory.get_put_self (m : Memory) (a : Nat) (v : Byte) : (m.put a v).get a = v := by
  unfold Memory.put
  split
  · rw [Memory.get_erase_self]; exact ‹v = _›.symm
  · exact Memory.get_insert_self _ _ (Memory.erase_ne m a)

/-- A write leaves every other byte. -/
theorem Memory.get_put_of_ne (m : Memory) {a b : Nat} (v : Byte) (h : b ≠ a) : (m.put a v).get b = m.get b := by
  unfold Memory.put
  split
  · exact Memory.get_erase_of_ne m h
  · rw [Memory.get_insert_of_ne _ _ h, Memory.get_erase_of_ne m h]

/-! ## The canonical form -/

theorem Memory.mem_insert {m : Memory} {a : Nat} {v : Byte} {c : Host.Cell} :
    c ∈ m.insert a v ↔ c = (a, v) ∨ c ∈ m := by
  induction m with
  | nil => simp [Memory.insert]
  | cons d m ih =>
    simp only [Memory.insert]; split
    · simp
    · simp [ih]; tauto

theorem Memory.wf_cons {c : Host.Cell} {m : Memory} :
    Memory.wf (c :: m) = true ↔
      c.1 < 2 ^ 32 ∧ c.2 ≠ Memory.unlisted c.1 ∧ (∀ d ∈ m, c.1 < d.1) ∧ Memory.wf m = true := by
  simp [Memory.wf, and_assoc]

theorem Memory.wf_erase {m : Memory} (a : Nat) (h : m.wf = true) : (m.erase a).wf = true := by
  induction m with
  | nil => rfl
  | cons c m ih =>
    obtain ⟨h1, h2, h3, h4⟩ := Memory.wf_cons.mp h
    rw [Memory.erase_cons]; split
    · exact ih h4
    · exact Memory.wf_cons.mpr ⟨h1, h2, fun d hd => h3 d (List.mem_filter.mp hd).1, ih h4⟩

theorem Memory.wf_insert {m : Memory} {a : Nat} {v : Byte} (h : m.wf = true) (ha : a < 2 ^ 32)
    (hv : v ≠ Memory.unlisted a) (hne : ∀ c ∈ m, c.1 ≠ a) : (m.insert a v).wf = true := by
  induction m with
  | nil => simp [Memory.insert, Memory.wf, hv]; exact ha
  | cons c m ih =>
    obtain ⟨h1, h2, h3, h4⟩ := Memory.wf_cons.mp h
    simp only [Memory.insert]; split
    · refine Memory.wf_cons.mpr ⟨ha, hv, ?_, h⟩
      intro d hd
      rcases List.mem_cons.mp hd with rfl | hd
      · assumption
      · exact lt_trans ‹_› (h3 d hd)
    · refine Memory.wf_cons.mpr ⟨h1, h2, ?_, ih h4 fun d hd => hne d (by simp [hd])⟩
      intro d hd
      rcases Memory.mem_insert.mp hd with rfl | hd
      · have := hne c (by simp)
        show c.1 < a
        omega
      · exact h3 d hd

/-- Every write keeps the canonical form. -/
theorem Memory.wf_put {m : Memory} {a : Nat} (v : Byte) (h : m.wf = true) (ha : a < 2 ^ 32) : (m.put a v).wf = true := by
  unfold Memory.put
  split
  · exact Memory.wf_erase a h
  · exact Memory.wf_insert (Memory.wf_erase a h) ha ‹_› (Memory.erase_ne m a)

/-- A write lists no address but its own that was not listed. -/
theorem Memory.mem_put {m : Memory} {a : Nat} {v : Byte} {c : Host.Cell} (h : c ∈ m.put a v) : c.1 = a ∨ c ∈ m := by
  unfold Memory.put at h
  split at h
  · exact .inr (List.mem_filter.mp h).1
  · rcases Memory.mem_insert.mp h with rfl | h
    · exact .inl rfl
    · exact .inr (List.mem_filter.mp h).1

/-- The memory after reset has the canonical form. -/
theorem reset_mem_wf : State.reset.mem.wf = true := rfl

/-! ## Bytes of the state -/

variable (s : State)

@[simp] theorem State.putByte_byteAt_self (a : Word) (v : Byte) : (s.putByte a v).byteAt a = v :=
  Memory.get_put_self _ _ _

theorem State.putByte_byteAt_of_ne {a b : Word} (v : Byte) (h : b ≠ a) : (s.putByte a v).byteAt b = s.byteAt b :=
  Memory.get_put_of_ne _ _ (toNat_ne_of_ne h)

theorem State.putByte_byteAt (a b : Word) (v : Byte) : (s.putByte a v).byteAt b = if b = a then v else s.byteAt b := by
  split
  · subst b; exact s.putByte_byteAt_self a v
  · exact s.putByte_byteAt_of_ne v ‹_›

/-- Distinct small offsets give distinct addresses. -/
theorem offset_ne (a : Word) {i j : Nat} (hi : i < 2 ^ 32) (hj : j < 2 ^ 32) (h : i ≠ j) :
    a + BitVec.ofNat 32 i ≠ a + BitVec.ofNat 32 j := by
  intro e
  have := congrArg BitVec.toNat (add_left_cancel e)
  rw [BitVec.toNat_ofNat, BitVec.toNat_ofNat, Nat.mod_eq_of_lt hi, Nat.mod_eq_of_lt hj] at this
  exact h this

theorem add_ofNat_zero (a : Word) : a + BitVec.ofNat 32 0 = a := BitVec.add_zero a

/-- The bytes of a half-word write, byte by byte. -/
theorem State.putHalf_byteAt (a b : Word) (v : BitVec 16) :
    (s.putHalf a v).byteAt b =
      if b = a + 1#32 then v.extractLsb' 8 8 else if b = a then v.extractLsb' 0 8 else s.byteAt b := by
  simp only [State.putHalf, State.putByte_byteAt]

/-- The bytes of a word write, byte by byte. -/
theorem State.putWord_byteAt (a b : Word) (v : Word) :
    (s.putWord a v).byteAt b =
      if b = a + 3#32 then byteOfWord v 3 else if b = a + 2#32 then byteOfWord v 2
      else if b = a + 1#32 then byteOfWord v 1 else if b = a then byteOfWord v 0 else s.byteAt b := by
  simp only [State.putWord, State.putByte_byteAt]

end Sys2Proof.Machine
end

