-- ==== Sys2Proof/Laws/Operations.lean ====
section
/-!
SUPPORT. For each shared operation one lemma that says once everything it can do: the guards, the completions, the loads and
stores, the deliveries of exceptions, the fetch and the step.
-/

namespace Sys2Proof.Machine

variable (s : State)

/-! ## Guards -/

theorem accessible_iff (a : Word) (n : Nat) : s.accessible a n = true ↔ AllValid s a n := by
  induction n with
  | zero => simp [State.accessible, AllValid]
  | succ n ih =>
    simp only [State.accessible, Bool.and_eq_true, ih, AllValid]
    constructor
    · rintro ⟨h, hn⟩ i hi
      rcases Nat.lt_succ_iff_lt_or_eq.mp hi with h' | rfl
      · exact h i h'
      · exact hn
    · intro h
      exact ⟨fun i hi => h i (by omega), h n (by omega)⟩

theorem guardLoad_ok {a : Word} {n : Nat} (h : AllValid s a n) : guardLoad s a n = .ok () := by
  simp [guardLoad, (accessible_iff s a n).mpr h]

theorem guardLoad_error {a : Word} {n : Nat} (h : ¬AllValid s a n) : guardLoad s a n = .error (.loadAccessFault a) := by
  simp [guardLoad, mt (accessible_iff s a n).mp h]

theorem guardStore_ok {a : Word} {n : Nat} (h : AllValid s a n) : guardStore s a n = .ok () := by
  simp [guardStore, (accessible_iff s a n).mpr h]

theorem guardStore_error {a : Word} {n : Nat} (h : ¬AllValid s a n) :
    guardStore s a n = .error (.storeAccessFault a) := by
  simp [guardStore, mt (accessible_iff s a n).mp h]

/-- One byte is accessible when it is valid. -/
theorem allValid_one (a : Word) : AllValid s a 1 ↔ s.valid a = true := by
  constructor
  · intro h; simpa using h 0 (by omega)
  · intro h i hi; obtain rfl : i = 0 := by omega
    simpa using h

/-- Two states with one memory map have the same valid bytes. -/
theorem allValid_congr {t : State} (h : t.memMap = s.memMap) (a : Word) (n : Nat) : AllValid t a n ↔ AllValid s a n := by
  simp [AllValid, State.valid, h]

/-! ## Delivery of exceptions, 60_exceptions.md R362 -/

@[simp] theorem deliver_loadAccessFault (a : Word) : deliver (.loadAccessFault a) s = .fault (.loadAccessFault a) := rfl
@[simp] theorem deliver_storeAccessFault (a : Word) : deliver (.storeAccessFault a) s = .fault (.storeAccessFault a) := rfl

@[simp] theorem answer_stop (a : Arch) : EcallHandler.stop.answer a = none := rfl
@[simp] theorem answer_resume (a : Arch) : EcallHandler.resume.answer a = some { a with pc := a.pc + 4#32 } := rfl
@[simp] theorem answer_host (a : Arch) : EcallHandler.host.answer a = Config.ecallHandler a := rfl

/-- A table answers from its first row of the state. -/
theorem answer_table_of_mem {before after : List (Arch × Arch)} {a b : Arch} (h : ∀ r ∈ before, r.1 ≠ a) :
    (EcallHandler.table (before ++ (a, b) :: after)).answer a = some b := by
  induction before with
  | nil => simp [EcallHandler.answer]
  | cons r before ih =>
    obtain ⟨k, v⟩ := r
    have hk : (a == k) = false := by simpa using (h (k, v) (by simp)).symm
    simpa [EcallHandler.answer, List.lookup_cons, hk] using ih fun r hr => h r (by simp [hr])

/-- A table stops from a state that no row is of. -/
theorem answer_table_of_not_mem {rows : List (Arch × Arch)} {a : Arch} (h : ∀ r ∈ rows, r.1 ≠ a) :
    (EcallHandler.table rows).answer a = none := by
  simp only [EcallHandler.answer, List.lookup_eq_none_iff]
  exact fun r hr => by simpa using (h r hr).symm

/-- Only an environment call can be delivered to a next state, and then it is the host's answer. -/
theorem deliver_next {e : Fault} {t : State} (h : deliver e s = .next t) :
    e = .environmentCall ∧ ∃ a, s.ecallHandler.answer s.toArch = some a ∧ t = s.resumeFrom a := by
  cases e <;> simp only [deliver] at h <;> try cases h
  split at h
  · cases h
  · cases h; exact ⟨rfl, _, ‹_›, rfl⟩

theorem deliver_fault {e e' : Fault} (h : deliver e s = .fault e') :
    e' = e ∧ (e = .environmentCall → s.ecallHandler.answer s.toArch = none) := by
  cases e <;> simp only [deliver] at h <;> try (cases h; simp)
  split at h
  · cases h; exact ⟨rfl, fun _ => ‹_›⟩
  · cases h

theorem deliver_not_refused (e : Fault) (r : Refusal) : deliver e s ≠ .refused r := by
  intro h
  cases e <;> simp only [deliver] at h <;> try cases h
  split at h <;> cases h

/-! ## Completions -/

theorem keepsX_refl : KeepsX s s := fun _ => rfl
theorem keepsMem_refl : KeepsMem s s := fun _ => rfl

theorem writesX_writeX (rd : Reg) (v : Word) : WritesX s (s.writeX rd v) rd v :=
  ⟨s.writeX_readX_self rd v, fun _ h => s.writeX_readX_of_ne v h⟩

theorem writesF_writeF (rd : Reg) (v : Word) : WritesF s (s.writeF rd v) rd v :=
  ⟨s.writeF_readF_self rd v, fun _ h => s.writeF_readF_of_ne v h⟩

/-- `completeX` writes one x register and moves on. -/
theorem completeX_completes (rd : Reg) (v : Word) : CompletesX s (completeX s rd v) rd v := by
  have h := writesX_writeX s rd v
  refine ⟨_, rfl, by simp, ⟨by simpa using h.1, fun r hr => by simpa using h.2 r hr⟩, ?_⟩
  simp [KeepsF, KeepsFcsr, KeepsNpu, KeepsAcc, KeepsV, KeepsMem, KeepsHost]

/-- `completeF` writes one f register, signals nothing and moves on. -/
theorem completeF_completes (rd : Reg) (v : Word) : CompletesF s (completeF s rd v) rd v FFlags.none := by
  have h := writesF_writeF s rd v
  refine ⟨_, rfl, by simp, ⟨by simpa using h.1, fun r hr => by simpa using h.2 r hr⟩, ?_⟩
  simp [Signals, KeepsX, KeepsNpu, KeepsAcc, KeepsV, KeepsMem, KeepsHost]

/-- `completeFFlags` writes one f register, signals the flags and moves on. -/
theorem completeFFlags_completes (rd : Reg) (r : Word × FFlags) :
    CompletesF s (completeFFlags s rd r) rd r.1 r.2 := by
  have h := writesF_writeF s rd r.1
  refine ⟨_, rfl, by simp, ⟨by simpa using h.1, fun q hq => by simpa using h.2 q hq⟩, ?_⟩
  simp [Signals, KeepsX, KeepsNpu, KeepsAcc, KeepsV, KeepsMem, KeepsHost]

/-- `completeXFlags` writes one x register, signals the flags and moves on. -/
theorem completeXFlags_completes (rd : Reg) (v : Word) (new : FFlags) :
    CompletesXSignals s (completeXFlags s rd v new) rd v new := by
  have h := writesX_writeX s rd v
  refine ⟨_, rfl, by simp, ⟨by simpa using h.1, fun q hq => by simpa using h.2 q hq⟩, ?_⟩
  simp [Signals, KeepsF, KeepsNpu, KeepsAcc, KeepsV, KeepsMem, KeepsHost]

/-! ## Guarded completions, loads and stores -/

theorem guarded_load_ok {a : Word} {n : Nat} (k : Result) (h : AllValid s a n) :
    guarded s (guardLoad s a n) k = k := by rw [guardLoad_ok s h]; rfl

theorem guarded_load_fault {a : Word} {n : Nat} (k : Result) (h : ¬AllValid s a n) :
    guarded s (guardLoad s a n) k = .fault (.loadAccessFault a) := by rw [guardLoad_error s h]; rfl

theorem guarded_store_ok {a : Word} {n : Nat} (k : Result) (h : AllValid s a n) :
    guarded s (guardStore s a n) k = k := by rw [guardStore_ok s h]; rfl

theorem guarded_store_fault {a : Word} {n : Nat} (k : Result) (h : ¬AllValid s a n) :
    guarded s (guardStore s a n) k = .fault (.storeAccessFault a) := by rw [guardStore_error s h]; rfl

/-- A load of valid bytes completes with its value. -/
theorem loadX_completes {n : Nat} (rd rs1 : Reg) (imm : Word) (value : Word → Word)
    (h : AllValid s (s.readX rs1 + imm) n) :
    CompletesX s (loadX s n rd rs1 imm value) rd (value (s.readX rs1 + imm)) := by
  unfold loadX
  rw [show effAddr s rs1 imm = s.readX rs1 + imm from rfl, guarded_load_ok s _ h]
  exact completeX_completes ..

theorem loadX_faults {n : Nat} (rd rs1 : Reg) (imm : Word) (value : Word → Word)
    (h : ¬AllValid s (s.readX rs1 + imm) n) :
    loadX s n rd rs1 imm value = .fault (.loadAccessFault (s.readX rs1 + imm)) :=
  guarded_load_fault s _ h

theorem storeAt_next {n : Nat} (rs1 : Reg) (imm : Word) (write : Word → State)
    (h : AllValid s (s.readX rs1 + imm) n) :
    storeAt s n rs1 imm write = .next (write (s.readX rs1 + imm)).advance :=
  guarded_store_ok s _ h

theorem storeAt_faults {n : Nat} (rs1 : Reg) (imm : Word) (write : Word → State)
    (h : ¬AllValid s (s.readX rs1 + imm) n) :
    storeAt s n rs1 imm write = .fault (.storeAccessFault (s.readX rs1 + imm)) :=
  guarded_store_fault s _ h

theorem byteAt_advance (t : State) (a : Word) : t.advance.byteAt a = t.byteAt a := rfl

/-- The next state of a store that wrote `n` bytes of `v` at `a`. -/
theorem completesStore_of_writes {t : State} {a : Word} {n : Nat} {v : Word} (hx : KeepsRegs s t) (hh : KeepsHost s t)
    (hp : t.pc = s.pc) (hw : WritesMem s t a n v) : CompletesStore s (.next t.advance) a n v := by
  refine ⟨_, rfl, by simp [hp], ⟨fun i hi => hw.1 i hi, fun b hb => hw.2 b hb⟩, ?_, hh⟩
  obtain ⟨h1, h2, h3, h4, h5⟩ := hx
  exact ⟨fun r => by simpa using h1 r, fun r => by simpa using h2 r, by simpa [KeepsFcsr] using h3, by
    simpa [KeepsAcc] using h4, fun k => by simpa using h5 k⟩

theorem putByte_writes (a : Word) (v : Word) : WritesMem s (s.putByte a (v.extractLsb' 0 8)) a 1 v := by
  refine ⟨fun i hi => ?_, fun b hb => ?_⟩
  · obtain rfl : i = 0 := by omega
    simp
  · exact s.putByte_byteAt_of_ne _ (by simpa using hb 0 (by omega))

theorem putHalf_writes (a : Word) (v : Word) : WritesMem s (s.putHalf a (v.extractLsb' 0 16)) a 2 v := by
  refine ⟨fun i hi => ?_, fun b hb => ?_⟩
  · rw [State.putHalf_byteAt]
    interval_cases i
    · simp
    · simp
  · rw [State.putHalf_byteAt, if_neg (by simpa using hb 1 (by omega)), if_neg (by simpa using hb 0 (by omega))]

theorem putWord_writes (a : Word) (v : Word) : WritesMem s (s.putWord a v) a 4 v := by
  have ne : ∀ i j : Nat, i < 4 → j < 4 → i ≠ j → a + BitVec.ofNat 32 i ≠ a + BitVec.ofNat 32 j := fun i j hi hj h =>
    offset_ne a (by omega) (by omega) h
  refine ⟨fun i hi => ?_, fun b hb => ?_⟩
  · rw [State.putWord_byteAt]
    interval_cases i
    · have h3 := ne 0 3; have h2 := ne 0 2; have h1 := ne 0 1
      simp at h1 h2 h3
      simp [byteOfWord]
    · have h3 := ne 1 3; have h2 := ne 1 2
      simp at h2 h3
      simp [byteOfWord]
    · have h3 := ne 2 3
      simp at h3
      simp [byteOfWord]
    · simp [byteOfWord]
  · rw [State.putWord_byteAt, if_neg (by simpa using hb 3 (by omega)), if_neg (by simpa using hb 2 (by omega)),
      if_neg (by simpa using hb 1 (by omega)), if_neg (by simpa using hb 0 (by omega))]

/-- The model's read of a word is the four bytes, the lowest address least significant. -/
theorem wordAt_eq_wordIn (a : Word) : s.wordAt a = wordIn s a := rfl

/-! ## Jumps and branches -/

theorem setPc_goesTo (t : Word) : GoesTo s (.next (s.setPc t)) t :=
  ⟨_, rfl, rfl, by simp [KeepsRegs, KeepsX, KeepsF, KeepsFcsr, KeepsNpu, KeepsAcc, KeepsV], fun _ => rfl, rfl, rfl⟩

/-- A branch goes to its target or to the next instruction and changes nothing else. -/
theorem branchIf_goesTo (cond : Bool) (imm : Word) :
    GoesTo s (branchIf s cond imm) (if cond then s.pc + imm else s.pc + 4#32) := by
  cases cond
  · exact setPc_goesTo s _
  · exact setPc_goesTo s _

/-- A jump writes its link register and goes to its target. -/
theorem linkAndJump_links (rd : Reg) (t : Word) : LinksAndGoesTo s (linkAndJump s rd t) rd (s.pc + 4#32) t := by
  have h := writesX_writeX s rd (s.pc + 4#32)
  refine ⟨_, rfl, by simp, ⟨by simpa using h.1, fun q hq => by simpa using h.2 q hq⟩, ?_⟩
  simp [KeepsF, KeepsFcsr, KeepsNpu, KeepsAcc, KeepsV, KeepsMem, KeepsHost]

/-! ## The loop of the array instructions -/

/-- When every element up to `n` succeeds along a sequence of values, the loop ends with the last. -/
theorem ascending_ok {β : Type} {body : Nat → β → Except Fault β} {n : Nat} (m : Nat → β)
    (h : ∀ i, i < n → body i (m i) = .ok (m (i + 1))) : ascending body (m 0) n = .ok (m n) := by
  induction n with
  | zero => rfl
  | succ n ih => rw [ascending, ih fun i hi => h i (by omega)]; exact h n (by omega)

/-- A fault at element `k`, after the elements before it succeeded, is the fault of the whole loop. -/
theorem ascending_error {β : Type} {body : Nat → β → Except Fault β} {n k : Nat} {e : Fault} (m : Nat → β) (hk : k < n)
    (h : ∀ i, i < k → body i (m i) = .ok (m (i + 1))) (he : body k (m k) = .error e) :
    ascending body (m 0) n = .error e := by
  induction n with
  | zero => omega
  | succ n ih =>
    rcases Nat.lt_succ_iff_lt_or_eq.mp hk with h' | rfl
    · rw [ascending, ih h']
    · rw [ascending, ascending_ok m h]; exact he

/-- What a loop that succeeds went through. -/
theorem ascending_inv {β : Type} {body : Nat → β → Except Fault β} (P : Nat → β → Prop) {init b : β} {n : Nat}
    (h0 : P 0 init) (hs : ∀ i x y, i < n → P i x → body i x = .ok y → P (i + 1) y)
    (h : ascending body init n = .ok b) : P n b := by
  induction n generalizing b with
  | zero => cases h; exact h0
  | succ n ih =>
    rw [ascending] at h
    split at h
    · exact hs n _ _ (by omega) (ih (fun i x y hi => hs i x y (by omega)) ‹_›) h
    · cases h

/-- A fault of the loop is the fault of one element. -/
theorem ascending_fault {β : Type} {body : Nat → β → Except Fault β} {init : β} {n : Nat} {e : Fault}
    (h : ascending body init n = .error e) : ∃ i x, i < n ∧ ascending body init i = .ok x ∧ body i x = .error e := by
  induction n with
  | zero => cases h
  | succ n ih =>
    rw [ascending] at h
    split at h
    · exact ⟨n, _, by omega, ‹_›, h⟩
    · obtain ⟨i, x, hi, hx⟩ := ih (by simp_all)
      exact ⟨i, x, by omega, hx⟩

/-! ## The fetch and the step -/

theorem fetch_misaligned (h : s.pc.extractLsb' 0 2 ≠ 0#2) : fetch s = .error (.instructionAddressMisaligned s.pc) := by
  simp [fetch, h]

theorem fetch_invalid (h : s.pc.extractLsb' 0 2 = 0#2) (hv : ¬AllValid s s.pc 4) :
    fetch s = .error (.instructionAccessFault s.pc) := by
  simp [fetch, h, mt (accessible_iff s s.pc 4).mp hv]

theorem fetch_ok (h : s.pc.extractLsb' 0 2 = 0#2) (hv : AllValid s s.pc 4) : fetch s = .ok (wordIn s s.pc) := by
  simp [fetch, h, (accessible_iff s s.pc 4).mpr hv, wordAt_eq_wordIn]

/-- The low two bits of an address are its value modulo 4. -/
theorem low_bits_zero (a : Word) : a.extractLsb' 0 2 = 0#2 ↔ a.toNat % 4 = 0 := by
  rw [← BitVec.toNat_inj]; simp

/-- What a step is, by its fetch and its decoding. -/
theorem step_of_fetch {w : Word} {i : Instr} (hf : fetch s = .ok w) (hd : decode w = .ok i) : step s = exec i s := by
  simp [step, hf, hd]

end Sys2Proof.Machine
end

