-- ==== Sys2Proof/Laws/Effects.lean ====
section
/-!
SUPPORT. Once for all instructions: everything `exec` can do when it answers a next state, and everything it can raise. The
rules over all instructions follow by cases on these.
-/

namespace Sys2Proof.Machine

/-- The memories a state's memory can become by writes to valid bytes. -/
inductive Puts (s : State) : Memory → Prop where
  | none : Puts s s.mem
  | put (m : Memory) (a : Word) (v : Byte) : Puts s m → s.valid a = true → Puts s (m.put a.toNat v)

/-- The next states of an instruction other than ECALL, with the class of instructions that reaches each. -/
inductive Effect (i : Instr) (s : State) : State → Prop where
  | x (v : Word) : i.writesX = true → i.isControl = false → Effect i s (s.writeX i.rdField v).advance
  | xFlags (v : Word) (fl : FFlags) : i.writesX = true → i.signals = true → i.isNpu = false → i.isControl = false →
      Effect i s ((s.writeX i.rdField v).raiseFlags fl).advance
  | f (v : Word) : i.writesF = true → i.isNpu = false → i.isControl = false → Effect i s (s.writeF i.rdField v).advance
  | fFlags (v : Word) (fl : FFlags) : i.writesF = true → i.signals = true → i.isNpu = false → i.isControl = false →
      Effect i s ((s.writeF i.rdField v).raiseFlags fl).advance
  | mem (m : Memory) : i.writesMemory = true → i.isControl = false → Puts s m → Effect i s { s with mem := m }.advance
  | go (t : Word) : i.isControl = true → i.isNpu = false →
      (i.wf = true → s.pc.getLsbD 0 = false → t.getLsbD 0 = false) → Effect i s (s.setPc t)
  | link (t : Word) : i.isControl = true → i.writesX = true → i.isNpu = false →
      (i.wf = true → s.pc.getLsbD 0 = false → t.getLsbD 0 = false) →
      Effect i s ((s.writeX i.rdField (s.pc + 4#32)).setPc t)
  | nothing : i.isControl = false → Effect i s s.advance
  | acc (v : BitVec 64) : i.writesAcc = true → i.isNpu = true → i.isControl = false → Effect i s (s.writeAcc v).advance
  | readOut : i.writesAcc = true → i.writesX = true → i.isNpu = true → i.isControl = false →
      Effect i s ((s.writeX i.rdField s.accLo).writeAcc 0#64).advance
  | vector (k : BitVec 2) (v : Word) : i.mnemonic = "NPU.LDVEC" → i.isNpu = true → i.isControl = false →
      Effect i s (s.writeV k v).advance

/-! ## The register an instruction writes is the one its word names -/

theorem rdField_of {i : Instr} {r : Reg} (h : rdOf (encode i) = r) : i.rdField = r := h

/-! ## From the shared operations to effects -/

section
variable {i : Instr} {s t : State}

theorem effect_completeX {rd : Reg} {v : Word} (h : completeX s rd v = .next t) (hw : i.writesX = true)
    (hc : i.isControl = false) (hr : i.rdField = rd) : Effect i s t := by
  cases h; subst hr; exact .x v hw hc

theorem effect_completeXFlags {rd : Reg} {v : Word} {fl : FFlags} (h : completeXFlags s rd v fl = .next t)
    (hw : i.writesX = true) (hs : i.signals = true) (hn : i.isNpu = false) (hc : i.isControl = false)
    (hr : i.rdField = rd) : Effect i s t := by
  cases h; subst hr; exact .xFlags v fl hw hs hn hc

theorem effect_completeF {rd : Reg} {v : Word} (h : completeF s rd v = .next t) (hw : i.writesF = true)
    (hn : i.isNpu = false) (hc : i.isControl = false) (hr : i.rdField = rd) : Effect i s t := by
  cases h; subst hr; exact .f v hw hn hc

theorem effect_completeFFlags {rd : Reg} {r : Word × FFlags} (h : completeFFlags s rd r = .next t)
    (hw : i.writesF = true) (hs : i.signals = true) (hn : i.isNpu = false) (hc : i.isControl = false)
    (hr : i.rdField = rd) : Effect i s t := by
  cases h; subst hr; exact .fFlags r.1 r.2 hw hs hn hc

/-- A guarded access that answers a next state passed its guard. -/
theorem guarded_load_next {a : Word} {n : Nat} {k : Result} (h : guarded s (guardLoad s a n) k = .next t) :
    AllValid s a n ∧ k = .next t := by
  by_cases hv : AllValid s a n
  · rw [guarded_load_ok s k hv] at h; exact ⟨hv, h⟩
  · rw [guarded_load_fault s k hv] at h; cases h

theorem guarded_store_next {a : Word} {n : Nat} {k : Result} (h : guarded s (guardStore s a n) k = .next t) :
    AllValid s a n ∧ k = .next t := by
  by_cases hv : AllValid s a n
  · rw [guarded_store_ok s k hv] at h; exact ⟨hv, h⟩
  · rw [guarded_store_fault s k hv] at h; cases h

theorem effect_loadX {n : Nat} {rd rs1 : Reg} {imm : Word} {value : Word → Word}
    (h : loadX s n rd rs1 imm value = .next t) (hw : i.writesX = true) (hc : i.isControl = false)
    (hr : i.rdField = rd) : Effect i s t :=
  effect_completeX (guarded_load_next h).2 hw hc hr

theorem puts_putByte {a : Word} (v : Byte) (h : s.valid a = true) : Puts s (s.putByte a v).mem := .put _ _ _ .none h

theorem puts_putHalf {a : Word} (v : BitVec 16) (h : AllValid s a 2) : Puts s (s.putHalf a v).mem :=
  .put _ (a + 1#32) _ (.put _ a _ .none (by simpa using h 0 (by omega))) (h 1 (by omega))

theorem puts_putWord {a : Word} (v : Word) (h : AllValid s a 4) : Puts s (s.putWord a v).mem :=
  .put _ (a + 3#32) _ (.put _ (a + 2#32) _ (.put _ (a + 1#32) _ (.put _ a _ .none (by simpa using h 0 (by omega)))
    (h 1 (by omega))) (h 2 (by omega))) (h 3 (by omega))

/-- Writes to a state that differs in memory alone. -/
theorem Puts.trans {m m' : Memory} (h : Puts s m) (h' : Puts { s with mem := m } m') : Puts s m' := by
  induction h' with
  | none => exact h
  | put m'' a v _ hv ih => exact .put _ _ _ ih hv

theorem effect_storeAt {n : Nat} {rs1 : Reg} {imm : Word} {write : Word → State}
    (h : storeAt s n rs1 imm write = .next t) (hw : i.writesMemory = true) (hc : i.isControl = false)
    (hp : ∀ a, AllValid s a n → Puts s (write a).mem ∧ write a = { s with mem := (write a).mem }) : Effect i s t := by
  obtain ⟨hv, hk⟩ := guarded_store_next h
  obtain ⟨h1, h2⟩ := hp _ hv
  cases hk
  rw [h2]
  exact .mem _ hw hc h1

/-- The end of an array instruction that answers a next state. -/
theorem afterReads_next {β : Type} {r : Except Fault β} {k : β → State} (h : afterReads s r k = .next t)
    (hd : ∀ e, r = .error e → e ≠ .environmentCall) : ∃ b, r = .ok b ∧ t = (k b).advance := by
  unfold afterReads at h
  split at h
  · cases h; exact ⟨_, rfl, rfl⟩
  · exact absurd (deliver_next s h).1 (hd _ rfl)

end

/-! ## The faults of the array elements -/

theorem guardLoad_fault {s : State} {a : Word} {n : Nat} {e : Fault} (h : guardLoad s a n = .error e) :
    e = .loadAccessFault a ∧ ¬AllValid s a n := by
  by_cases hv : AllValid s a n
  · rw [guardLoad_ok s hv] at h; cases h
  · rw [guardLoad_error s hv] at h; cases h; exact ⟨rfl, hv⟩

theorem guardStore_fault {s : State} {a : Word} {n : Nat} {e : Fault} (h : guardStore s a n = .error e) :
    e = .storeAccessFault a ∧ ¬AllValid s a n := by
  by_cases hv : AllValid s a n
  · rw [guardStore_ok s hv] at h; cases h
  · rw [guardStore_error s hv] at h; cases h; exact ⟨rfl, hv⟩

theorem vmacElem_ok {s : State} {a b : Word} {i : Nat} (sum : Int) (ha : AllValid s (elemAddr a 1 i) 1)
    (hb : AllValid s (elemAddr b 1 i) 1) : vmacElem s a b i sum =
      .ok (sum + (s.byteAt (elemAddr a 1 i)).toInt * (s.byteAt (elemAddr b 1 i)).toInt) := by
  simp only [vmacElem, guardLoad_ok s ha, guardLoad_ok s hb]; rfl

theorem vmacElem_fault {s : State} {a b : Word} {i : Nat} {sum : Int} {e : Fault} (h : vmacElem s a b i sum = .error e) :
    ∃ c, e = .loadAccessFault c ∧ ¬AllValid s c 1 := by
  by_cases ha : AllValid s (elemAddr a 1 i) 1
  · by_cases hb : AllValid s (elemAddr b 1 i) 1
    · rw [vmacElem_ok sum ha hb] at h; cases h
    · simp only [vmacElem, guardLoad_ok s ha, guardLoad_error s hb] at h; cases h; exact ⟨_, rfl, hb⟩
  · simp only [vmacElem, guardLoad_error s ha] at h; cases h; exact ⟨_, rfl, ha⟩

theorem vreduceElem_ok {s : State} {a : Word} {i : Nat} (sum : Int) (ha : AllValid s (elemAddr a 4 i) 4) :
    vreduceElem s a i sum = .ok (sum + (s.wordAt (elemAddr a 4 i)).toInt) := by
  simp only [vreduceElem, guardLoad_ok s ha]; rfl

theorem vreduceElem_fault {s : State} {a : Word} {i : Nat} {sum : Int} {e : Fault} (h : vreduceElem s a i sum = .error e) :
    ∃ c, e = .loadAccessFault c ∧ ¬AllValid s c 4 := by
  by_cases ha : AllValid s (elemAddr a 4 i) 4
  · rw [vreduceElem_ok sum ha] at h; cases h
  · simp only [vreduceElem, guardLoad_error s ha] at h; cases h; exact ⟨_, rfl, ha⟩

theorem vmaxElem_ok {s : State} {a : Word} {i : Nat} (best : Int) (ha : AllValid s (elemAddr a 4 i) 4) :
    vmaxElem s a i best = .ok (max best (s.wordAt (elemAddr a 4 i)).toInt) := by
  simp only [vmaxElem, guardLoad_ok s ha]; rfl

theorem vmaxElem_fault {s : State} {a : Word} {i : Nat} {best : Int} {e : Fault} (h : vmaxElem s a i best = .error e) :
    ∃ c, e = .loadAccessFault c ∧ ¬AllValid s c 4 := by
  by_cases ha : AllValid s (elemAddr a 4 i) 4
  · rw [vmaxElem_ok best ha] at h; cases h
  · simp only [vmaxElem, guardLoad_error s ha] at h; cases h; exact ⟨_, rfl, ha⟩

theorem vexpElem_ok {src dst : Word} {i : Nat} {t : State} (hs : AllValid t (elemAddr src 4 i) 4)
    (hd : AllValid t (elemAddr dst 4 i) 4) : vexpElem src dst i t =
      .ok (t.putWord (elemAddr dst 4 i) (Config.expQ16 (t.wordAt (elemAddr src 4 i)))) := by
  simp only [vexpElem, guardLoad_ok t hs, guardStore_ok t hd]; rfl

/-- An element of NPU.VEXP succeeds only by its word write, and fails only by an access fault. -/
theorem vexpElem_cases (src dst : Word) (i : Nat) (t : State) :
    (AllValid t (elemAddr src 4 i) 4 ∧ AllValid t (elemAddr dst 4 i) 4 ∧ vexpElem src dst i t =
      .ok (t.putWord (elemAddr dst 4 i) (Config.expQ16 (t.wordAt (elemAddr src 4 i))))) ∨
    (¬AllValid t (elemAddr src 4 i) 4 ∧ vexpElem src dst i t = .error (.loadAccessFault (elemAddr src 4 i))) ∨
    (AllValid t (elemAddr src 4 i) 4 ∧ ¬AllValid t (elemAddr dst 4 i) 4 ∧
      vexpElem src dst i t = .error (.storeAccessFault (elemAddr dst 4 i))) := by
  by_cases hs : AllValid t (elemAddr src 4 i) 4
  · by_cases hd : AllValid t (elemAddr dst 4 i) 4
    · exact .inl ⟨hs, hd, vexpElem_ok hs hd⟩
    · refine .inr (.inr ⟨hs, hd, ?_⟩)
      simp only [vexpElem, guardLoad_ok t hs, guardStore_error t hd]; rfl
  · refine .inr (.inl ⟨hs, ?_⟩)
    simp only [vexpElem, guardLoad_error t hs]; rfl

theorem vmulElem_ok {src dst : Word} {k : Int} {i : Nat} {t : State} (hs : AllValid t (elemAddr src 1 i) 1)
    (hd : AllValid t (elemAddr dst 1 i) 1) : vmulElem src dst k i t =
      .ok (t.putByte (elemAddr dst 1 i) (vmulValue (t.byteAt (elemAddr src 1 i)) k)) := by
  simp only [vmulElem, guardLoad_ok t hs, guardStore_ok t hd]; rfl

/-- An element of NPU.VMUL succeeds only by its byte write, and fails only by an access fault. -/
theorem vmulElem_cases (src dst : Word) (k : Int) (i : Nat) (t : State) :
    (AllValid t (elemAddr src 1 i) 1 ∧ AllValid t (elemAddr dst 1 i) 1 ∧ vmulElem src dst k i t =
      .ok (t.putByte (elemAddr dst 1 i) (vmulValue (t.byteAt (elemAddr src 1 i)) k))) ∨
    (¬AllValid t (elemAddr src 1 i) 1 ∧ vmulElem src dst k i t = .error (.loadAccessFault (elemAddr src 1 i))) ∨
    (AllValid t (elemAddr src 1 i) 1 ∧ ¬AllValid t (elemAddr dst 1 i) 1 ∧
      vmulElem src dst k i t = .error (.storeAccessFault (elemAddr dst 1 i))) := by
  by_cases hs : AllValid t (elemAddr src 1 i) 1
  · by_cases hd : AllValid t (elemAddr dst 1 i) 1
    · exact .inl ⟨hs, hd, vmulElem_ok hs hd⟩
    · refine .inr (.inr ⟨hs, hd, ?_⟩)
      simp only [vmulElem, guardLoad_ok t hs, guardStore_error t hd]; rfl
  · refine .inr (.inl ⟨hs, ?_⟩)
    simp only [vmulElem, guardLoad_error t hs]; rfl

/-- The states an array instruction goes through differ from the first in memory alone, by writes to valid bytes. -/
theorem vexp_puts {s : State} {src dst : Word} {n : Nat} {t : State} (h : ascending (vexpElem src dst) s n = .ok t) :
    ∃ m, Puts s m ∧ t = { s with mem := m } := by
  refine ascending_inv (fun _ t => ∃ m, Puts s m ∧ t = { s with mem := m }) ⟨_, .none, rfl⟩ ?_ h
  rintro i x y _ ⟨m, hm, rfl⟩ hy
  rcases vexpElem_cases src dst i { s with mem := m } with ⟨_, hd, e⟩ | ⟨_, e⟩ | ⟨_, _, e⟩ <;> rw [e] at hy <;> cases hy
  exact ⟨_, hm.trans (puts_putWord _ hd), rfl⟩

theorem vmul_puts {s : State} {src dst : Word} {k : Int} {n : Nat} {t : State}
    (h : ascending (vmulElem src dst k) s n = .ok t) : ∃ m, Puts s m ∧ t = { s with mem := m } := by
  refine ascending_inv (fun _ t => ∃ m, Puts s m ∧ t = { s with mem := m }) ⟨_, .none, rfl⟩ ?_ h
  rintro i x y _ ⟨m, hm, rfl⟩ hy
  rcases vmulElem_cases src dst k i { s with mem := m } with ⟨_, hd, e⟩ | ⟨_, e⟩ | ⟨_, _, e⟩ <;> rw [e] at hy <;> cases hy
  exact ⟨_, hm.trans (puts_putByte _ ((allValid_one _ _).mp hd)), rfl⟩

/-- A fault inside NPU.VEXP is an access fault at an invalid element of the state it started from. -/
theorem vexp_fault {s : State} {src dst : Word} {n : Nat} {e : Fault}
    (h : ascending (vexpElem src dst) s n = .error e) :
    ∃ a, ¬AllValid s a 4 ∧ (e = .loadAccessFault a ∨ e = .storeAccessFault a) := by
  obtain ⟨i, x, _, hx, he⟩ := ascending_fault h
  obtain ⟨m, _, rfl⟩ := vexp_puts hx
  rcases vexpElem_cases src dst i { s with mem := m } with ⟨_, _, e'⟩ | ⟨hv, e'⟩ | ⟨_, hv, e'⟩ <;> rw [e'] at he <;> cases he
  · exact ⟨_, hv, .inl rfl⟩
  · exact ⟨_, hv, .inr rfl⟩

theorem vmul_fault {s : State} {src dst : Word} {k : Int} {n : Nat} {e : Fault}
    (h : ascending (vmulElem src dst k) s n = .error e) :
    ∃ a, ¬AllValid s a 1 ∧ (e = .loadAccessFault a ∨ e = .storeAccessFault a) := by
  obtain ⟨i, x, _, hx, he⟩ := ascending_fault h
  obtain ⟨m, _, rfl⟩ := vmul_puts hx
  rcases vmulElem_cases src dst k i { s with mem := m } with ⟨_, _, e'⟩ | ⟨hv, e'⟩ | ⟨_, hv, e'⟩ <;> rw [e'] at he <;> cases he
  · exact ⟨_, hv, .inl rfl⟩
  · exact ⟨_, hv, .inr rfl⟩

theorem vmac_fault {s : State} {a b : Word} {n : Nat} {e : Fault} (h : ascending (vmacElem s a b) 0 n = .error e) :
    ∃ c, e = .loadAccessFault c ∧ ¬AllValid s c 1 := by
  obtain ⟨_, _, _, _, he⟩ := ascending_fault h
  exact vmacElem_fault he

theorem vreduce_fault {s : State} {a : Word} {n : Nat} {e : Fault} (h : ascending (vreduceElem s a) 0 n = .error e) :
    ∃ c, e = .loadAccessFault c ∧ ¬AllValid s c 4 := by
  obtain ⟨_, _, _, _, he⟩ := ascending_fault h
  exact vreduceElem_fault he

theorem vmax_fault {s : State} {a : Word} {n : Nat} {z : Int} {e : Fault}
    (h : ascending (vmaxElem s a) z n = .error e) : ∃ c, e = .loadAccessFault c ∧ ¬AllValid s c 4 := by
  obtain ⟨_, _, _, _, he⟩ := ascending_fault h
  exact vmaxElem_fault he

section
variable {i : Instr} {s t : State}

/-- A word write changes memory alone. -/
theorem putWord_eq (s : State) (a v : Word) : s.putWord a v = { s with mem := (s.putWord a v).mem } := rfl

theorem even_iff (a : Word) : a.getLsbD 0 = false ↔ a.toNat % 2 = 0 := by
  simp only [BitVec.getLsbD, Nat.testBit_zero, decide_eq_false_iff_not]; omega

theorem even_add {a b : Word} (hb : b.getLsbD 0 = false) (ha : a.getLsbD 0 = false) : (a + b).getLsbD 0 = false := by
  rw [even_iff] at *; rw [BitVec.toNat_add]; omega

theorem even_mask (a : Word) : (a &&& 0xFFFFFFFE#32).getLsbD 0 = false := by simp

theorem fitsB_even {imm : Word} (h : fitsB imm = true) : imm.getLsbD 0 = false := by
  simp only [fitsB, Bool.and_eq_true, Bool.not_eq_true'] at h; exact h.2

theorem fitsJ_even {imm : Word} (h : fitsJ imm = true) : imm.getLsbD 0 = false := by
  simp only [fitsJ, Bool.and_eq_true, Bool.not_eq_true'] at h; exact h.2

theorem effect_branchIf {cond : Bool} {imm : Word} (h : branchIf s cond imm = .next t) (hc : i.isControl = true)
    (hn : i.isNpu = false) (he : i.wf = true → imm.getLsbD 0 = false) : Effect i s t := by
  cases h
  cases cond
  · exact .go _ hc hn fun _ hp => even_add (b := 4#32) (by decide) hp
  · exact .go _ hc hn fun hw hp => even_add (he hw) hp

theorem effect_link {rd : Reg} {a : Word} (h : linkAndJump s rd a = .next t) (hc : i.isControl = true)
    (hw : i.writesX = true) (hn : i.isNpu = false) (hr : i.rdField = rd)
    (he : i.wf = true → s.pc.getLsbD 0 = false → a.getLsbD 0 = false) : Effect i s t := by
  cases h; subst hr; exact .link a hc hw hn he

theorem effect_readOut (ha : i.writesAcc = true) (hx : i.writesX = true) (hn : i.isNpu = true)
    (hc : i.isControl = false) : Effect i s ((s.writeX i.rdField s.accLo).writeAcc 0#64).advance := .readOut ha hx hn hc

/-- Everything an instruction other than ECALL can do when it answers a next state. -/
theorem exec_effect (hne : i ≠ .ecall) (h : exec i s = .next t) : Effect i s t := by
  cases i with
  | add rd rs1 rs2 => exact effect_completeX h rfl rfl (rdField_of (by simp [encode]))
  | sub rd rs1 rs2 => exact effect_completeX h rfl rfl (rdField_of (by simp [encode]))
  | sll rd rs1 rs2 => exact effect_completeX h rfl rfl (rdField_of (by simp [encode]))
  | slt rd rs1 rs2 => exact effect_completeX h rfl rfl (rdField_of (by simp [encode]))
  | sltu rd rs1 rs2 => exact effect_completeX h rfl rfl (rdField_of (by simp [encode]))
  | xor rd rs1 rs2 => exact effect_completeX h rfl rfl (rdField_of (by simp [encode]))
  | srl rd rs1 rs2 => exact effect_completeX h rfl rfl (rdField_of (by simp [encode]))
  | sra rd rs1 rs2 => exact effect_completeX h rfl rfl (rdField_of (by simp [encode]))
  | or rd rs1 rs2 => exact effect_completeX h rfl rfl (rdField_of (by simp [encode]))
  | and rd rs1 rs2 => exact effect_completeX h rfl rfl (rdField_of (by simp [encode]))
  | addi rd rs1 imm => exact effect_completeX h rfl rfl (rdField_of (by simp [encode]))
  | slti rd rs1 imm => exact effect_completeX h rfl rfl (rdField_of (by simp [encode]))
  | sltiu rd rs1 imm => exact effect_completeX h rfl rfl (rdField_of (by simp [encode]))
  | xori rd rs1 imm => exact effect_completeX h rfl rfl (rdField_of (by simp [encode]))
  | ori rd rs1 imm => exact effect_completeX h rfl rfl (rdField_of (by simp [encode]))
  | andi rd rs1 imm => exact effect_completeX h rfl rfl (rdField_of (by simp [encode]))
  | slli rd rs1 shamt => exact effect_completeX h rfl rfl (rdField_of (by simp [encode]))
  | srli rd rs1 shamt => exact effect_completeX h rfl rfl (rdField_of (by simp [encode]))
  | srai rd rs1 shamt => exact effect_completeX h rfl rfl (rdField_of (by simp [encode]))
  | lb rd rs1 imm =>
    simp only [exec, execLb] at h
    exact effect_loadX h rfl rfl (rdField_of (by simp [encode]))
  | lh rd rs1 imm =>
    simp only [exec, execLh] at h
    exact effect_loadX h rfl rfl (rdField_of (by simp [encode]))
  | lw rd rs1 imm =>
    simp only [exec, execLw] at h
    exact effect_loadX h rfl rfl (rdField_of (by simp [encode]))
  | lbu rd rs1 imm =>
    simp only [exec, execLbu] at h
    exact effect_loadX h rfl rfl (rdField_of (by simp [encode]))
  | lhu rd rs1 imm =>
    simp only [exec, execLhu] at h
    exact effect_loadX h rfl rfl (rdField_of (by simp [encode]))
  | sb rs1 rs2 imm =>
    simp only [exec, execSb] at h
    exact effect_storeAt h rfl rfl fun a hv => ⟨puts_putByte _ ((allValid_one s a).mp hv), rfl⟩
  | sh rs1 rs2 imm =>
    simp only [exec, execSh] at h
    exact effect_storeAt h rfl rfl fun a hv => ⟨puts_putHalf _ hv, rfl⟩
  | sw rs1 rs2 imm =>
    simp only [exec, execSw] at h
    exact effect_storeAt h rfl rfl fun a hv => ⟨puts_putWord _ hv, putWord_eq s a _⟩
  | beq rs1 rs2 imm =>
    simp only [exec, execBeq] at h
    exact effect_branchIf h rfl rfl fun hw => fitsB_even hw
  | bne rs1 rs2 imm =>
    simp only [exec, execBne] at h
    exact effect_branchIf h rfl rfl fun hw => fitsB_even hw
  | blt rs1 rs2 imm =>
    simp only [exec, execBlt] at h
    exact effect_branchIf h rfl rfl fun hw => fitsB_even hw
  | bge rs1 rs2 imm =>
    simp only [exec, execBge] at h
    exact effect_branchIf h rfl rfl fun hw => fitsB_even hw
  | bltu rs1 rs2 imm =>
    simp only [exec, execBltu] at h
    exact effect_branchIf h rfl rfl fun hw => fitsB_even hw
  | bgeu rs1 rs2 imm =>
    simp only [exec, execBgeu] at h
    exact effect_branchIf h rfl rfl fun hw => fitsB_even hw
  | lui rd imm => exact effect_completeX h rfl rfl (rdField_of (by simp [encode]))
  | auipc rd imm => exact effect_completeX h rfl rfl (rdField_of (by simp [encode]))
  | jal rd imm => exact effect_link h rfl rfl rfl (rdField_of (by simp [encode])) fun hw => even_add (fitsJ_even hw)
  | jalr rd rs1 imm funct3 => exact effect_link h rfl rfl rfl (rdField_of (by simp [encode])) fun _ _ => even_mask _
  | ecall => exact absurd rfl hne
  | ebreak => exact absurd h (by simp [exec, execEbreak, deliver])
  | fence rd rs1 imm => cases h; exact .nothing rfl
  | mul rd rs1 rs2 => exact effect_completeX h rfl rfl (rdField_of (by simp [encode]))
  | mulh rd rs1 rs2 => exact effect_completeX h rfl rfl (rdField_of (by simp [encode]))
  | mulhsu rd rs1 rs2 => exact effect_completeX h rfl rfl (rdField_of (by simp [encode]))
  | mulhu rd rs1 rs2 => exact effect_completeX h rfl rfl (rdField_of (by simp [encode]))
  | div rd rs1 rs2 => exact effect_completeX h rfl rfl (rdField_of (by simp [encode]))
  | divu rd rs1 rs2 => exact effect_completeX h rfl rfl (rdField_of (by simp [encode]))
  | rem rd rs1 rs2 => exact effect_completeX h rfl rfl (rdField_of (by simp [encode]))
  | remu rd rs1 rs2 => exact effect_completeX h rfl rfl (rdField_of (by simp [encode]))
  | flw rd rs1 imm =>
    simp only [exec, execFlw] at h
    exact effect_completeF (guarded_load_next h).2 rfl rfl rfl (rdField_of (by simp [encode]))
  | fsw rs1 rs2 imm =>
    simp only [exec, execFsw] at h
    exact effect_storeAt h rfl rfl fun a hv => ⟨puts_putWord _ hv, putWord_eq s a _⟩
  | faddS rd rs1 rs2 rm => exact effect_completeFFlags h rfl rfl rfl rfl (rdField_of (by simp [encode]))
  | fsubS rd rs1 rs2 rm => exact effect_completeFFlags h rfl rfl rfl rfl (rdField_of (by simp [encode]))
  | fmulS rd rs1 rs2 rm => exact effect_completeFFlags h rfl rfl rfl rfl (rdField_of (by simp [encode]))
  | fdivS rd rs1 rs2 rm => exact effect_completeFFlags h rfl rfl rfl rfl (rdField_of (by simp [encode]))
  | fsqrtS rd rs1 rm => exact effect_completeFFlags h rfl rfl rfl rfl (rdField_of (by simp [encode]))
  | fmaddS rd rs1 rs2 rs3 rm fmt => exact effect_completeFFlags h rfl rfl rfl rfl (rdField_of (by simp [encode]))
  | fmsubS rd rs1 rs2 rs3 rm fmt => exact effect_completeFFlags h rfl rfl rfl rfl (rdField_of (by simp [encode]))
  | fnmsubS rd rs1 rs2 rs3 rm fmt => exact effect_completeFFlags h rfl rfl rfl rfl (rdField_of (by simp [encode]))
  | fnmaddS rd rs1 rs2 rs3 rm fmt => exact effect_completeFFlags h rfl rfl rfl rfl (rdField_of (by simp [encode]))
  | fsgnjS rd rs1 rs2 => exact effect_completeF h rfl rfl rfl (rdField_of (by simp [encode]))
  | fsgnjnS rd rs1 rs2 => exact effect_completeF h rfl rfl rfl (rdField_of (by simp [encode]))
  | fsgnjxS rd rs1 rs2 => exact effect_completeF h rfl rfl rfl (rdField_of (by simp [encode]))
  | fminS rd rs1 rs2 => exact effect_completeFFlags h rfl rfl rfl rfl (rdField_of (by simp [encode]))
  | fmaxS rd rs1 rs2 => exact effect_completeFFlags h rfl rfl rfl rfl (rdField_of (by simp [encode]))
  | feqS rd rs1 rs2 =>
    simp only [exec, execFeqS] at h
    exact effect_completeXFlags h rfl rfl rfl rfl (rdField_of (by simp [encode]))
  | fltS rd rs1 rs2 =>
    simp only [exec, execFltS] at h
    exact effect_completeXFlags h rfl rfl rfl rfl (rdField_of (by simp [encode]))
  | fleS rd rs1 rs2 =>
    simp only [exec, execFleS] at h
    exact effect_completeXFlags h rfl rfl rfl rfl (rdField_of (by simp [encode]))
  | fcvtWS rd rs1 rm =>
    simp only [exec, execFcvtWS] at h
    exact effect_completeXFlags h rfl rfl rfl rfl (rdField_of (by simp [encode]))
  | fcvtWuS rd rs1 rm =>
    simp only [exec, execFcvtWuS] at h
    exact effect_completeXFlags h rfl rfl rfl rfl (rdField_of (by simp [encode]))
  | fcvtSW rd rs1 rm => exact effect_completeFFlags h rfl rfl rfl rfl (rdField_of (by simp [encode]))
  | fcvtSWu rd rs1 rm => exact effect_completeFFlags h rfl rfl rfl rfl (rdField_of (by simp [encode]))
  | fmvXW rd rs1 rs2 => exact effect_completeX h rfl rfl (rdField_of (by simp [encode]))
  | fmvWX rd rs1 rs2 => exact effect_completeF h rfl rfl rfl (rdField_of (by simp [encode]))
  | fclassS rd rs1 rs2 => exact effect_completeX h rfl rfl (rdField_of (by simp [encode]))
  | npuMacc rd rs1 rs2 => cases h; exact .acc _ rfl rfl rfl
  | npuVmac rd rs1 rs2 =>
    simp only [exec, execNpuVmac] at h
    obtain ⟨b, _, rfl⟩ := afterReads_next h fun e he => by
      obtain ⟨c, rfl, _⟩ := vmac_fault he; simp
    exact .acc _ rfl rfl rfl
  | npuVexp rd rs1 rs2 =>
    simp only [exec, execNpuVexp] at h
    obtain ⟨b, hb, rfl⟩ := afterReads_next h fun e he => by
      obtain ⟨c, _, rfl | rfl⟩ := vexp_fault he <;> simp
    obtain ⟨m, hm, rfl⟩ := vexp_puts hb
    exact .mem m rfl rfl hm
  | npuVrsqrt rd rs1 rs2 =>
    simp only [exec, execNpuVrsqrt] at h
    exact effect_completeX (guarded_load_next h).2 rfl rfl (rdField_of (by simp [encode]))
  | npuVmul rd rs1 rs2 =>
    simp only [exec, execNpuVmul] at h
    obtain ⟨b, hb, rfl⟩ := afterReads_next h fun e he => by
      obtain ⟨c, _, rfl | rfl⟩ := vmul_fault he <;> simp
    obtain ⟨m, hm, rfl⟩ := vmul_puts hb
    exact .mem m rfl rfl hm
  | npuVreduce rd rs1 rs2 =>
    simp only [exec, execNpuVreduce] at h
    obtain ⟨b, _, rfl⟩ := afterReads_next h fun e he => by
      obtain ⟨c, rfl, _⟩ := vreduce_fault he; simp
    have e := Effect.x (i := .npuVreduce rd rs1 rs2) (s := s) (BitVec.ofInt 32 b) rfl rfl
    rwa [rdField_of (r := rd) (by simp [encode])] at e
  | npuVmax rd rs1 rs2 =>
    simp only [exec, execNpuVmax] at h
    split at h
    · exact effect_completeX h rfl rfl (rdField_of (by simp [encode]))
    · obtain ⟨b, _, rfl⟩ := afterReads_next h fun e he => by
        obtain ⟨c, rfl, _⟩ := vmax_fault he; simp
      have e := Effect.x (i := .npuVmax rd rs1 rs2) (s := s) (BitVec.ofInt 32 b) rfl rfl
      rwa [rdField_of (r := rd) (by simp [encode])] at e
  | npuRelu rd rs1 rs2 => exact effect_completeX h rfl rfl (rdField_of (by simp [encode]))
  | npuQmul rd rs1 rs2 => exact effect_completeX h rfl rfl (rdField_of (by simp [encode]))
  | npuClamp rd rs1 rs2 => exact effect_completeX h rfl rfl (rdField_of (by simp [encode]))
  | npuGelu rd rs1 rs2 => exact effect_completeX h rfl rfl (rdField_of (by simp [encode]))
  | npuRstacc rd rs1 rs2 =>
    cases h
    have e := effect_readOut (s := s) (i := .npuRstacc rd rs1 rs2) rfl rfl rfl rfl
    rwa [rdField_of (r := rd) (by simp [encode])] at e
  | npuLdvec rd rs1 imm =>
    simp only [exec, execNpuLdvec] at h
    obtain ⟨_, h⟩ := guarded_load_next h
    cases h; exact .vector _ _ rfl rfl rfl
  | npuStvec rs1 rs2 imm =>
    simp only [exec, execNpuStvec] at h
    exact effect_storeAt h rfl rfl fun a hv => ⟨puts_putWord _ hv, putWord_eq s a _⟩

end

/-- Why `exec` can end without a next state. -/
inductive Stops (i : Instr) (s : State) : Result → Prop where
  | load (a : Word) (n : Nat) : i.readsMemory = true → n ∈ [1, 2, 4] → ¬AllValid s a n →
      Stops i s (.fault (.loadAccessFault a))
  | store (a : Word) (n : Nat) : i.writesMemory = true → n ∈ [1, 2, 4] → ¬AllValid s a n →
      Stops i s (.fault (.storeAccessFault a))
  | breakpoint : i = .ebreak → Stops i s (.fault (.breakpoint s.pc))
  | call : i = .ecall → s.ecallHandler.answer s.toArch = none → Stops i s (.fault .environmentCall)

section
variable {i : Instr} {s : State}

theorem stops_loadX {n : Nat} (rd rs1 : Reg) (imm : Word) (value : Word → Word) (hr : i.readsMemory = true)
    (hn : n ∈ [1, 2, 4]) :
    (∃ t, loadX s n rd rs1 imm value = .next t) ∨ Stops i s (loadX s n rd rs1 imm value) := by
  by_cases h : AllValid s (s.readX rs1 + imm) n
  · obtain ⟨t, ht, _⟩ := loadX_completes s rd rs1 imm value h; exact .inl ⟨t, ht⟩
  · rw [loadX_faults s rd rs1 imm value h]; exact .inr (.load _ n hr hn h)

theorem stops_storeAt {n : Nat} (rs1 : Reg) (imm : Word) (write : Word → State) (hw : i.writesMemory = true)
    (hn : n ∈ [1, 2, 4]) :
    (∃ t, storeAt s n rs1 imm write = .next t) ∨ Stops i s (storeAt s n rs1 imm write) := by
  by_cases h : AllValid s (s.readX rs1 + imm) n
  · exact .inl ⟨_, storeAt_next s rs1 imm write h⟩
  · rw [storeAt_faults s rs1 imm write h]; exact .inr (.store _ n hw hn h)

theorem stops_guarded {n : Nat} (a : Word) (k : State) (hr : i.readsMemory = true) (hn : n ∈ [1, 2, 4]) :
    (∃ t, guarded s (guardLoad s a n) (.next k) = .next t) ∨ Stops i s (guarded s (guardLoad s a n) (.next k)) := by
  by_cases h : AllValid s a n
  · rw [guarded_load_ok s _ h]; exact .inl ⟨_, rfl⟩
  · rw [guarded_load_fault s _ h]; exact .inr (.load _ n hr hn h)

/-- An array instruction completes, or stops where one of its elements does. -/
theorem stops_afterReads {β : Type} {r : Except Fault β} (k : β → State)
    (h : ∀ e, r = .error e → Stops i s (deliver e s)) :
    (∃ t, afterReads s r k = .next t) ∨ Stops i s (afterReads s r k) := by
  cases r with
  | ok b => exact .inl ⟨_, rfl⟩
  | error e => exact .inr (h e rfl)

/-- Every instruction completes, or stops for one of the reasons of `Stops`. -/
theorem exec_completes_or_stops (i : Instr) (s : State) : (∃ t, exec i s = .next t) ∨ Stops i s (exec i s) := by
  cases i with
  | add rd rs1 rs2 => exact .inl ⟨_, rfl⟩
  | sub rd rs1 rs2 => exact .inl ⟨_, rfl⟩
  | sll rd rs1 rs2 => exact .inl ⟨_, rfl⟩
  | slt rd rs1 rs2 => exact .inl ⟨_, rfl⟩
  | sltu rd rs1 rs2 => exact .inl ⟨_, rfl⟩
  | xor rd rs1 rs2 => exact .inl ⟨_, rfl⟩
  | srl rd rs1 rs2 => exact .inl ⟨_, rfl⟩
  | sra rd rs1 rs2 => exact .inl ⟨_, rfl⟩
  | or rd rs1 rs2 => exact .inl ⟨_, rfl⟩
  | and rd rs1 rs2 => exact .inl ⟨_, rfl⟩
  | addi rd rs1 imm => exact .inl ⟨_, rfl⟩
  | slti rd rs1 imm => exact .inl ⟨_, rfl⟩
  | sltiu rd rs1 imm => exact .inl ⟨_, rfl⟩
  | xori rd rs1 imm => exact .inl ⟨_, rfl⟩
  | ori rd rs1 imm => exact .inl ⟨_, rfl⟩
  | andi rd rs1 imm => exact .inl ⟨_, rfl⟩
  | slli rd rs1 shamt => exact .inl ⟨_, rfl⟩
  | srli rd rs1 shamt => exact .inl ⟨_, rfl⟩
  | srai rd rs1 shamt => exact .inl ⟨_, rfl⟩
  | lb rd rs1 imm =>
    simp only [exec, execLb]
    exact stops_loadX _ _ _ _ rfl (by simp)
  | lh rd rs1 imm =>
    simp only [exec, execLh]
    exact stops_loadX _ _ _ _ rfl (by simp)
  | lw rd rs1 imm =>
    simp only [exec, execLw]
    exact stops_loadX _ _ _ _ rfl (by simp)
  | lbu rd rs1 imm =>
    simp only [exec, execLbu]
    exact stops_loadX _ _ _ _ rfl (by simp)
  | lhu rd rs1 imm =>
    simp only [exec, execLhu]
    exact stops_loadX _ _ _ _ rfl (by simp)
  | sb rs1 rs2 imm =>
    simp only [exec, execSb]
    exact stops_storeAt _ _ _ rfl (by simp)
  | sh rs1 rs2 imm =>
    simp only [exec, execSh]
    exact stops_storeAt _ _ _ rfl (by simp)
  | sw rs1 rs2 imm =>
    simp only [exec, execSw]
    exact stops_storeAt _ _ _ rfl (by simp)
  | beq rs1 rs2 imm => exact .inl ⟨_, rfl⟩
  | bne rs1 rs2 imm => exact .inl ⟨_, rfl⟩
  | blt rs1 rs2 imm => exact .inl ⟨_, rfl⟩
  | bge rs1 rs2 imm => exact .inl ⟨_, rfl⟩
  | bltu rs1 rs2 imm => exact .inl ⟨_, rfl⟩
  | bgeu rs1 rs2 imm => exact .inl ⟨_, rfl⟩
  | lui rd imm => exact .inl ⟨_, rfl⟩
  | auipc rd imm => exact .inl ⟨_, rfl⟩
  | jal rd imm => exact .inl ⟨_, rfl⟩
  | jalr rd rs1 imm funct3 => exact .inl ⟨_, rfl⟩
  | ecall =>
    cases h : s.ecallHandler.answer s.toArch with
    | none => exact .inr (by simpa [exec, execEcall, deliver, h] using .call rfl h)
    | some a => exact .inl ⟨s.resumeFrom a, by simp [exec, execEcall, deliver, h]⟩
  | ebreak => exact .inr (.breakpoint rfl)
  | fence rd rs1 imm => exact .inl ⟨_, rfl⟩
  | mul rd rs1 rs2 => exact .inl ⟨_, rfl⟩
  | mulh rd rs1 rs2 => exact .inl ⟨_, rfl⟩
  | mulhsu rd rs1 rs2 => exact .inl ⟨_, rfl⟩
  | mulhu rd rs1 rs2 => exact .inl ⟨_, rfl⟩
  | div rd rs1 rs2 => exact .inl ⟨_, rfl⟩
  | divu rd rs1 rs2 => exact .inl ⟨_, rfl⟩
  | rem rd rs1 rs2 => exact .inl ⟨_, rfl⟩
  | remu rd rs1 rs2 => exact .inl ⟨_, rfl⟩
  | flw rd rs1 imm =>
    simp only [exec, execFlw]
    exact stops_guarded _ _ rfl (by simp)
  | fsw rs1 rs2 imm =>
    simp only [exec, execFsw]
    exact stops_storeAt _ _ _ rfl (by simp)
  | faddS rd rs1 rs2 rm => exact .inl ⟨_, rfl⟩
  | fsubS rd rs1 rs2 rm => exact .inl ⟨_, rfl⟩
  | fmulS rd rs1 rs2 rm => exact .inl ⟨_, rfl⟩
  | fdivS rd rs1 rs2 rm => exact .inl ⟨_, rfl⟩
  | fsqrtS rd rs1 rm => exact .inl ⟨_, rfl⟩
  | fmaddS rd rs1 rs2 rs3 rm fmt => exact .inl ⟨_, rfl⟩
  | fmsubS rd rs1 rs2 rs3 rm fmt => exact .inl ⟨_, rfl⟩
  | fnmsubS rd rs1 rs2 rs3 rm fmt => exact .inl ⟨_, rfl⟩
  | fnmaddS rd rs1 rs2 rs3 rm fmt => exact .inl ⟨_, rfl⟩
  | fsgnjS rd rs1 rs2 => exact .inl ⟨_, rfl⟩
  | fsgnjnS rd rs1 rs2 => exact .inl ⟨_, rfl⟩
  | fsgnjxS rd rs1 rs2 => exact .inl ⟨_, rfl⟩
  | fminS rd rs1 rs2 => exact .inl ⟨_, rfl⟩
  | fmaxS rd rs1 rs2 => exact .inl ⟨_, rfl⟩
  | feqS rd rs1 rs2 => exact .inl ⟨_, rfl⟩
  | fltS rd rs1 rs2 => exact .inl ⟨_, rfl⟩
  | fleS rd rs1 rs2 => exact .inl ⟨_, rfl⟩
  | fcvtWS rd rs1 rm => exact .inl ⟨_, rfl⟩
  | fcvtWuS rd rs1 rm => exact .inl ⟨_, rfl⟩
  | fcvtSW rd rs1 rm => exact .inl ⟨_, rfl⟩
  | fcvtSWu rd rs1 rm => exact .inl ⟨_, rfl⟩
  | fmvXW rd rs1 rs2 => exact .inl ⟨_, rfl⟩
  | fmvWX rd rs1 rs2 => exact .inl ⟨_, rfl⟩
  | fclassS rd rs1 rs2 => exact .inl ⟨_, rfl⟩
  | npuMacc rd rs1 rs2 => exact .inl ⟨_, rfl⟩
  | npuVmac rd rs1 rs2 =>
    exact stops_afterReads _ fun e he => by
      obtain ⟨c, rfl, hv⟩ := vmac_fault he; exact .load c 1 rfl (by simp) hv
  | npuVexp rd rs1 rs2 =>
    exact stops_afterReads _ fun e he => by
      obtain ⟨c, hv, rfl | rfl⟩ := vexp_fault he
      · exact .load c 4 rfl (by simp) hv
      · exact .store c 4 rfl (by simp) hv
  | npuVrsqrt rd rs1 rs2 =>
    simp only [exec, execNpuVrsqrt]
    exact stops_guarded _ _ rfl (by simp)
  | npuVmul rd rs1 rs2 =>
    exact stops_afterReads _ fun e he => by
      obtain ⟨c, hv, rfl | rfl⟩ := vmul_fault he
      · exact .load c 1 rfl (by simp) hv
      · exact .store c 1 rfl (by simp) hv
  | npuVreduce rd rs1 rs2 =>
    exact stops_afterReads _ fun e he => by
      obtain ⟨c, rfl, hv⟩ := vreduce_fault he; exact .load c 4 rfl (by simp) hv
  | npuVmax rd rs1 rs2 =>
    simp only [exec, execNpuVmax]
    split
    · exact .inl ⟨_, rfl⟩
    · exact stops_afterReads _ fun e he => by
        obtain ⟨c, rfl, hv⟩ := vmax_fault he; exact .load c 4 rfl (by simp) hv
  | npuRelu rd rs1 rs2 => exact .inl ⟨_, rfl⟩
  | npuQmul rd rs1 rs2 => exact .inl ⟨_, rfl⟩
  | npuClamp rd rs1 rs2 => exact .inl ⟨_, rfl⟩
  | npuGelu rd rs1 rs2 => exact .inl ⟨_, rfl⟩
  | npuRstacc rd rs1 rs2 => exact .inl ⟨_, rfl⟩
  | npuLdvec rd rs1 imm =>
    simp only [exec, execNpuLdvec]
    exact stops_guarded _ _ rfl (by simp)
  | npuStvec rs1 rs2 imm =>
    simp only [exec, execNpuStvec]
    exact stops_storeAt _ _ _ rfl (by simp)

end

/-- The faults of `exec`. -/
theorem exec_fault {i : Instr} {s : State} {e : Fault} (h : exec i s = .fault e) : Stops i s (.fault e) := by
  rcases exec_completes_or_stops i s with ⟨t, ht⟩ | hs
  · rw [h] at ht; cases ht
  · rwa [h] at hs

/-- No meaning refuses. -/
theorem exec_not_refused (i : Instr) (s : State) (r : Refusal) : exec i s ≠ .refused r := by
  intro h
  rcases exec_completes_or_stops i s with ⟨t, ht⟩ | hs
  · rw [h] at ht; cases ht
  · rw [h] at hs; cases hs

end Sys2Proof.Machine
end

