-- ==== Sys2Proof/Laws/PerInstr.lean ====
section
/-!
SUPPORT. A fact about every instruction as syntax, one lemma for each: its word lies in its own row of the opcode table
(30_encoding.md R144).
-/

namespace Sys2Proof.Laws.EncodedRow

/-- The encoding of the instruction matches the row of the table with its mnemonic. -/
def Statement (i : Instr) : Prop := ∃ r ∈ opcodeTable, r.mnemonic = i.mnemonic ∧ r.holds (encode i) = true

/-- The row test, once what the row's mask keeps of the word is known. -/
theorem in_row {i : Instr} {m : String} {p k v : Word} (hr : (⟨m, p, k⟩ : OpcodeRow) ∈ opcodeTable) (hm : m = i.mnemonic)
    (hk : encode i &&& k = v) (hv : v = p) : Statement i :=
  ⟨_, hr, hm, by simp [OpcodeRow.holds, hk, hv]⟩

theorem add (rd : Reg) (rs1 : Reg) (rs2 : Reg) : Statement (.add rd rs1 rs2) :=
  in_row (m := "ADD") (p := 0x00000033#32) (by decide) rfl (mask_funct7 _) (by simp [encode]; rfl)
theorem sub (rd : Reg) (rs1 : Reg) (rs2 : Reg) : Statement (.sub rd rs1 rs2) :=
  in_row (m := "SUB") (p := 0x40000033#32) (by decide) rfl (mask_funct7 _) (by simp [encode]; rfl)
theorem sll (rd : Reg) (rs1 : Reg) (rs2 : Reg) : Statement (.sll rd rs1 rs2) :=
  in_row (m := "SLL") (p := 0x00001033#32) (by decide) rfl (mask_funct7 _) (by simp [encode]; rfl)
theorem slt (rd : Reg) (rs1 : Reg) (rs2 : Reg) : Statement (.slt rd rs1 rs2) :=
  in_row (m := "SLT") (p := 0x00002033#32) (by decide) rfl (mask_funct7 _) (by simp [encode]; rfl)
theorem sltu (rd : Reg) (rs1 : Reg) (rs2 : Reg) : Statement (.sltu rd rs1 rs2) :=
  in_row (m := "SLTU") (p := 0x00003033#32) (by decide) rfl (mask_funct7 _) (by simp [encode]; rfl)
theorem xor (rd : Reg) (rs1 : Reg) (rs2 : Reg) : Statement (.xor rd rs1 rs2) :=
  in_row (m := "XOR") (p := 0x00004033#32) (by decide) rfl (mask_funct7 _) (by simp [encode]; rfl)
theorem srl (rd : Reg) (rs1 : Reg) (rs2 : Reg) : Statement (.srl rd rs1 rs2) :=
  in_row (m := "SRL") (p := 0x00005033#32) (by decide) rfl (mask_funct7 _) (by simp [encode]; rfl)
theorem sra (rd : Reg) (rs1 : Reg) (rs2 : Reg) : Statement (.sra rd rs1 rs2) :=
  in_row (m := "SRA") (p := 0x40005033#32) (by decide) rfl (mask_funct7 _) (by simp [encode]; rfl)
theorem or (rd : Reg) (rs1 : Reg) (rs2 : Reg) : Statement (.or rd rs1 rs2) :=
  in_row (m := "OR") (p := 0x00006033#32) (by decide) rfl (mask_funct7 _) (by simp [encode]; rfl)
theorem and (rd : Reg) (rs1 : Reg) (rs2 : Reg) : Statement (.and rd rs1 rs2) :=
  in_row (m := "AND") (p := 0x00007033#32) (by decide) rfl (mask_funct7 _) (by simp [encode]; rfl)
theorem addi (rd : Reg) (rs1 : Reg) (imm : Word) : Statement (.addi rd rs1 imm) :=
  in_row (m := "ADDI") (p := 0x00000013#32) (by decide) rfl (mask_funct3 _) (by simp [encode]; rfl)
theorem slti (rd : Reg) (rs1 : Reg) (imm : Word) : Statement (.slti rd rs1 imm) :=
  in_row (m := "SLTI") (p := 0x00002013#32) (by decide) rfl (mask_funct3 _) (by simp [encode]; rfl)
theorem sltiu (rd : Reg) (rs1 : Reg) (imm : Word) : Statement (.sltiu rd rs1 imm) :=
  in_row (m := "SLTIU") (p := 0x00003013#32) (by decide) rfl (mask_funct3 _) (by simp [encode]; rfl)
theorem xori (rd : Reg) (rs1 : Reg) (imm : Word) : Statement (.xori rd rs1 imm) :=
  in_row (m := "XORI") (p := 0x00004013#32) (by decide) rfl (mask_funct3 _) (by simp [encode]; rfl)
theorem ori (rd : Reg) (rs1 : Reg) (imm : Word) : Statement (.ori rd rs1 imm) :=
  in_row (m := "ORI") (p := 0x00006013#32) (by decide) rfl (mask_funct3 _) (by simp [encode]; rfl)
theorem andi (rd : Reg) (rs1 : Reg) (imm : Word) : Statement (.andi rd rs1 imm) :=
  in_row (m := "ANDI") (p := 0x00007013#32) (by decide) rfl (mask_funct3 _) (by simp [encode]; rfl)
theorem slli (rd : Reg) (rs1 : Reg) (shamt : Reg) : Statement (.slli rd rs1 shamt) :=
  in_row (m := "SLLI") (p := 0x00001013#32) (by decide) rfl (mask_funct7 _) (by simp [encode]; rfl)
theorem srli (rd : Reg) (rs1 : Reg) (shamt : Reg) : Statement (.srli rd rs1 shamt) :=
  in_row (m := "SRLI") (p := 0x00005013#32) (by decide) rfl (mask_funct7 _) (by simp [encode]; rfl)
theorem srai (rd : Reg) (rs1 : Reg) (shamt : Reg) : Statement (.srai rd rs1 shamt) :=
  in_row (m := "SRAI") (p := 0x40005013#32) (by decide) rfl (mask_funct7 _) (by simp [encode]; rfl)
theorem lb (rd : Reg) (rs1 : Reg) (imm : Word) : Statement (.lb rd rs1 imm) :=
  in_row (m := "LB") (p := 0x00000003#32) (by decide) rfl (mask_funct3 _) (by simp [encode]; rfl)
theorem lh (rd : Reg) (rs1 : Reg) (imm : Word) : Statement (.lh rd rs1 imm) :=
  in_row (m := "LH") (p := 0x00001003#32) (by decide) rfl (mask_funct3 _) (by simp [encode]; rfl)
theorem lw (rd : Reg) (rs1 : Reg) (imm : Word) : Statement (.lw rd rs1 imm) :=
  in_row (m := "LW") (p := 0x00002003#32) (by decide) rfl (mask_funct3 _) (by simp [encode]; rfl)
theorem lbu (rd : Reg) (rs1 : Reg) (imm : Word) : Statement (.lbu rd rs1 imm) :=
  in_row (m := "LBU") (p := 0x00004003#32) (by decide) rfl (mask_funct3 _) (by simp [encode]; rfl)
theorem lhu (rd : Reg) (rs1 : Reg) (imm : Word) : Statement (.lhu rd rs1 imm) :=
  in_row (m := "LHU") (p := 0x00005003#32) (by decide) rfl (mask_funct3 _) (by simp [encode]; rfl)
theorem sb (rs1 : Reg) (rs2 : Reg) (imm : Word) : Statement (.sb rs1 rs2 imm) :=
  in_row (m := "SB") (p := 0x00000023#32) (by decide) rfl (mask_funct3 _) (by simp [encode]; rfl)
theorem sh (rs1 : Reg) (rs2 : Reg) (imm : Word) : Statement (.sh rs1 rs2 imm) :=
  in_row (m := "SH") (p := 0x00001023#32) (by decide) rfl (mask_funct3 _) (by simp [encode]; rfl)
theorem sw (rs1 : Reg) (rs2 : Reg) (imm : Word) : Statement (.sw rs1 rs2 imm) :=
  in_row (m := "SW") (p := 0x00002023#32) (by decide) rfl (mask_funct3 _) (by simp [encode]; rfl)
theorem beq (rs1 : Reg) (rs2 : Reg) (imm : Word) : Statement (.beq rs1 rs2 imm) :=
  in_row (m := "BEQ") (p := 0x00000063#32) (by decide) rfl (mask_funct3 _) (by simp [encode]; rfl)
theorem bne (rs1 : Reg) (rs2 : Reg) (imm : Word) : Statement (.bne rs1 rs2 imm) :=
  in_row (m := "BNE") (p := 0x00001063#32) (by decide) rfl (mask_funct3 _) (by simp [encode]; rfl)
theorem blt (rs1 : Reg) (rs2 : Reg) (imm : Word) : Statement (.blt rs1 rs2 imm) :=
  in_row (m := "BLT") (p := 0x00004063#32) (by decide) rfl (mask_funct3 _) (by simp [encode]; rfl)
theorem bge (rs1 : Reg) (rs2 : Reg) (imm : Word) : Statement (.bge rs1 rs2 imm) :=
  in_row (m := "BGE") (p := 0x00005063#32) (by decide) rfl (mask_funct3 _) (by simp [encode]; rfl)
theorem bltu (rs1 : Reg) (rs2 : Reg) (imm : Word) : Statement (.bltu rs1 rs2 imm) :=
  in_row (m := "BLTU") (p := 0x00006063#32) (by decide) rfl (mask_funct3 _) (by simp [encode]; rfl)
theorem bgeu (rs1 : Reg) (rs2 : Reg) (imm : Word) : Statement (.bgeu rs1 rs2 imm) :=
  in_row (m := "BGEU") (p := 0x00007063#32) (by decide) rfl (mask_funct3 _) (by simp [encode]; rfl)
theorem lui (rd : Reg) (imm : Word) : Statement (.lui rd imm) :=
  in_row (m := "LUI") (p := 0x00000037#32) (by decide) rfl (mask_opcode _) (by simp [encode]; rfl)
theorem auipc (rd : Reg) (imm : Word) : Statement (.auipc rd imm) :=
  in_row (m := "AUIPC") (p := 0x00000017#32) (by decide) rfl (mask_opcode _) (by simp [encode]; rfl)
theorem jal (rd : Reg) (imm : Word) : Statement (.jal rd imm) :=
  in_row (m := "JAL") (p := 0x0000006F#32) (by decide) rfl (mask_opcode _) (by simp [encode]; rfl)
theorem jalr (rd : Reg) (rs1 : Reg) (imm : Word) (funct3 : BitVec 3) : Statement (.jalr rd rs1 imm funct3) :=
  in_row (m := "JALR") (p := 0x00000067#32) (by decide) rfl (mask_opcode _) (by simp [encode]; rfl)
theorem ecall : Statement .ecall :=
  in_row (m := "ECALL") (p := 0x00000073#32) (k := 0xFFFFFFFF#32) (by decide) rfl rfl rfl
theorem ebreak : Statement .ebreak :=
  in_row (m := "EBREAK") (p := 0x00100073#32) (k := 0xFFFFFFFF#32) (by decide) rfl rfl rfl
theorem fence (rd : Reg) (rs1 : Reg) (imm : BitVec 12) : Statement (.fence rd rs1 imm) :=
  in_row (m := "FENCE") (p := 0x0000000F#32) (by decide) rfl (mask_funct3 _) (by simp [encode]; rfl)
theorem mul (rd : Reg) (rs1 : Reg) (rs2 : Reg) : Statement (.mul rd rs1 rs2) :=
  in_row (m := "MUL") (p := 0x02000033#32) (by decide) rfl (mask_funct7 _) (by simp [encode]; rfl)
theorem mulh (rd : Reg) (rs1 : Reg) (rs2 : Reg) : Statement (.mulh rd rs1 rs2) :=
  in_row (m := "MULH") (p := 0x02001033#32) (by decide) rfl (mask_funct7 _) (by simp [encode]; rfl)
theorem mulhsu (rd : Reg) (rs1 : Reg) (rs2 : Reg) : Statement (.mulhsu rd rs1 rs2) :=
  in_row (m := "MULHSU") (p := 0x02002033#32) (by decide) rfl (mask_funct7 _) (by simp [encode]; rfl)
theorem mulhu (rd : Reg) (rs1 : Reg) (rs2 : Reg) : Statement (.mulhu rd rs1 rs2) :=
  in_row (m := "MULHU") (p := 0x02003033#32) (by decide) rfl (mask_funct7 _) (by simp [encode]; rfl)
theorem div (rd : Reg) (rs1 : Reg) (rs2 : Reg) : Statement (.div rd rs1 rs2) :=
  in_row (m := "DIV") (p := 0x02004033#32) (by decide) rfl (mask_funct7 _) (by simp [encode]; rfl)
theorem divu (rd : Reg) (rs1 : Reg) (rs2 : Reg) : Statement (.divu rd rs1 rs2) :=
  in_row (m := "DIVU") (p := 0x02005033#32) (by decide) rfl (mask_funct7 _) (by simp [encode]; rfl)
theorem rem (rd : Reg) (rs1 : Reg) (rs2 : Reg) : Statement (.rem rd rs1 rs2) :=
  in_row (m := "REM") (p := 0x02006033#32) (by decide) rfl (mask_funct7 _) (by simp [encode]; rfl)
theorem remu (rd : Reg) (rs1 : Reg) (rs2 : Reg) : Statement (.remu rd rs1 rs2) :=
  in_row (m := "REMU") (p := 0x02007033#32) (by decide) rfl (mask_funct7 _) (by simp [encode]; rfl)
theorem flw (rd : Reg) (rs1 : Reg) (imm : Word) : Statement (.flw rd rs1 imm) :=
  in_row (m := "FLW") (p := 0x00002007#32) (by decide) rfl (mask_funct3 _) (by simp [encode]; rfl)
theorem fsw (rs1 : Reg) (rs2 : Reg) (imm : Word) : Statement (.fsw rs1 rs2 imm) :=
  in_row (m := "FSW") (p := 0x00002027#32) (by decide) rfl (mask_funct3 _) (by simp [encode]; rfl)
theorem faddS (rd : Reg) (rs1 : Reg) (rs2 : Reg) (rm : BitVec 3) : Statement (.faddS rd rs1 rs2 rm) :=
  in_row (m := "FADD.S") (p := 0x00000053#32) (by decide) rfl (mask_funct7_only _) (by simp [encode]; rfl)
theorem fsubS (rd : Reg) (rs1 : Reg) (rs2 : Reg) (rm : BitVec 3) : Statement (.fsubS rd rs1 rs2 rm) :=
  in_row (m := "FSUB.S") (p := 0x08000053#32) (by decide) rfl (mask_funct7_only _) (by simp [encode]; rfl)
theorem fmulS (rd : Reg) (rs1 : Reg) (rs2 : Reg) (rm : BitVec 3) : Statement (.fmulS rd rs1 rs2 rm) :=
  in_row (m := "FMUL.S") (p := 0x10000053#32) (by decide) rfl (mask_funct7_only _) (by simp [encode]; rfl)
theorem fdivS (rd : Reg) (rs1 : Reg) (rs2 : Reg) (rm : BitVec 3) : Statement (.fdivS rd rs1 rs2 rm) :=
  in_row (m := "FDIV.S") (p := 0x18000053#32) (by decide) rfl (mask_funct7_only _) (by simp [encode]; rfl)
theorem fsqrtS (rd : Reg) (rs1 : Reg) (rm : BitVec 3) : Statement (.fsqrtS rd rs1 rm) :=
  in_row (m := "FSQRT.S") (p := 0x58000053#32) (by decide) rfl (mask_funct7_rs2 _) (by simp [encode]; rfl)
theorem fmaddS (rd : Reg) (rs1 : Reg) (rs2 : Reg) (rs3 : Reg) (rm : BitVec 3) (fmt : BitVec 2) : Statement (.fmaddS rd rs1 rs2 rs3 rm fmt) :=
  in_row (m := "FMADD.S") (p := 0x00000043#32) (by decide) rfl (mask_opcode _) (by simp [encode]; rfl)
theorem fmsubS (rd : Reg) (rs1 : Reg) (rs2 : Reg) (rs3 : Reg) (rm : BitVec 3) (fmt : BitVec 2) : Statement (.fmsubS rd rs1 rs2 rs3 rm fmt) :=
  in_row (m := "FMSUB.S") (p := 0x00000047#32) (by decide) rfl (mask_opcode _) (by simp [encode]; rfl)
theorem fnmsubS (rd : Reg) (rs1 : Reg) (rs2 : Reg) (rs3 : Reg) (rm : BitVec 3) (fmt : BitVec 2) : Statement (.fnmsubS rd rs1 rs2 rs3 rm fmt) :=
  in_row (m := "FNMSUB.S") (p := 0x0000004B#32) (by decide) rfl (mask_opcode _) (by simp [encode]; rfl)
theorem fnmaddS (rd : Reg) (rs1 : Reg) (rs2 : Reg) (rs3 : Reg) (rm : BitVec 3) (fmt : BitVec 2) : Statement (.fnmaddS rd rs1 rs2 rs3 rm fmt) :=
  in_row (m := "FNMADD.S") (p := 0x0000004F#32) (by decide) rfl (mask_opcode _) (by simp [encode]; rfl)
theorem fsgnjS (rd : Reg) (rs1 : Reg) (rs2 : Reg) : Statement (.fsgnjS rd rs1 rs2) :=
  in_row (m := "FSGNJ.S") (p := 0x20000053#32) (by decide) rfl (mask_funct7 _) (by simp [encode]; rfl)
theorem fsgnjnS (rd : Reg) (rs1 : Reg) (rs2 : Reg) : Statement (.fsgnjnS rd rs1 rs2) :=
  in_row (m := "FSGNJN.S") (p := 0x20001053#32) (by decide) rfl (mask_funct7 _) (by simp [encode]; rfl)
theorem fsgnjxS (rd : Reg) (rs1 : Reg) (rs2 : Reg) : Statement (.fsgnjxS rd rs1 rs2) :=
  in_row (m := "FSGNJX.S") (p := 0x20002053#32) (by decide) rfl (mask_funct7 _) (by simp [encode]; rfl)
theorem fminS (rd : Reg) (rs1 : Reg) (rs2 : Reg) : Statement (.fminS rd rs1 rs2) :=
  in_row (m := "FMIN.S") (p := 0x28000053#32) (by decide) rfl (mask_funct7 _) (by simp [encode]; rfl)
theorem fmaxS (rd : Reg) (rs1 : Reg) (rs2 : Reg) : Statement (.fmaxS rd rs1 rs2) :=
  in_row (m := "FMAX.S") (p := 0x28001053#32) (by decide) rfl (mask_funct7 _) (by simp [encode]; rfl)
theorem feqS (rd : Reg) (rs1 : Reg) (rs2 : Reg) : Statement (.feqS rd rs1 rs2) :=
  in_row (m := "FEQ.S") (p := 0xA0002053#32) (by decide) rfl (mask_funct7 _) (by simp [encode]; rfl)
theorem fltS (rd : Reg) (rs1 : Reg) (rs2 : Reg) : Statement (.fltS rd rs1 rs2) :=
  in_row (m := "FLT.S") (p := 0xA0001053#32) (by decide) rfl (mask_funct7 _) (by simp [encode]; rfl)
theorem fleS (rd : Reg) (rs1 : Reg) (rs2 : Reg) : Statement (.fleS rd rs1 rs2) :=
  in_row (m := "FLE.S") (p := 0xA0000053#32) (by decide) rfl (mask_funct7 _) (by simp [encode]; rfl)
theorem fcvtWS (rd : Reg) (rs1 : Reg) (rm : BitVec 3) : Statement (.fcvtWS rd rs1 rm) :=
  in_row (m := "FCVT.W.S") (p := 0xC0000053#32) (by decide) rfl (mask_funct7_rs2 _) (by simp [encode]; rfl)
theorem fcvtWuS (rd : Reg) (rs1 : Reg) (rm : BitVec 3) : Statement (.fcvtWuS rd rs1 rm) :=
  in_row (m := "FCVT.WU.S") (p := 0xC0100053#32) (by decide) rfl (mask_funct7_rs2 _) (by simp [encode]; rfl)
theorem fcvtSW (rd : Reg) (rs1 : Reg) (rm : BitVec 3) : Statement (.fcvtSW rd rs1 rm) :=
  in_row (m := "FCVT.S.W") (p := 0xD0000053#32) (by decide) rfl (mask_funct7_rs2 _) (by simp [encode]; rfl)
theorem fcvtSWu (rd : Reg) (rs1 : Reg) (rm : BitVec 3) : Statement (.fcvtSWu rd rs1 rm) :=
  in_row (m := "FCVT.S.WU") (p := 0xD0100053#32) (by decide) rfl (mask_funct7_rs2 _) (by simp [encode]; rfl)
theorem fmvXW (rd : Reg) (rs1 : Reg) (rs2 : Reg) : Statement (.fmvXW rd rs1 rs2) :=
  in_row (m := "FMV.X.W") (p := 0xE0000053#32) (by decide) rfl (mask_funct7 _) (by simp [encode]; rfl)
theorem fmvWX (rd : Reg) (rs1 : Reg) (rs2 : Reg) : Statement (.fmvWX rd rs1 rs2) :=
  in_row (m := "FMV.W.X") (p := 0xF0000053#32) (by decide) rfl (mask_funct7 _) (by simp [encode]; rfl)
theorem fclassS (rd : Reg) (rs1 : Reg) (rs2 : Reg) : Statement (.fclassS rd rs1 rs2) :=
  in_row (m := "FCLASS.S") (p := 0xE0001053#32) (by decide) rfl (mask_funct7 _) (by simp [encode]; rfl)
theorem npuMacc (rd : Reg) (rs1 : Reg) (rs2 : Reg) : Statement (.npuMacc rd rs1 rs2) :=
  in_row (m := "NPU.MACC") (p := 0x0000000B#32) (by decide) rfl (mask_funct7 _) (by simp [encode]; rfl)
theorem npuVmac (rd : Reg) (rs1 : Reg) (rs2 : Reg) : Statement (.npuVmac rd rs1 rs2) :=
  in_row (m := "NPU.VMAC") (p := 0x0200000B#32) (by decide) rfl (mask_funct7 _) (by simp [encode]; rfl)
theorem npuVexp (rd : Reg) (rs1 : Reg) (rs2 : Reg) : Statement (.npuVexp rd rs1 rs2) :=
  in_row (m := "NPU.VEXP") (p := 0x0400000B#32) (by decide) rfl (mask_funct7 _) (by simp [encode]; rfl)
theorem npuVrsqrt (rd : Reg) (rs1 : Reg) (rs2 : Reg) : Statement (.npuVrsqrt rd rs1 rs2) :=
  in_row (m := "NPU.VRSQRT") (p := 0x0600000B#32) (by decide) rfl (mask_funct7 _) (by simp [encode]; rfl)
theorem npuVmul (rd : Reg) (rs1 : Reg) (rs2 : Reg) : Statement (.npuVmul rd rs1 rs2) :=
  in_row (m := "NPU.VMUL") (p := 0x0800000B#32) (by decide) rfl (mask_funct7 _) (by simp [encode]; rfl)
theorem npuVreduce (rd : Reg) (rs1 : Reg) (rs2 : Reg) : Statement (.npuVreduce rd rs1 rs2) :=
  in_row (m := "NPU.VREDUCE") (p := 0x0A00000B#32) (by decide) rfl (mask_funct7 _) (by simp [encode]; rfl)
theorem npuVmax (rd : Reg) (rs1 : Reg) (rs2 : Reg) : Statement (.npuVmax rd rs1 rs2) :=
  in_row (m := "NPU.VMAX") (p := 0x0C00000B#32) (by decide) rfl (mask_funct7 _) (by simp [encode]; rfl)
theorem npuRelu (rd : Reg) (rs1 : Reg) (rs2 : Reg) : Statement (.npuRelu rd rs1 rs2) :=
  in_row (m := "NPU.RELU") (p := 0x0000100B#32) (by decide) rfl (mask_funct7 _) (by simp [encode]; rfl)
theorem npuQmul (rd : Reg) (rs1 : Reg) (rs2 : Reg) : Statement (.npuQmul rd rs1 rs2) :=
  in_row (m := "NPU.QMUL") (p := 0x0000200B#32) (by decide) rfl (mask_funct7 _) (by simp [encode]; rfl)
theorem npuClamp (rd : Reg) (rs1 : Reg) (rs2 : Reg) : Statement (.npuClamp rd rs1 rs2) :=
  in_row (m := "NPU.CLAMP") (p := 0x0000300B#32) (by decide) rfl (mask_funct7 _) (by simp [encode]; rfl)
theorem npuGelu (rd : Reg) (rs1 : Reg) (rs2 : Reg) : Statement (.npuGelu rd rs1 rs2) :=
  in_row (m := "NPU.GELU") (p := 0x0000400B#32) (by decide) rfl (mask_funct7 _) (by simp [encode]; rfl)
theorem npuRstacc (rd : Reg) (rs1 : Reg) (rs2 : Reg) : Statement (.npuRstacc rd rs1 rs2) :=
  in_row (m := "NPU.RSTACC") (p := 0x0000500B#32) (by decide) rfl (mask_funct7 _) (by simp [encode]; rfl)
theorem npuLdvec (rd : Reg) (rs1 : Reg) (imm : Word) : Statement (.npuLdvec rd rs1 imm) :=
  in_row (m := "NPU.LDVEC") (p := 0x0000600B#32) (by decide) rfl (mask_funct3 _) (by simp [encode]; rfl)
theorem npuStvec (rs1 : Reg) (rs2 : Reg) (imm : Word) : Statement (.npuStvec rs1 rs2 imm) :=
  in_row (m := "NPU.STVEC") (p := 0x0000700B#32) (by decide) rfl (mask_funct3 _) (by simp [encode]; rfl)

end Sys2Proof.Laws.EncodedRow
end

