-- ==== Sys2Proof/Laws/Rounding.lean ====
section
/-!
SUPPORT. The one rounding function (45_f_arith.md R262) once and for all in terms of real numbers: what the exact magnitudes
of Float.lean stand for, what a pattern's fields and value are, and that `round` delivers what R262 says.
-/

namespace Sys2Proof.Machine

/-! ## The integer square root -/

theorem isqrtFrom_spec (n b r : Nat) (h : r * r ≤ n) (hn : n < (r + 2 ^ b) * (r + 2 ^ b)) :
    isqrtFrom n b r * isqrtFrom n b r ≤ n ∧ n < (isqrtFrom n b r + 1) * (isqrtFrom n b r + 1) := by
  induction b generalizing r with
  | zero => exact ⟨h, by simpa [isqrtFrom] using hn⟩
  | succ b ih =>
    rw [isqrtFrom]
    split
    · exact ih _ ‹_› (by rw [pow_succ] at hn; convert hn using 2 <;> ring)
    · exact ih _ h (by omega)

/-- `isqrt` is the integer square root. -/
theorem isqrt_spec (n : Nat) : isqrt n * isqrt n ≤ n ∧ n < (isqrt n + 1) * (isqrt n + 1) := by
  refine isqrtFrom_spec n _ 0 (by omega) ?_
  have h : n < 2 ^ (n.log2 + 1) := Nat.lt_log2_self
  have h2 : 2 ^ (n.log2 + 1) ≤ 2 ^ (2 * (n.log2 / 2 + 1)) := Nat.pow_le_pow_right (by omega) (by omega)
  rw [Nat.zero_add, ← pow_two, ← pow_mul, Nat.mul_comm]
  omega

/-! ## Exact magnitudes -/

/-- The real number a magnitude stands for. -/
noncomputable def Magnitude.val : Magnitude → ℝ
  | .ratio n d => (n : ℝ) / d
  | .root n d => Real.sqrt ((n : ℝ) / d)

/-- A magnitude of a positive number. -/
def Magnitude.positive : Magnitude → Prop
  | .ratio n d => 0 < n ∧ 0 < d
  | .root n d => 0 < n ∧ 0 < d

theorem scaleDen_pos {d : Nat} (h : 0 < d) (k : Int) : 0 < scaleDen d k := Nat.mul_pos h (by positivity)

/-- Scaling a ratio by `2^k`. -/
theorem scale_ratio (n d : Nat) (k : Int) : (scaleNum n k : ℝ) / scaleDen d k = (n : ℝ) / d * 2 ^ k := by
  unfold scaleNum scaleDen
  rcases le_total 0 k with h | h
  · obtain ⟨j, rfl⟩ := Int.eq_ofNat_of_zero_le h
    simp [show (-(j : ℤ)).toNat = 0 by omega]
    ring
  · obtain ⟨j, hj⟩ := Int.eq_ofNat_of_zero_le (show 0 ≤ -k by omega)
    obtain rfl : k = -(j : ℤ) := by omega
    simp [show (-(j : ℤ)).toNat = 0 by omega]
    field_simp

theorem Magnitude.val_pos {x : Magnitude} (h : x.positive) : 0 < x.val := by
  cases x with
  | ratio n d => exact div_pos (by exact_mod_cast h.1) (by exact_mod_cast h.2)
  | root n d => exact Real.sqrt_pos.mpr (div_pos (by exact_mod_cast h.1) (by exact_mod_cast h.2))

/-- A natural quotient is the floor of the real one, and equals it when the remainder is zero. -/
theorem div_spec (n : Nat) {d : Nat} (hd : 0 < d) :
    ((n / d : ℕ) : ℝ) ≤ (n : ℝ) / d ∧ (n : ℝ) / d < (n / d : ℕ) + 1 ∧ (n % d = 0 ↔ (n : ℝ) / d = (n / d : ℕ)) := by
  have hd' : (0 : ℝ) < d := by exact_mod_cast hd
  have e : (n : ℝ) = d * (n / d : ℕ) + (n % d : ℕ) := by exact_mod_cast (Nat.div_add_mod n d).symm
  have hm : ((n % d : ℕ) : ℝ) < d := by exact_mod_cast Nat.mod_lt n hd
  have h0 : (0 : ℝ) ≤ (n % d : ℕ) := Nat.cast_nonneg _
  refine ⟨by rw [le_div_iff₀ hd']; nlinarith, by rw [div_lt_iff₀ hd']; nlinarith, ?_⟩
  rw [div_eq_iff hd'.ne']
  constructor
  · intro h; rw [h] at e; push_cast at e; linarith
  · intro h
    have : ((n % d : ℕ) : ℝ) = 0 := by linarith
    exact_mod_cast this

theorem sqrt_scale (x : ℝ) (k : Int) : Real.sqrt x * 2 ^ k = Real.sqrt (x * 2 ^ (2 * k)) := by
  rw [Real.sqrt_mul' x (by positivity), mul_comm 2 k, zpow_mul]
  congr 1
  rw [show ((2 : ℝ) ^ k) ^ (2 : ℤ) = (2 ^ k) ^ (2 : ℕ) from by norm_cast, Real.sqrt_sq (by positivity)]

/-- `floorAt` is the floor of `x * 2^k`, and `exactAt` says whether it is `x * 2^k` itself. -/
theorem Magnitude.floorAt_spec {x : Magnitude} (h : x.positive) (k : Int) :
    (x.floorAt k : ℝ) ≤ x.val * 2 ^ k ∧ x.val * 2 ^ k < x.floorAt k + 1 ∧
      (x.exactAt k = true ↔ x.val * 2 ^ k = x.floorAt k) := by
  cases x with
  | ratio n d =>
    have := div_spec (scaleNum n k) (scaleDen_pos h.2 k)
    rw [scale_ratio] at this
    simpa [Magnitude.floorAt, Magnitude.exactAt, Magnitude.val] using this
  | root n d =>
    have hq := div_spec (scaleNum n (2 * k)) (scaleDen_pos h.2 (2 * k))
    rw [scale_ratio] at hq
    simp only [Magnitude.floorAt, Magnitude.exactAt, Magnitude.val, sqrt_scale]
    set y : ℝ := (n : ℝ) / d * 2 ^ (2 * k) with hy
    set q := scaleNum n (2 * k) / scaleDen d (2 * k) with hqd
    obtain ⟨h1, h2⟩ := isqrt_spec q
    have h1' : ((isqrt q : ℕ) : ℝ) ^ 2 ≤ q := by rw [pow_two]; exact_mod_cast h1
    have h2' : (q : ℝ) + 1 ≤ ((isqrt q : ℕ) + 1 : ℝ) ^ 2 := by rw [pow_two]; exact_mod_cast h2
    have hy0 : 0 ≤ y := by positivity
    refine ⟨Real.le_sqrt_of_sq_le (by linarith), (Real.sqrt_lt hy0 (by positivity)).mpr (by linarith), ?_⟩
    rw [Bool.and_eq_true, beq_iff_eq, beq_iff_eq, hq.2.2]
    constructor
    · rintro ⟨e1, e2⟩
      rw [e1, Real.sqrt_eq_iff_mul_self_eq (by positivity) (by positivity)]
      exact_mod_cast e2.symm
    · intro e
      have e' : y = (isqrt q : ℝ) ^ 2 := by rw [← e, Real.sq_sqrt hy0]
      have hle : isqrt q * isqrt q = q := by
        apply le_antisymm h1
        have : (q : ℝ) ≤ (isqrt q : ℝ) ^ 2 := by rw [← e']; exact hq.1
        rw [pow_two] at this; exact_mod_cast this
      refine ⟨?_, hle⟩
      rw [e', pow_two]; exact_mod_cast hle

theorem ratioLog2_spec {n d : Nat} (hn : 0 < n) (hd : 0 < d) :
    (2 : ℝ) ^ ratioLog2 n d ≤ (n : ℝ) / d ∧ (n : ℝ) / d < 2 ^ (ratioLog2 n d + 1) := by
  have hd' : (0 : ℝ) < d := by exact_mod_cast hd
  have n1 : (2 : ℝ) ^ (n.log2 : ℤ) ≤ n := by exact_mod_cast Nat.log2_self_le hn.ne'
  have n2 : (n : ℝ) < 2 ^ ((n.log2 : ℤ) + 1) := by exact_mod_cast Nat.lt_log2_self (n := n)
  have d1 : (2 : ℝ) ^ (d.log2 : ℤ) ≤ d := by exact_mod_cast Nat.log2_self_le hd.ne'
  have d2 : (d : ℝ) < 2 ^ ((d.log2 : ℤ) + 1) := by exact_mod_cast Nat.lt_log2_self (n := d)
  set c : ℤ := (n.log2 : ℤ) - (d.log2 : ℤ) with hc
  have lo : (2 : ℝ) ^ (c - 1) ≤ (n : ℝ) / d := by
    rw [le_div_iff₀ hd']
    calc (2 : ℝ) ^ (c - 1) * d ≤ 2 ^ (c - 1) * 2 ^ ((d.log2 : ℤ) + 1) := by gcongr
      _ = 2 ^ (n.log2 : ℤ) := by rw [← zpow_add₀ (by norm_num)]; congr 1; omega
      _ ≤ n := n1
  have hi : (n : ℝ) / d < 2 ^ (c + 1) := by
    rw [div_lt_iff₀ hd']
    calc (n : ℝ) < 2 ^ ((n.log2 : ℤ) + 1) := n2
      _ = 2 ^ (c + 1) * 2 ^ (d.log2 : ℤ) := by rw [← zpow_add₀ (by norm_num)]; congr 1; omega
      _ ≤ 2 ^ (c + 1) * d := by gcongr
  have test : scaleDen d (-c) ≤ scaleNum n (-c) ↔ (2 : ℝ) ^ c ≤ (n : ℝ) / d := by
    have hs : (0 : ℝ) < scaleDen d (-c) := by exact_mod_cast scaleDen_pos hd (-c)
    have := scale_ratio n d (-c)
    have hp : (0 : ℝ) < 2 ^ c := by positivity
    rw [← Nat.cast_le (α := ℝ), ← one_le_div hs, this, zpow_neg, ← div_eq_mul_inv, one_le_div hp]
  unfold ratioLog2
  simp only [← hc]
  split
  · exact ⟨test.mp ‹_›, hi⟩
  · refine ⟨lo, ?_⟩
    rw [sub_add_cancel]
    exact not_le.mp (mt test.mpr ‹_›)

/-- `log2` is the exponent of the magnitude. -/
theorem Magnitude.log2_spec {x : Magnitude} (h : x.positive) :
    (2 : ℝ) ^ x.log2 ≤ x.val ∧ x.val < 2 ^ (x.log2 + 1) := by
  cases x with
  | ratio n d => exact ratioLog2_spec h.1 h.2
  | root n d =>
    obtain ⟨h1, h2⟩ := ratioLog2_spec h.1 h.2
    simp only [Magnitude.log2, Magnitude.val]
    set e := ratioLog2 n d with he
    have hy : (0 : ℝ) ≤ (n : ℝ) / d := by positivity
    constructor
    · apply Real.le_sqrt_of_sq_le
      rw [← zpow_natCast, ← zpow_mul]
      refine le_trans (zpow_le_zpow_right₀ (by norm_num) ?_) h1
      push_cast; omega
    · rw [Real.sqrt_lt hy (by positivity), ← zpow_natCast, ← zpow_mul]
      refine lt_of_lt_of_le h2 (zpow_le_zpow_right₀ (by norm_num) ?_)
      push_cast; omega

/-- `roundAt` rounds `x * 2^k` to the nearest integer, ties to even, and says whether it is exact. -/
theorem Magnitude.roundAt_spec {x : Magnitude} (h : x.positive) (k : Int) :
    NearestEven (x.val * 2 ^ k) (x.roundAt .nearestEven k).1 ∧
      ((x.roundAt .nearestEven k).2 = true ↔ x.val * 2 ^ k = (x.roundAt .nearestEven k).1) := by
  obtain ⟨h1, h2, h3⟩ := x.floorAt_spec h (k + 1)
  have hk : x.val * 2 ^ (k + 1) = 2 * (x.val * 2 ^ k) := by rw [zpow_add_one₀ (by norm_num)]; ring
  rw [hk] at h1 h2 h3
  set y := x.val * 2 ^ k with hy
  simp only [Magnitude.roundAt]
  set t := x.floorAt (k + 1) with ht
  have hdm := Nat.div_add_mod t 2
  have hdm' : (2 : ℝ) * (t / 2 : ℕ) + (t % 2 : ℕ) = t := by exact_mod_cast hdm
  rcases Nat.mod_two_eq_zero_or_one t with h0 | h0 <;> rw [h0] at hdm' <;> simp only [h0] <;> push_cast at hdm'
  · -- the half bit is clear
    simp only [show ((0 : ℕ) == 1) = false from rfl, Bool.false_and, Bool.false_eq_true, if_false, Bool.not_false,
      Bool.true_and, Bool.not_not, h3]
    refine ⟨.inl (abs_lt.mpr ⟨by linarith, by linarith⟩), ?_⟩
    constructor <;> intro e <;> linarith
  · simp only [show ((1 : ℕ) == 1) = true from rfl, Bool.true_and, Bool.not_true, Bool.false_and, Bool.false_eq_true,
      false_iff]
    by_cases hx : x.exactAt (k + 1) = true
    · have hy2 := h3.mp hx
      have hyh : y = (t / 2 : ℕ) + 1 / 2 := by linarith
      simp only [hx, Bool.not_true, Bool.false_or, beq_iff_eq]
      split
      · refine ⟨.inr ⟨?_, by omega⟩, ?_⟩
        · rw [hyh]; push_cast
          rw [show ((t / 2 : ℕ) : ℝ) + 1 / 2 - ((t / 2 : ℕ) + 1) = -(1 / 2) by ring]; norm_num
        · rw [hyh]; push_cast; intro e; linarith
      · refine ⟨.inr ⟨?_, by omega⟩, ?_⟩
        · rw [hyh]; norm_num
        · rw [hyh]; intro e; linarith
    · have hlt : (t : ℝ) < 2 * y := lt_of_le_of_ne h1 fun e => hx (h3.mpr e.symm)
      simp only [Bool.not_eq_true] at hx
      simp only [hx, Bool.not_false, Bool.true_or, if_true]
      refine ⟨.inl ?_, ?_⟩
      · push_cast; rw [abs_lt]; constructor <;> linarith
      · push_cast; intro e; linarith

/-! ## Patterns -/

theorem fpSign_eq (p : Word) : fpSign p = decide (2 ^ 31 ≤ p.toNat) := by
  rw [fpSign, ← BitVec.msb_eq_getLsbD_last p, BitVec.msb_eq_decide]

theorem fpExp_eq (p : Word) : fpExp p = p.toNat / 2 ^ 23 % 2 ^ 8 := by
  simp [fpExp, Nat.shiftRight_eq_div_pow]

theorem fpFrac_eq (p : Word) : fpFrac p = p.toNat % 2 ^ 23 := by
  simp [fpFrac]

/-- The three fields make up the pattern. -/
theorem fields_toNat (p : Word) :
    p.toNat = (if fpSign p then 2 ^ 31 else 0) + fpExp p * 2 ^ 23 + fpFrac p := by
  rw [fpSign_eq, fpExp_eq, fpFrac_eq]
  have := p.isLt
  simp only [decide_eq_true_eq]
  split <;> omega

theorem fpExp_lt (p : Word) : fpExp p < 256 := by rw [fpExp_eq]; omega
theorem fpFrac_lt (p : Word) : fpFrac p < 2 ^ 23 := by rw [fpFrac_eq]; omega

/-- A pattern is its sign, exponent and fraction. -/
theorem eq_of_fields {p q : Word} (h1 : fpSign p = fpSign q) (h2 : fpExp p = fpExp q) (h3 : fpFrac p = fpFrac q) : p = q := by
  apply BitVec.eq_of_toNat_eq
  rw [fields_toNat p, fields_toNat q, h1, h2, h3]

theorem pack_toNat (sg : Bool) {m : Nat} (h : m < 2 ^ 31) : (pack sg m).toNat = m + (if sg then 2 ^ 31 else 0) := by
  cases sg <;> simp [pack] <;> omega

@[simp] theorem fpSign_pack (sg : Bool) {m : Nat} (h : m < 2 ^ 31) : fpSign (pack sg m) = sg := by
  rw [fpSign_eq, pack_toNat sg h]
  cases sg
  · simp; omega
  · simp

theorem fpExp_pack (sg : Bool) {m : Nat} (h : m < 2 ^ 31) : fpExp (pack sg m) = m / 2 ^ 23 := by
  rw [fpExp_eq, pack_toNat sg h]
  cases sg <;> simp <;> omega

theorem fpFrac_pack (sg : Bool) {m : Nat} (h : m < 2 ^ 31) : fpFrac (pack sg m) = m % 2 ^ 23 := by
  rw [fpFrac_eq, pack_toNat sg h]
  cases sg
  · simp
  · simp; omega

/-- A pattern is finite when its exponent field is not 255. -/
theorem isFinite_iff (p : Word) : isFinite p = true ↔ fpExp p ≠ 255 := by
  simp only [isFinite, isNaN, isInf]
  by_cases h : fpExp p = 255 <;> by_cases h' : fpFrac p = 0 <;> simp [h, h']

/-- The value of a pattern is a whole number of units of `2^-149`. -/
theorem fpVal_eq (p : Word) : fpVal p = (fpInt p : ℚ) / 2 ^ 149 := by
  have key : (if fpExp p = 0 then (fpFrac p : ℚ) * 2 ^ (-149 : ℤ)
      else ((2 ^ 23 + fpFrac p : ℕ) : ℚ) * 2 ^ ((fpExp p : ℤ) - 150)) = (fpUnits p : ℚ) / 2 ^ 149 := by
    unfold fpUnits
    split
    · rw [zpow_neg, ← div_eq_mul_inv]; norm_cast
    · have : ((fpExp p : ℤ) - 150) = ((fpExp p - 1 : ℕ) : ℤ) - (149 : ℕ) := by omega
      rw [this, zpow_sub₀ (by norm_num), zpow_natCast, zpow_natCast]
      push_cast; ring
  unfold fpVal fpInt
  rw [key]
  split <;> push_cast <;> ring

theorem abs_fpInt (p : Word) : |fpInt p| = fpUnits p := by
  unfold fpInt; split <;> simp

/-- The magnitude of a packed subnormal or normal number. -/
theorem fpUnits_pack (sg : Bool) (e f : Nat) (he : e < 256) (hf : f < 2 ^ 23) :
    fpUnits (pack sg (e * 2 ^ 23 + f)) = if e = 0 then f else (2 ^ 23 + f) * 2 ^ (e - 1) := by
  have hm : e * 2 ^ 23 + f < 2 ^ 31 := by omega
  have h1 : (e * 2 ^ 23 + f) / 2 ^ 23 = e := by omega
  have h2 : (e * 2 ^ 23 + f) % 2 ^ 23 = f := by omega
  rw [fpUnits, fpExp_pack sg hm, fpFrac_pack sg hm, h1, h2]

/-- A packed number of a finite exponent encodes its magnitude with its sign. -/
theorem encodes_pack {r : ℝ} {sg : Bool} (hs : sg = true ↔ r < 0) {e f : Nat} (he : e < 255) (hf : f < 2 ^ 23) {v : ℝ}
    (hv : v = (if e = 0 then (f : ℝ) else ((2 ^ 23 + f : ℕ) : ℝ) * 2 ^ (e - 1)) / 2 ^ 149) :
    Encodes r (pack sg (e * 2 ^ 23 + f)) v := by
  have hm : e * 2 ^ 23 + f < 2 ^ 31 := by omega
  refine ⟨(isFinite_iff _).mpr ?_, ?_, ?_⟩
  · rw [fpExp_pack sg hm]; omega
  · rw [fpSign_pack sg hm]; exact hs
  · rw [fpVal_eq, hv, Rat.cast_div, Rat.cast_intCast, Rat.cast_pow, Rat.cast_ofNat]
    rw [abs_div, abs_of_pos (show (0 : ℝ) < 2 ^ 149 by positivity), ← Int.cast_abs, abs_fpInt,
      fpUnits_pack sg e f (by omega) hf]
    split <;> simp

/-! ## `round` -/

theorem nearestEven_le {y : ℝ} {k b : Nat} (h : NearestEven y k) (hy : y < b) : k ≤ b := by
  by_contra hc
  have : (b : ℝ) + 1 ≤ k := by exact_mod_cast Nat.lt_of_not_le hc
  rcases h with h | ⟨h, _⟩
  · rw [abs_lt] at h; linarith
  · rw [abs_of_neg (by linarith)] at h; linarith

theorem nearestEven_ge {y : ℝ} {k b : Nat} (h : NearestEven y k) (hy : (b : ℝ) ≤ y) : b ≤ k := by
  by_contra hc
  have : (k : ℝ) + 1 ≤ b := by exact_mod_cast Nat.lt_of_not_le hc
  rcases h with h | ⟨h, _⟩
  · rw [abs_lt] at h; linarith
  · rw [abs_of_pos (by linarith)] at h; linarith

/-- `round` delivers the pattern and the flags that R262 gives, for a real number of either sign and any magnitude. -/
theorem round_spec {x : Magnitude} (h : x.positive) {r : ℝ} {sg : Bool} (hs : sg = true ↔ r < 0) (hr : |r| = x.val) :
    RoundedTo r (round sg x).1 (round sg x).2 := by
  obtain ⟨l1, l2⟩ := x.log2_spec h
  obtain ⟨u1, u2⟩ := x.roundAt_spec h (23 - x.log2)
  obtain ⟨t1, t2⟩ := x.roundAt_spec h 149
  have hsg : (if r < 0 then 0xFF800000#32 else 0x7F800000#32) = fpInf sg := by
    unfold fpInf; by_cases hr0 : r < 0
    · rw [if_pos hr0, hs.mpr hr0]; rfl
    · rw [if_neg hr0, Bool.eq_false_iff.mpr (mt hs.mp hr0)]; rfl
  simp only [round, roundWith, Config.fpRound]
  set e := x.log2 with he
  set u := x.roundAt .nearestEven (23 - e) with hu
  set v := x.roundAt .nearestEven 149 with hv
  have two : (2 : ℝ) ≠ 0 := by norm_num
  have pw : (2 : ℝ) ^ (23 - e) = (2 ^ (e - 23))⁻¹ := by rw [← zpow_neg]; congr 1; omega
  have pos : (0 : ℝ) < 2 ^ (e - 23) := by positivity
  have split24 : (2 : ℝ) ^ (e + 1) = 2 ^ 24 * 2 ^ (e - 23) := by
    rw [← zpow_natCast (2 : ℝ) 24, ← zpow_add₀ two]; congr 1; push_cast; omega
  have split23 : (2 : ℝ) ^ e = 2 ^ 23 * 2 ^ (e - 23) := by
    rw [← zpow_natCast (2 : ℝ) 23, ← zpow_add₀ two]; congr 1; push_cast; omega
  have y1 : ((2 ^ 23 : ℕ) : ℝ) ≤ x.val * 2 ^ (23 - e) := by
    rw [pw, ← div_eq_mul_inv, le_div_iff₀ pos]; push_cast; linarith
  have y2 : x.val * 2 ^ (23 - e) < ((2 ^ 24 : ℕ) : ℝ) := by
    rw [pw, ← div_eq_mul_inv, div_lt_iff₀ pos]; push_cast; linarith
  have k1 : 2 ^ 23 ≤ u.1 := nearestEven_ge u1 y1
  have k2 : u.1 ≤ 2 ^ 24 := nearestEven_le u1 y2
  have k1' : (2 : ℝ) ^ 23 ≤ u.1 := by exact_mod_cast k1
  have k2' : (u.1 : ℝ) ≤ 2 ^ 24 := by exact_mod_cast k2
  have ulo : (2 : ℝ) ^ e ≤ u.1 * 2 ^ (e - 23) := by rw [split23]; gcongr
  have uhi : (u.1 : ℝ) * 2 ^ (e - 23) ≤ 2 ^ (e + 1) := by rw [split24]; gcongr
  -- the two tests of `roundWith` are the two comparisons of R262
  have big : (128 ≤ e ∨ (e = 127 ∧ u.1 = 2 ^ 24)) ↔ (2 : ℝ) ^ (128 : ℤ) ≤ u.1 * 2 ^ (e - 23) := by
    constructor
    · rintro (h' | ⟨h', h''⟩)
      · exact le_trans (zpow_le_zpow_right₀ (by norm_num) h') ulo
      · rw [h', h'']; norm_num
    · intro h'
      by_contra hc
      push Not at hc
      obtain ⟨c1, c2⟩ := hc
      rcases lt_or_eq_of_le (show e ≤ 127 by omega) with h'' | h''
      · have : (2 : ℝ) ^ (e + 1) ≤ 2 ^ (127 : ℤ) := zpow_le_zpow_right₀ (by norm_num) (by omega)
        have : (2 : ℝ) ^ (127 : ℤ) < 2 ^ (128 : ℤ) := by norm_num
        linarith
      · have hlt : u.1 + 1 ≤ 2 ^ 24 := by have := c2 h''; omega
        have hlt' : (u.1 : ℝ) + 1 ≤ 2 ^ 24 := by exact_mod_cast hlt
        rw [h''] at h'
        norm_num at h' hlt'
        linarith
  have tiny : (e < -127 ∨ (e = -127 ∧ u.1 < 2 ^ 24)) ↔ (u.1 : ℝ) * 2 ^ (e - 23) < 2 ^ (-126 : ℤ) := by
    constructor
    · rintro (h' | ⟨h', h''⟩)
      · refine lt_of_le_of_lt uhi (lt_of_le_of_lt (zpow_le_zpow_right₀ (by norm_num) (show e + 1 ≤ -127 by omega)) ?_)
        exact zpow_lt_zpow_right₀ (by norm_num) (by norm_num)
      · have h3 : (u.1 : ℝ) < 2 ^ 24 := by exact_mod_cast h''
        rw [h', show (2 : ℝ) ^ (-126 : ℤ) = 2 ^ 24 * 2 ^ (-127 - 23 : ℤ) by norm_num]
        gcongr
    · intro h'
      by_contra hc
      push Not at hc
      obtain ⟨c1, c2⟩ := hc
      rcases lt_or_eq_of_le (show -127 ≤ e by omega) with h'' | h''
      · have : (2 : ℝ) ^ (-126 : ℤ) ≤ 2 ^ e := zpow_le_zpow_right₀ (by norm_num) (by omega)
        linarith
      · have h3 : (2 : ℝ) ^ 24 ≤ u.1 := by exact_mod_cast c2 h''.symm
        rw [← h'', show (2 : ℝ) ^ (-126 : ℤ) = 2 ^ 24 * 2 ^ (-127 - 23 : ℤ) by norm_num] at h'
        have : (0 : ℝ) < 2 ^ (-127 - 23 : ℤ) := by positivity
        nlinarith
  refine ⟨e, u.1, u.1 * 2 ^ (e - 23), by rw [hr]; exact l1, by rw [hr]; exact l2, ?_, rfl, ?_, ?_, ?_⟩
  · rw [hr, div_eq_mul_inv, ← pw]; exact u1
  · intro hb
    rw [if_pos (big.mpr hb)]
    exact ⟨hsg.symm, rfl⟩
  · intro ht
    have ht' := tiny.mpr ht
    have hb : ¬(128 ≤ e ∨ (e = 127 ∧ u.1 = 2 ^ 24)) := by omega
    rw [if_neg hb, if_pos ht']
    have m1 : v.1 ≤ 2 ^ 23 := by
      refine nearestEven_le t1 ?_
      have : x.val < 2 ^ (-126 : ℤ) := lt_of_lt_of_le l2 (zpow_le_zpow_right₀ (by norm_num) (by omega))
      calc x.val * 2 ^ (149 : ℤ) < 2 ^ (-126 : ℤ) * 2 ^ (149 : ℤ) := by gcongr
        _ = ((2 ^ 23 : ℕ) : ℝ) := by norm_num
    refine ⟨v.1, ?_, ?_, ?_⟩
    · rw [hr, zpow_neg, div_inv_eq_mul]; exact t1
    · rcases lt_or_eq_of_le m1 with h' | h'
      · have := encodes_pack (r := r) hs (e := 0) (f := v.1) (v := v.1 * 2 ^ (-149 : ℤ)) (by omega) h' (by
          rw [if_pos rfl, zpow_neg, ← div_eq_mul_inv]; norm_cast)
        simpa using this
      · have := encodes_pack (r := r) hs (e := 1) (f := 0) (v := v.1 * 2 ^ (-149 : ℤ)) (by omega) (by omega) (by
          rw [if_neg (by omega), zpow_neg, ← div_eq_mul_inv, h']; norm_num)
        rw [h'] at this ⊢; simpa using this
    · have : ((v.1 : ℝ) * 2 ^ (-149 : ℤ) = |r|) ↔ v.2 = true := by
        rw [t2, hr, zpow_neg, ← div_eq_mul_inv, div_eq_iff (by positivity), eq_comm]
      by_cases hx : v.2 = true
      · rw [if_pos (this.mpr hx), hx]; rfl
      · rw [if_neg (mt this.mp hx), Bool.eq_false_iff.mpr hx]; rfl
  · intro ht hb
    have ht' : ¬(e < -127 ∨ (e = -127 ∧ u.1 < 2 ^ 24)) := fun h' => by linarith [tiny.mp h']
    have hb' : ¬(128 ≤ e ∨ (e = 127 ∧ u.1 = 2 ^ 24)) := fun h' => by linarith [big.mp h']
    rw [if_neg hb', if_neg ht']
    constructor
    · rcases lt_or_eq_of_le k2 with h' | h'
      · obtain ⟨f, hf⟩ := Nat.exists_eq_add_of_le k1
        have he0 : -126 ≤ e := by omega
        have hE : ((e + 126) * 2 ^ 23 + (u.1 : ℤ)).toNat = (e + 127).toNat * 2 ^ 23 + f := by
          omega
        rw [hE]
        refine encodes_pack hs (by omega) (by omega) ?_
        rw [if_neg (by omega), hf, eq_div_iff (by positivity), mul_assoc]
        congr 1
        rw [← zpow_natCast (2 : ℝ) 149, ← zpow_natCast (2 : ℝ) ((e + 127).toNat - 1), ← zpow_add₀ two]
        congr 1; push_cast; omega
      · have hE : ((e + 126) * 2 ^ 23 + (u.1 : ℤ)).toNat = (e + 128).toNat * 2 ^ 23 + 0 := by
          rw [h']; omega
        rw [hE]
        refine encodes_pack hs (by omega) (by omega) ?_
        rw [if_neg (by omega), h', eq_div_iff (by positivity)]
        rw [← zpow_natCast (2 : ℝ) 149, ← zpow_natCast (2 : ℝ) ((e + 128).toNat - 1)]
        rw [Nat.add_zero, Nat.cast_pow, Nat.cast_pow, Nat.cast_ofNat, ← zpow_natCast (2 : ℝ) 24,
          ← zpow_natCast (2 : ℝ) 23, ← zpow_add₀ two, ← zpow_add₀ two, ← zpow_add₀ two]
        congr 1; push_cast; omega
    · have : ((u.1 : ℝ) * 2 ^ (e - 23) = |r|) ↔ u.2 = true := by
        rw [u2, hr, pw, ← div_eq_mul_inv, div_eq_iff pos.ne', eq_comm]
      by_cases hx : u.2 = true
      · rw [if_pos (this.mpr hx), hx]; rfl
      · rw [if_neg (mt this.mp hx), Bool.eq_false_iff.mpr hx]; rfl

/-- `roundRatio` rounds the rational it is given. -/
theorem roundRatio_spec {n : Int} {d : Nat} (hn : n ≠ 0) (hd : 0 < d) {q : ℚ} (hq : q = n / d) :
    RoundedTo ((q : ℚ) : ℝ) (roundRatio n d).1 (roundRatio n d).2 := by
  have hd' : (0 : ℝ) < d := by exact_mod_cast hd
  refine round_spec (x := .ratio n.natAbs d) ⟨by omega, hd⟩ ?_ ?_
  · rw [decide_eq_true_iff, hq]; push_cast
    rw [div_neg_iff]; constructor
    · intro h; exact .inr ⟨by exact_mod_cast h, hd'⟩
    · rintro (⟨_, h⟩ | ⟨h, _⟩)
      · linarith
      · exact_mod_cast h
  · rw [hq, Magnitude.val]; push_cast
    rw [abs_div, abs_of_pos hd', Nat.cast_natAbs]; push_cast; rfl

/-- The zeros are the finite patterns of no units. -/
theorem fpUnits_eq_zero (p : Word) : fpUnits p = 0 ↔ isZero p = true := by
  unfold fpUnits isZero
  by_cases h : fpExp p = 0 <;> simp [h]

theorem fpInt_eq_zero (p : Word) : fpInt p = 0 ↔ isZero p = true := by
  rw [← fpUnits_eq_zero]; unfold fpInt; split <;> omega

end Sys2Proof.Machine
end

