-- ==== Sys2Proof/Tests/Slice0.lean ====
section
/-!
SUPPORT. The model's own tests: the checks of WellFormed.lean, a word of every row of the opcode table written out field by
field from 30_encoding.md, one step or two of every instruction with the results of 95_test_vectors.md, and for every
statement with hypotheses a state and operands that meet them.
-/

namespace Sys2Proof.Tests.Slice0
open Sys2Proof Sys2Proof.Machine

/-! ## Small states and what is read from an outcome -/

/-- The state after reset with some x registers set. -/
def withX (xs : List (Reg × Word)) : State := xs.foldl (fun s p => s.writeX p.1 p.2) State.reset

/-- The state after reset with some f registers set. -/
def withF (fs : List (Reg × Word)) : State := fs.foldl (fun s p => s.writeF p.1 p.2) State.reset

/-- Bytes written at an address and after it. -/
def withBytes (s : State) (a : Word) : List Byte → State
  | [] => s
  | b :: bs => withBytes (s.putByte a b) (a + 1#32) bs

/-- `x6` holds an address, and of the bytes from there only the first is valid. -/
def narrow (a : Word) : State := { withX [(6, a)] with memMap := [⟨a.toNat, 1⟩] }

def xAfter (r : Reg) : Result → Option Word
  | .next t => some (t.readX r)
  | _ => none

def xfAfter (r : Reg) : Result → Option (Word × BitVec 5)
  | .next t => some (t.readX r, t.fcsr.fflags.toBits)
  | _ => none

def fAfter (r : Reg) : Result → Option (Word × BitVec 5)
  | .next t => some (t.readF r, t.fcsr.fflags.toBits)
  | _ => none

def vAfter (k : BitVec 2) : Result → Option Word
  | .next t => some (t.readV k)
  | _ => none

def pcAfter : Result → Option Word
  | .next t => some t.pc
  | _ => none

def accAfter : Result → Option (BitVec 64)
  | .next t => some t.acc
  | _ => none

def bytesAfter (a : Word) (n : Nat) : Result → Option (List Byte)
  | .next t => some ((List.range n).map fun i => t.byteAt (a + BitVec.ofNat 32 i))
  | _ => none

def faultOf : Result → Option Fault
  | .fault e => some e
  | _ => none

/-! ## WellFormed: for each check an ill-formed term it refuses, and the ends of the range it accepts -/

theorem test_wf_immI_above : (Instr.addi 1 2 2048#32).wf = false := by decide
theorem test_wf_immI_below : (Instr.lw 1 2 (-2049#32)).wf = false := by decide
theorem test_wf_immI_ends : (Instr.addi 1 2 2047#32).wf = true ∧ (Instr.addi 1 2 (-2048#32)).wf = true := by decide
theorem test_wf_immS_above : (Instr.sw 1 2 2048#32).wf = false := by decide
theorem test_wf_immS_ends : (Instr.sw 1 2 2047#32).wf = true ∧ (Instr.sw 1 2 (-2048#32)).wf = true := by decide
theorem test_wf_immB_above : (Instr.beq 1 2 4096#32).wf = false := by decide
theorem test_wf_immB_odd : (Instr.beq 1 2 3#32).wf = false := by decide
theorem test_wf_immB_ends : (Instr.beq 1 2 4094#32).wf = true ∧ (Instr.beq 1 2 (-4096#32)).wf = true := by decide
theorem test_wf_immU_low_bits : (Instr.lui 1 0x12345001#32).wf = false := by decide
theorem test_wf_immU : (Instr.lui 1 0xFFFFF000#32).wf = true := by decide
theorem test_wf_immJ_above : (Instr.jal 1 1048576#32).wf = false := by decide
theorem test_wf_immJ_odd : (Instr.jal 1 1#32).wf = false := by decide
theorem test_wf_immJ_ends : (Instr.jal 1 1048574#32).wf = true ∧ (Instr.jal 1 (-1048576#32)).wf = true := by decide

/-! ## Decoding: a word of every row, written out in the fields of its format (30_encoding.md R113 to R127) -/

theorem test_decode_add : decode (0b0000000#7 ++ 0b10011#5 ++ 0b01010#5 ++ 0b000#3 ++ 0b00101#5 ++ 0b0110011#7) =
    .ok (.add 5 10 19) := by decide
theorem test_decode_sub : decode (0b0100000#7 ++ 0b10011#5 ++ 0b01010#5 ++ 0b000#3 ++ 0b00101#5 ++ 0b0110011#7) =
    .ok (.sub 5 10 19) := by decide
theorem test_decode_sll : decode (0b0000000#7 ++ 0b10011#5 ++ 0b01010#5 ++ 0b001#3 ++ 0b00101#5 ++ 0b0110011#7) =
    .ok (.sll 5 10 19) := by decide
theorem test_decode_slt : decode (0b0000000#7 ++ 0b10011#5 ++ 0b01010#5 ++ 0b010#3 ++ 0b00101#5 ++ 0b0110011#7) =
    .ok (.slt 5 10 19) := by decide
theorem test_decode_sltu : decode (0b0000000#7 ++ 0b10011#5 ++ 0b01010#5 ++ 0b011#3 ++ 0b00101#5 ++ 0b0110011#7) =
    .ok (.sltu 5 10 19) := by decide
theorem test_decode_xor : decode (0b0000000#7 ++ 0b10011#5 ++ 0b01010#5 ++ 0b100#3 ++ 0b00101#5 ++ 0b0110011#7) =
    .ok (.xor 5 10 19) := by decide
theorem test_decode_srl : decode (0b0000000#7 ++ 0b10011#5 ++ 0b01010#5 ++ 0b101#3 ++ 0b00101#5 ++ 0b0110011#7) =
    .ok (.srl 5 10 19) := by decide
theorem test_decode_sra : decode (0b0100000#7 ++ 0b10011#5 ++ 0b01010#5 ++ 0b101#3 ++ 0b00101#5 ++ 0b0110011#7) =
    .ok (.sra 5 10 19) := by decide
theorem test_decode_or : decode (0b0000000#7 ++ 0b10011#5 ++ 0b01010#5 ++ 0b110#3 ++ 0b00101#5 ++ 0b0110011#7) =
    .ok (.or 5 10 19) := by decide
theorem test_decode_and : decode (0b0000000#7 ++ 0b10011#5 ++ 0b01010#5 ++ 0b111#3 ++ 0b00101#5 ++ 0b0110011#7) =
    .ok (.and 5 10 19) := by decide
theorem test_decode_addi : decode (0b101010101011#12 ++ 0b01010#5 ++ 0b000#3 ++ 0b00101#5 ++ 0b0010011#7) =
    .ok (.addi 5 10 (-1365#32)) := by decide
theorem test_decode_slti : decode (0b101010101011#12 ++ 0b01010#5 ++ 0b010#3 ++ 0b00101#5 ++ 0b0010011#7) =
    .ok (.slti 5 10 (-1365#32)) := by decide
theorem test_decode_sltiu : decode (0b101010101011#12 ++ 0b01010#5 ++ 0b011#3 ++ 0b00101#5 ++ 0b0010011#7) =
    .ok (.sltiu 5 10 (-1365#32)) := by decide
theorem test_decode_xori : decode (0b101010101011#12 ++ 0b01010#5 ++ 0b100#3 ++ 0b00101#5 ++ 0b0010011#7) =
    .ok (.xori 5 10 (-1365#32)) := by decide
theorem test_decode_ori : decode (0b101010101011#12 ++ 0b01010#5 ++ 0b110#3 ++ 0b00101#5 ++ 0b0010011#7) =
    .ok (.ori 5 10 (-1365#32)) := by decide
theorem test_decode_andi : decode (0b101010101011#12 ++ 0b01010#5 ++ 0b111#3 ++ 0b00101#5 ++ 0b0010011#7) =
    .ok (.andi 5 10 (-1365#32)) := by decide
theorem test_decode_slli : decode (0b0000000#7 ++ 0b10011#5 ++ 0b01010#5 ++ 0b001#3 ++ 0b00101#5 ++ 0b0010011#7) =
    .ok (.slli 5 10 19) := by decide
theorem test_decode_srli : decode (0b0000000#7 ++ 0b10011#5 ++ 0b01010#5 ++ 0b101#3 ++ 0b00101#5 ++ 0b0010011#7) =
    .ok (.srli 5 10 19) := by decide
theorem test_decode_srai : decode (0b0100000#7 ++ 0b10011#5 ++ 0b01010#5 ++ 0b101#3 ++ 0b00101#5 ++ 0b0010011#7) =
    .ok (.srai 5 10 19) := by decide
theorem test_decode_lb : decode (0b101010101011#12 ++ 0b01010#5 ++ 0b000#3 ++ 0b00101#5 ++ 0b0000011#7) =
    .ok (.lb 5 10 (-1365#32)) := by decide
theorem test_decode_lh : decode (0b101010101011#12 ++ 0b01010#5 ++ 0b001#3 ++ 0b00101#5 ++ 0b0000011#7) =
    .ok (.lh 5 10 (-1365#32)) := by decide
theorem test_decode_lw : decode (0b101010101011#12 ++ 0b01010#5 ++ 0b010#3 ++ 0b00101#5 ++ 0b0000011#7) =
    .ok (.lw 5 10 (-1365#32)) := by decide
theorem test_decode_lbu : decode (0b101010101011#12 ++ 0b01010#5 ++ 0b100#3 ++ 0b00101#5 ++ 0b0000011#7) =
    .ok (.lbu 5 10 (-1365#32)) := by decide
theorem test_decode_lhu : decode (0b101010101011#12 ++ 0b01010#5 ++ 0b101#3 ++ 0b00101#5 ++ 0b0000011#7) =
    .ok (.lhu 5 10 (-1365#32)) := by decide
theorem test_decode_sb : decode (0b1010101#7 ++ 0b10011#5 ++ 0b01010#5 ++ 0b000#3 ++ 0b01011#5 ++ 0b0100011#7) =
    .ok (.sb 10 19 (-1365#32)) := by decide
theorem test_decode_sh : decode (0b1010101#7 ++ 0b10011#5 ++ 0b01010#5 ++ 0b001#3 ++ 0b01011#5 ++ 0b0100011#7) =
    .ok (.sh 10 19 (-1365#32)) := by decide
theorem test_decode_sw : decode (0b1010101#7 ++ 0b10011#5 ++ 0b01010#5 ++ 0b010#3 ++ 0b01011#5 ++ 0b0100011#7) =
    .ok (.sw 10 19 (-1365#32)) := by decide
theorem test_decode_beq : decode (0b1#1 ++ 0b101010#6 ++ 0b10011#5 ++ 0b01010#5 ++ 0b000#3 ++ 0b1011#4 ++ 0b0#1 ++ 0b1100011#7) =
    .ok (.beq 10 19 (-2730#32)) := by decide
theorem test_decode_bne : decode (0b1#1 ++ 0b101010#6 ++ 0b10011#5 ++ 0b01010#5 ++ 0b001#3 ++ 0b1011#4 ++ 0b0#1 ++ 0b1100011#7) =
    .ok (.bne 10 19 (-2730#32)) := by decide
theorem test_decode_blt : decode (0b1#1 ++ 0b101010#6 ++ 0b10011#5 ++ 0b01010#5 ++ 0b100#3 ++ 0b1011#4 ++ 0b0#1 ++ 0b1100011#7) =
    .ok (.blt 10 19 (-2730#32)) := by decide
theorem test_decode_bge : decode (0b1#1 ++ 0b101010#6 ++ 0b10011#5 ++ 0b01010#5 ++ 0b101#3 ++ 0b1011#4 ++ 0b0#1 ++ 0b1100011#7) =
    .ok (.bge 10 19 (-2730#32)) := by decide
theorem test_decode_bltu : decode (0b1#1 ++ 0b101010#6 ++ 0b10011#5 ++ 0b01010#5 ++ 0b110#3 ++ 0b1011#4 ++ 0b0#1 ++ 0b1100011#7) =
    .ok (.bltu 10 19 (-2730#32)) := by decide
theorem test_decode_bgeu : decode (0b1#1 ++ 0b101010#6 ++ 0b10011#5 ++ 0b01010#5 ++ 0b111#3 ++ 0b1011#4 ++ 0b0#1 ++ 0b1100011#7) =
    .ok (.bgeu 10 19 (-2730#32)) := by decide
theorem test_decode_lui : decode (0b10101011110011011110#20 ++ 0b00101#5 ++ 0b0110111#7) =
    .ok (.lui 5 0xABCDE000#32) := by decide
theorem test_decode_auipc : decode (0b10101011110011011110#20 ++ 0b00101#5 ++ 0b0010111#7) =
    .ok (.auipc 5 0xABCDE000#32) := by decide
theorem test_decode_jal : decode (0b1#1 ++ 0b1010101011#10 ++ 0b0#1 ++ 0b01010101#8 ++ 0b00101#5 ++ 0b1101111#7) =
    .ok (.jal 5 (-699050#32)) := by decide
theorem test_decode_jalr : decode (0b101010101011#12 ++ 0b01010#5 ++ 0b101#3 ++ 0b00101#5 ++ 0b1100111#7) =
    .ok (.jalr 5 10 (-1365#32) 5) := by decide
theorem test_decode_ecall : decode (0b000000000000#12 ++ 0b00000#5 ++ 0b000#3 ++ 0b00000#5 ++ 0b1110011#7) =
    .ok (.ecall) := by decide
theorem test_decode_ebreak : decode (0b000000000001#12 ++ 0b00000#5 ++ 0b000#3 ++ 0b00000#5 ++ 0b1110011#7) =
    .ok (.ebreak) := by decide
theorem test_decode_fence : decode (0b101010101011#12 ++ 0b01010#5 ++ 0b000#3 ++ 0b00101#5 ++ 0b0001111#7) =
    .ok (.fence 5 10 0b101010101011#12) := by decide
theorem test_decode_mul : decode (0b0000001#7 ++ 0b10011#5 ++ 0b01010#5 ++ 0b000#3 ++ 0b00101#5 ++ 0b0110011#7) =
    .ok (.mul 5 10 19) := by decide
theorem test_decode_mulh : decode (0b0000001#7 ++ 0b10011#5 ++ 0b01010#5 ++ 0b001#3 ++ 0b00101#5 ++ 0b0110011#7) =
    .ok (.mulh 5 10 19) := by decide
theorem test_decode_mulhsu : decode (0b0000001#7 ++ 0b10011#5 ++ 0b01010#5 ++ 0b010#3 ++ 0b00101#5 ++ 0b0110011#7) =
    .ok (.mulhsu 5 10 19) := by decide
theorem test_decode_mulhu : decode (0b0000001#7 ++ 0b10011#5 ++ 0b01010#5 ++ 0b011#3 ++ 0b00101#5 ++ 0b0110011#7) =
    .ok (.mulhu 5 10 19) := by decide
theorem test_decode_div : decode (0b0000001#7 ++ 0b10011#5 ++ 0b01010#5 ++ 0b100#3 ++ 0b00101#5 ++ 0b0110011#7) =
    .ok (.div 5 10 19) := by decide
theorem test_decode_divu : decode (0b0000001#7 ++ 0b10011#5 ++ 0b01010#5 ++ 0b101#3 ++ 0b00101#5 ++ 0b0110011#7) =
    .ok (.divu 5 10 19) := by decide
theorem test_decode_rem : decode (0b0000001#7 ++ 0b10011#5 ++ 0b01010#5 ++ 0b110#3 ++ 0b00101#5 ++ 0b0110011#7) =
    .ok (.rem 5 10 19) := by decide
theorem test_decode_remu : decode (0b0000001#7 ++ 0b10011#5 ++ 0b01010#5 ++ 0b111#3 ++ 0b00101#5 ++ 0b0110011#7) =
    .ok (.remu 5 10 19) := by decide
theorem test_decode_flw : decode (0b101010101011#12 ++ 0b01010#5 ++ 0b010#3 ++ 0b00101#5 ++ 0b0000111#7) =
    .ok (.flw 5 10 (-1365#32)) := by decide
theorem test_decode_fsw : decode (0b1010101#7 ++ 0b10011#5 ++ 0b01010#5 ++ 0b010#3 ++ 0b01011#5 ++ 0b0100111#7) =
    .ok (.fsw 10 19 (-1365#32)) := by decide
theorem test_decode_faddS : decode (0b0000000#7 ++ 0b10011#5 ++ 0b01010#5 ++ 0b011#3 ++ 0b00101#5 ++ 0b1010011#7) =
    .ok (.faddS 5 10 19 3) := by decide
theorem test_decode_fsubS : decode (0b0000100#7 ++ 0b10011#5 ++ 0b01010#5 ++ 0b011#3 ++ 0b00101#5 ++ 0b1010011#7) =
    .ok (.fsubS 5 10 19 3) := by decide
theorem test_decode_fmulS : decode (0b0001000#7 ++ 0b10011#5 ++ 0b01010#5 ++ 0b011#3 ++ 0b00101#5 ++ 0b1010011#7) =
    .ok (.fmulS 5 10 19 3) := by decide
theorem test_decode_fdivS : decode (0b0001100#7 ++ 0b10011#5 ++ 0b01010#5 ++ 0b011#3 ++ 0b00101#5 ++ 0b1010011#7) =
    .ok (.fdivS 5 10 19 3) := by decide
theorem test_decode_fsqrtS : decode (0b0101100#7 ++ 0b00000#5 ++ 0b01010#5 ++ 0b011#3 ++ 0b00101#5 ++ 0b1010011#7) =
    .ok (.fsqrtS 5 10 3) := by decide
theorem test_decode_fmaddS : decode (0b11100#5 ++ 0b10#2 ++ 0b10011#5 ++ 0b01010#5 ++ 0b011#3 ++ 0b00101#5 ++ 0b1000011#7) =
    .ok (.fmaddS 5 10 19 28 3 2) := by decide
theorem test_decode_fmsubS : decode (0b11100#5 ++ 0b10#2 ++ 0b10011#5 ++ 0b01010#5 ++ 0b011#3 ++ 0b00101#5 ++ 0b1000111#7) =
    .ok (.fmsubS 5 10 19 28 3 2) := by decide
theorem test_decode_fnmsubS : decode (0b11100#5 ++ 0b10#2 ++ 0b10011#5 ++ 0b01010#5 ++ 0b011#3 ++ 0b00101#5 ++ 0b1001011#7) =
    .ok (.fnmsubS 5 10 19 28 3 2) := by decide
theorem test_decode_fnmaddS : decode (0b11100#5 ++ 0b10#2 ++ 0b10011#5 ++ 0b01010#5 ++ 0b011#3 ++ 0b00101#5 ++ 0b1001111#7) =
    .ok (.fnmaddS 5 10 19 28 3 2) := by decide
theorem test_decode_fsgnjS : decode (0b0010000#7 ++ 0b10011#5 ++ 0b01010#5 ++ 0b000#3 ++ 0b00101#5 ++ 0b1010011#7) =
    .ok (.fsgnjS 5 10 19) := by decide
theorem test_decode_fsgnjnS : decode (0b0010000#7 ++ 0b10011#5 ++ 0b01010#5 ++ 0b001#3 ++ 0b00101#5 ++ 0b1010011#7) =
    .ok (.fsgnjnS 5 10 19) := by decide
theorem test_decode_fsgnjxS : decode (0b0010000#7 ++ 0b10011#5 ++ 0b01010#5 ++ 0b010#3 ++ 0b00101#5 ++ 0b1010011#7) =
    .ok (.fsgnjxS 5 10 19) := by decide
theorem test_decode_fminS : decode (0b0010100#7 ++ 0b10011#5 ++ 0b01010#5 ++ 0b000#3 ++ 0b00101#5 ++ 0b1010011#7) =
    .ok (.fminS 5 10 19) := by decide
theorem test_decode_fmaxS : decode (0b0010100#7 ++ 0b10011#5 ++ 0b01010#5 ++ 0b001#3 ++ 0b00101#5 ++ 0b1010011#7) =
    .ok (.fmaxS 5 10 19) := by decide
theorem test_decode_feqS : decode (0b1010000#7 ++ 0b10011#5 ++ 0b01010#5 ++ 0b010#3 ++ 0b00101#5 ++ 0b1010011#7) =
    .ok (.feqS 5 10 19) := by decide
theorem test_decode_fltS : decode (0b1010000#7 ++ 0b10011#5 ++ 0b01010#5 ++ 0b001#3 ++ 0b00101#5 ++ 0b1010011#7) =
    .ok (.fltS 5 10 19) := by decide
theorem test_decode_fleS : decode (0b1010000#7 ++ 0b10011#5 ++ 0b01010#5 ++ 0b000#3 ++ 0b00101#5 ++ 0b1010011#7) =
    .ok (.fleS 5 10 19) := by decide
theorem test_decode_fcvtWS : decode (0b1100000#7 ++ 0b00000#5 ++ 0b01010#5 ++ 0b011#3 ++ 0b00101#5 ++ 0b1010011#7) =
    .ok (.fcvtWS 5 10 3) := by decide
theorem test_decode_fcvtWuS : decode (0b1100000#7 ++ 0b00001#5 ++ 0b01010#5 ++ 0b011#3 ++ 0b00101#5 ++ 0b1010011#7) =
    .ok (.fcvtWuS 5 10 3) := by decide
theorem test_decode_fcvtSW : decode (0b1101000#7 ++ 0b00000#5 ++ 0b01010#5 ++ 0b011#3 ++ 0b00101#5 ++ 0b1010011#7) =
    .ok (.fcvtSW 5 10 3) := by decide
theorem test_decode_fcvtSWu : decode (0b1101000#7 ++ 0b00001#5 ++ 0b01010#5 ++ 0b011#3 ++ 0b00101#5 ++ 0b1010011#7) =
    .ok (.fcvtSWu 5 10 3) := by decide
theorem test_decode_fmvXW : decode (0b1110000#7 ++ 0b10011#5 ++ 0b01010#5 ++ 0b000#3 ++ 0b00101#5 ++ 0b1010011#7) =
    .ok (.fmvXW 5 10 19) := by decide
theorem test_decode_fmvWX : decode (0b1111000#7 ++ 0b10011#5 ++ 0b01010#5 ++ 0b000#3 ++ 0b00101#5 ++ 0b1010011#7) =
    .ok (.fmvWX 5 10 19) := by decide
theorem test_decode_fclassS : decode (0b1110000#7 ++ 0b10011#5 ++ 0b01010#5 ++ 0b001#3 ++ 0b00101#5 ++ 0b1010011#7) =
    .ok (.fclassS 5 10 19) := by decide
theorem test_decode_npuMacc : decode (0b0000000#7 ++ 0b10011#5 ++ 0b01010#5 ++ 0b000#3 ++ 0b00101#5 ++ 0b0001011#7) =
    .ok (.npuMacc 5 10 19) := by decide
theorem test_decode_npuVmac : decode (0b0000001#7 ++ 0b10011#5 ++ 0b01010#5 ++ 0b000#3 ++ 0b00101#5 ++ 0b0001011#7) =
    .ok (.npuVmac 5 10 19) := by decide
theorem test_decode_npuVexp : decode (0b0000010#7 ++ 0b10011#5 ++ 0b01010#5 ++ 0b000#3 ++ 0b00101#5 ++ 0b0001011#7) =
    .ok (.npuVexp 5 10 19) := by decide
theorem test_decode_npuVrsqrt : decode (0b0000011#7 ++ 0b10011#5 ++ 0b01010#5 ++ 0b000#3 ++ 0b00101#5 ++ 0b0001011#7) =
    .ok (.npuVrsqrt 5 10 19) := by decide
theorem test_decode_npuVmul : decode (0b0000100#7 ++ 0b10011#5 ++ 0b01010#5 ++ 0b000#3 ++ 0b00101#5 ++ 0b0001011#7) =
    .ok (.npuVmul 5 10 19) := by decide
theorem test_decode_npuVreduce : decode (0b0000101#7 ++ 0b10011#5 ++ 0b01010#5 ++ 0b000#3 ++ 0b00101#5 ++ 0b0001011#7) =
    .ok (.npuVreduce 5 10 19) := by decide
theorem test_decode_npuVmax : decode (0b0000110#7 ++ 0b10011#5 ++ 0b01010#5 ++ 0b000#3 ++ 0b00101#5 ++ 0b0001011#7) =
    .ok (.npuVmax 5 10 19) := by decide
theorem test_decode_npuRelu : decode (0b0000000#7 ++ 0b10011#5 ++ 0b01010#5 ++ 0b001#3 ++ 0b00101#5 ++ 0b0001011#7) =
    .ok (.npuRelu 5 10 19) := by decide
theorem test_decode_npuQmul : decode (0b0000000#7 ++ 0b10011#5 ++ 0b01010#5 ++ 0b010#3 ++ 0b00101#5 ++ 0b0001011#7) =
    .ok (.npuQmul 5 10 19) := by decide
theorem test_decode_npuClamp : decode (0b0000000#7 ++ 0b10011#5 ++ 0b01010#5 ++ 0b011#3 ++ 0b00101#5 ++ 0b0001011#7) =
    .ok (.npuClamp 5 10 19) := by decide
theorem test_decode_npuGelu : decode (0b0000000#7 ++ 0b10011#5 ++ 0b01010#5 ++ 0b100#3 ++ 0b00101#5 ++ 0b0001011#7) =
    .ok (.npuGelu 5 10 19) := by decide
theorem test_decode_npuRstacc : decode (0b0000000#7 ++ 0b10011#5 ++ 0b01010#5 ++ 0b101#3 ++ 0b00101#5 ++ 0b0001011#7) =
    .ok (.npuRstacc 5 10 19) := by decide
theorem test_decode_npuLdvec : decode (0b101010101011#12 ++ 0b01010#5 ++ 0b110#3 ++ 0b00101#5 ++ 0b0001011#7) =
    .ok (.npuLdvec 5 10 (-1365#32)) := by decide
theorem test_decode_npuStvec : decode (0b1010101#7 ++ 0b10011#5 ++ 0b01010#5 ++ 0b111#3 ++ 0b01011#5 ++ 0b0001011#7) =
    .ok (.npuStvec 10 19 (-1365#32)) := by decide

/-! ### Words that are no instruction (95_test_vectors.md 2.4) -/

theorem test_decode_zero : decode 0x00000000#32 = .error (.illegalInstruction 0x00000000#32) := by decide
theorem test_decode_ones : decode 0xFFFFFFFF#32 = .error (.illegalInstruction 0xFFFFFFFF#32) := by decide
theorem test_decode_mret : decode 0x30200073#32 = .error (.illegalInstruction 0x30200073#32) := by decide
theorem test_decode_slli_64 : decode 0x02001013#32 = .error (.illegalInstruction 0x02001013#32) := by decide
theorem test_decode_fsqrt_rs2 : decode 0x58100053#32 = .error (.illegalInstruction 0x58100053#32) := by decide
theorem test_decode_npu_funct7 : decode 0x0200100B#32 = .error (.illegalInstruction 0x0200100B#32) := by decide
theorem test_decodeTableWord : decodeTableWord 32 0x002081B3 = some (.add 3 1 2) := by decide
theorem test_withFetchWord : xAfter 5 (step (State.reset.withFetchWord 32 0x00A00293)) = some 10#32 := by decide

/-! ## One step of every instruction -/

/-! ### Integer instructions: the tables of 95_test_vectors.md 2.1 and 2.5. -/

theorem test_add : xAfter 3 (exec (.add 3 1 2) (withX [(1, 0x7FFFFFFF#32), (2, 0x00000001#32)])) = some 0x80000000#32 := by decide
theorem test_sub : xAfter 3 (exec (.sub 3 1 2) (withX [(1, 0xFFFFFFFF#32), (2, 0x00000001#32)])) = some 0xFFFFFFFE#32 := by decide
theorem test_sll : xAfter 3 (exec (.sll 3 1 2) (withX [(1, 0xDEADBEEF#32), (2, 0x00000024#32)])) = some 0xEADBEEF0#32 := by decide
theorem test_slt : xAfter 3 (exec (.slt 3 1 2) (withX [(1, 0x80000000#32), (2, 0xFFFFFFFF#32)])) = some 0x00000001#32 := by decide
theorem test_sltu : xAfter 3 (exec (.sltu 3 1 2) (withX [(1, 0xFFFFFFFF#32), (2, 0x00000001#32)])) = some 0x00000000#32 := by decide
theorem test_xor : xAfter 3 (exec (.xor 3 1 2) (withX [(1, 0x12345678#32), (2, 0x9ABCDEF0#32)])) = some 0x88888888#32 := by decide
theorem test_srl : xAfter 3 (exec (.srl 3 1 2) (withX [(1, 0xDEADBEEF#32), (2, 0x00000024#32)])) = some 0x0DEADBEE#32 := by decide
theorem test_sra : xAfter 3 (exec (.sra 3 1 2) (withX [(1, 0xDEADBEEF#32), (2, 0x00000024#32)])) = some 0xFDEADBEE#32 := by decide
theorem test_or : xAfter 3 (exec (.or 3 1 2) (withX [(1, 0x12345678#32), (2, 0x9ABCDEF0#32)])) = some 0x9ABCDEF8#32 := by decide
theorem test_and : xAfter 3 (exec (.and 3 1 2) (withX [(1, 0x12345678#32), (2, 0x9ABCDEF0#32)])) = some 0x12345670#32 := by decide
theorem test_addi : xAfter 3 (exec (.addi 3 1 (-1#32)) (withX [(1, 0x80000000#32)])) = some 0x7FFFFFFF#32 := by decide
theorem test_slti : xAfter 3 (exec (.slti 3 1 (-1#32)) (withX [(1, 0x80000000#32)])) = some 0x00000001#32 := by decide
theorem test_sltiu : xAfter 3 (exec (.sltiu 3 1 (-1#32)) (withX [(1, 0x00000001#32)])) = some 0x00000001#32 := by decide
theorem test_xori : xAfter 3 (exec (.xori 3 1 240#32) (withX [(1, 0x12345678#32)])) = some 0x12345688#32 := by decide
theorem test_ori : xAfter 3 (exec (.ori 3 1 240#32) (withX [(1, 0x12345678#32)])) = some 0x123456F8#32 := by decide
theorem test_andi : xAfter 3 (exec (.andi 3 1 240#32) (withX [(1, 0x12345678#32)])) = some 0x00000070#32 := by decide
theorem test_slli : xAfter 3 (exec (.slli 3 1 1) (withX [(1, 0x80000001#32)])) = some 0x00000002#32 := by decide
theorem test_srli : xAfter 3 (exec (.srli 3 1 31) (withX [(1, 0x80000001#32)])) = some 0x00000001#32 := by decide
theorem test_srai : xAfter 3 (exec (.srai 3 1 1) (withX [(1, 0x80000001#32)])) = some 0xC0000000#32 := by decide
theorem test_mul : xAfter 3 (exec (.mul 3 1 2) (withX [(1, 0x12345678#32), (2, 0x9ABCDEF0#32)])) = some 0x242D2080#32 := by decide
theorem test_mulh : xAfter 3 (exec (.mulh 3 1 2) (withX [(1, 0x12345678#32), (2, 0x9ABCDEF0#32)])) = some 0xF8CC93D6#32 := by decide
theorem test_mulhsu : xAfter 3 (exec (.mulhsu 3 1 2) (withX [(1, 0xFFFFFFF9#32), (2, 0xFFFFFFFD#32)])) = some 0xFFFFFFF9#32 := by decide
theorem test_mulhu : xAfter 3 (exec (.mulhu 3 1 2) (withX [(1, 0xFFFFFFF9#32), (2, 0xFFFFFFFD#32)])) = some 0xFFFFFFF6#32 := by decide
theorem test_div : xAfter 3 (exec (.div 3 1 2) (withX [(1, 0xFFFFFFF9#32), (2, 0x00000003#32)])) = some 0xFFFFFFFE#32 := by decide
theorem test_divu : xAfter 3 (exec (.divu 3 1 2) (withX [(1, 0xFFFFFFF9#32), (2, 0x00000003#32)])) = some 0x55555553#32 := by decide
theorem test_rem : xAfter 3 (exec (.rem 3 1 2) (withX [(1, 0xFFFFFFF9#32), (2, 0x00000003#32)])) = some 0xFFFFFFFF#32 := by decide
theorem test_remu : xAfter 3 (exec (.remu 3 1 2) (withX [(1, 0x00000007#32), (2, 0xFFFFFFFD#32)])) = some 0x00000007#32 := by decide
theorem test_div_edge : xAfter 3 (exec (.div 3 1 2) (withX [(1, 0x80000000#32), (2, 0xFFFFFFFF#32)])) = some 0x80000000#32 := by decide
theorem test_rem_edge : xAfter 3 (exec (.rem 3 1 2) (withX [(1, 0x80000000#32), (2, 0xFFFFFFFF#32)])) = some 0x00000000#32 := by decide
theorem test_divu_edge : xAfter 3 (exec (.divu 3 1 2) (withX [(1, 0x00000005#32), (2, 0x00000000#32)])) = some 0xFFFFFFFF#32 := by decide
theorem test_remu_edge : xAfter 3 (exec (.remu 3 1 2) (withX [(1, 0xFFFFFFFB#32), (2, 0x00000000#32)])) = some 0xFFFFFFFB#32 := by decide
theorem test_add_x0 : xAfter 0 (exec (.add 0 1 2) (withX [(1, 1#32), (2, 2#32)])) = some 0#32 := by decide

/-! ### Control transfer: 95_test_vectors.md 2.1 and 2.2. -/

theorem test_lui : xAfter 5 (exec (.lui 5 0x12345000#32) State.reset) = some 0x12345000#32 := by decide
theorem test_auipc : xAfter 5 (exec (.auipc 5 0x80000000#32) (State.reset.setPc 0x80001000#32)) = some 0x00001000#32 := by decide
theorem test_beq : pcAfter (exec (.beq 1 2 8#32) ((withX [(1, 0x00000005#32), (2, 0x00000005#32)]).setPc 0x00001000#32)) = some 0x00001008#32 := by decide
theorem test_beq_not_taken : pcAfter (exec (.beq 1 2 8#32) ((withX [(1, 0x00000005#32), (2, 0x00000006#32)]).setPc 0x00001000#32)) = some 0x00001004#32 := by decide
theorem test_bne : pcAfter (exec (.bne 1 2 (-8#32)) ((withX [(1, 0x00000001#32), (2, 0x00000000#32)]).setPc 0x00001010#32)) = some 0x00001008#32 := by decide
theorem test_blt : pcAfter (exec (.blt 1 2 16#32) ((withX [(1, 0xFFFFFFFF#32), (2, 0x00000001#32)]).setPc 0x00001000#32)) = some 0x00001010#32 := by decide
theorem test_bltu : pcAfter (exec (.bltu 1 2 16#32) ((withX [(1, 0xFFFFFFFF#32), (2, 0x00000001#32)]).setPc 0x00001000#32)) = some 0x00001004#32 := by decide
theorem test_bge : pcAfter (exec (.bge 1 2 (-16#32)) ((withX [(1, 0x00000003#32), (2, 0x00000003#32)]).setPc 0x00001010#32)) = some 0x00001000#32 := by decide
theorem test_bgeu : pcAfter (exec (.bgeu 1 2 (-4096#32)) ((withX [(1, 0x00000003#32), (2, 0xFFFFFFFF#32)]).setPc 0x00002000#32)) = some 0x00002004#32 := by decide
theorem test_beq_wraps : pcAfter (exec (.beq 1 2 (-8#32)) ((withX [(1, 0x00000001#32), (2, 0x00000001#32)]).setPc 0x00000004#32)) = some 0xFFFFFFFC#32 := by decide
theorem test_jal : pcAfter (exec (.jal 1 (-1048576#32)) (State.reset.setPc 0x00100000#32)) = some 0#32 ∧
    xAfter 1 (exec (.jal 1 (-1048576#32)) (State.reset.setPc 0x00100000#32)) = some 0x00100004#32 := by decide
theorem test_jalr : pcAfter (exec (.jalr 5 5 0#32 0) (withX [(5, 0x00002000#32)])) = some 0x00002000#32 ∧
    xAfter 5 (exec (.jalr 5 5 0#32 0) (withX [(5, 0x00002000#32)])) = some 0x00001004#32 := by decide
theorem test_jalr_clears_bit_0 : pcAfter (exec (.jalr 1 5 (-2#32) 0) (withX [(5, 0x00002003#32)])) = some 0x00002000#32 := by
  decide
theorem test_ecall_stops : faultOf (exec .ecall State.reset) = some .environmentCall := by decide
theorem test_ecall_resumes : pcAfter (exec .ecall { State.reset with ecallHandler := .resume }) = some 0x00001004#32 := by decide

/-- A handler that looks at the state: it doubles `x10` of one state and stops from any other. -/
def doubling : EcallHandler := .table [((withX [(10, 7#32)]).toArch, ((withX [(10, 14#32)]).setPc 0x00001004#32).toArch)]

theorem test_ecall_reads_the_state :
    xAfter 10 (exec .ecall { withX [(10, 7#32)] with ecallHandler := doubling }) = some 14#32 ∧
    faultOf (exec .ecall { withX [(10, 8#32)] with ecallHandler := doubling }) = some .environmentCall := by decide
theorem test_ebreak : faultOf (exec .ebreak State.reset) = some (.breakpoint 0x00001000#32) := by decide
theorem test_fence : pcAfter (exec (.fence 0 0 0x833#12) State.reset) = some 0x00001004#32 := by decide

/-! ### Loads and stores: 95_test_vectors.md 2.3; the image is its first six bytes, at `0x100`. -/

def image : State := withBytes (withX [(6, 0x100#32)]) 0x100#32 [0x78#8, 0x56#8, 0x34#8, 0x12#8, 0x80#8, 0xFF#8]

theorem test_lb : xAfter 5 (exec (.lb 5 6 4#32) image) = some 0xFFFFFF80#32 := by decide
theorem test_lbu : xAfter 5 (exec (.lbu 5 6 4#32) image) = some 0x00000080#32 := by decide
theorem test_lh : xAfter 5 (exec (.lh 5 6 4#32) image) = some 0xFFFFFF80#32 := by decide
theorem test_lhu : xAfter 5 (exec (.lhu 5 6 4#32) image) = some 0x0000FF80#32 := by decide
theorem test_lw : xAfter 5 (exec (.lw 5 6 1#32) image) = some 0x80123456#32 := by decide
/-- The last byte at which a half-word load succeeds is the one before the last valid byte. -/
theorem test_lh_faults : faultOf (exec (.lh 5 6 0#32) (narrow 0x100#32)) = some (.loadAccessFault 0x100#32) := by decide
theorem test_sb : bytesAfter 0x1FF#32 2 (exec (.sb 6 5 (-1#32)) (withX [(5, 0x12345678#32), (6, 0x200#32)])) =
    some [0x78#8, 0x00#8] := by decide
theorem test_sh : bytesAfter 0x200#32 4 (exec (.sh 6 5 1#32) (withX [(5, 0x12345678#32), (6, 0x200#32)])) =
    some [0x00#8, 0x78#8, 0x56#8, 0x00#8] := by decide
theorem test_sw : bytesAfter 0x202#32 6 (exec (.sw 6 5 3#32) (withX [(5, 0xDEADBEEF#32), (6, 0x200#32)])) =
    some [0x00#8, 0xEF#8, 0xBE#8, 0xAD#8, 0xDE#8, 0x00#8] := by decide
/-- A store that straddles the end of the valid memory writes no byte (R73, R363). -/
theorem test_sw_faults : faultOf (exec (.sw 6 5 0#32) (narrow 0xFE#32)) = some (.storeAccessFault 0xFE#32) := by decide
theorem test_flw : fAfter 0 (exec (.flw 0 6 0#32) (withBytes (withX [(6, 0x2008#32)]) 0x2008#32 [0x01#8, 0x00#8, 0xA0#8, 0x7F#8])) =
    some (0x7FA00001#32, 0#5) := by decide
theorem test_fsw : bytesAfter 0x2008#32 4 (exec (.fsw 10 1 8#32) ((withX [(10, 0x2000#32)]).writeF 1 0x7FA00001#32)) =
    some [0x01#8, 0x00#8, 0xA0#8, 0x7F#8] := by decide

/-! ### Floating point: the tables of 95_test_vectors.md 2.6 and 2.7; the flags are NV DZ OF UF NX from bit 4 to bit 0. -/

theorem test_faddS : fAfter 4 (exec (.faddS 4 1 2 0) (withF [(1, 0x3F800001#32), (2, 0x33800000#32)])) =
    some (0x3F800002#32, 1#5) := by decide +kernel
theorem test_faddS_zero : fAfter 4 (exec (.faddS 4 1 2 7) (withF [(1, 0x3F800000#32), (2, 0xBF800000#32)])) =
    some (0x00000000#32, 0#5) := by decide +kernel
theorem test_fsubS : fAfter 4 (exec (.fsubS 4 1 2 0) (withF [(1, 0x80000000#32), (2, 0x00000000#32)])) =
    some (0x80000000#32, 0#5) := by decide +kernel
theorem test_fmulS : fAfter 4 (exec (.fmulS 4 1 2 0) (withF [(1, 0x007FFFFF#32), (2, 0x3F800001#32)])) =
    some (0x00800000#32, 1#5) := by decide +kernel
theorem test_fmulS_underflow : fAfter 4 (exec (.fmulS 4 1 2 0) (withF [(1, 0x00800001#32), (2, 0x3F000000#32)])) =
    some (0x00400000#32, 3#5) := by decide +kernel
theorem test_fdivS : fAfter 4 (exec (.fdivS 4 1 2 0) (withF [(1, 0x3F800000#32), (2, 0x40400000#32)])) =
    some (0x3EAAAAAB#32, 1#5) := by decide +kernel
theorem test_fdivS_by_zero : fAfter 4 (exec (.fdivS 4 1 2 0) (withF [(1, 0x3F800000#32), (2, 0x80000000#32)])) =
    some (0xFF800000#32, 8#5) := by decide +kernel
theorem test_fsqrtS : fAfter 4 (exec (.fsqrtS 4 1 0) (withF [(1, 0x40000000#32)])) =
    some (0x3FB504F3#32, 1#5) := by decide +kernel
theorem test_fsqrtS_subnormal : fAfter 4 (exec (.fsqrtS 4 1 0) (withF [(1, 0x00000001#32)])) =
    some (0x1A3504F3#32, 1#5) := by decide +kernel
theorem test_fmaddS : fAfter 4 (exec (.fmaddS 4 1 2 3 0 0) (withF [(1, 0x3F800001#32), (2, 0x3F800001#32), (3, 0xBF800002#32)])) =
    some (0x28800000#32, 0#5) := by decide +kernel
theorem test_fmsubS : fAfter 4 (exec (.fmsubS 4 1 2 3 0 0) (withF [(1, 0x3F800001#32), (2, 0x3F800001#32), (3, 0xBF800002#32)])) =
    some (0x40000002#32, 1#5) := by decide +kernel
theorem test_fnmsubS : fAfter 4 (exec (.fnmsubS 4 1 2 3 0 0) (withF [(1, 0x3F800001#32), (2, 0x3F800001#32), (3, 0xBF800002#32)])) =
    some (0xC0000002#32, 1#5) := by decide +kernel
theorem test_fnmaddS : fAfter 4 (exec (.fnmaddS 4 1 2 3 0 0) (withF [(1, 0x3F800001#32), (2, 0x3F800001#32), (3, 0xBF800002#32)])) =
    some (0xA8800000#32, 0#5) := by decide +kernel
theorem test_fmaddS_invalid : fAfter 4 (exec (.fmaddS 4 1 2 3 0 0) (withF [(1, 0x7F800000#32), (2, 0x00000000#32), (3, 0x7FC00000#32)])) =
    some (0x7FC00000#32, 16#5) := by decide +kernel
theorem test_fsgnjS : fAfter 4 (exec (.fsgnjS 4 1 2) (withF [(1, 0xFFC00000#32), (2, 0x7FA00000#32)])) =
    some (0x7FC00000#32, 0#5) := by decide +kernel
theorem test_fsgnjnS : fAfter 4 (exec (.fsgnjnS 4 1 2) (withF [(1, 0xFFC00000#32), (2, 0x7FA00000#32)])) =
    some (0xFFC00000#32, 0#5) := by decide +kernel
theorem test_fsgnjxS : fAfter 4 (exec (.fsgnjxS 4 1 2) (withF [(1, 0xFFC00000#32), (2, 0x7FA00000#32)])) =
    some (0xFFC00000#32, 0#5) := by decide +kernel
theorem test_fminS : fAfter 4 (exec (.fminS 4 1 2) (withF [(1, 0x00000000#32), (2, 0x80000000#32)])) =
    some (0x80000000#32, 0#5) := by decide +kernel
theorem test_fmaxS : fAfter 4 (exec (.fmaxS 4 1 2) (withF [(1, 0x7FA00000#32), (2, 0x3F800000#32)])) =
    some (0x3F800000#32, 16#5) := by decide +kernel
theorem test_feqS : xfAfter 5 (exec (.feqS 5 1 2) (withF [(1, 0x00000000#32), (2, 0x80000000#32)])) =
    some (0x00000001#32, 0#5) := by decide +kernel
theorem test_feqS_nan : xfAfter 5 (exec (.feqS 5 1 2) (withF [(1, 0x7FC00000#32), (2, 0x3F800000#32)])) =
    some (0x00000000#32, 0#5) := by decide +kernel
theorem test_fltS : xfAfter 5 (exec (.fltS 5 1 2) (withF [(1, 0x7FC00000#32), (2, 0x3F800000#32)])) =
    some (0x00000000#32, 16#5) := by decide +kernel
theorem test_fleS : xfAfter 5 (exec (.fleS 5 1 2) (withF [(1, 0xFF800000#32), (2, 0x7F800000#32)])) =
    some (0x00000001#32, 0#5) := by decide +kernel
theorem test_fcvtWS : xfAfter 5 (exec (.fcvtWS 5 1 0) (withF [(1, 0xBFC00000#32)])) =
    some (0xFFFFFFFF#32, 1#5) := by decide +kernel
theorem test_fcvtWuS : xfAfter 5 (exec (.fcvtWuS 5 1 0) (withF [(1, 0xBFC00000#32)])) =
    some (0x00000000#32, 16#5) := by decide +kernel
theorem test_fcvtWS_saturates : xfAfter 5 (exec (.fcvtWS 5 1 1) (withF [(1, 0x4F000000#32)])) =
    some (0x7FFFFFFF#32, 16#5) := by decide +kernel
theorem test_fcvtSW : fAfter 1 (exec (.fcvtSW 1 5 0) (withX [(5, 0x01000003#32)])) = some (0x4B800002#32, 1#5) := by decide +kernel
theorem test_fcvtSWu : fAfter 1 (exec (.fcvtSWu 1 5 0) (withX [(5, 0xFFFFFF7F#32)])) = some (0x4F7FFFFF#32, 1#5) := by decide +kernel
theorem test_fmvXW : xfAfter 5 (exec (.fmvXW 5 1 0) (withF [(1, 0x7FA00001#32)])) =
    some (0x7FA00001#32, 0#5) := by decide +kernel
theorem test_fmvWX : fAfter 1 (exec (.fmvWX 1 5 0) (withX [(5, 0x7FA00001#32)])) = some (0x7FA00001#32, 0#5) := by decide
theorem test_fclassS : xfAfter 5 (exec (.fclassS 5 1 0) (withF [(1, 0x807FFFFF#32)])) =
    some (0x00000004#32, 0#5) := by decide +kernel

/-! ### The NPU: 95_test_vectors.md 2.8. The results of the open functions are the functions' values, whatever they are. -/

theorem test_npuMacc : accAfter (exec (.npuMacc 0 10 11) ((withX [(10, 0x80000000#32), (11, 0x80000000#32)]).writeAcc 0x4000000000000000#64)) =
    some 0x8000000000000000#64 := by decide
theorem test_npuVmac : accAfter (exec (.npuVmac 12 10 11) (withBytes (withX [(10, 0x2000#32), (11, 0x2000#32), (12, 3#32)])
    0x2000#32 [0x80#8, 0x7F#8, 0xFF#8])) = some 0x7F02#64 := by decide +kernel
theorem test_npuVexp_no_elements : pcAfter (exec (.npuVexp 0 10 11) State.reset) = some 0x00001004#32 := by decide
theorem test_npuVexp_faults : faultOf (exec (.npuVexp 12 10 11)
    { withX [(10, 0x2000#32), (11, 0x2FFE#32), (12, 1#32)] with memMap := [⟨0x1000, 0x2000⟩] }) =
    some (.storeAccessFault 0x2FFE#32) := by decide
theorem test_npuVrsqrt : xAfter 5 (exec (.npuVrsqrt 5 6 0) image) = some (Config.rsqrtQ16 0x12345678#32) := by rfl
theorem test_npuVmul : bytesAfter 0x2000#32 5 (exec (.npuVmul 12 10 11) (withBytes ((withX [(10, 0x2000#32), (11, 0x2001#32), (12, 4#32)]).writeAcc
    0x8000#64) 0x2000#32 [0x40#8, 0x10#8, 0x10#8, 0x10#8, 0x10#8])) = some [0x40#8, 0x20#8, 0x10#8, 0x08#8, 0x04#8] := by
  decide +kernel
def words : State := withBytes (withX [(10, 0x2001#32), (11, 2#32)]) 0x2001#32
  [0xFF#8, 0xFF#8, 0xFF#8, 0x7F#8, 0x01#8, 0x00#8, 0x00#8, 0x00#8]

theorem test_npuVreduce : xAfter 10 (exec (.npuVreduce 10 10 11) words) = some 0x80000000#32 := by decide +kernel
theorem test_npuVmax : xAfter 10 (exec (.npuVmax 10 10 11) words) = some 0x7FFFFFFF#32 := by decide +kernel
theorem test_npuVmax_no_elements : xAfter 5 (exec (.npuVmax 5 10 0) words) = some Config.vmaxEmpty := by rfl
theorem test_npuRelu : xAfter 5 (exec (.npuRelu 5 10 0) (withX [(10, 0x80000000#32)])) = some 0x00000000#32 := by decide
theorem test_npuClamp : xAfter 5 (exec (.npuClamp 5 10 0) (withX [(10, 0xFFFFFED4#32)])) = some 0xFFFFFF80#32 := by decide
theorem test_npuQmul : xAfter 5 (exec (.npuQmul 5 10 11) (withX [(10, 0xFFFFFFFF#32), (11, 1#32)])) = some 0xFFFFFFFF#32 := by decide
theorem test_npuGelu : xAfter 5 (exec (.npuGelu 5 10 0) (withX [(10, 9#32)])) = some (Config.geluLut 9#32) := by rfl
theorem test_npuRstacc : xAfter 5 (exec (.npuRstacc 5 0 0) (State.reset.writeAcc 0x0000000100000052#64)) = some 0x52#32 ∧
    accAfter (exec (.npuRstacc 5 0 0) (State.reset.writeAcc 0x0000000100000052#64)) = some 0#64 := by decide
theorem test_npuLdvec : vAfter 1 (exec (.npuLdvec 5 6 1#32) image) = some 0x80123456#32 := by decide
theorem test_npuStvec : bytesAfter 0x20FC#32 4 (exec (.npuStvec 10 6 (-4#32)) ((withX [(10, 0x2100#32)]).writeV 2 0xAABBCCDD#32)) =
    some [0xDD#8, 0xCC#8, 0xBB#8, 0xAA#8] := by decide

/-! ## Every statement with hypotheses has states and operands that meet them

The hypothesis of `Decodes`, in the statements that give an encoding, is met by the pattern of each row: `witness_rows`. -/

theorem witness_rows : ∀ r ∈ opcodeTable, r.pattern &&& r.mask = r.pattern := by decide

theorem valid_of {s : State} {a : Word} {n : Nat} (h : s.accessible a n = true) : AllValid s a n :=
  (accessible_iff s a n).mp h

theorem invalid_of {s : State} {a : Word} {n : Nat} (h : s.accessible a n = false) : ¬AllValid s a n := fun h' => by
  simp [(accessible_iff s a n).mpr h'] at h

/-- The state after reset with a word at the pc and, if wanted, other fields. -/
def running (w : Nat) : State := State.reset.withFetchWord 32 w

/-- The state after reset with a smaller memory map. -/
def mapped (base size : Nat) (xs : List (Reg × Word)) : State := { withX xs with memMap := [⟨base, size⟩] }

theorem witness_DecodeEncode : (Instr.beq 1 2 (-4096#32)).wf = true ∧ (Instr.fmaddS 4 1 2 3 7 3).wf = true := by decide

theorem witness_EncodeDecode : decode 0x8020F063#32 = .ok (.bgeu 1 2 (-4096#32)) := by decide

theorem witness_DecodeFollowsTheTable : (∀ r ∈ opcodeTable, 0x0200100B#32 &&& r.mask ≠ r.pattern) ∧
    ∃ r ∈ opcodeTable, 0xFFFFF2B7#32 &&& r.mask = r.pattern := by decide

/-- The last word of the address space. -/
theorem witness_StepRunsTheDecodedInstruction :
    let s := { State.reset with pc := 0xFFFFFFFC#32 }.withFetchWord 32 0x00A00293
    s.pc.toNat % 4 = 0 ∧ AllValid s s.pc 4 ∧ decode (wordIn s s.pc) = .ok (.addi 5 0 10#32) :=
  ⟨by decide, valid_of (by decide), by decide⟩

/-- A pc of the form 4k+2, and an aligned pc whose last byte alone is invalid. -/
theorem witness_FetchFaultsInOrder :
    (State.reset.setPc 0x00001002#32).pc.toNat % 4 ≠ 0 ∧
    (mapped 0x1000 3 []).pc.toNat % 4 = 0 ∧ ¬AllValid (mapped 0x1000 3 []) (mapped 0x1000 3 []).pc 4 :=
  ⟨by decide, by decide, invalid_of (by decide)⟩

theorem witness_IllegalWordsStop :
    State.reset.pc.toNat % 4 = 0 ∧ AllValid State.reset State.reset.pc 4 ∧
    (∀ r ∈ opcodeTable, wordIn State.reset State.reset.pc &&& r.mask ≠ r.pattern) :=
  ⟨by decide, valid_of (by decide), by decide⟩

theorem witness_StoredWordIsFetched :
    let s := withX [(1, 0x00002000#32), (2, 0x00A00293#32)]
    (∃ t, exec (.sw 1 2 0#32) s = .next t) ∧ (s.readX 1 + 0#32).toNat % 4 = 0 ∧
    decode (s.readX 2) = .ok (.addi 5 0 10#32) :=
  ⟨⟨_, rfl⟩, by decide, by decide⟩

theorem witness_StepKeepsInv : (running 0x00532023).Inv ∧ ∃ t, step (running 0x00532023) = .next t :=
  ⟨⟨by decide, fun _ _ h _ => nomatch h⟩, ⟨_, rfl⟩⟩

/-- One step that is no ECALL and one that is. -/
theorem witness_StepKeepsTheParameters : (∃ t, step (running 0x00A00293) = .next t) ∧
    ∃ t, step { running 0x00000073 with ecallHandler := .resume } = .next t :=
  ⟨⟨_, rfl⟩, ⟨_, rfl⟩⟩

theorem witness_FcsrOnlyAccumulates :
    (Instr.fdivS 1 2 3 0) ≠ .ecall ∧ (∃ t, exec (.fdivS 1 2 3 0) State.reset = .next t) ∧
    (Instr.fsgnjS 1 2 3).signals = false ∧ ∃ t, exec (.fsgnjS 1 2 3) State.reset = .next t :=
  ⟨by decide, ⟨_, rfl⟩, by decide, ⟨_, rfl⟩⟩

theorem witness_NpuStateIsSeparate :
    ((Instr.add 1 2 3).writesAcc = false ∧ (Instr.add 1 2 3).mnemonic ≠ "NPU.LDVEC" ∧ (Instr.add 1 2 3).isNpu = false ∧
      ∃ t, exec (.add 1 2 3) State.reset = .next t) ∧
    (Instr.npuMacc 0 1 2).isNpu = true ∧ ∃ t, exec (.npuMacc 0 1 2) State.reset = .next t :=
  ⟨⟨by decide, by decide, by decide, ⟨_, rfl⟩⟩, by decide, ⟨_, rfl⟩⟩

/-- At the last word of the address space the pc wraps. -/
theorem witness_SequentialPc : (Instr.fence 0 0 0#12).isControl = false ∧
    ∃ t, exec (.fence 0 0 0#12) (State.reset.setPc 0xFFFFFFFC#32) = .next t :=
  ⟨by decide, ⟨_, rfl⟩⟩

theorem witness_OnlyStoresChangeMemory : (Instr.lw 5 6 0#32).writesMemory = false ∧
    ∃ t, exec (.lw 5 6 0#32) State.reset = .next t :=
  ⟨by decide, ⟨_, rfl⟩⟩

theorem witness_RegisterWriters :
    (∃ t, exec (.addi 1 0 7#32) State.reset = .next t ∧ t.readX 1 ≠ State.reset.readX 1) ∧
    ∃ t, exec (.fmvWX 0 1 0) (withX [(1, 7#32)]) = .next t ∧ t.readF 0 ≠ (withX [(1, 7#32)]).readF 0 :=
  ⟨⟨_, rfl, by decide⟩, ⟨_, rfl, by decide⟩⟩

/-- Each of the seven exceptions ends some step. -/
theorem witness_ExceptionsAreTheSeven :
    faultOf (step (State.reset.setPc 0x00001001#32)) = some (.instructionAddressMisaligned 0x00001001#32) ∧
    faultOf (step (mapped 0x1000 3 [])) = some (.instructionAccessFault 0x00001000#32) ∧
    faultOf (step State.reset) = some (.illegalInstruction 0x00000000#32) ∧
    faultOf (step (running 0x00100073)) = some (.breakpoint 0x00001000#32) ∧
    faultOf (step (running 0x00000073)) = some .environmentCall ∧
    faultOf (step ((mapped 0x1000 4 []).withFetchWord 32 0x00002003)) = some (.loadAccessFault 0x00000000#32) ∧
    faultOf (step ((mapped 0x1000 4 []).withFetchWord 32 0x00000023)) = some (.storeAccessFault 0x00000000#32) := by
  decide

theorem witness_NothingElseTraps :
    (Instr.add 1 2 3).isSystem = false ∧ (Instr.add 1 2 3).readsMemory = false ∧ (Instr.add 1 2 3).writesMemory = false ∧
    (Instr.npuVexp 1 2 3).isSystem = false ∧ ∀ a, State.reset.valid a = true :=
  ⟨by decide, by decide, by decide, by decide, fun a => by
    simpa [State.valid, validIn, State.reset] using a.isLt⟩

/-- A step that is no ECALL, a fault, and an ECALL with a handler that resumes without looking. -/
theorem witness_HiddenStateIsInvisible :
    (decode (wordIn (running 0x00B5000B) (running 0x00B5000B).pc) ≠ .ok .ecall ∧ ∃ t, step (running 0x00B5000B) = .next t) ∧
    (decode (wordIn (running 0x00100073) (running 0x00100073).pc) ≠ .ok .ecall ∧
      step (running 0x00100073) = .fault (.breakpoint 0x00001000#32)) ∧
    EcallHandler.resume.Blind ∧ ∃ t, step { running 0x00000073 with ecallHandler := .resume } = .next t :=
  ⟨⟨by decide, _, rfl⟩, ⟨by decide, rfl⟩,
    fun _ c v => ⟨fun _ h => ⟨c, v, by cases h; rfl⟩, fun h => nomatch h⟩, _, rfl⟩

/-- With `n` valid bytes at `0x2000`, an access of `n` bytes there is valid and one byte further it is not. -/
theorem witness_Loads : let s := fun n => mapped 0x2000 n [(6, 0x00002000#32)]
    (AllValid (s 1) ((s 1).readX 6 + 0#32) 1 ∧ ¬AllValid (s 1) ((s 1).readX 6 + 1#32) 1) ∧
    (AllValid (s 2) ((s 2).readX 6 + 0#32) 2 ∧ ¬AllValid (s 2) ((s 2).readX 6 + 1#32) 2) ∧
    (AllValid (s 4) ((s 4).readX 6 + 0#32) 4 ∧ ¬AllValid (s 4) ((s 4).readX 6 + 1#32) 4) :=
  ⟨⟨valid_of (by decide), invalid_of (by decide)⟩, ⟨valid_of (by decide), invalid_of (by decide)⟩,
    ⟨valid_of (by decide), invalid_of (by decide)⟩⟩

/-- The same below the valid bytes. -/
theorem witness_Stores : let s := fun n => mapped 0x2000 n [(6, 0x00002000#32)]
    (AllValid (s 1) ((s 1).readX 6 + 0#32) 1 ∧ ¬AllValid (s 1) ((s 1).readX 6 + -1#32) 1) ∧
    (AllValid (s 2) ((s 2).readX 6 + 0#32) 2 ∧ ¬AllValid (s 2) ((s 2).readX 6 + -1#32) 2) ∧
    (AllValid (s 4) ((s 4).readX 6 + 0#32) 4 ∧ ¬AllValid (s 4) ((s 4).readX 6 + -1#32) 4) :=
  ⟨⟨valid_of (by decide), invalid_of (by decide)⟩, ⟨valid_of (by decide), invalid_of (by decide)⟩,
    ⟨valid_of (by decide), invalid_of (by decide)⟩⟩

/-- The same across the top of the address space. -/
theorem witness_FloatLoadStore :
    AllValid State.reset (State.reset.readX 6 + -2#32) 4 ∧
    ¬AllValid (mapped 0 0xFFFFFFFF []) ((mapped 0 0xFFFFFFFF []).readX 6 + -2#32) 4 :=
  ⟨valid_of (by decide), invalid_of (by decide)⟩

theorem witness_NpuVectorMoves : let s := mapped 0x2000 4 [(6, 0x00002000#32)]
    AllValid s (s.readX 6 + 0#32) 4 ∧ ¬AllValid s (s.readX 6 + 1#32) 4 :=
  ⟨valid_of (by decide), invalid_of (by decide)⟩

/-- A state that the table lists, one that it does not list, and the handlers that answer every state alike. -/
theorem witness_EnvironmentCall :
    (EcallHandler.resume.answer State.reset.toArch = some (State.reset.setPc 0x00001004#32).toArch ∧
      EcallHandler.stop.answer State.reset.toArch = none) ∧
    doubling = .table ([] ++ ((withX [(10, 7#32)]).toArch, ((withX [(10, 14#32)]).setPc 0x00001004#32).toArch) :: []) ∧
    (∀ r ∈ [((withX [(10, 7#32)]).toArch, ((withX [(10, 14#32)]).setPc 0x00001004#32).toArch)],
      r.1 ≠ (withX [(10, 8#32)]).toArch) ∧
    ({ State.reset with ecallHandler := .host } : State).ecallHandler = .host := by
  refine ⟨⟨rfl, rfl⟩, rfl, ?_, rfl⟩
  decide

theorem witness_Fence : opcodeOf 0x0000100F#32 = 0b0001111#7 ∧ funct3Of 0x0000100F#32 ≠ 0b000#3 := by decide

/-- Shift-immediate words with other upper bits, next to the two values that are allowed and at the end. -/
theorem witness_ImmediateArithmetic :
    (opcodeOf 0x02001013#32 = 0b0010011#7 ∧ funct3Of 0x02001013#32 = 0b001#3 ∧ funct7Of 0x02001013#32 ≠ 0b0000000#7) ∧
    (opcodeOf 0x40001013#32 = 0b0010011#7 ∧ funct3Of 0x40001013#32 = 0b001#3 ∧ funct7Of 0x40001013#32 ≠ 0b0000000#7) ∧
    (opcodeOf 0x02005013#32 = 0b0010011#7 ∧ funct3Of 0x02005013#32 = 0b101#3 ∧ funct7Of 0x02005013#32 ≠ 0b0000000#7 ∧ funct7Of 0x02005013#32 ≠ 0b0100000#7) ∧
    (opcodeOf 0x42005013#32 = 0b0010011#7 ∧ funct3Of 0x42005013#32 = 0b101#3 ∧ funct7Of 0x42005013#32 ≠ 0b0000000#7 ∧ funct7Of 0x42005013#32 ≠ 0b0100000#7) ∧
    (opcodeOf 0xFE005013#32 = 0b0010011#7 ∧ funct3Of 0xFE005013#32 = 0b101#3 ∧ funct7Of 0xFE005013#32 ≠ 0b0000000#7 ∧ funct7Of 0xFE005013#32 ≠ 0b0100000#7) := by decide

/-- The first and the last `funct3` that no sign injection has. -/
theorem witness_SignInjection :
    (opcodeOf 0x20003053#32 = 0b1010011#7 ∧ funct7Of 0x20003053#32 = 0b0010000#7 ∧ 3 ≤ (funct3Of 0x20003053#32).toNat) ∧
    (opcodeOf 0x20007053#32 = 0b1010011#7 ∧ funct7Of 0x20007053#32 = 0b0010000#7 ∧ 3 ≤ (funct3Of 0x20007053#32).toNat) := by decide

/-- The first and the last `funct3` that is neither minimum nor maximum. -/
theorem witness_MinimumMaximum_illegal :
    (opcodeOf 0x28002053#32 = 0b1010011#7 ∧ funct7Of 0x28002053#32 = 0b0010100#7 ∧ 2 ≤ (funct3Of 0x28002053#32).toNat) ∧
    (opcodeOf 0x28007053#32 = 0b1010011#7 ∧ funct7Of 0x28007053#32 = 0b0010100#7 ∧ 2 ≤ (funct3Of 0x28007053#32).toNat) := by decide

/-- The first and the last `funct3` that no comparison has. -/
theorem witness_Comparisons_illegal :
    (opcodeOf 0xA0003053#32 = 0b1010011#7 ∧ funct7Of 0xA0003053#32 = 0b1010000#7 ∧ 3 ≤ (funct3Of 0xA0003053#32).toNat) ∧
    (opcodeOf 0xA0007053#32 = 0b1010011#7 ∧ funct7Of 0xA0007053#32 = 0b1010000#7 ∧ 3 ≤ (funct3Of 0xA0007053#32).toNat) := by decide

/-- The first and the last `rs2` that no conversion has. -/
theorem witness_FloatToInteger :
    (opcodeOf 0xC0200053#32 = 0b1010011#7 ∧ funct7Of 0xC0200053#32 = 0b1100000#7 ∧ 2 ≤ (rs2Of 0xC0200053#32).toNat) ∧
    (opcodeOf 0xC1F00053#32 = 0b1010011#7 ∧ funct7Of 0xC1F00053#32 = 0b1100000#7 ∧ 2 ≤ (rs2Of 0xC1F00053#32).toNat) := by decide

/-- The first and the last `rs2` that no conversion has. -/
theorem witness_IntegerToFloat :
    (opcodeOf 0xD0200053#32 = 0b1010011#7 ∧ funct7Of 0xD0200053#32 = 0b1101000#7 ∧ 2 ≤ (rs2Of 0xD0200053#32).toNat) ∧
    (opcodeOf 0xD1F00053#32 = 0b1010011#7 ∧ funct7Of 0xD1F00053#32 = 0b1101000#7 ∧ 2 ≤ (rs2Of 0xD1F00053#32).toNat) := by decide

/-- The first and the last `funct3` that no move and no classification has. -/
theorem witness_MovesAndClass_illegal :
    (opcodeOf 0xE0002053#32 = 0b1010011#7 ∧ funct7Of 0xE0002053#32 = 0b1110000#7 ∧ 2 ≤ (funct3Of 0xE0002053#32).toNat) ∧
    (opcodeOf 0xE0007053#32 = 0b1010011#7 ∧ funct7Of 0xE0007053#32 = 0b1110000#7 ∧ 2 ≤ (funct3Of 0xE0007053#32).toNat) ∧
    (opcodeOf 0xF0001053#32 = 0b1010011#7 ∧ funct7Of 0xF0001053#32 = 0b1111000#7 ∧ funct3Of 0xF0001053#32 ≠ 0b000#3) ∧
    (opcodeOf 0xF0007053#32 = 0b1010011#7 ∧ funct7Of 0xF0007053#32 = 0b1111000#7 ∧ funct3Of 0xF0007053#32 ≠ 0b000#3) := by decide

/-- The first and the last `funct7` that NPU.RSTACC does not have. -/
theorem witness_NpuAccumulator_illegal :
    (opcodeOf 0x0200500B#32 = 0b0001011#7 ∧ funct3Of 0x0200500B#32 = 0b101#3 ∧ funct7Of 0x0200500B#32 ≠ 0b0000000#7) ∧
    (opcodeOf 0xFE00500B#32 = 0b0001011#7 ∧ funct3Of 0xFE00500B#32 = 0b101#3 ∧ funct7Of 0xFE00500B#32 ≠ 0b0000000#7) := by decide

theorem witness_FloatSquareRoot : opcodeOf 0x58100053#32 = 0b1010011#7 ∧ funct7Of 0x58100053#32 = 0b0101100#7 ∧
    rs2Of 0x58100053#32 ≠ 0#5 := by decide

/-- One pair of operands next to the signed overflow, and the overflow itself. -/
theorem witness_MultiplyDivideLaws : (3 : Reg) ≠ 0#5 ∧ 0xFFFFFFFF#32 ≠ 0#32 ∧
    ¬(0x80000001#32 = 0x80000000#32 ∧ 0xFFFFFFFF#32 = 0xFFFFFFFF#32) := by decide

theorem witness_FiniteValues :
    (isFinite 0x7F7FFFFF#32 = true ∧ fpVal 0x7F7FFFFF#32 = fpVal 0x7F7FFFFF#32) ∧
    isFinite 0x00000000#32 = true ∧ isFinite 0x80000000#32 = true ∧ fpVal 0x00000000#32 = fpVal 0x80000000#32 :=
  ⟨⟨by decide, rfl⟩, by decide, by decide, by rw [fpVal_eq, fpVal_eq]; rfl⟩

theorem witness_ArithmeticNanIsCanonical : (Instr.fdivS 3 1 2 0).isFpArith = true ∧
    ∃ t, exec (.fdivS 3 1 2 0) State.reset = .next t ∧ isNaN (t.readF (Instr.fdivS 3 1 2 0).rdField) = true :=
  ⟨by decide, ⟨_, rfl, by decide +kernel⟩⟩

theorem witness_FlagsThatCannotBe :
    (Instr.fsqrtS 3 1 0).mnemonic = "FSQRT.S" ∧ (Instr.faddS 3 1 2 0).mnemonic ∈ ["FADD.S", "FSUB.S", "FSQRT.S"] ∧
    (Instr.fmulS 3 1 2 0).mnemonic ≠ "FDIV.S" ∧ (∃ t, exec (.fsqrtS 3 1 0) State.reset = .next t) ∧
    (∃ t, exec (.faddS 3 1 2 0) State.reset = .next t) ∧ ∃ t, exec (.fmulS 3 1 2 0) State.reset = .next t :=
  ⟨by decide, by decide, by decide, ⟨_, rfl⟩, ⟨_, rfl⟩, ⟨_, rfl⟩⟩

/-- The order of the zeros, an infinity above the greatest finite number, and a number that is not before itself. -/
theorem witness_MinimumMaximum :
    isNaN 0x7FC00000#32 = true ∧ isNaN 0x7F800001#32 = true ∧ isNaN 0x7F800000#32 = false ∧ isNaN 0x7F7FFFFF#32 = false ∧
    isNaN 0x80000000#32 = false ∧ isNaN 0x00000000#32 = false ∧ FpBefore 0x80000000#32 0x00000000#32 ∧
    FpBefore 0x7F7FFFFF#32 0x7F800000#32 ∧ ¬FpBefore 0x7F800000#32 0x7F800000#32 := by
  refine ⟨by decide, by decide, by decide, by decide, by decide, by decide, .inr ⟨rfl, rfl⟩, .inl ?_, ?_⟩
  · rw [FpLt, if_neg (by decide), if_pos (by decide)]; decide
  · rintro (h | h)
    · rw [FpLt, if_pos (by decide)] at h; exact absurd h.2 (by decide)
    · exact absurd h.1 (by decide)

theorem witness_Comparisons :
    (isNaN 0x7FC00000#32 || isNaN 0x3F800000#32) = true ∧ (isNaN 0x7F7FFFFF#32 || isNaN 0x7F800000#32) = false ∧
    FpLt 0x7F7FFFFF#32 0x7F800000#32 ∧ (isNaN 0x80000000#32 || isNaN 0x00000000#32) = false ∧
    FpEqual 0x80000000#32 0x00000000#32 := by
  refine ⟨by decide, by decide, ?_, by decide, ?_⟩
  · rw [FpLt, if_neg (by decide), if_pos (by decide)]; decide
  · rw [FpEqual, if_neg (by decide), fpVal_eq, fpVal_eq]; rfl

theorem witness_SmallIntegersRoundTrip : |((withX [(1, 0x01000000#32)]).readX 1).toInt| ≤ 2 ^ 24 ∧
    |((withX [(1, 0xFF000000#32)]).readX 1).toInt| ≤ 2 ^ 24 ∧ (2 : Reg) ≠ 0#5 := by decide

/-- One pattern of each class, at the edges of the classes. -/
theorem witness_MovesAndClass :
    (fpSign 0xFF7FFFFF#32 = true ∧ 1 ≤ fpExp 0xFF7FFFFF#32 ∧ fpExp 0xFF7FFFFF#32 ≤ 254) ∧
    (fpSign 0x807FFFFF#32 = true ∧ fpExp 0x807FFFFF#32 = 0 ∧ fpFrac 0x807FFFFF#32 ≠ 0) ∧
    (fpSign 0x00000001#32 = false ∧ fpExp 0x00000001#32 = 0 ∧ fpFrac 0x00000001#32 ≠ 0) ∧
    (fpSign 0x00800000#32 = false ∧ 1 ≤ fpExp 0x00800000#32 ∧ fpExp 0x00800000#32 ≤ 254) ∧
    isSNaN 0x7FBFFFFF#32 = true ∧ isQNaN 0x7FC00000#32 = true ∧
    (withF [(1, 0xFF800000#32)]).readF 1 = 0xFF800000#32 ∧ (withF [(1, 0x80000000#32)]).readF 1 = 0x80000000#32 ∧
    (withF [(1, 0x00000000#32)]).readF 1 = 0x00000000#32 ∧ (withF [(1, 0x7F800000#32)]).readF 1 = 0x7F800000#32 := by
  decide

/-- Two elements, of which each array holds exactly the valid bytes. -/
theorem witness_NpuAccumulator : let s := mapped 0x2000 2 [(10, 0x2000#32), (11, 0x2000#32), (12, 2#32)]
    ∀ i, i < (s.readX 12).toNat →
      s.valid (s.readX 10 + BitVec.ofNat 32 i) = true ∧ s.valid (s.readX 11 + BitVec.ofNat 32 i) = true := by decide

theorem witness_NpuReductions : let s := mapped 0x2000 8 [(10, 0x2000#32), (11, 2#32)]
    (AllValid s (s.readX 10) 4 ∧ ¬AllValid s (s.readX 11) 4) ∧
    (∀ i, i < (s.readX 11).toNat → AllValid s (s.readX 10 + BitVec.ofNat 32 (4 * i)) 4) ∧
    0 < (s.readX 11).toNat ∧ (s.readX 0).toNat = 0 := by
  refine ⟨⟨valid_of (by decide), invalid_of (by decide)⟩, fun i hi => valid_of ?_, by decide, by decide⟩
  revert i; decide

/-- Arrays that overlap by one element. -/
theorem witness_NpuArraysInOrder : let s := mapped 0x2000 12 [(10, 0x2000#32), (11, 0x2004#32), (12, 2#32)]
    (∀ i, i < (s.readX 12).toNat → AllValid s (s.readX 10 + BitVec.ofNat 32 (4 * i)) 4 ∧
      AllValid s (s.readX 11 + BitVec.ofNat 32 (4 * i)) 4) ∧
    ∀ i, i < (s.readX 12).toNat →
      s.valid (s.readX 10 + BitVec.ofNat 32 i) = true ∧ s.valid (s.readX 11 + BitVec.ofNat 32 i) = true := by
  refine ⟨fun i hi => ?_, by decide⟩
  have : ∀ i, i < 2 → State.accessible (mapped 0x2000 12 [(10, 0x2000#32), (11, 0x2004#32), (12, 2#32)])
      (0x2000#32 + BitVec.ofNat 32 (4 * i)) 4 = true ∧
      State.accessible (mapped 0x2000 12 [(10, 0x2000#32), (11, 0x2004#32), (12, 2#32)])
      (0x2004#32 + BitVec.ofNat 32 (4 * i)) 4 = true := by decide
  exact ⟨valid_of (this i hi).1, valid_of (this i hi).2⟩

/-- In place, and with arrays that touch and do not overlap. -/
theorem witness_NpuArraysElementwise :
    let s := mapped 0x2000 4 [(10, 0x2000#32), (11, 0x2000#32), (12, 1#32)]
    let d := mapped 0x2000 8 [(10, 0x2000#32), (11, 0x2004#32), (12, 1#32)]
    (∃ t, exec (.npuVexp 12 10 11) s = .next t) ∧ 4 * (s.readX 12).toNat ≤ 2 ^ 32 ∧ s.readX 10 = s.readX 11 ∧
    (∃ t, exec (.npuVexp 12 10 11) d = .next t) ∧
    (∀ i j, i < 4 → j < 4 → d.readX 10 + BitVec.ofNat 32 i ≠ d.readX 11 + BitVec.ofNat 32 j) ∧
    (∃ t, exec (.npuVmul 12 10 11) s = .next t) ∧ ∃ t, exec (.npuVmul 12 10 11) d = .next t :=
  ⟨⟨_, rfl⟩, by decide, by decide, ⟨_, rfl⟩, fun i j hi hj => by interval_cases i <;> interval_cases j <;> decide,
    ⟨_, rfl⟩, ⟨_, rfl⟩⟩

/-- Two regions, of one element and of two. -/
def regions (n : Nat) (xs : List (Reg × Word)) : State :=
  { withX xs with memMap := [⟨0x2000, n⟩, ⟨0x3000, 2 * n⟩] }

/-- The second element of the array at `0x2000` is invalid, that of the array at `0x3000` is not; with the two addresses the
other way round the same facts meet the clauses about the second array. -/
theorem witness_NpuArrayFaults :
    let s := regions 1 [(10, 0x2000#32), (11, 0x3000#32), (12, 2#32)]
    let w := regions 4 [(10, 0x2000#32), (11, 0x3000#32), (12, 2#32)]
    (1 < (s.readX 12).toNat ∧ (∀ i, i < 1 → AllValid s (0x2000#32 + BitVec.ofNat 32 i) 1 ∧
      AllValid s (0x3000#32 + BitVec.ofNat 32 i) 1) ∧
      ¬AllValid s (0x2000#32 + BitVec.ofNat 32 1) 1 ∧ AllValid s (0x3000#32 + BitVec.ofNat 32 1) 1) ∧
    1 < (w.readX 12).toNat ∧ (∀ i, i < 1 → AllValid w (0x2000#32 + BitVec.ofNat 32 (4 * i)) 4 ∧
      AllValid w (0x3000#32 + BitVec.ofNat 32 (4 * i)) 4) ∧
      ¬AllValid w (0x2000#32 + BitVec.ofNat 32 (4 * 1)) 4 ∧ AllValid w (0x3000#32 + BitVec.ofNat 32 (4 * 1)) 4 := by
  refine ⟨⟨by decide, fun i hi => ?_, invalid_of (by decide), valid_of (by decide)⟩, by decide, fun i hi => ?_,
    invalid_of (by decide), valid_of (by decide)⟩
  · obtain rfl : i = 0 := by omega
    exact ⟨valid_of (by decide), valid_of (by decide)⟩
  · obtain rfl : i = 0 := by omega
    exact ⟨valid_of (by decide), valid_of (by decide)⟩

/-- The ends of the offsets that a branch and a jump hold. -/
theorem witness_PseudoInstructions :
    (Pseudo.beqz 1 (-4096#32)).fits = true ∧ (Pseudo.bnez 1 4094#32).fits = true ∧
    (Pseudo.j (-1048576#32)).fits = true ∧ (Pseudo.call 1048574#32).fits = true ∧ Pseudo.nop.fits = true := by decide

/-! ### Names, texts of the spec's examples (30_encoding.md R140, R142; 10_state.md R32, R41, R47; 60_exceptions.md R361) -/

theorem test_names : xName 2 = "sp" ∧ xName 18 = "s2" ∧ xName 28 = "t3" ∧ fName 0 = "ft0" ∧ fName 18 = "fs2" ∧
    fName 31 = "ft11" := by decide

/-- Lanes 1, -2, 127, -128 of `0x807FFE01` (47_npu.md R337). -/
theorem test_lanes : (List.range 4).map (fun j => (lane 0x807FFE01#32 j).toInt) = [1, -2, 127, -128] := by decide

theorem test_causes : Fault.cause (.breakpoint 0) = 3 ∧ Fault.cause .environmentCall = 11 := by decide

/-- `li rd, 0x12345FFF` is `lui rd, 0x12346` and `addi rd, rd, -1`, since `addi` sign-extends (42_rv32i_control.md R217). -/
theorem test_li : expand (.li 5 0x12345FFF#32) = [.lui 5 0x12346000#32, .addi 5 5 (-1#32)] ∧
    expand (.li 5 (-2048#32)) = [.addi 5 0 (-2048#32)] := by decide

end Sys2Proof.Tests.Slice0
end

section
/-!
PROOFS about the step (00_scope.md R8, R15). A next state of the step is a next state of the decoded instruction, and that is an
`Effect` of the instruction or, at an ECALL, the host's answer; neither touches the memory map or the handler.
-/

namespace Sys2Proof.Machine

/-! ## The step and what can come next -/

/-- The fetch raises its own two exceptions only, never an environment call (20_memory.md R80, R81). -/
theorem fetch_error_ne_environmentCall {s : State} {e : Fault} (h : fetch s = .error e) : e ≠ .environmentCall := by
  by_cases ha : s.pc.extractLsb' 0 2 = 0#2
  · by_cases hv : AllValid s s.pc 4
    · rw [fetch_ok s ha hv] at h; cases h
    · rw [fetch_invalid s ha hv] at h; cases h; simp
  · rw [fetch_misaligned s ha] at h; cases h; simp

/-- A step that answers a next state fetched and decoded an instruction, and the next state is that instruction's. -/
theorem step_next {s t : State} (h : step s = .next t) :
    ∃ w i, fetch s = .ok w ∧ decode w = .ok i ∧ exec i s = .next t := by
  cases hf : fetch s with
  | error e =>
    simp only [step, hf] at h
    exact absurd (deliver_next s h).1 (fetch_error_ne_environmentCall hf)
  | ok w =>
    cases hd : decode w with
    | error r =>
      simp only [step, hf, hd] at h
      cases (deliver_next s h).1
    | ok i => exact ⟨w, i, rfl, hd, step_of_fetch s hf hd ▸ h⟩

/-- Everything a next state can be: the host's answer at an ECALL, an effect of the instruction otherwise. -/
theorem exec_next_cases {i : Instr} {s t : State} (h : exec i s = .next t) :
    (i = .ecall ∧ ∃ a, s.ecallHandler.answer s.toArch = some a ∧ t = s.resumeFrom a) ∨ (i ≠ .ecall ∧ Effect i s t) := by
  by_cases hi : i = .ecall
  · subst hi
    have hcall : deliver .environmentCall s = .next t := h
    exact .inl ⟨rfl, (deliver_next s hcall).2⟩
  · exact .inr ⟨hi, exec_effect hi h⟩

/-! ## The parameters of a run -/

/-- No effect of an instruction touches the memory map or the handler. -/
theorem Effect.keepsHost {i : Instr} {s t : State} (h : Effect i s t) : KeepsHost s t := by
  cases h <;> simp [KeepsHost]

/-- No instruction touches the memory map or the handler, ECALL included: the host answers a machine state, which holds
neither (60_exceptions.md R374). -/
theorem exec_keepsHost {i : Instr} {s t : State} (h : exec i s = .next t) : KeepsHost s t := by
  rcases exec_next_cases h with ⟨-, a, -, rfl⟩ | ⟨-, he⟩
  · exact ⟨s.resumeFrom_memMap a, s.resumeFrom_ecallHandler a⟩
  · exact he.keepsHost

/-! ## The statements -/

/-- Settles O12: the step's next state is that of an instruction, and no instruction changes the parameters. -/
theorem stepKeepsTheParameters : Obligations.StepKeepsTheParameters := by
  intro s t h
  obtain ⟨w, i, -, -, hexec⟩ := step_next h
  exact exec_keepsHost hexec

/-- Settles O6: at an aligned pc with valid bytes the fetch answers the word there, and the step is `exec` of what it decodes
to. -/
theorem stepRunsTheDecodedInstruction : Obligations.StepRunsTheDecodedInstruction := by
  intro s i hpc hvalid hdecode
  have hfetch : fetch s = .ok (wordIn s s.pc) := fetch_ok s ((low_bits_zero s.pc).mpr hpc) hvalid
  exact step_of_fetch s hfetch hdecode

end Sys2Proof.Machine
end

section
/-!
PROOFS of the rules over all instructions of 10_state.md: what each kind of next state (`Effect`, Laws/Effects.lean) does to one
part of the state, and from it the invariant of the machine and the frames by instruction class.
-/

namespace Sys2Proof

/-! ## What decodes is well formed

The immediates that the decoder assembles are immediates of their format, group by group of 30_encoding.md R128 to R134. -/

section
variable {w : Word} {i : Instr}

theorem decodeOp_wf (h : decodeOp w = .ok i) : i.wf = true := by
  simp only [decodeOp, decodeOp0, decodeOp32, decodeOpM] at h
  repeat' split at h
  all_goals cases h <;> rfl

theorem decodeOpImm_wf (h : decodeOpImm w = .ok i) : i.wf = true := by
  simp only [decodeOpImm, decodeSlli, decodeShiftRight] at h
  repeat' split at h
  all_goals cases h <;> simp [Instr.wf, fitsI_immI]

theorem decodeLoad_wf (h : decodeLoad w = .ok i) : i.wf = true := by
  unfold decodeLoad at h
  split at h <;> cases h <;> exact fitsI_immI w

theorem decodeStore_wf (h : decodeStore w = .ok i) : i.wf = true := by
  unfold decodeStore at h
  split at h <;> cases h <;> exact fitsS_immS w

theorem decodeBranch_wf (h : decodeBranch w = .ok i) : i.wf = true := by
  unfold decodeBranch at h
  split at h <;> cases h <;> exact fitsB_immB w

theorem decodeSystem_wf (h : decodeSystem w = .ok i) : i.wf = true := by
  unfold decodeSystem at h
  repeat' split at h
  all_goals cases h <;> rfl

theorem decodeFence_wf (h : decodeFence w = .ok i) : i.wf = true := by
  unfold decodeFence at h
  split at h
  · cases h; rfl
  · cases h

theorem decodeFlw_wf (h : decodeFlw w = .ok i) : i.wf = true := by
  unfold decodeFlw at h
  split at h
  · cases h; exact fitsI_immI w
  · cases h

theorem decodeFsw_wf (h : decodeFsw w = .ok i) : i.wf = true := by
  unfold decodeFsw at h
  split at h
  · cases h; exact fitsS_immS w
  · cases h

theorem decodeFp_wf (h : decodeFp w = .ok i) : i.wf = true := by
  simp only [decodeFp, decodeFsqrt, decodeFsgnj, decodeFminmax, decodeFcmp, decodeFcvtToInt, decodeFcvtFromInt,
    decodeFmvXClass, decodeFmvWX] at h
  repeat' split at h
  all_goals cases h <;> rfl

theorem decodeNpu_wf (h : decodeNpu w = .ok i) : i.wf = true := by
  simp only [decodeNpu, decodeNpuArray, decodeNpuScalar] at h
  repeat' split at h
  all_goals cases h <;> simp [Instr.wf, fitsI_immI, fitsS_immS]

/-- The decoder answers well-formed instructions only. -/
theorem decode_wf (h : decode w = .ok i) : i.wf = true := by
  unfold decode at h
  split at h
  · exact decodeOp_wf h
  · exact decodeOpImm_wf h
  · exact decodeLoad_wf h
  · exact decodeStore_wf h
  · exact decodeBranch_wf h
  · cases h; exact fitsU_immU w
  · cases h; exact fitsU_immU w
  · cases h; exact fitsJ_immJ w
  · cases h; exact fitsI_immI w
  · exact decodeSystem_wf h
  · exact decodeFence_wf h
  · exact decodeFlw_wf h
  · exact decodeFsw_wf h
  · exact decodeFp_wf h
  · cases h; rfl
  · cases h; rfl
  · cases h; rfl
  · cases h; rfl
  · exact decodeNpu_wf h
  · cases h

end

end Sys2Proof

namespace Sys2Proof.Machine

/-! ## What an effect does to each part of the state -/

section
variable {i : Instr} {s t : State}

/-- A register that a write to an x register changed is the one written, and not x0 (10_state.md R31). -/
theorem State.readX_changed_of_writeX {rd r : Reg} {v : Word} (h : (s.writeX rd v).readX r ≠ s.readX r) :
    r = rd ∧ r ≠ 0#5 := by
  have hr : r = rd := by
    by_contra hne
    exact h (s.writeX_readX_of_ne v hne)
  subst hr
  refine ⟨rfl, ?_⟩
  rintro rfl
  exact h rfl

/-- An x register that changed is the one the `rd` field names, of an instruction that writes one (R33). -/
theorem Effect.readX_changed (h : Effect i s t) {r : Reg} (hr : t.readX r ≠ s.readX r) :
    i.writesX = true ∧ r = i.rdField ∧ r ≠ 0#5 := by
  cases h with
  | x v hw | xFlags v fl hw | link a hc hw | readOut ha hw => exact ⟨hw, State.readX_changed_of_writeX hr⟩
  | f | fFlags | mem | go | nothing | acc | vector => exact absurd rfl hr

/-- An f register that changed is the one the `rd` field names, of an instruction that writes one. -/
theorem Effect.readF_changed (h : Effect i s t) {r : Reg} (hr : t.readF r ≠ s.readF r) :
    i.writesF = true ∧ r = i.rdField := by
  cases h with
  | f v hw | fFlags v fl hw => exact ⟨hw, by by_contra hne; exact hr (s.writeF_readF_of_ne v hne)⟩
  | x | xFlags | link | readOut | mem | go | nothing | acc | vector => exact absurd (by simp) hr

/-- An effect signals some flags, and none outside the table of 45_f_arith.md R263. -/
theorem Effect.signals (h : Effect i s t) : ∃ new, Signals s t new ∧ (i.signals = false → KeepsFcsr s t) := by
  cases h with
  | xFlags v fl hw hs | fFlags v fl hw hs => exact ⟨fl, by simp [Signals], fun hn => by simp [hs] at hn⟩
  | x | f | mem | go | link | nothing | acc | readOut | vector =>
    exact ⟨FFlags.none, by simp [Signals], fun _ => by simp [KeepsFcsr]⟩

/-- The accumulator changes only by the instructions that write it (10_state.md R46). -/
theorem Effect.keepsAcc (h : Effect i s t) (hi : i.writesAcc = false) : KeepsAcc s t := by
  cases h with
  | acc v ha | readOut ha => simp [ha] at hi
  | x | xFlags | f | fFlags | mem | go | link | nothing | vector => simp [KeepsAcc]

/-- The vector registers change only by NPU.LDVEC (R47). -/
theorem Effect.keepsV (h : Effect i s t) (hi : i.mnemonic ≠ "NPU.LDVEC") : KeepsV s t := by
  cases h with
  | vector k v hm => exact absurd hm hi
  | x | xFlags | f | fFlags | mem | go | link | nothing | acc | readOut => intro k; simp

/-- The NPU state changes only at opcode `0x0B` (R48). -/
theorem Effect.keepsNpu (h : Effect i s t) (hi : i.isNpu = false) : KeepsNpu s t := by
  cases h with
  | acc v ha hn | readOut ha hx hn | vector k v hm hn => simp [hn] at hi
  | x | xFlags | f | fFlags | mem | go | link | nothing => simp [KeepsNpu, KeepsAcc, KeepsV]

/-- No instruction at opcode `0x0B` writes an f register (47_npu.md R320). -/
theorem Effect.keepsF (h : Effect i s t) (hi : i.isNpu = true) : KeepsF s t := by
  cases h with
  | f v hw hn | fFlags v fl hw hs hn => simp [hn] at hi
  | x | xFlags | mem | go | link | nothing | acc | readOut | vector => intro r; simp

/-- No instruction at opcode `0x0B` sets a flag (R320). -/
theorem Effect.keepsFcsr (h : Effect i s t) (hi : i.isNpu = true) : KeepsFcsr s t := by
  cases h with
  | xFlags v fl hw hs hn | fFlags v fl hw hs hn => simp [hn] at hi
  | x | f | mem | go | link | nothing | acc | readOut | vector => simp [KeepsFcsr]

/-- Only an instruction that sets the pc itself does not go on at `pc + 4` (10_state.md R36). -/
theorem Effect.pc_of_not_control (h : Effect i s t) (hi : i.isControl = false) : t.pc = s.pc + 4#32 := by
  cases h with
  | go a hc | link a hc => simp [hc] at hi
  | x | xFlags | f | fFlags | mem | nothing | acc | readOut | vector => simp

/-- No instruction at opcode `0x0B` sets the pc itself (47_npu.md R320). -/
theorem Effect.pc_of_npu (h : Effect i s t) (hi : i.isNpu = true) : t.pc = s.pc + 4#32 := by
  cases h with
  | go a hc hn | link a hc hw hn => simp [hn] at hi
  | x | xFlags | f | fFlags | mem | nothing | acc | readOut | vector => simp

/-- Only the storing instructions change memory (10_state.md R50). -/
theorem Effect.mem_of_not_store (h : Effect i s t) (hi : i.writesMemory = false) : t.mem = s.mem := by
  cases h with
  | mem m hw => simp [hw] at hi
  | x | xFlags | f | fFlags | go | link | nothing | acc | readOut | vector => simp

/-- Memory changes by writes to valid bytes only (20_memory.md R71). -/
theorem Effect.puts (h : Effect i s t) : Puts s t.mem := by
  cases h with
  | mem m hw hc hm => exact hm
  | x | xFlags | f | fFlags | go | link | nothing | acc | readOut | vector => simpa using Puts.none

/-- The cell of x0 is never written (10_state.md R31; log 23). -/
theorem Effect.cell_zero (h : Effect i s t) : t.x[0] = s.x[0] := by
  cases h with
  | x v | xFlags v | link | readOut => exact s.writeX_cell_zero _ _
  | f | fFlags | mem | go | nothing | acc | vector => rfl

/-- An even pc stays even (R37): branch offsets and jump targets are even, and so is 4. -/
theorem Effect.pc_even (h : Effect i s t) (hw : i.wf = true) (hs : s.pc.getLsbD 0 = false) : t.pc.getLsbD 0 = false := by
  cases h with
  | go a hc hn he | link a hc hx hn he => exact he hw hs
  | x | xFlags | f | fFlags | mem | nothing | acc | readOut | vector => simpa using even_add (b := 4#32) (by decide) hs

end

/-! ## The invariant -/

theorem Arch.ok_iff {map : List Region} {a : Arch} : a.ok map = true ↔
    a.mem.wf = true ∧ (∀ c ∈ a.mem, validIn map c.1 = true) ∧ a.x[0] = 0#32 ∧ a.pc.getLsbD 0 = false := by
  simp [Arch.ok, and_assoc]

/-- Writes to valid bytes keep the canonical form. -/
theorem Puts.wf {s : State} {m : Memory} (h : Puts s m) (hs : s.mem.wf = true) : m.wf = true := by
  induction h with
  | none => exact hs
  | put m a v _ _ ih => exact Memory.wf_put v ih a.isLt

/-- Writes to valid bytes list valid bytes only. -/
theorem Puts.valid {s : State} {m : Memory} (h : Puts s m) (hs : ∀ c ∈ s.mem, validIn s.memMap c.1 = true) :
    ∀ c ∈ m, validIn s.memMap c.1 = true := by
  induction h with
  | none => exact hs
  | put m a v _ hv ih =>
    intro c hc
    rcases Memory.mem_put hc with ha | hm
    · rw [ha]; exact hv
    · exact ih c hm

/-- An effect of a well-formed instruction keeps good order. -/
theorem Effect.keeps_ok {i : Instr} {s t : State} (h : Effect i s t) (hw : i.wf = true)
    (hs : s.toArch.ok s.memMap = true) : t.toArch.ok s.memMap = true := by
  obtain ⟨hwf, hvalid, hzero, heven⟩ := Arch.ok_iff.mp hs
  exact Arch.ok_iff.mpr ⟨h.puts.wf hwf, h.puts.valid hvalid, h.cell_zero.trans hzero, h.pc_even hw heven⟩

/-- Every well-formed instruction keeps good order, ECALL under a handler that keeps it (60_exceptions.md R374). -/
theorem exec_keeps_ok {i : Instr} {s t : State} (h : exec i s = .next t) (hw : i.wf = true) (hs : s.Inv) :
    t.toArch.ok s.memMap = true := by
  obtain ⟨hok, hhandler⟩ := hs
  rcases exec_next_cases h with ⟨-, a, ha, rfl⟩ | ⟨-, he⟩
  · exact hhandler s.toArch a ha hok
  · exact he.keeps_ok hw hok

/-- The handler that stops resumes with no state at all. -/
theorem stop_keepsOrder (map : List Region) : EcallHandler.stop.KeepsOrder map := fun _ _ h => nomatch h

/-- The handler that always resumes changes the pc alone, and by an even number. -/
theorem resume_keepsOrder (map : List Region) : EcallHandler.resume.KeepsOrder map := by
  intro a b h hok
  obtain ⟨hwf, hvalid, hzero, heven⟩ := Arch.ok_iff.mp hok
  cases h
  exact Arch.ok_iff.mpr ⟨hwf, hvalid, hzero, even_add (b := 4#32) (by decide) heven⟩

/-! ## The statements on one state -/

/-- Settles O10: the step runs a decoded, so well-formed, instruction; that keeps good order, and no instruction changes the
memory map or the handler. -/
theorem stepKeepsInv : Obligations.StepKeepsInv := by
  intro s t hs h
  obtain ⟨w, i, -, hdecode, hexec⟩ := step_next h
  obtain ⟨hmap, hhandler⟩ := exec_keepsHost hexec
  refine ⟨?_, ?_⟩
  · rw [hmap]; exact exec_keeps_ok hexec (decode_wf hdecode) hs
  · rw [hmap, hhandler]; exact hs.2

/-- Settles O11: the launch state is evaluated, the two handlers keep order over every memory map. -/
theorem resetMeetsInv : Obligations.ResetMeetsInv := by
  have hok : State.reset.toArch.ok State.reset.memMap = true := by decide
  have hbytes : State.reset.accessible State.reset.pc 4 = true := by decide
  exact ⟨⟨hok, stop_keepsOrder _⟩, fun map => ⟨stop_keepsOrder map, resume_keepsOrder map⟩, State.reset.readX_zero,
    by decide, (accessible_iff _ _ _).mp hbytes⟩

/-- Settles O13: only two kinds of effect touch `fcsr`, and both signal. -/
theorem fcsrOnlyAccumulates : Obligations.FcsrOnlyAccumulates := by
  intro i s t hi h
  exact (exec_effect hi h).signals

/-- Settles O14: each clause is what an effect keeps of one part of the state. -/
theorem npuStateIsSeparate : Obligations.NpuStateIsSeparate := by
  intro i s t hi h
  have he := exec_effect hi h
  exact ⟨he.keepsAcc, he.keepsV, he.keepsNpu, fun hn => ⟨he.keepsF hn, he.keepsFcsr hn, he.pc_of_npu hn⟩⟩

/-- Settles O15: every effect but a jump's or a branch's ends in `advance`, a sum modulo 2^32. -/
theorem sequentialPc : Obligations.SequentialPc := by
  intro i s t hi hc h
  rw [(exec_effect hi h).pc_of_not_control hc, BitVec.toNat_add]
  rfl

/-- Settles O16: where the memory is the same, so is each byte. -/
theorem onlyStoresChangeMemory : Obligations.OnlyStoresChangeMemory := by
  intro i s t hi hw h a
  simp only [State.byteAt, (exec_effect hi h).mem_of_not_store hw]

/-- Settles O17: only the register an effect writes can read otherwise than before. -/
theorem registerWriters : Obligations.RegisterWriters := by
  refine ⟨fun i s t hi h => ?_, fun s => ⟨s.readX_zero, s.writeX_zero⟩⟩
  have he := exec_effect hi h
  exact ⟨fun _ hr => he.readX_changed hr, fun _ hr => he.readF_changed hr⟩

end Sys2Proof.Machine
end

section
/-!
PROOFS that `fcsr` and `acc_hi` are hidden (10_state.md R44, R45, R46). The one idea: no shared operation reads either, so on a
state with other values there it does the same but for them; `acc_hi` is an operand of the accumulator's sums, and the low half of
a sum depends on the low halves alone.
-/

namespace Sys2Proof.Machine

/-! ## A state with other hidden values -/

/-- `s` with these values of `fcsr` and `acc_hi`. -/
def State.withHidden (s : State) (c : Fcsr) (v : Word) : State := { s with fcsr := c, accHi := v }

section
variable (s : State) (c : Fcsr) (v : Word)

@[simp] theorem State.withHidden_pc : (s.withHidden c v).pc = s.pc := rfl
@[simp] theorem State.withHidden_accLo : (s.withHidden c v).accLo = s.accLo := rfl
@[simp] theorem State.withHidden_readX (r : Reg) : (s.withHidden c v).readX r = s.readX r := rfl
@[simp] theorem State.withHidden_byteAt (a : Word) : (s.withHidden c v).byteAt a = s.byteAt a := rfl
@[simp] theorem State.withHidden_wordAt (a : Word) : (s.withHidden c v).wordAt a = s.wordAt a := rfl
@[simp] theorem State.withHidden_valid (a : Word) : (s.withHidden c v).valid a = s.valid a := rfl
@[simp] theorem State.withHidden_putByte (a : Word) (b : Byte) :
    (s.withHidden c v).putByte a b = (s.putByte a b).withHidden c v := rfl
@[simp] theorem State.withHidden_putWord (a b : Word) :
    (s.withHidden c v).putWord a b = (s.putWord a b).withHidden c v := rfl
@[simp] theorem State.withHidden_advance : (s.withHidden c v).advance = s.advance.withHidden c v := rfl

@[simp] theorem State.withHidden_writeX (r : Reg) (a : Word) :
    (s.withHidden c v).writeX r a = (s.writeX r a).withHidden c v := by
  unfold State.writeX; split <;> rfl

@[simp] theorem State.withHidden_accessible (a : Word) (n : Nat) :
    (s.withHidden c v).accessible a n = s.accessible a n := by
  induction n with
  | zero => rfl
  | succ n ih => simp [State.accessible, ih]

@[simp] theorem guardLoad_withHidden (a : Word) (n : Nat) : guardLoad (s.withHidden c v) a n = guardLoad s a n := by
  simp [guardLoad]

@[simp] theorem guardStore_withHidden (a : Word) (n : Nat) : guardStore (s.withHidden c v) a n = guardStore s a n := by
  simp [guardStore]

@[simp] theorem elemCount_withHidden (r : Reg) : elemCount (s.withHidden c v) r = elemCount s r := rfl

@[simp] theorem fetch_withHidden : fetch (s.withHidden c v) = fetch s := by simp [fetch]

end

/-! ## Outcomes that differ in the hidden values alone -/

/-- The same fault, or next states that differ in `fcsr` and `acc_hi` alone. -/
inductive SameButHidden : Result → Result → Prop where
  | next (t : State) (c : Fcsr) (v : Word) : SameButHidden (.next t) (.next (t.withHidden c v))
  | fault (e : Fault) : SameButHidden (.fault e) (.fault e)

/-! ## The shared operations -/

section
variable (s : State) (c : Fcsr) (v : Word)

/-- An exception other than ECALL's ends the run, whatever the state (60_exceptions.md R362). -/
theorem deliver_of_ne_environmentCall {e : Fault} (h : e ≠ .environmentCall) (s : State) : deliver e s = .fault e := by
  cases e with
  | environmentCall => exact absurd rfl h
  | _ => rfl

theorem sameButHidden_deliver {e : Fault} (h : e ≠ .environmentCall) :
    SameButHidden (deliver e s) (deliver e (s.withHidden c v)) := by
  rw [deliver_of_ne_environmentCall h, deliver_of_ne_environmentCall h]
  exact .fault e

/-- At an ECALL the host sees the whole state: this needs a handler that does not look (R374). -/
theorem sameButHidden_ecall (h : s.ecallHandler.Blind) :
    SameButHidden (deliver .environmentCall s) (deliver .environmentCall (s.withHidden c v)) := by
  obtain ⟨hresume, hstop⟩ := h s.toArch c v
  cases ha : s.ecallHandler.answer s.toArch with
  | none =>
    have hb : (s.withHidden c v).ecallHandler.answer (s.withHidden c v).toArch = none := hstop ha
    simp only [deliver, ha, hb]
    exact .fault _
  | some b =>
    obtain ⟨c', v', hb⟩ := hresume b ha
    change (s.withHidden c v).ecallHandler.answer (s.withHidden c v).toArch = _ at hb
    simp only [deliver, ha, hb]
    exact .next (s.resumeFrom b) c' v'

theorem sameButHidden_completeX (rd : Reg) (a : Word) :
    SameButHidden (completeX s rd a) (completeX (s.withHidden c v) rd a) := by
  simp only [completeX, State.withHidden_writeX]
  exact .next _ c v

theorem sameButHidden_completeF (rd : Reg) (a : Word) :
    SameButHidden (completeF s rd a) (completeF (s.withHidden c v) rd a) :=
  .next _ c v

/-- The flags signalled are added to other flags. -/
theorem sameButHidden_completeFFlags (rd : Reg) (r : Word × FFlags) :
    SameButHidden (completeFFlags s rd r) (completeFFlags (s.withHidden c v) rd r) :=
  .next _ { c with fflags := c.fflags.union r.2 } v

theorem sameButHidden_completeXFlags (rd : Reg) (a : Word) (fl : FFlags) :
    SameButHidden (completeXFlags s rd a fl) (completeXFlags (s.withHidden c v) rd a fl) := by
  simp only [completeXFlags, State.withHidden_writeX]
  exact .next _ { c with fflags := c.fflags.union fl } v

theorem sameButHidden_branchIf (cond : Bool) (imm : Word) :
    SameButHidden (branchIf s cond imm) (branchIf (s.withHidden c v) cond imm) := by
  cases cond <;> exact .next _ c v

theorem sameButHidden_linkAndJump (rd : Reg) (a : Word) :
    SameButHidden (linkAndJump s rd a) (linkAndJump (s.withHidden c v) rd a) := by
  simp only [linkAndJump, State.withHidden_writeX]
  exact .next _ c v

/-- A guarded load, by what it does when its bytes are valid. -/
theorem sameButHidden_guardedLoad (a : Word) (n : Nat) {k k' : Result} (h : SameButHidden k k') :
    SameButHidden (guarded s (guardLoad s a n) k)
      (guarded (s.withHidden c v) (guardLoad (s.withHidden c v) a n) k') := by
  rw [guardLoad_withHidden]
  by_cases hv : AllValid s a n
  · rw [guardLoad_ok s hv]; exact h
  · rw [guardLoad_error s hv]; exact .fault _

/-- A load, whose value reads neither hidden value. -/
theorem sameButHidden_loadX (n : Nat) (rd rs1 : Reg) (imm : Word) {value value' : Word → Word}
    (h : ∀ a, value' a = value a) :
    SameButHidden (loadX s n rd rs1 imm value) (loadX (s.withHidden c v) n rd rs1 imm value') := by
  obtain rfl : value' = value := funext h
  exact sameButHidden_guardedLoad s c v _ n (sameButHidden_completeX s c v rd _)

/-- A store, whose write reads neither hidden value and leaves both. -/
theorem sameButHidden_storeAt (n : Nat) (rs1 : Reg) (imm : Word) {write write' : Word → State}
    (h : ∀ a, write' a = (write a).withHidden c v) :
    SameButHidden (storeAt s n rs1 imm write) (storeAt (s.withHidden c v) n rs1 imm write') := by
  simp only [storeAt, effAddr, State.withHidden_readX, guardStore_withHidden, h]
  by_cases hv : AllValid s (s.readX rs1 + imm) n
  · rw [guardStore_ok s hv]; exact .next _ c v
  · rw [guardStore_error s hv]; exact .fault _

/-! ## The accumulator -/

/-- The low half of an accumulated sum is the sum modulo 2^32 of the low halves: `acc_hi` does not reach it. -/
theorem accPlus_low (p : Int) :
    (accPlus s p).extractLsb' 0 32 = s.accLo + (BitVec.ofInt 64 p).extractLsb' 0 32 := by
  have hsum : accPlus s p = s.acc + BitVec.ofInt 64 p := by
    rw [accPlus, BitVec.ofInt_add, BitVec.ofInt_toInt]
  have hlow : s.acc.setWidth 32 = s.accLo := BitVec.setWidth_append_eq_right
  rw [hsum, ← BitVec.setWidth_eq_extractLsb' (by omega), ← BitVec.setWidth_eq_extractLsb' (by omega),
    BitVec.setWidth_add _ _ (by omega), hlow]

theorem sameButHidden_accumulate (p : Int) :
    SameButHidden (.next (s.writeAcc (accPlus s p)).advance)
      (.next ((s.withHidden c v).writeAcc (accPlus (s.withHidden c v) p)).advance) := by
  have h : (s.withHidden c v).writeAcc (accPlus (s.withHidden c v) p) =
      (s.writeAcc (accPlus s p)).withHidden c ((accPlus (s.withHidden c v) p).extractLsb' 32 32) := by
    simp only [State.writeAcc, accPlus_low, State.withHidden_accLo]
    rfl
  rw [h]
  exact .next _ c _

/-! ## The array instructions -/

/-- A loop whose body commutes with a map of the value commutes with it. -/
theorem ascending_map {β γ : Type} {body : Nat → β → Except Fault β} {body' : Nat → γ → Except Fault γ} (g : β → γ)
    (h : ∀ i b, body' i (g b) = (body i b).map g) (init : β) (n : Nat) :
    ascending body' (g init) n = (ascending body init n).map g := by
  induction n with
  | zero => rfl
  | succ n ih =>
    rw [ascending, ascending, ih]
    cases ascending body init n with
    | error e => rfl
    | ok b => exact h n b

theorem vexpElem_withHidden (src dst : Word) (i : Nat) :
    vexpElem src dst i (s.withHidden c v) = (vexpElem src dst i s).map (·.withHidden c v) := by
  simp only [vexpElem, guardLoad_withHidden, guardStore_withHidden, State.withHidden_wordAt, State.withHidden_putWord]
  cases guardLoad s (elemAddr src 4 i) 4 with
  | error e => rfl
  | ok u => cases guardStore s (elemAddr dst 4 i) 4 <;> rfl

theorem vmulElem_withHidden (src dst : Word) (k : Int) (i : Nat) :
    vmulElem src dst k i (s.withHidden c v) = (vmulElem src dst k i s).map (·.withHidden c v) := by
  simp only [vmulElem, guardLoad_withHidden, guardStore_withHidden, State.withHidden_byteAt, State.withHidden_putByte]
  cases guardLoad s (elemAddr src 1 i) 1 with
  | error e => rfl
  | ok u => cases guardStore s (elemAddr dst 1 i) 1 <;> rfl

theorem vmacElem_withHidden (a b : Word) : vmacElem (s.withHidden c v) a b = vmacElem s a b := by
  funext i sum; simp [vmacElem]

theorem vreduceElem_withHidden (a : Word) : vreduceElem (s.withHidden c v) a = vreduceElem s a := by
  funext i sum; simp [vreduceElem]

theorem vmaxElem_withHidden (a : Word) : vmaxElem (s.withHidden c v) a = vmaxElem s a := by
  funext i best; simp [vmaxElem]

/-- The end of an array instruction that reads: its loop is the same, its update the same but for the hidden values. -/
theorem sameButHidden_afterReads {β : Type} {r : Except Fault β} {k k' : β → State}
    (hr : ∀ e, r = .error e → e ≠ .environmentCall)
    (hk : ∀ b, SameButHidden (.next (k b).advance) (.next (k' b).advance)) :
    SameButHidden (afterReads s r k) (afterReads (s.withHidden c v) r k') := by
  cases r with
  | ok b => exact hk b
  | error e => exact sameButHidden_deliver s c v (hr e rfl)

/-- The end of an array instruction that writes memory: its loop goes through the same states but for the hidden values. -/
theorem sameButHidden_afterWrites {r : Except Fault State} (hr : ∀ e, r = .error e → e ≠ .environmentCall) :
    SameButHidden (afterReads s r id) (afterReads (s.withHidden c v) (r.map (·.withHidden c v)) id) := by
  cases r with
  | ok t => exact .next _ c v
  | error e => exact sameButHidden_deliver s c v (hr e rfl)

end

/-! ## Every instruction and the step -/

/-- No instruction reads `fcsr` or `acc_hi`, but the host at an ECALL. -/
theorem exec_sameButHidden (i : Instr) (s : State) (c : Fcsr) (v : Word) (h : i ≠ .ecall ∨ s.ecallHandler.Blind) :
    SameButHidden (exec i s) (exec i (s.withHidden c v)) := by
  cases i with
  | add | sub | sll | slt | sltu | xor | srl | sra | or | and | addi | slti | sltiu | xori | ori | andi | slli | srli | srai
  | lui | auipc | mul | mulh | mulhsu | mulhu | div | divu | rem | remu | fmvXW | fclassS | npuRelu | npuQmul | npuClamp
  | npuGelu => exact sameButHidden_completeX s c v _ _
  | fsgnjS | fsgnjnS | fsgnjxS | fmvWX => exact sameButHidden_completeF s c v _ _
  | faddS | fsubS | fmulS | fdivS | fsqrtS | fmaddS | fmsubS | fnmsubS | fnmaddS | fminS | fmaxS | fcvtSW | fcvtSWu =>
    exact sameButHidden_completeFFlags s c v _ _
  | feqS | fltS | fleS | fcvtWS | fcvtWuS => exact sameButHidden_completeXFlags s c v _ _ _
  | beq | bne | blt | bge | bltu | bgeu => exact sameButHidden_branchIf s c v _ _
  | jal | jalr => exact sameButHidden_linkAndJump s c v _ _
  | lb | lh | lw | lbu | lhu =>
    simp only [exec, execLb, execLh, execLw, execLbu, execLhu]
    exact sameButHidden_loadX s c v _ _ _ _ fun _ => rfl
  | sb | sh | sw | fsw | npuStvec =>
    simp only [exec, execSb, execSh, execSw, execFsw, execNpuStvec]
    exact sameButHidden_storeAt s c v _ _ _ fun _ => rfl
  | ecall => exact sameButHidden_ecall s c v (h.resolve_left (absurd rfl))
  | ebreak => exact .fault (.breakpoint s.pc)
  | fence => exact .next s.advance c v
  | flw rd => exact sameButHidden_guardedLoad s c v _ 4 (sameButHidden_completeF s c v rd _)
  | npuVrsqrt rd => exact sameButHidden_guardedLoad s c v _ 4 (sameButHidden_completeX s c v rd _)
  | npuLdvec => exact sameButHidden_guardedLoad s c v _ 4 (.next _ c v)
  | npuMacc => exact sameButHidden_accumulate s c v _
  | npuRstacc rd =>
    simp only [exec, execNpuRstacc, State.withHidden_writeX]
    exact .next _ c 0#32
  | npuVmac rd rs1 rs2 =>
    simp only [exec, execNpuVmac, vmacElem_withHidden]
    refine sameButHidden_afterReads s c v (fun e he => ?_) fun sum => sameButHidden_accumulate s c v sum
    obtain ⟨a, rfl, -⟩ := vmac_fault he; simp
  | npuVreduce rd rs1 rs2 =>
    simp only [exec, execNpuVreduce, vreduceElem_withHidden]
    refine sameButHidden_afterReads s c v (fun e he => ?_) fun sum => sameButHidden_completeX s c v rd _
    obtain ⟨a, rfl, -⟩ := vreduce_fault he; simp
  | npuVmax rd rs1 rs2 =>
    simp only [exec, execNpuVmax, vmaxElem_withHidden, elemCount_withHidden, State.withHidden_readX]
    by_cases hn : elemCount s rs2 = 0
    · rw [if_pos hn, if_pos hn]
      exact sameButHidden_completeX s c v rd _
    · rw [if_neg hn, if_neg hn]
      refine sameButHidden_afterReads s c v (fun e he => ?_) fun best => sameButHidden_completeX s c v rd _
      obtain ⟨a, rfl, -⟩ := vmax_fault he; simp
  | npuVexp rd rs1 rs2 =>
    simp only [exec, execNpuVexp, elemCount_withHidden, State.withHidden_readX]
    rw [ascending_map (·.withHidden c v) (fun i t => vexpElem_withHidden t c v _ _ i)]
    refine sameButHidden_afterWrites s c v fun e he => ?_
    obtain ⟨a, -, rfl | rfl⟩ := vexp_fault he <;> simp
  | npuVmul rd rs1 rs2 =>
    simp only [exec, execNpuVmul, elemCount_withHidden, State.withHidden_readX, State.withHidden_accLo]
    rw [ascending_map (·.withHidden c v) (fun i t => vmulElem_withHidden t c v _ _ _ i)]
    refine sameButHidden_afterWrites s c v fun e he => ?_
    obtain ⟨a, -, rfl | rfl⟩ := vmul_fault he <;> simp

/-- A fetch that answers a word answers the word at the pc (20_memory.md R75). -/
theorem fetch_eq_wordIn {s : State} {w : Word} (h : fetch s = .ok w) : w = wordIn s s.pc := by
  unfold fetch at h
  split at h
  · cases h
  · split at h
    · cases h; exact wordAt_eq_wordIn s s.pc
    · cases h

/-- The step reads neither value: the fetch and the decoding do not, the instruction does not. -/
theorem step_sameButHidden (s : State) (c : Fcsr) (v : Word)
    (h : decode (wordIn s s.pc) ≠ .ok .ecall ∨ s.ecallHandler.Blind) :
    SameButHidden (step s) (step (s.withHidden c v)) := by
  cases hf : fetch s with
  | error e =>
    simp only [step, fetch_withHidden, hf]
    exact sameButHidden_deliver s c v (fetch_error_ne_environmentCall hf)
  | ok w =>
    cases hd : decode w with
    | error r =>
      simp only [step, fetch_withHidden, hf, hd]
      exact .fault (.illegalInstruction w)
    | ok i =>
      rw [step_of_fetch s hf hd, step_of_fetch (s.withHidden c v) ((fetch_withHidden s c v).trans hf) hd]
      refine exec_sameButHidden i s c v (h.imp_left ?_)
      rintro hne rfl
      exact hne (fetch_eq_wordIn hf ▸ hd)

/-! ## The statement on two states -/

/-- Settles O20: outcomes that are the same but for the hidden values are both next states or the same fault. -/
theorem hiddenStateIsInvisible : Obligations.HiddenStateIsInvisible := by
  intro s c v h
  have hsame : SameButHidden (step s) (step { s with fcsr := c, accHi := v }) := step_sameButHidden s c v h
  refine ⟨fun t ht => ?_, fun e he => ?_⟩
  · rw [ht] at hsame
    generalize step { s with fcsr := c, accHi := v } = r at hsame ⊢
    cases hsame with
    | next _ c' v' => exact ⟨c', v', rfl⟩
  · rw [he] at hsame
    generalize step { s with fcsr := c, accHi := v } = r at hsame ⊢
    cases hsame with
    | fault => rfl

end Sys2Proof.Machine
end

section
/-!
PROOFS about memory (20_memory.md): what a write leaves is read back (R72, R73, R84), the fetch reads what a store wrote (R75,
R90), and the order of the two exceptions of the fetch (R80, R81). The one idea: a wider write is described once by `WritesMem`,
and the value that a read answers is made of those bytes alone.
-/

namespace Sys2Proof.Machine

/-! ## Values and their bytes -/

/-- A word is its four bytes, byte 3 most significant (R75). -/
theorem bytes_append (v : Word) :
    byteOfWord v 3 ++ byteOfWord v 2 ++ byteOfWord v 1 ++ byteOfWord v 0 = v := by
  simp only [byteOfWord, BitVec.extractLsb'_append_extractLsb'_eq_extractLsb']
  simp

section
variable {s t : State} {a v : Word}

/-! ## Reading what a write left -/

theorem WritesMem.halfAt_eq (h : WritesMem s t a 2 v) : t.halfAt a = v.extractLsb' 0 16 := by
  have h0 : t.byteAt a = v.extractLsb' 0 8 := by simpa using h.1 0 (by omega)
  have h1 : t.byteAt (a + 1#32) = v.extractLsb' 8 8 := h.1 1 (by omega)
  rw [State.halfAt, h0, h1]
  simp only [BitVec.extractLsb'_append_extractLsb'_eq_extractLsb']

theorem WritesMem.wordIn_eq (h : WritesMem s t a 4 v) : wordIn t a = v := by
  have h0 : t.byteAt a = byteOfWord v 0 := by simpa [byteOfWord] using h.1 0 (by omega)
  have h1 : t.byteAt (a + 1#32) = byteOfWord v 1 := h.1 1 (by omega)
  have h2 : t.byteAt (a + 2#32) = byteOfWord v 2 := h.1 2 (by omega)
  have h3 : t.byteAt (a + 3#32) = byteOfWord v 3 := h.1 3 (by omega)
  rw [wordIn, h0, h1, h2, h3, bytes_append]

end

/-! ## Stores that complete -/

/-- A store answers a next state exactly when its bytes are valid, and then it is the write's, moved on. -/
theorem storeAt_next_iff (s : State) {t : State} {n : Nat} {rs1 : Reg} {imm : Word} {write : Word → State} :
    storeAt s n rs1 imm write = .next t ↔
      AllValid s (s.readX rs1 + imm) n ∧ t = (write (s.readX rs1 + imm)).advance := by
  by_cases hv : AllValid s (s.readX rs1 + imm) n
  · rw [storeAt_next s rs1 imm write hv]
    simp [hv, eq_comm]
  · rw [storeAt_faults s rs1 imm write hv]
    simp [hv]

/-- What an SW that completes has done: its four bytes are valid and it wrote `x[rs2]` there (41_rv32i_loadstore.md R198). -/
theorem exec_sw_next {s t : State} {rs1 rs2 : Reg} {imm : Word} (h : exec (.sw rs1 rs2 imm) s = .next t) :
    AllValid s (s.readX rs1 + imm) 4 ∧ t = (s.putWord (s.readX rs1 + imm) (s.readX rs2)).advance := by
  simp only [exec, execSw] at h
  exact (storeAt_next_iff s).mp h

/-! ## The exceptions of the fetch -/

/-- A fetch that raises an exception ends the step with it (60_exceptions.md R362). -/
theorem step_of_fetch_error {s : State} {e : Fault} (h : fetch s = .error e) : step s = .fault e := by
  rw [step, h]
  exact deliver_of_ne_environmentCall (fetch_error_ne_environmentCall h) s

/-! ## The statements -/

/-- Settles O7: the alignment of the pc is its low two bits, which the fetch tests before the validity of its bytes. -/
theorem fetchFaultsInOrder : Obligations.FetchFaultsInOrder := by
  refine fun s => ⟨fun hpc => ?_, fun hpc hvalid => ?_⟩
  · exact step_of_fetch_error (fetch_misaligned s (mt (low_bits_zero s.pc).mp hpc))
  · exact step_of_fetch_error (fetch_invalid s ((low_bits_zero s.pc).mpr hpc) hvalid)

/-- Settles O9: the completed SW found its four bytes valid, and neither the store nor the move of the pc changes which bytes
are; so the next step decodes the word in memory there, which is the one stored. -/
theorem storedWordIsFetched : Obligations.StoredWordIsFetched := by
  intro s t rs1 rs2 imm i hexec halign hdecode
  obtain ⟨hvalid, rfl⟩ := exec_sw_next hexec
  set ea := s.readX rs1 + imm
  set u := (s.putWord ea (s.readX rs2)).advance.setPc ea
  have hmap : u.memMap = s.memMap := by simp [u]
  have hword : wordIn u ea = s.readX rs2 := (putWord_writes s ea (s.readX rs2)).wordIn_eq
  exact stepRunsTheDecodedInstruction u i halign ((allValid_congr s hmap ea 4).mpr hvalid) (hword.symm ▸ hdecode)

/-- Settles O21: one byte by the laws of a byte write; the wider writes are `WritesMem` of their value, a half-word's extended
to a word. -/
theorem writeThenRead : Obligations.WriteThenRead := by
  refine fun s a => ⟨fun v => ?_, fun v => ?_, fun v => ?_⟩
  · exact ⟨s.putByte_byteAt_self a v, fun b hb => s.putByte_byteAt_of_ne v (by simpa using hb 0 (by omega))⟩
  · have hv : (v.zeroExtend 32).extractLsb' 0 16 = v := by simp [BitVec.extractLsb'_setWidth_of_le]
    have hwrites : WritesMem s (s.putHalf a v) a 2 (v.zeroExtend 32) := by
      simpa only [hv] using putHalf_writes s a (v.zeroExtend 32)
    exact ⟨hwrites.halfAt_eq.trans hv, hwrites.2⟩
  · have hwrites := putWord_writes s a v
    exact ⟨hwrites.wordIn_eq, hwrites.2⟩

end Sys2Proof.Machine
end

section
/-!
PROOFS about the decoder and the encoder (30_encoding.md). The one idea: each branch of the decoder fixes just the fields that the
encoder writes as constants and reads every other bit into an operand, so a word that a branch accepts is the encoding of what the
branch answers; with the converse on encoded words, the rows of the opcode table follow.
-/

namespace Sys2Proof

/-! ## Encoding, then decoding -/

/-- The raw I field of an encoded word. -/
theorem extractLsb'_encIRaw (i12 : BitVec 12) (r1 : Reg) (f3 : BitVec 3) (d : Reg) (op : BitVec 7) :
    (encIRaw i12 r1 f3 d op).extractLsb' 20 12 = i12 := by
  have h := congrArg (BitVec.extractLsb' 0 12) (immI_encIRaw i12 r1 f3 d op)
  rwa [immI, extractLsb'_signExtend (by omega), extractLsb'_signExtend (by omega)] at h

/-- An encoded word has the fields it was made of, so every match of the decoder takes the branch of the instruction's row; an
immediate is assembled again because its format holds it. -/
theorem decode_encode {i : Instr} (h : i.wf = true) : decode (encode i) = .ok i := by
  cases i with
  | add | sll | slt | sltu | xor | srl | or | and => simp [encode, decode, decodeOp, decodeOp0]
  | sub | sra => simp [encode, decode, decodeOp, decodeOp32]
  | mul | mulh | mulhsu | mulhu | div | divu | rem | remu => simp [encode, decode, decodeOp, decodeOpM]
  | addi | slti | sltiu | xori | ori | andi => simp [encode, decode, decodeOpImm, immI_encI h]
  | slli => simp [encode, decode, decodeOpImm, decodeSlli]
  | srli | srai => simp [encode, decode, decodeOpImm, decodeShiftRight]
  | lb | lh | lw | lbu | lhu => simp [encode, decode, decodeLoad, immI_encI h]
  | sb | sh | sw => simp [encode, decode, decodeStore, immS_encS h]
  | beq | bne | blt | bge | bltu | bgeu => simp [encode, decode, decodeBranch, immB_encB h]
  | lui | auipc => simp [encode, decode, immU_encU h]
  | jal => simp [encode, decode, immJ_encJ h]
  | jalr => simp [encode, decode, immI_encI h]
  | ecall | ebreak => rfl
  | fence => simp [encode, decode, decodeFence, extractLsb'_encIRaw]
  | flw => simp [encode, decode, decodeFlw, immI_encI h]
  | fsw => simp [encode, decode, decodeFsw, immS_encS h]
  | faddS | fsubS | fmulS | fdivS => simp [encode, decode, decodeFp]
  | fsqrtS => simp [encode, decode, decodeFp, decodeFsqrt]
  | fmaddS | fmsubS | fnmsubS | fnmaddS => simp [encode, decode]
  | fsgnjS | fsgnjnS | fsgnjxS => simp [encode, decode, decodeFp, decodeFsgnj]
  | fminS | fmaxS => simp [encode, decode, decodeFp, decodeFminmax]
  | feqS | fltS | fleS => simp [encode, decode, decodeFp, decodeFcmp]
  | fcvtWS | fcvtWuS => simp [encode, decode, decodeFp, decodeFcvtToInt]
  | fcvtSW | fcvtSWu => simp [encode, decode, decodeFp, decodeFcvtFromInt]
  | fmvXW | fclassS => simp [encode, decode, decodeFp, decodeFmvXClass]
  | fmvWX => simp [encode, decode, decodeFp, decodeFmvWX]
  | npuMacc | npuVmac | npuVexp | npuVrsqrt | npuVmul | npuVreduce | npuVmax =>
    simp [encode, decode, decodeNpu, decodeNpuArray]
  | npuRelu | npuQmul | npuClamp | npuGelu | npuRstacc => simp [encode, decode, decodeNpu, decodeNpuScalar]
  | npuLdvec => simp [encode, decode, decodeNpu, immI_encI h]
  | npuStvec => simp [encode, decode, decodeNpu, immS_encS h]

/-! ## A word with known fields, as an encoding -/

section
variable {w : Word} {f7 : BitVec 7} {r2 : Reg} {f3 : BitVec 3} {op : BitVec 7}

theorem encR_eq (h7 : funct7Of w = f7) (h2 : rs2Of w = r2) (h3 : funct3Of w = f3) (ho : opcodeOf w = op) :
    encR f7 r2 (rs1Of w) f3 (rdOf w) op = w := by
  subst h7 h2 h3 ho; exact encR_fields w

theorem encR4_eq (ho : opcodeOf w = op) :
    encR4 (rs3Of w) (fmtOf w) (rs2Of w) (rs1Of w) (funct3Of w) (rdOf w) op = w := by
  subst ho; exact encR4_fields w

theorem encIRaw_eq (h3 : funct3Of w = f3) (ho : opcodeOf w = op) :
    encIRaw (w.extractLsb' 20 12) (rs1Of w) f3 (rdOf w) op = w := by
  subst h3 ho; exact encIRaw_fields w

theorem encI_eq (h3 : funct3Of w = f3) (ho : opcodeOf w = op) : encI (immI w) (rs1Of w) f3 (rdOf w) op = w := by
  subst h3 ho; exact encI_fields w

theorem encS_eq (h3 : funct3Of w = f3) (ho : opcodeOf w = op) : encS (immS w) (rs2Of w) (rs1Of w) f3 op = w := by
  subst h3 ho; exact encS_fields w

theorem encB_eq (h3 : funct3Of w = f3) (ho : opcodeOf w = op) : encB (immB w) (rs2Of w) (rs1Of w) f3 op = w := by
  subst h3 ho; exact encB_fields w

theorem encU_eq (ho : opcodeOf w = op) : encU (immU w) (rdOf w) op = w := by
  subst ho; exact encU_fields w

theorem encJ_eq (ho : opcodeOf w = op) : encJ (immJ w) (rdOf w) op = w := by
  subst ho; exact encJ_fields w

end

/-! ## Everything the decoder can answer -/

/-- An answer of the decoder for a word: an instruction that the word is the encoding of, or the rejection of the word itself. -/
inductive Answers (w : Word) : Except Reject Instr → Prop where
  | instr {i : Instr} : encode i = w → Answers w (.ok i)
  | illegal : Answers w (.error (.illegalInstruction w))

section
variable {w : Word}

theorem decodeOp0_answers (ho : opcodeOf w = 0b0110011#7) (h7 : funct7Of w = 0b0000000#7) : Answers w (decodeOp0 w) := by
  unfold decodeOp0
  split
  case h_9 => exact .illegal
  all_goals exact .instr (encR_eq h7 rfl ‹_› ho)

theorem decodeOp32_answers (ho : opcodeOf w = 0b0110011#7) (h7 : funct7Of w = 0b0100000#7) : Answers w (decodeOp32 w) := by
  unfold decodeOp32
  split
  case h_3 => exact .illegal
  all_goals exact .instr (encR_eq h7 rfl ‹_› ho)

theorem decodeOpM_answers (ho : opcodeOf w = 0b0110011#7) (h7 : funct7Of w = 0b0000001#7) : Answers w (decodeOpM w) := by
  unfold decodeOpM
  split
  case h_9 => exact .illegal
  all_goals exact .instr (encR_eq h7 rfl ‹_› ho)

theorem decodeOp_answers (ho : opcodeOf w = 0b0110011#7) : Answers w (decodeOp w) := by
  unfold decodeOp
  split
  · exact decodeOp0_answers ho ‹_›
  · exact decodeOp32_answers ho ‹_›
  · exact decodeOpM_answers ho ‹_›
  · exact .illegal

theorem decodeSlli_answers (ho : opcodeOf w = 0b0010011#7) (h3 : funct3Of w = 0b001#3) : Answers w (decodeSlli w) := by
  unfold decodeSlli
  split
  · exact .instr (encR_eq ‹_› rfl h3 ho)
  · exact .illegal

theorem decodeShiftRight_answers (ho : opcodeOf w = 0b0010011#7) (h3 : funct3Of w = 0b101#3) :
    Answers w (decodeShiftRight w) := by
  unfold decodeShiftRight
  split
  · exact .instr (encR_eq ‹_› rfl h3 ho)
  · exact .instr (encR_eq ‹_› rfl h3 ho)
  · exact .illegal

theorem decodeOpImm_answers (ho : opcodeOf w = 0b0010011#7) : Answers w (decodeOpImm w) := by
  unfold decodeOpImm
  split
  case h_2 => exact decodeSlli_answers ho ‹_›
  case h_6 => exact decodeShiftRight_answers ho ‹_›
  case h_9 => exact .illegal
  all_goals exact .instr (encI_eq ‹_› ho)

theorem decodeLoad_answers (ho : opcodeOf w = 0b0000011#7) : Answers w (decodeLoad w) := by
  unfold decodeLoad
  split
  case h_6 => exact .illegal
  all_goals exact .instr (encI_eq ‹_› ho)

theorem decodeStore_answers (ho : opcodeOf w = 0b0100011#7) : Answers w (decodeStore w) := by
  unfold decodeStore
  split
  case h_4 => exact .illegal
  all_goals exact .instr (encS_eq ‹_› ho)

theorem decodeBranch_answers (ho : opcodeOf w = 0b1100011#7) : Answers w (decodeBranch w) := by
  unfold decodeBranch
  split
  case h_7 => exact .illegal
  all_goals exact .instr (encB_eq ‹_› ho)

/-- The two system words are compared whole (R132). -/
theorem decodeSystem_answers : Answers w (decodeSystem w) := by
  unfold decodeSystem
  split
  · subst w; exact .instr rfl
  · split
    · subst w; exact .instr rfl
    · exact .illegal

theorem decodeFence_answers (ho : opcodeOf w = 0b0001111#7) : Answers w (decodeFence w) := by
  unfold decodeFence
  split
  · exact .instr (encIRaw_eq ‹_› ho)
  · exact .illegal

theorem decodeFlw_answers (ho : opcodeOf w = 0b0000111#7) : Answers w (decodeFlw w) := by
  unfold decodeFlw
  split
  · exact .instr (encI_eq ‹_› ho)
  · exact .illegal

theorem decodeFsw_answers (ho : opcodeOf w = 0b0100111#7) : Answers w (decodeFsw w) := by
  unfold decodeFsw
  split
  · exact .instr (encS_eq ‹_› ho)
  · exact .illegal

theorem decodeFsqrt_answers (ho : opcodeOf w = 0b1010011#7) (h7 : funct7Of w = 0b0101100#7) :
    Answers w (decodeFsqrt w) := by
  unfold decodeFsqrt
  split
  · exact .instr (encR_eq h7 ‹_› rfl ho)
  · exact .illegal

theorem decodeFsgnj_answers (ho : opcodeOf w = 0b1010011#7) (h7 : funct7Of w = 0b0010000#7) :
    Answers w (decodeFsgnj w) := by
  unfold decodeFsgnj
  split
  case h_4 => exact .illegal
  all_goals exact .instr (encR_eq h7 rfl ‹_› ho)

theorem decodeFminmax_answers (ho : opcodeOf w = 0b1010011#7) (h7 : funct7Of w = 0b0010100#7) :
    Answers w (decodeFminmax w) := by
  unfold decodeFminmax
  split
  case h_3 => exact .illegal
  all_goals exact .instr (encR_eq h7 rfl ‹_› ho)

theorem decodeFcmp_answers (ho : opcodeOf w = 0b1010011#7) (h7 : funct7Of w = 0b1010000#7) :
    Answers w (decodeFcmp w) := by
  unfold decodeFcmp
  split
  case h_4 => exact .illegal
  all_goals exact .instr (encR_eq h7 rfl ‹_› ho)

theorem decodeFcvtToInt_answers (ho : opcodeOf w = 0b1010011#7) (h7 : funct7Of w = 0b1100000#7) :
    Answers w (decodeFcvtToInt w) := by
  unfold decodeFcvtToInt
  split
  case h_3 => exact .illegal
  all_goals exact .instr (encR_eq h7 ‹_› rfl ho)

theorem decodeFcvtFromInt_answers (ho : opcodeOf w = 0b1010011#7) (h7 : funct7Of w = 0b1101000#7) :
    Answers w (decodeFcvtFromInt w) := by
  unfold decodeFcvtFromInt
  split
  case h_3 => exact .illegal
  all_goals exact .instr (encR_eq h7 ‹_› rfl ho)

theorem decodeFmvXClass_answers (ho : opcodeOf w = 0b1010011#7) (h7 : funct7Of w = 0b1110000#7) :
    Answers w (decodeFmvXClass w) := by
  unfold decodeFmvXClass
  split
  case h_3 => exact .illegal
  all_goals exact .instr (encR_eq h7 rfl ‹_› ho)

theorem decodeFmvWX_answers (ho : opcodeOf w = 0b1010011#7) (h7 : funct7Of w = 0b1111000#7) :
    Answers w (decodeFmvWX w) := by
  unfold decodeFmvWX
  split
  · exact .instr (encR_eq h7 rfl ‹_› ho)
  · exact .illegal

theorem decodeFp_answers (ho : opcodeOf w = 0b1010011#7) : Answers w (decodeFp w) := by
  unfold decodeFp
  split
  case h_5 => exact decodeFsqrt_answers ho ‹_›
  case h_6 => exact decodeFsgnj_answers ho ‹_›
  case h_7 => exact decodeFminmax_answers ho ‹_›
  case h_8 => exact decodeFcmp_answers ho ‹_›
  case h_9 => exact decodeFcvtToInt_answers ho ‹_›
  case h_10 => exact decodeFcvtFromInt_answers ho ‹_›
  case h_11 => exact decodeFmvXClass_answers ho ‹_›
  case h_12 => exact decodeFmvWX_answers ho ‹_›
  case h_13 => exact .illegal
  all_goals exact .instr (encR_eq ‹_› rfl rfl ho)

theorem decodeNpuArray_answers (ho : opcodeOf w = 0b0001011#7) (h3 : funct3Of w = 0b000#3) :
    Answers w (decodeNpuArray w) := by
  unfold decodeNpuArray
  split
  case h_8 => exact .illegal
  all_goals exact .instr (encR_eq ‹_› rfl h3 ho)

/-- A scalar NPU instruction is answered when `funct7` is zero, so its word need be known only then. -/
theorem decodeNpuScalar_answers {i : Instr} (h : funct7Of w = 0b0000000#7 → encode i = w) :
    Answers w (decodeNpuScalar w i) := by
  unfold decodeNpuScalar
  split
  · exact .instr (h ‹_›)
  · exact .illegal

theorem decodeNpu_answers (ho : opcodeOf w = 0b0001011#7) : Answers w (decodeNpu w) := by
  unfold decodeNpu
  split
  case h_1 => exact decodeNpuArray_answers ho ‹_›
  case h_7 => exact .instr (encI_eq ‹_› ho)
  case h_8 => exact .instr (encS_eq ‹_› ho)
  case h_9 => exact .illegal
  all_goals exact decodeNpuScalar_answers fun h7 => encR_eq h7 rfl ‹_› ho

/-- What the decoder answers, opcode by opcode (R128). -/
theorem decode_answers (w : Word) : Answers w (decode w) := by
  unfold decode
  split
  · exact decodeOp_answers ‹_›
  · exact decodeOpImm_answers ‹_›
  · exact decodeLoad_answers ‹_›
  · exact decodeStore_answers ‹_›
  · exact decodeBranch_answers ‹_›
  · exact .instr (encU_eq ‹_›)
  · exact .instr (encU_eq ‹_›)
  · exact .instr (encJ_eq ‹_›)
  · exact .instr (encI_eq rfl ‹_›)
  · exact decodeSystem_answers
  · exact decodeFence_answers ‹_›
  · exact decodeFlw_answers ‹_›
  · exact decodeFsw_answers ‹_›
  · exact decodeFp_answers ‹_›
  · exact .instr (encR4_eq ‹_›)
  · exact .instr (encR4_eq ‹_›)
  · exact .instr (encR4_eq ‹_›)
  · exact .instr (encR4_eq ‹_›)
  · exact decodeNpu_answers ‹_›
  · exact .illegal

theorem encode_of_decode {i : Instr} (h : decode w = .ok i) : encode i = w := by
  have ha := decode_answers w
  rw [h] at ha
  cases ha with
  | instr he => exact he

theorem decode_error {e : Reject} (h : decode w = .error e) : e = .illegalInstruction w := by
  have ha := decode_answers w
  rw [h] at ha
  cases ha with
  | illegal => rfl

/-- A word that is no instruction's is rejected with the word. -/
theorem decode_eq_illegal (h : ∀ i, decode w ≠ .ok i) : decode w = .error (.illegalInstruction w) := by
  cases hd : decode w with
  | ok i => exact absurd hd (h i)
  | error e => rw [decode_error hd]

end

/-- Settles O2: every field of the encoded word reads back as the operand it came from. -/
theorem decodeEncode : Obligations.DecodeEncode := fun _ h => decode_encode h

/-- Settles O3: the decoder answers instructions with the word's own encoding only, and well-formed ones only. -/
theorem encodeDecode : Obligations.EncodeDecode := fun _ _ h => ⟨decode_wf h, encode_of_decode h⟩

end Sys2Proof
end

section
/-!
PROOFS about the rows of the opcode table (30_encoding.md R144). Each row's mask keeps the fields that its format fixes
(Laws/Encoding.lean, `mask_…`), so a word of the row is the encoding of the row's instruction with the fields of the word, and
decodes to it.
-/

namespace Sys2Proof.Laws.EncodedRow

/-- Every encoded word lies in its instruction's row, from the facts of Laws/PerInstr.lean. -/
theorem statement (i : Instr) : Statement i := by
  cases i
  exacts [add .., sub .., sll .., slt .., sltu .., xor .., srl .., sra .., or .., and .., addi .., slti .., sltiu .., xori
    .., ori .., andi .., slli .., srli .., srai .., lb .., lh .., lw .., lbu .., lhu .., sb .., sh .., sw .., beq .., bne
    .., blt .., bge .., bltu .., bgeu .., lui .., auipc .., jal .., jalr .., ecall, ebreak, fence .., mul .., mulh ..,
    mulhsu .., mulhu .., div .., divu .., rem .., remu .., flw .., fsw .., faddS .., fsubS .., fmulS .., fdivS .., fsqrtS
    .., fmaddS .., fmsubS .., fnmsubS .., fnmaddS .., fsgnjS .., fsgnjnS .., fsgnjxS .., fminS .., fmaxS .., feqS .., fltS
    .., fleS .., fcvtWS .., fcvtWuS .., fcvtSW .., fcvtSWu .., fmvXW .., fmvWX .., fclassS .., npuMacc .., npuVmac ..,
    npuVexp .., npuVrsqrt .., npuVmul .., npuVreduce .., npuVmax .., npuRelu .., npuQmul .., npuClamp .., npuGelu ..,
    npuRstacc .., npuLdvec .., npuStvec ..]

end Sys2Proof.Laws.EncodedRow

namespace Sys2Proof.Machine

/-! ## From what a mask keeps to what a word decodes to -/

section
variable {p k : Word} {f : Word → Instr}

/-- A row decodes to an instruction whose encoding each of its words is. -/
theorem decodes_of_encode (hwf : ∀ w, (f w).wf = true) (h : ∀ w, w &&& k = p → encode (f w) = w) : Decodes p k f := by
  intro w hw
  rw [← decode_encode (hwf w), h w hw]

/-- A row that fixes the opcode alone. -/
theorem decodes_opcode (hwf : ∀ w, (f w).wf = true) (h : ∀ w, opcodeOf w = opcodeOf p → encode (f w) = w) :
    Decodes p 0x0000007F#32 f := by
  refine decodes_of_encode hwf fun w hw => h w ?_
  rw [← hw, mask_opcode, opcodeOf_encR]

/-- A row that fixes `funct3` and the opcode. -/
theorem decodes_funct3 (hwf : ∀ w, (f w).wf = true)
    (h : ∀ w, funct3Of w = funct3Of p → opcodeOf w = opcodeOf p → encode (f w) = w) : Decodes p 0x0000707F#32 f := by
  refine decodes_of_encode hwf fun w hw => h w ?_ ?_
  · rw [← hw, mask_funct3, funct3Of_encR]
  · rw [← hw, mask_funct3, opcodeOf_encR]

/-- A row that fixes `funct7`, `funct3` and the opcode. -/
theorem decodes_funct7 (hwf : ∀ w, (f w).wf = true)
    (h : ∀ w, funct7Of w = funct7Of p → funct3Of w = funct3Of p → opcodeOf w = opcodeOf p → encode (f w) = w) :
    Decodes p 0xFE00707F#32 f := by
  refine decodes_of_encode hwf fun w hw => h w ?_ ?_ ?_
  · rw [← hw, mask_funct7, funct7Of_encR]
  · rw [← hw, mask_funct7, funct3Of_encR]
  · rw [← hw, mask_funct7, opcodeOf_encR]

/-- A row that fixes `funct7` and the opcode. -/
theorem decodes_funct7_only (hwf : ∀ w, (f w).wf = true)
    (h : ∀ w, funct7Of w = funct7Of p → opcodeOf w = opcodeOf p → encode (f w) = w) : Decodes p 0xFE00007F#32 f := by
  refine decodes_of_encode hwf fun w hw => h w ?_ ?_
  · rw [← hw, mask_funct7_only, funct7Of_encR]
  · rw [← hw, mask_funct7_only, opcodeOf_encR]

/-- A row that fixes `funct7`, `rs2` and the opcode. -/
theorem decodes_funct7_rs2 (hwf : ∀ w, (f w).wf = true)
    (h : ∀ w, funct7Of w = funct7Of p → rs2Of w = rs2Of p → opcodeOf w = opcodeOf p → encode (f w) = w) :
    Decodes p 0xFFF0007F#32 f := by
  refine decodes_of_encode hwf fun w hw => h w ?_ ?_ ?_
  · rw [← hw, mask_funct7_rs2, funct7Of_encR]
  · rw [← hw, mask_funct7_rs2, rs2Of_encR]
  · rw [← hw, mask_funct7_rs2, opcodeOf_encR]

/-- A row of one word. -/
theorem decodes_word {i : Instr} (hwf : i.wf = true) (h : encode i = p) : Decodes p 0xFFFFFFFF#32 (fun _ => i) := by
  refine decodes_of_encode (fun _ => hwf) fun w hw => h.trans (hw.symm.trans ?_)
  exact BitVec.and_allOnes

end

/-! ## The 88 rows, in the table's order -/

theorem decodes_add : Decodes 0x00000033#32 0xFE00707F#32 (fun w => .add (rdOf w) (rs1Of w) (rs2Of w)) :=
  decodes_funct7 (fun _ => rfl) fun _ h7 h3 ho => encR_eq h7 rfl h3 ho
theorem decodes_sub : Decodes 0x40000033#32 0xFE00707F#32 (fun w => .sub (rdOf w) (rs1Of w) (rs2Of w)) :=
  decodes_funct7 (fun _ => rfl) fun _ h7 h3 ho => encR_eq h7 rfl h3 ho
theorem decodes_sll : Decodes 0x00001033#32 0xFE00707F#32 (fun w => .sll (rdOf w) (rs1Of w) (rs2Of w)) :=
  decodes_funct7 (fun _ => rfl) fun _ h7 h3 ho => encR_eq h7 rfl h3 ho
theorem decodes_slt : Decodes 0x00002033#32 0xFE00707F#32 (fun w => .slt (rdOf w) (rs1Of w) (rs2Of w)) :=
  decodes_funct7 (fun _ => rfl) fun _ h7 h3 ho => encR_eq h7 rfl h3 ho
theorem decodes_sltu : Decodes 0x00003033#32 0xFE00707F#32 (fun w => .sltu (rdOf w) (rs1Of w) (rs2Of w)) :=
  decodes_funct7 (fun _ => rfl) fun _ h7 h3 ho => encR_eq h7 rfl h3 ho
theorem decodes_xor : Decodes 0x00004033#32 0xFE00707F#32 (fun w => .xor (rdOf w) (rs1Of w) (rs2Of w)) :=
  decodes_funct7 (fun _ => rfl) fun _ h7 h3 ho => encR_eq h7 rfl h3 ho
theorem decodes_srl : Decodes 0x00005033#32 0xFE00707F#32 (fun w => .srl (rdOf w) (rs1Of w) (rs2Of w)) :=
  decodes_funct7 (fun _ => rfl) fun _ h7 h3 ho => encR_eq h7 rfl h3 ho
theorem decodes_sra : Decodes 0x40005033#32 0xFE00707F#32 (fun w => .sra (rdOf w) (rs1Of w) (rs2Of w)) :=
  decodes_funct7 (fun _ => rfl) fun _ h7 h3 ho => encR_eq h7 rfl h3 ho
theorem decodes_or : Decodes 0x00006033#32 0xFE00707F#32 (fun w => .or (rdOf w) (rs1Of w) (rs2Of w)) :=
  decodes_funct7 (fun _ => rfl) fun _ h7 h3 ho => encR_eq h7 rfl h3 ho
theorem decodes_and : Decodes 0x00007033#32 0xFE00707F#32 (fun w => .and (rdOf w) (rs1Of w) (rs2Of w)) :=
  decodes_funct7 (fun _ => rfl) fun _ h7 h3 ho => encR_eq h7 rfl h3 ho
theorem decodes_addi : Decodes 0x00000013#32 0x0000707F#32 (fun w => .addi (rdOf w) (rs1Of w) (immI w)) :=
  decodes_funct3 fitsI_immI fun _ h3 ho => encI_eq h3 ho
theorem decodes_slti : Decodes 0x00002013#32 0x0000707F#32 (fun w => .slti (rdOf w) (rs1Of w) (immI w)) :=
  decodes_funct3 fitsI_immI fun _ h3 ho => encI_eq h3 ho
theorem decodes_sltiu : Decodes 0x00003013#32 0x0000707F#32 (fun w => .sltiu (rdOf w) (rs1Of w) (immI w)) :=
  decodes_funct3 fitsI_immI fun _ h3 ho => encI_eq h3 ho
theorem decodes_xori : Decodes 0x00004013#32 0x0000707F#32 (fun w => .xori (rdOf w) (rs1Of w) (immI w)) :=
  decodes_funct3 fitsI_immI fun _ h3 ho => encI_eq h3 ho
theorem decodes_ori : Decodes 0x00006013#32 0x0000707F#32 (fun w => .ori (rdOf w) (rs1Of w) (immI w)) :=
  decodes_funct3 fitsI_immI fun _ h3 ho => encI_eq h3 ho
theorem decodes_andi : Decodes 0x00007013#32 0x0000707F#32 (fun w => .andi (rdOf w) (rs1Of w) (immI w)) :=
  decodes_funct3 fitsI_immI fun _ h3 ho => encI_eq h3 ho
theorem decodes_slli : Decodes 0x00001013#32 0xFE00707F#32 (fun w => .slli (rdOf w) (rs1Of w) (rs2Of w)) :=
  decodes_funct7 (fun _ => rfl) fun _ h7 h3 ho => encR_eq h7 rfl h3 ho
theorem decodes_srli : Decodes 0x00005013#32 0xFE00707F#32 (fun w => .srli (rdOf w) (rs1Of w) (rs2Of w)) :=
  decodes_funct7 (fun _ => rfl) fun _ h7 h3 ho => encR_eq h7 rfl h3 ho
theorem decodes_srai : Decodes 0x40005013#32 0xFE00707F#32 (fun w => .srai (rdOf w) (rs1Of w) (rs2Of w)) :=
  decodes_funct7 (fun _ => rfl) fun _ h7 h3 ho => encR_eq h7 rfl h3 ho
theorem decodes_lb : Decodes 0x00000003#32 0x0000707F#32 (fun w => .lb (rdOf w) (rs1Of w) (immI w)) :=
  decodes_funct3 fitsI_immI fun _ h3 ho => encI_eq h3 ho
theorem decodes_lh : Decodes 0x00001003#32 0x0000707F#32 (fun w => .lh (rdOf w) (rs1Of w) (immI w)) :=
  decodes_funct3 fitsI_immI fun _ h3 ho => encI_eq h3 ho
theorem decodes_lw : Decodes 0x00002003#32 0x0000707F#32 (fun w => .lw (rdOf w) (rs1Of w) (immI w)) :=
  decodes_funct3 fitsI_immI fun _ h3 ho => encI_eq h3 ho
theorem decodes_lbu : Decodes 0x00004003#32 0x0000707F#32 (fun w => .lbu (rdOf w) (rs1Of w) (immI w)) :=
  decodes_funct3 fitsI_immI fun _ h3 ho => encI_eq h3 ho
theorem decodes_lhu : Decodes 0x00005003#32 0x0000707F#32 (fun w => .lhu (rdOf w) (rs1Of w) (immI w)) :=
  decodes_funct3 fitsI_immI fun _ h3 ho => encI_eq h3 ho
theorem decodes_sb : Decodes 0x00000023#32 0x0000707F#32 (fun w => .sb (rs1Of w) (rs2Of w) (immS w)) :=
  decodes_funct3 fitsS_immS fun _ h3 ho => encS_eq h3 ho
theorem decodes_sh : Decodes 0x00001023#32 0x0000707F#32 (fun w => .sh (rs1Of w) (rs2Of w) (immS w)) :=
  decodes_funct3 fitsS_immS fun _ h3 ho => encS_eq h3 ho
theorem decodes_sw : Decodes 0x00002023#32 0x0000707F#32 (fun w => .sw (rs1Of w) (rs2Of w) (immS w)) :=
  decodes_funct3 fitsS_immS fun _ h3 ho => encS_eq h3 ho
theorem decodes_beq : Decodes 0x00000063#32 0x0000707F#32 (fun w => .beq (rs1Of w) (rs2Of w) (immB w)) :=
  decodes_funct3 fitsB_immB fun _ h3 ho => encB_eq h3 ho
theorem decodes_bne : Decodes 0x00001063#32 0x0000707F#32 (fun w => .bne (rs1Of w) (rs2Of w) (immB w)) :=
  decodes_funct3 fitsB_immB fun _ h3 ho => encB_eq h3 ho
theorem decodes_blt : Decodes 0x00004063#32 0x0000707F#32 (fun w => .blt (rs1Of w) (rs2Of w) (immB w)) :=
  decodes_funct3 fitsB_immB fun _ h3 ho => encB_eq h3 ho
theorem decodes_bge : Decodes 0x00005063#32 0x0000707F#32 (fun w => .bge (rs1Of w) (rs2Of w) (immB w)) :=
  decodes_funct3 fitsB_immB fun _ h3 ho => encB_eq h3 ho
theorem decodes_bltu : Decodes 0x00006063#32 0x0000707F#32 (fun w => .bltu (rs1Of w) (rs2Of w) (immB w)) :=
  decodes_funct3 fitsB_immB fun _ h3 ho => encB_eq h3 ho
theorem decodes_bgeu : Decodes 0x00007063#32 0x0000707F#32 (fun w => .bgeu (rs1Of w) (rs2Of w) (immB w)) :=
  decodes_funct3 fitsB_immB fun _ h3 ho => encB_eq h3 ho
theorem decodes_lui : Decodes 0x00000037#32 0x0000007F#32 (fun w => .lui (rdOf w) (immU w)) :=
  decodes_opcode fitsU_immU fun _ ho => encU_eq ho
theorem decodes_auipc : Decodes 0x00000017#32 0x0000007F#32 (fun w => .auipc (rdOf w) (immU w)) :=
  decodes_opcode fitsU_immU fun _ ho => encU_eq ho
theorem decodes_jal : Decodes 0x0000006F#32 0x0000007F#32 (fun w => .jal (rdOf w) (immJ w)) :=
  decodes_opcode fitsJ_immJ fun _ ho => encJ_eq ho
theorem decodes_jalr : Decodes 0x00000067#32 0x0000007F#32 (fun w => .jalr (rdOf w) (rs1Of w) (immI w) (funct3Of w)) :=
  decodes_opcode fitsI_immI fun _ ho => encI_eq rfl ho
theorem decodes_ecall : Decodes 0x00000073#32 0xFFFFFFFF#32 (fun _ => .ecall) :=
  decodes_word rfl rfl
theorem decodes_ebreak : Decodes 0x00100073#32 0xFFFFFFFF#32 (fun _ => .ebreak) :=
  decodes_word rfl rfl
theorem decodes_fence : Decodes 0x0000000F#32 0x0000707F#32 (fun w => .fence (rdOf w) (rs1Of w) (w.extractLsb' 20 12)) :=
  decodes_funct3 (fun _ => rfl) fun _ h3 ho => encIRaw_eq h3 ho
theorem decodes_mul : Decodes 0x02000033#32 0xFE00707F#32 (fun w => .mul (rdOf w) (rs1Of w) (rs2Of w)) :=
  decodes_funct7 (fun _ => rfl) fun _ h7 h3 ho => encR_eq h7 rfl h3 ho
theorem decodes_mulh : Decodes 0x02001033#32 0xFE00707F#32 (fun w => .mulh (rdOf w) (rs1Of w) (rs2Of w)) :=
  decodes_funct7 (fun _ => rfl) fun _ h7 h3 ho => encR_eq h7 rfl h3 ho
theorem decodes_mulhsu : Decodes 0x02002033#32 0xFE00707F#32 (fun w => .mulhsu (rdOf w) (rs1Of w) (rs2Of w)) :=
  decodes_funct7 (fun _ => rfl) fun _ h7 h3 ho => encR_eq h7 rfl h3 ho
theorem decodes_mulhu : Decodes 0x02003033#32 0xFE00707F#32 (fun w => .mulhu (rdOf w) (rs1Of w) (rs2Of w)) :=
  decodes_funct7 (fun _ => rfl) fun _ h7 h3 ho => encR_eq h7 rfl h3 ho
theorem decodes_div : Decodes 0x02004033#32 0xFE00707F#32 (fun w => .div (rdOf w) (rs1Of w) (rs2Of w)) :=
  decodes_funct7 (fun _ => rfl) fun _ h7 h3 ho => encR_eq h7 rfl h3 ho
theorem decodes_divu : Decodes 0x02005033#32 0xFE00707F#32 (fun w => .divu (rdOf w) (rs1Of w) (rs2Of w)) :=
  decodes_funct7 (fun _ => rfl) fun _ h7 h3 ho => encR_eq h7 rfl h3 ho
theorem decodes_rem : Decodes 0x02006033#32 0xFE00707F#32 (fun w => .rem (rdOf w) (rs1Of w) (rs2Of w)) :=
  decodes_funct7 (fun _ => rfl) fun _ h7 h3 ho => encR_eq h7 rfl h3 ho
theorem decodes_remu : Decodes 0x02007033#32 0xFE00707F#32 (fun w => .remu (rdOf w) (rs1Of w) (rs2Of w)) :=
  decodes_funct7 (fun _ => rfl) fun _ h7 h3 ho => encR_eq h7 rfl h3 ho
theorem decodes_flw : Decodes 0x00002007#32 0x0000707F#32 (fun w => .flw (rdOf w) (rs1Of w) (immI w)) :=
  decodes_funct3 fitsI_immI fun _ h3 ho => encI_eq h3 ho
theorem decodes_fsw : Decodes 0x00002027#32 0x0000707F#32 (fun w => .fsw (rs1Of w) (rs2Of w) (immS w)) :=
  decodes_funct3 fitsS_immS fun _ h3 ho => encS_eq h3 ho
theorem decodes_faddS : Decodes 0x00000053#32 0xFE00007F#32 (fun w => .faddS (rdOf w) (rs1Of w) (rs2Of w) (funct3Of w)) :=
  decodes_funct7_only (fun _ => rfl) fun _ h7 ho => encR_eq h7 rfl rfl ho
theorem decodes_fsubS : Decodes 0x08000053#32 0xFE00007F#32 (fun w => .fsubS (rdOf w) (rs1Of w) (rs2Of w) (funct3Of w)) :=
  decodes_funct7_only (fun _ => rfl) fun _ h7 ho => encR_eq h7 rfl rfl ho
theorem decodes_fmulS : Decodes 0x10000053#32 0xFE00007F#32 (fun w => .fmulS (rdOf w) (rs1Of w) (rs2Of w) (funct3Of w)) :=
  decodes_funct7_only (fun _ => rfl) fun _ h7 ho => encR_eq h7 rfl rfl ho
theorem decodes_fdivS : Decodes 0x18000053#32 0xFE00007F#32 (fun w => .fdivS (rdOf w) (rs1Of w) (rs2Of w) (funct3Of w)) :=
  decodes_funct7_only (fun _ => rfl) fun _ h7 ho => encR_eq h7 rfl rfl ho
theorem decodes_fsqrtS : Decodes 0x58000053#32 0xFFF0007F#32 (fun w => .fsqrtS (rdOf w) (rs1Of w) (funct3Of w)) :=
  decodes_funct7_rs2 (fun _ => rfl) fun _ h7 h2 ho => encR_eq h7 h2 rfl ho
theorem decodes_fmaddS : Decodes 0x00000043#32 0x0000007F#32
    (fun w => .fmaddS (rdOf w) (rs1Of w) (rs2Of w) (rs3Of w) (funct3Of w) (fmtOf w)) :=
  decodes_opcode (fun _ => rfl) fun _ ho => encR4_eq ho
theorem decodes_fmsubS : Decodes 0x00000047#32 0x0000007F#32
    (fun w => .fmsubS (rdOf w) (rs1Of w) (rs2Of w) (rs3Of w) (funct3Of w) (fmtOf w)) :=
  decodes_opcode (fun _ => rfl) fun _ ho => encR4_eq ho
theorem decodes_fnmsubS : Decodes 0x0000004B#32 0x0000007F#32
    (fun w => .fnmsubS (rdOf w) (rs1Of w) (rs2Of w) (rs3Of w) (funct3Of w) (fmtOf w)) :=
  decodes_opcode (fun _ => rfl) fun _ ho => encR4_eq ho
theorem decodes_fnmaddS : Decodes 0x0000004F#32 0x0000007F#32
    (fun w => .fnmaddS (rdOf w) (rs1Of w) (rs2Of w) (rs3Of w) (funct3Of w) (fmtOf w)) :=
  decodes_opcode (fun _ => rfl) fun _ ho => encR4_eq ho
theorem decodes_fsgnjS : Decodes 0x20000053#32 0xFE00707F#32 (fun w => .fsgnjS (rdOf w) (rs1Of w) (rs2Of w)) :=
  decodes_funct7 (fun _ => rfl) fun _ h7 h3 ho => encR_eq h7 rfl h3 ho
theorem decodes_fsgnjnS : Decodes 0x20001053#32 0xFE00707F#32 (fun w => .fsgnjnS (rdOf w) (rs1Of w) (rs2Of w)) :=
  decodes_funct7 (fun _ => rfl) fun _ h7 h3 ho => encR_eq h7 rfl h3 ho
theorem decodes_fsgnjxS : Decodes 0x20002053#32 0xFE00707F#32 (fun w => .fsgnjxS (rdOf w) (rs1Of w) (rs2Of w)) :=
  decodes_funct7 (fun _ => rfl) fun _ h7 h3 ho => encR_eq h7 rfl h3 ho
theorem decodes_fminS : Decodes 0x28000053#32 0xFE00707F#32 (fun w => .fminS (rdOf w) (rs1Of w) (rs2Of w)) :=
  decodes_funct7 (fun _ => rfl) fun _ h7 h3 ho => encR_eq h7 rfl h3 ho
theorem decodes_fmaxS : Decodes 0x28001053#32 0xFE00707F#32 (fun w => .fmaxS (rdOf w) (rs1Of w) (rs2Of w)) :=
  decodes_funct7 (fun _ => rfl) fun _ h7 h3 ho => encR_eq h7 rfl h3 ho
theorem decodes_feqS : Decodes 0xA0002053#32 0xFE00707F#32 (fun w => .feqS (rdOf w) (rs1Of w) (rs2Of w)) :=
  decodes_funct7 (fun _ => rfl) fun _ h7 h3 ho => encR_eq h7 rfl h3 ho
theorem decodes_fltS : Decodes 0xA0001053#32 0xFE00707F#32 (fun w => .fltS (rdOf w) (rs1Of w) (rs2Of w)) :=
  decodes_funct7 (fun _ => rfl) fun _ h7 h3 ho => encR_eq h7 rfl h3 ho
theorem decodes_fleS : Decodes 0xA0000053#32 0xFE00707F#32 (fun w => .fleS (rdOf w) (rs1Of w) (rs2Of w)) :=
  decodes_funct7 (fun _ => rfl) fun _ h7 h3 ho => encR_eq h7 rfl h3 ho
theorem decodes_fcvtWS : Decodes 0xC0000053#32 0xFFF0007F#32 (fun w => .fcvtWS (rdOf w) (rs1Of w) (funct3Of w)) :=
  decodes_funct7_rs2 (fun _ => rfl) fun _ h7 h2 ho => encR_eq h7 h2 rfl ho
theorem decodes_fcvtWuS : Decodes 0xC0100053#32 0xFFF0007F#32 (fun w => .fcvtWuS (rdOf w) (rs1Of w) (funct3Of w)) :=
  decodes_funct7_rs2 (fun _ => rfl) fun _ h7 h2 ho => encR_eq h7 h2 rfl ho
theorem decodes_fcvtSW : Decodes 0xD0000053#32 0xFFF0007F#32 (fun w => .fcvtSW (rdOf w) (rs1Of w) (funct3Of w)) :=
  decodes_funct7_rs2 (fun _ => rfl) fun _ h7 h2 ho => encR_eq h7 h2 rfl ho
theorem decodes_fcvtSWu : Decodes 0xD0100053#32 0xFFF0007F#32 (fun w => .fcvtSWu (rdOf w) (rs1Of w) (funct3Of w)) :=
  decodes_funct7_rs2 (fun _ => rfl) fun _ h7 h2 ho => encR_eq h7 h2 rfl ho
theorem decodes_fmvXW : Decodes 0xE0000053#32 0xFE00707F#32 (fun w => .fmvXW (rdOf w) (rs1Of w) (rs2Of w)) :=
  decodes_funct7 (fun _ => rfl) fun _ h7 h3 ho => encR_eq h7 rfl h3 ho
theorem decodes_fmvWX : Decodes 0xF0000053#32 0xFE00707F#32 (fun w => .fmvWX (rdOf w) (rs1Of w) (rs2Of w)) :=
  decodes_funct7 (fun _ => rfl) fun _ h7 h3 ho => encR_eq h7 rfl h3 ho
theorem decodes_fclassS : Decodes 0xE0001053#32 0xFE00707F#32 (fun w => .fclassS (rdOf w) (rs1Of w) (rs2Of w)) :=
  decodes_funct7 (fun _ => rfl) fun _ h7 h3 ho => encR_eq h7 rfl h3 ho
theorem decodes_npuMacc : Decodes 0x0000000B#32 0xFE00707F#32 (fun w => .npuMacc (rdOf w) (rs1Of w) (rs2Of w)) :=
  decodes_funct7 (fun _ => rfl) fun _ h7 h3 ho => encR_eq h7 rfl h3 ho
theorem decodes_npuVmac : Decodes 0x0200000B#32 0xFE00707F#32 (fun w => .npuVmac (rdOf w) (rs1Of w) (rs2Of w)) :=
  decodes_funct7 (fun _ => rfl) fun _ h7 h3 ho => encR_eq h7 rfl h3 ho
theorem decodes_npuVexp : Decodes 0x0400000B#32 0xFE00707F#32 (fun w => .npuVexp (rdOf w) (rs1Of w) (rs2Of w)) :=
  decodes_funct7 (fun _ => rfl) fun _ h7 h3 ho => encR_eq h7 rfl h3 ho
theorem decodes_npuVrsqrt : Decodes 0x0600000B#32 0xFE00707F#32 (fun w => .npuVrsqrt (rdOf w) (rs1Of w) (rs2Of w)) :=
  decodes_funct7 (fun _ => rfl) fun _ h7 h3 ho => encR_eq h7 rfl h3 ho
theorem decodes_npuVmul : Decodes 0x0800000B#32 0xFE00707F#32 (fun w => .npuVmul (rdOf w) (rs1Of w) (rs2Of w)) :=
  decodes_funct7 (fun _ => rfl) fun _ h7 h3 ho => encR_eq h7 rfl h3 ho
theorem decodes_npuVreduce : Decodes 0x0A00000B#32 0xFE00707F#32 (fun w => .npuVreduce (rdOf w) (rs1Of w) (rs2Of w)) :=
  decodes_funct7 (fun _ => rfl) fun _ h7 h3 ho => encR_eq h7 rfl h3 ho
theorem decodes_npuVmax : Decodes 0x0C00000B#32 0xFE00707F#32 (fun w => .npuVmax (rdOf w) (rs1Of w) (rs2Of w)) :=
  decodes_funct7 (fun _ => rfl) fun _ h7 h3 ho => encR_eq h7 rfl h3 ho
theorem decodes_npuRelu : Decodes 0x0000100B#32 0xFE00707F#32 (fun w => .npuRelu (rdOf w) (rs1Of w) (rs2Of w)) :=
  decodes_funct7 (fun _ => rfl) fun _ h7 h3 ho => encR_eq h7 rfl h3 ho
theorem decodes_npuQmul : Decodes 0x0000200B#32 0xFE00707F#32 (fun w => .npuQmul (rdOf w) (rs1Of w) (rs2Of w)) :=
  decodes_funct7 (fun _ => rfl) fun _ h7 h3 ho => encR_eq h7 rfl h3 ho
theorem decodes_npuClamp : Decodes 0x0000300B#32 0xFE00707F#32 (fun w => .npuClamp (rdOf w) (rs1Of w) (rs2Of w)) :=
  decodes_funct7 (fun _ => rfl) fun _ h7 h3 ho => encR_eq h7 rfl h3 ho
theorem decodes_npuGelu : Decodes 0x0000400B#32 0xFE00707F#32 (fun w => .npuGelu (rdOf w) (rs1Of w) (rs2Of w)) :=
  decodes_funct7 (fun _ => rfl) fun _ h7 h3 ho => encR_eq h7 rfl h3 ho
theorem decodes_npuRstacc : Decodes 0x0000500B#32 0xFE00707F#32 (fun w => .npuRstacc (rdOf w) (rs1Of w) (rs2Of w)) :=
  decodes_funct7 (fun _ => rfl) fun _ h7 h3 ho => encR_eq h7 rfl h3 ho
theorem decodes_npuLdvec : Decodes 0x0000600B#32 0x0000707F#32 (fun w => .npuLdvec (rdOf w) (rs1Of w) (immI w)) :=
  decodes_funct3 fitsI_immI fun _ h3 ho => encI_eq h3 ho
theorem decodes_npuStvec : Decodes 0x0000700B#32 0x0000707F#32 (fun w => .npuStvec (rs1Of w) (rs2Of w) (immS w)) :=
  decodes_funct3 fitsS_immS fun _ h3 ho => encS_eq h3 ho

/-! ## The table -/

/-- The words of the row decode to instructions of the row's mnemonic. -/
def RowDecodes (r : OpcodeRow) : Prop := ∃ f, Decodes r.pattern r.mask f ∧ ∀ w, (f w).mnemonic = r.mnemonic

theorem opcodeRows1_decode : ∀ r ∈ opcodeRows1, RowDecodes r := by
  simp only [opcodeRows1, List.forall_mem_cons]
  exact ⟨⟨_, decodes_add, fun _ => rfl⟩,
    ⟨_, decodes_sub, fun _ => rfl⟩,
    ⟨_, decodes_sll, fun _ => rfl⟩,
    ⟨_, decodes_slt, fun _ => rfl⟩,
    ⟨_, decodes_sltu, fun _ => rfl⟩,
    ⟨_, decodes_xor, fun _ => rfl⟩,
    ⟨_, decodes_srl, fun _ => rfl⟩,
    ⟨_, decodes_sra, fun _ => rfl⟩,
    ⟨_, decodes_or, fun _ => rfl⟩,
    ⟨_, decodes_and, fun _ => rfl⟩,
    ⟨_, decodes_addi, fun _ => rfl⟩,
    ⟨_, decodes_slti, fun _ => rfl⟩,
    ⟨_, decodes_sltiu, fun _ => rfl⟩,
    ⟨_, decodes_xori, fun _ => rfl⟩,
    ⟨_, decodes_ori, fun _ => rfl⟩,
    ⟨_, decodes_andi, fun _ => rfl⟩,
    ⟨_, decodes_slli, fun _ => rfl⟩,
    ⟨_, decodes_srli, fun _ => rfl⟩,
    ⟨_, decodes_srai, fun _ => rfl⟩,
    ⟨_, decodes_lb, fun _ => rfl⟩,
    ⟨_, decodes_lh, fun _ => rfl⟩,
    ⟨_, decodes_lw, fun _ => rfl⟩, by simp⟩

theorem opcodeRows2_decode : ∀ r ∈ opcodeRows2, RowDecodes r := by
  simp only [opcodeRows2, List.forall_mem_cons]
  exact ⟨⟨_, decodes_lbu, fun _ => rfl⟩,
    ⟨_, decodes_lhu, fun _ => rfl⟩,
    ⟨_, decodes_sb, fun _ => rfl⟩,
    ⟨_, decodes_sh, fun _ => rfl⟩,
    ⟨_, decodes_sw, fun _ => rfl⟩,
    ⟨_, decodes_beq, fun _ => rfl⟩,
    ⟨_, decodes_bne, fun _ => rfl⟩,
    ⟨_, decodes_blt, fun _ => rfl⟩,
    ⟨_, decodes_bge, fun _ => rfl⟩,
    ⟨_, decodes_bltu, fun _ => rfl⟩,
    ⟨_, decodes_bgeu, fun _ => rfl⟩,
    ⟨_, decodes_lui, fun _ => rfl⟩,
    ⟨_, decodes_auipc, fun _ => rfl⟩,
    ⟨_, decodes_jal, fun _ => rfl⟩,
    ⟨_, decodes_jalr, fun _ => rfl⟩,
    ⟨_, decodes_ecall, fun _ => rfl⟩,
    ⟨_, decodes_ebreak, fun _ => rfl⟩,
    ⟨_, decodes_fence, fun _ => rfl⟩,
    ⟨_, decodes_mul, fun _ => rfl⟩,
    ⟨_, decodes_mulh, fun _ => rfl⟩,
    ⟨_, decodes_mulhsu, fun _ => rfl⟩,
    ⟨_, decodes_mulhu, fun _ => rfl⟩, by simp⟩

theorem opcodeRows3_decode : ∀ r ∈ opcodeRows3, RowDecodes r := by
  simp only [opcodeRows3, List.forall_mem_cons]
  exact ⟨⟨_, decodes_div, fun _ => rfl⟩,
    ⟨_, decodes_divu, fun _ => rfl⟩,
    ⟨_, decodes_rem, fun _ => rfl⟩,
    ⟨_, decodes_remu, fun _ => rfl⟩,
    ⟨_, decodes_flw, fun _ => rfl⟩,
    ⟨_, decodes_fsw, fun _ => rfl⟩,
    ⟨_, decodes_faddS, fun _ => rfl⟩,
    ⟨_, decodes_fsubS, fun _ => rfl⟩,
    ⟨_, decodes_fmulS, fun _ => rfl⟩,
    ⟨_, decodes_fdivS, fun _ => rfl⟩,
    ⟨_, decodes_fsqrtS, fun _ => rfl⟩,
    ⟨_, decodes_fmaddS, fun _ => rfl⟩,
    ⟨_, decodes_fmsubS, fun _ => rfl⟩,
    ⟨_, decodes_fnmsubS, fun _ => rfl⟩,
    ⟨_, decodes_fnmaddS, fun _ => rfl⟩,
    ⟨_, decodes_fsgnjS, fun _ => rfl⟩,
    ⟨_, decodes_fsgnjnS, fun _ => rfl⟩,
    ⟨_, decodes_fsgnjxS, fun _ => rfl⟩,
    ⟨_, decodes_fminS, fun _ => rfl⟩,
    ⟨_, decodes_fmaxS, fun _ => rfl⟩,
    ⟨_, decodes_feqS, fun _ => rfl⟩,
    ⟨_, decodes_fltS, fun _ => rfl⟩, by simp⟩

theorem opcodeRows4_decode : ∀ r ∈ opcodeRows4, RowDecodes r := by
  simp only [opcodeRows4, List.forall_mem_cons]
  exact ⟨⟨_, decodes_fleS, fun _ => rfl⟩,
    ⟨_, decodes_fcvtWS, fun _ => rfl⟩,
    ⟨_, decodes_fcvtWuS, fun _ => rfl⟩,
    ⟨_, decodes_fcvtSW, fun _ => rfl⟩,
    ⟨_, decodes_fcvtSWu, fun _ => rfl⟩,
    ⟨_, decodes_fmvXW, fun _ => rfl⟩,
    ⟨_, decodes_fmvWX, fun _ => rfl⟩,
    ⟨_, decodes_fclassS, fun _ => rfl⟩,
    ⟨_, decodes_npuMacc, fun _ => rfl⟩,
    ⟨_, decodes_npuVmac, fun _ => rfl⟩,
    ⟨_, decodes_npuVexp, fun _ => rfl⟩,
    ⟨_, decodes_npuVrsqrt, fun _ => rfl⟩,
    ⟨_, decodes_npuVmul, fun _ => rfl⟩,
    ⟨_, decodes_npuVreduce, fun _ => rfl⟩,
    ⟨_, decodes_npuVmax, fun _ => rfl⟩,
    ⟨_, decodes_npuRelu, fun _ => rfl⟩,
    ⟨_, decodes_npuQmul, fun _ => rfl⟩,
    ⟨_, decodes_npuClamp, fun _ => rfl⟩,
    ⟨_, decodes_npuGelu, fun _ => rfl⟩,
    ⟨_, decodes_npuRstacc, fun _ => rfl⟩,
    ⟨_, decodes_npuLdvec, fun _ => rfl⟩,
    ⟨_, decodes_npuStvec, fun _ => rfl⟩, by simp⟩

theorem opcodeTable_decodes : ∀ r ∈ opcodeTable, RowDecodes r := by
  simp only [opcodeTable, List.forall_mem_append]
  exact ⟨⟨⟨opcodeRows1_decode, opcodeRows2_decode⟩, opcodeRows3_decode⟩, opcodeRows4_decode⟩

/-- A word of a row decodes to an instruction of the row's mnemonic. -/
theorem decode_of_row {r : OpcodeRow} (hr : r ∈ opcodeTable) {w : Word} (h : w &&& r.mask = r.pattern) :
    ∃ i, decode w = .ok i ∧ i.mnemonic = r.mnemonic := by
  obtain ⟨f, hdecodes, hmnemonic⟩ := opcodeTable_decodes r hr
  exact ⟨f w, hdecodes w h, hmnemonic w⟩

/-- A word that matches no row does not decode: it would be the encoding of the instruction it decodes to, and so lie in that
instruction's row. -/
theorem decode_of_no_row {w : Word} (h : ∀ r ∈ opcodeTable, w &&& r.mask ≠ r.pattern) :
    decode w = .error (.illegalInstruction w) := by
  refine decode_eq_illegal fun i hi => ?_
  obtain ⟨r, hr, -, hholds⟩ := Laws.EncodedRow.statement i
  rw [encode_of_decode hi] at hholds
  exact h r hr (by simpa [OpcodeRow.holds] using hholds)

/-- A word in two rows agrees with both patterns on the bits that both masks keep. -/
theorem patterns_agree_of_row_row {a b : OpcodeRow} {w : Word} (ha : w &&& a.mask = a.pattern)
    (hb : w &&& b.mask = b.pattern) : a.pattern &&& b.mask = b.pattern &&& a.mask := by
  rw [← ha, ← hb, BitVec.and_assoc, BitVec.and_assoc, BitVec.and_comm a.mask]

/-- Any two rows differ in a bit that both masks keep. -/
theorem opcodeTable_patterns_differ :
    opcodeTable.Pairwise (fun a b => a.pattern &&& b.mask ≠ b.pattern &&& a.mask) := by decide

/-- Settles O4: rows differ in a bit they both test, a word of no row is not an encoded one, and a word of a row decodes by the
row, then is the encoding of what it decodes to. -/
theorem decodeFollowsTheTable : Obligations.DecodeFollowsTheTable := by
  refine ⟨rfl, ?_, fun w h => decode_of_no_row h, fun w r hr h => ?_⟩
  · exact opcodeTable_patterns_differ.imp fun hne w hw => hne (patterns_agree_of_row_row hw.1 hw.2)
  · obtain ⟨i, hdecode, hmnemonic⟩ := decode_of_row hr h
    exact ⟨i, hdecode, hmnemonic, decode_wf hdecode, encode_of_decode hdecode⟩

/-! ## Words that are no instruction -/

/-- No instruction raises `IllegalInstruction`: it is the decode step's alone (60_exceptions.md R360). -/
theorem exec_ne_illegalInstruction (i : Instr) (s : State) (w : Word) : exec i s ≠ .fault (.illegalInstruction w) := by
  intro h
  cases exec_fault h

/-- Settles O8: the step at a fetched word of no row is the decoder's rejection; at a word of a row it is `exec`, which has no
such fault. -/
theorem illegalWordsStop : Obligations.IllegalWordsStop := by
  refine ⟨fun s hpc hvalid => ⟨fun h => ?_, fun h r hr hw => ?_⟩, by decide⟩
  · have hfetch : fetch s = .ok (wordIn s s.pc) := fetch_ok s ((low_bits_zero s.pc).mpr hpc) hvalid
    simp only [step, hfetch, decode_of_no_row h]
    rfl
  · obtain ⟨i, hdecode, -⟩ := decode_of_row hr hw
    rw [stepRunsTheDecodedInstruction s i hpc hvalid hdecode] at h
    exact exec_ne_illegalInstruction i s _ h

end Sys2Proof.Machine
end

section
/-!
PROOFS about the immediates and the words of 30_encoding.md section 2. A word is the encoding of its fields and its immediate, so
the encoder, known bit by bit, says where each low bit of the immediate comes from; the upper bits are copies of the field's top
bit.
-/

namespace Sys2Proof

/-! ## The bits of an immediate -/

section
variable {w : Word} {j : Nat}

/-- Above its top bit, the sign extension of a field copies that bit. -/
theorem getLsbD_signExtend_above {k : Nat} (x : BitVec (k + 1)) (hk : k ≤ j) (hj : j < 32) :
    (x.signExtend 32).getLsbD j = (x.signExtend 32).getLsbD k := by
  have top : ∀ i, k ≤ i → i < 32 → (x.signExtend 32).getLsbD i = x.msb := fun i hi h32 => by
    rw [BitVec.getLsbD_signExtend, decide_eq_true h32, Bool.true_and]
    split
    · obtain rfl : i = k := by omega
      rw [BitVec.msb_eq_getLsbD_last, Nat.add_sub_cancel]
    · rfl
  rw [top j hk hj, top k le_rfl (by omega)]

theorem immI_above (h : 11 ≤ j) (hj : j < 32) : (immI w).getLsbD j = (immI w).getLsbD 11 :=
  getLsbD_signExtend_above _ h hj

theorem immS_above (h : 11 ≤ j) (hj : j < 32) : (immS w).getLsbD j = (immS w).getLsbD 11 :=
  getLsbD_signExtend_above _ h hj

theorem immB_above (h : 12 ≤ j) (hj : j < 32) : (immB w).getLsbD j = (immB w).getLsbD 12 :=
  getLsbD_signExtend_above _ h hj

theorem immJ_above (h : 20 ≤ j) (hj : j < 32) : (immJ w).getLsbD j = (immJ w).getLsbD 20 :=
  getLsbD_signExtend_above _ h hj

/-- Bit 0 of the B immediate is no bit of the word (R122). -/
theorem immB_bit_zero : (immB w).getLsbD 0 = false := by
  have h := fitsB_immB w
  simp only [fitsB, Bool.and_eq_true, Bool.not_eq_true'] at h
  exact h.2

/-- Bit 0 of the J immediate is no bit of the word (R124). -/
theorem immJ_bit_zero : (immJ w).getLsbD 0 = false := by
  have h := fitsJ_immJ w
  simp only [fitsJ, Bool.and_eq_true, Bool.not_eq_true'] at h
  exact h.2

/-- The I immediate holds bits 31:20 of the word (R120). -/
theorem immI_low (h : j < 12) : (immI w).getLsbD j = w.getLsbD (j + 20) := by
  conv_rhs => rw [← encI_fields w, encI, encIRaw_getLsbD _ _ _ _ _ (by omega)]
  rw [if_neg (by omega), if_neg (by omega), if_neg (by omega), if_neg (by omega), Nat.add_sub_cancel,
    BitVec.getLsbD_extractLsb', decide_eq_true h, Bool.true_and, Nat.zero_add]

/-- Bits 4:0 of the S immediate are bits 11:7 of the word (R121). -/
theorem immS_bits_4_0 (h : j < 5) : (immS w).getLsbD j = w.getLsbD (j + 7) := by
  conv_rhs => rw [← encS_fields w, encS_getLsbD _ _ _ _ _ (by omega)]
  rw [if_neg (by omega), if_pos (by omega), Nat.add_sub_cancel]

/-- Bits 11:5 of the S immediate are bits 31:25 of the word (R121). -/
theorem immS_bits_11_5 (h5 : 5 ≤ j) (h : j < 12) : (immS w).getLsbD j = w.getLsbD (j + 20) := by
  conv_rhs => rw [← encS_fields w, encS_getLsbD _ _ _ _ _ (by omega)]
  rw [if_neg (by omega), if_neg (by omega), if_neg (by omega), if_neg (by omega), if_neg (by omega)]
  congr 1; omega

/-- Bits 4:1 of the B immediate are bits 11:8 of the word (R122). -/
theorem immB_bits_4_1 (h1 : 1 ≤ j) (h : j < 5) : (immB w).getLsbD j = w.getLsbD (j + 7) := by
  conv_rhs => rw [← encB_fields w, encB_getLsbD _ _ _ _ _ (by omega)]
  rw [if_neg (by omega), if_neg (by omega), if_pos (by omega)]
  congr 1; omega

/-- Bits 10:5 of the B immediate are bits 30:25 of the word (R122). -/
theorem immB_bits_10_5 (h5 : 5 ≤ j) (h : j < 11) : (immB w).getLsbD j = w.getLsbD (j + 20) := by
  conv_rhs => rw [← encB_fields w, encB_getLsbD _ _ _ _ _ (by omega)]
  rw [if_neg (by omega), if_neg (by omega), if_neg (by omega), if_neg (by omega), if_neg (by omega), if_neg (by omega),
    if_pos (by omega)]
  congr 1; omega

/-- Bit 11 of the B immediate is bit 7 of the word (R122). -/
theorem immB_bit_11 : (immB w).getLsbD 11 = w.getLsbD 7 := by
  conv_rhs => rw [← encB_fields w, encB_getLsbD _ _ _ _ _ (by omega)]
  rfl

/-- Bit 12 of the B immediate is bit 31 of the word (R122). -/
theorem immB_bit_12 : (immB w).getLsbD 12 = w.getLsbD 31 := by
  conv_rhs => rw [← encB_fields w, encB_getLsbD _ _ _ _ _ (by omega)]
  rfl

/-- The U immediate is the word above twelve zeros (R123). -/
theorem immU_getLsbD (hj : j < 32) : (immU w).getLsbD j = if j < 12 then false else w.getLsbD j := by
  unfold immU
  change BitVec.getLsbD (w := 20 + 12) _ j = _
  rw [BitVec.getLsbD_append]
  split
  · exact BitVec.getLsbD_zero
  · rw [BitVec.getLsbD_extractLsb', decide_eq_true (by omega), Bool.true_and]
    congr 1; omega

/-- Bits 10:1 of the J immediate are bits 30:21 of the word (R124). -/
theorem immJ_bits_10_1 (h1 : 1 ≤ j) (h : j < 11) : (immJ w).getLsbD j = w.getLsbD (j + 20) := by
  conv_rhs => rw [← encJ_fields w, encJ_getLsbD _ _ _ (by omega)]
  rw [if_neg (by omega), if_neg (by omega), if_neg (by omega), if_neg (by omega), if_pos (by omega)]
  congr 1; omega

/-- Bit 11 of the J immediate is bit 20 of the word (R124). -/
theorem immJ_bit_11 : (immJ w).getLsbD 11 = w.getLsbD 20 := by
  conv_rhs => rw [← encJ_fields w, encJ_getLsbD _ _ _ (by omega)]
  rfl

/-- Bits 19:12 of the J immediate are the word's own (R124). -/
theorem immJ_bits_19_12 (h12 : 12 ≤ j) (h : j < 20) : (immJ w).getLsbD j = w.getLsbD j := by
  conv_rhs => rw [← encJ_fields w, encJ_getLsbD _ _ _ (by omega)]
  rw [if_neg (by omega), if_neg (by omega), if_pos (by omega)]
  congr 1; omega

/-- Bit 20 of the J immediate is bit 31 of the word (R124). -/
theorem immJ_bit_20 : (immJ w).getLsbD 20 = w.getLsbD 31 := by
  conv_rhs => rw [← encJ_fields w, encJ_getLsbD _ _ _ (by omega)]
  rfl

end

/-! ## The statements -/

/-- Settles O5: the bits by the encoder, the ranges by the formats that the immediates fit. -/
theorem immediatesAreAssembled : Obligations.ImmediatesAreAssembled := by
  intro w
  have hI := fitsI_immI w
  have hS := fitsS_immS w
  have hB := fitsB_immB w
  have hJ := fitsJ_immJ w
  simp only [fitsI, fitsS, fitsB, fitsJ, Bool.and_eq_true, decide_eq_true_eq] at hI hS hB hJ
  refine ⟨⟨?_, ?_, hI⟩, ⟨?_, ?_, ?_, hS⟩, ⟨?_, ?_, ?_, ?_, ?_, hB.1⟩, ⟨?_, ?_⟩, ⟨?_, ?_, ?_, ?_, ?_, hJ.1⟩⟩
  · exact fun j hj => immI_low (by omega)
  · exact fun j h hj => (immI_above h hj).trans (immI_low (by omega))
  · exact fun j hj => immS_bits_4_0 hj
  · exact fun j h hj => immS_bits_11_5 h (by omega)
  · exact fun j h hj => (immS_above h hj).trans (immS_bits_11_5 (by omega) (by omega))
  · exact immB_bit_zero
  · exact fun j h hj => immB_bits_4_1 h hj
  · exact fun j h hj => immB_bits_10_5 h hj
  · exact immB_bit_11
  · exact fun j h hj => (immB_above h hj).trans immB_bit_12
  · exact fun j hj => (immU_getLsbD (by omega)).trans (if_pos hj)
  · exact fun j h hj => (immU_getLsbD hj).trans (if_neg (by omega))
  · exact immJ_bit_zero
  · exact fun j h hj => immJ_bits_10_1 h hj
  · exact immJ_bit_11
  · exact fun j h hj => immJ_bits_19_12 h hj
  · exact fun j h hj => (immJ_above h hj).trans immJ_bit_20

/-- Settles O1: each word is one of a row, decoded by evaluation. -/
theorem knownWordsDecode : Obligations.KnownWordsDecode := by
  unfold Obligations.KnownWordsDecode
  decide

end Sys2Proof
end

section
/-!
PROOFS of the I-type arithmetic (40_rv32i_alu.md R171 to R179), FENCE (43_rv32i_system.md R232) and the pseudo-instructions
(30_encoding.md R141, R142). Each instruction ends in a shared completion, whose lemma gives the frame; what is left is that the
value written is the one the rule names.
-/

namespace Sys2Proof.Machine

/-! ## The values of the integer rules -/

theorem shiftLeft_eq_ofNat (a : Word) (n : Nat) : a <<< n = BitVec.ofNat 32 (a.toNat * 2 ^ n) := by
  apply BitVec.eq_of_toNat_eq
  rw [BitVec.toNat_shiftLeft, Nat.shiftLeft_eq, BitVec.toNat_ofNat]

theorem ushiftRight_eq_ofNat (a : Word) (n : Nat) : a >>> n = BitVec.ofNat 32 (a.toNat / 2 ^ n) := by
  rw [← Nat.shiftRight_eq_div_pow, ← BitVec.toNat_ushiftRight, BitVec.ofNat_toNat, BitVec.setWidth_eq]

theorem sshiftRight_eq_ofInt (a : Word) (n : Nat) : a.sshiftRight n = BitVec.ofInt 32 (a.toInt / 2 ^ n) := by
  rw [← BitVec.ofInt_toInt (x := a.sshiftRight n), BitVec.toInt_sshiftRight, Int.shiftRight_eq_div_pow, Nat.cast_pow,
    Nat.cast_two]

/-- A comparison's result, as the rules write it. -/
theorem boolWord_decide (p : Prop) [Decidable p] : boolWord (decide p) = if p then 1#32 else 0#32 := by
  by_cases h : p <;> simp [boolWord, h]

/-- A completion with the value in another form. -/
theorem completeX_completes_eq (s : State) (rd : Reg) {v v' : Word} (h : v = v') : CompletesX s (completeX s rd v) rd v' :=
  h ▸ completeX_completes s rd v

/-! ## Words outside the rows of an opcode -/

section
variable {w : Word}

theorem decode_of_opcode_opImm (ho : opcodeOf w = 0b0010011#7) : decode w = decodeOpImm w := by
  simp [decode, ho]

theorem decode_of_opcode_fence (ho : opcodeOf w = 0b0001111#7) : decode w = decodeFence w := by
  simp [decode, ho]

theorem decodeSlli_illegal (h7 : funct7Of w ≠ 0b0000000#7) : decodeSlli w = .error (.illegalInstruction w) := by
  unfold decodeSlli
  split
  · exact absurd ‹_› h7
  · rfl

theorem decodeShiftRight_illegal (h0 : funct7Of w ≠ 0b0000000#7) (h32 : funct7Of w ≠ 0b0100000#7) :
    decodeShiftRight w = .error (.illegalInstruction w) := by
  unfold decodeShiftRight
  split
  · exact absurd ‹_› h0
  · exact absurd ‹_› h32
  · rfl

theorem decodeFence_illegal (h3 : funct3Of w ≠ 0b000#3) : decodeFence w = .error (.illegalInstruction w) := by
  unfold decodeFence
  split
  · exact absurd ‹_› h3
  · rfl

end

/-- Settles O23: the values, then the rows of the table, then the shift words outside them. -/
theorem immediateArithmetic : Obligations.ImmediateArithmetic := by
  refine ⟨fun s rd rs1 imm => ⟨?_, ?_, ?_, ?_, ?_, ?_⟩, fun s rd rs1 shamt => ⟨?_, ?_, ?_⟩, decodes_addi, decodes_slti,
    decodes_sltiu, decodes_xori, decodes_ori, decodes_andi, decodes_slli, decodes_srli, decodes_srai, ?_, ?_⟩
  · exact completeX_completes_eq s rd (BitVec.add_def ..)
  · exact completeX_completes_eq s rd (boolWord_decide _)
  · exact completeX_completes_eq s rd (boolWord_decide _)
  · exact completeX_completes s rd _
  · exact completeX_completes s rd _
  · exact completeX_completes s rd _
  · exact completeX_completes_eq s rd (shiftLeft_eq_ofNat ..)
  · exact completeX_completes_eq s rd (ushiftRight_eq_ofNat ..)
  · exact completeX_completes_eq s rd (sshiftRight_eq_ofInt ..)
  · rintro w ⟨ho, h3, h7⟩
    simpa [decode_of_opcode_opImm ho, decodeOpImm, h3] using decodeSlli_illegal h7
  · rintro w ⟨ho, h3, h0, h32⟩
    simpa [decode_of_opcode_opImm ho, decodeOpImm, h3] using decodeShiftRight_illegal h0 h32

/-- Settles O30: FENCE is a move of the pc; a word of its opcode is of its row when `funct3` is zero. -/
theorem fence : Obligations.Fence := by
  refine ⟨fun s _ _ _ => setPc_goesTo s _, decodes_fence, ?_⟩
  rintro w ⟨ho, h3⟩
  rw [decode_of_opcode_fence ho, decodeFence_illegal h3]

/-! ## Sequences of instructions -/

theorem execAll_singleton (i : Instr) (s : State) : execAll [i] s = exec i s := by
  rw [execAll]
  cases exec i s <;> rfl

theorem execAll_cons_of_next {i : Instr} {s t : State} (h : exec i s = .next t) (rest : List Instr) :
    execAll (i :: rest) s = execAll rest t := by
  rw [execAll, h]

/-! ## Every expansion is well formed -/

/-- The low part of a constant is the I immediate of a word that holds those bits there. -/
theorem fitsI_lowPart (imm : Word) : fitsI (lowPart imm) = true := by
  have h := fitsI_immI (encIRaw (imm.extractLsb' 0 12) 0 0 0 0)
  rwa [immI_encIRaw] at h

/-- What is left of a constant without its low part has twelve zeros (R142). -/
theorem fitsU_sub_lowPart (imm : Word) : fitsU (imm - lowPart imm) = true := by
  have hlow : (lowPart imm).extractLsb' 0 12 = imm.extractLsb' 0 12 := extractLsb'_signExtend (by omega) _
  have hsum : (imm - lowPart imm).setWidth 12 + (lowPart imm).setWidth 12 = imm.setWidth 12 := by
    rw [← BitVec.setWidth_add _ _ (by omega), BitVec.sub_add_cancel]
  simp only [BitVec.setWidth_eq_extractLsb' (show 12 ≤ 32 by omega), hlow] at hsum
  simpa [fitsU] using hsum

theorem expand_wf (p : Pseudo) (h : p.fits = true) : ∀ i ∈ expand p, i.wf = true := by
  cases p with
  | fmvS | fnegS | fabsS | neg | snez => simp [expand, Instr.wf]
  | nop | mv | jr | ret => exact List.forall_mem_singleton.mpr (by decide : fitsI 0#32 = true)
  | not => exact List.forall_mem_singleton.mpr (by decide : fitsI (-1#32) = true)
  | seqz => exact List.forall_mem_singleton.mpr (by decide : fitsI 1#32 = true)
  | beqz | bnez | j | call => simpa [expand, Instr.wf, Pseudo.fits] using h
  | li rd imm =>
    by_cases hi : fitsI imm = true
    · simp [expand, hi, Instr.wf]
    · simp [expand, hi, Instr.wf, fitsU_sub_lowPart, fitsI_lowPart]

/-! ## Copies of an f register -/

/-- The bits of a sign above a magnitude. -/
theorem getLsbD_withSign (sg : Bool) (a : Word) {i : Nat} (hi : i < 32) :
    (withSign sg a).getLsbD i = if i < 31 then a.getLsbD i else sg := by
  unfold withSign
  change BitVec.getLsbD (w := 1 + 31) _ i = _
  rw [BitVec.getLsbD_append]
  split
  · rw [BitVec.getLsbD_extractLsb', decide_eq_true ‹_›, Bool.true_and, Nat.zero_add]
  · obtain rfl : i = 31 := by omega
    simp

theorem withSign_self (a : Word) : withSign (fpSign a) a = a := by
  apply BitVec.eq_of_getLsbD_eq; intro i hi
  rw [getLsbD_withSign _ _ hi]
  split
  · rfl
  · obtain rfl : i = 31 := by omega
    rfl

theorem withSign_not (a : Word) : withSign (!fpSign a) a = a ^^^ 0x80000000#32 := by
  apply BitVec.eq_of_getLsbD_eq; intro i hi
  rw [getLsbD_withSign _ _ hi, BitVec.getLsbD_xor, show 0x80000000#32 = BitVec.twoPow 32 31 from rfl, BitVec.getLsbD_twoPow]
  split
  · simp [show ¬31 = i by omega]
  · obtain rfl : i = 31 := by omega
    simp [fpSign]

theorem withSign_false (a : Word) : withSign false a = a &&& 0x7FFFFFFF#32 := by
  apply BitVec.eq_of_getLsbD_eq; intro i hi
  rw [getLsbD_withSign _ _ hi, BitVec.getLsbD_and, show 0x7FFFFFFF#32 = ~~~BitVec.twoPow 32 31 from rfl, BitVec.getLsbD_not,
    BitVec.getLsbD_twoPow]
  split
  · simp [hi, show ¬31 = i by omega]
  · obtain rfl : i = 31 := by omega
    simp

theorem pseudo_float (s : State) (fd fs : Reg) :
    CompletesF s (execAll (expand (.fmvS fd fs)) s) fd (s.readF fs) FFlags.none ∧
    CompletesF s (execAll (expand (.fnegS fd fs)) s) fd (s.readF fs ^^^ 0x80000000#32) FFlags.none ∧
    CompletesF s (execAll (expand (.fabsS fd fs)) s) fd (s.readF fs &&& 0x7FFFFFFF#32) FFlags.none := by
  simp only [expand, execAll_singleton, exec, execFsgnjS, execFsgnjnS, execFsgnjxS, withSign_self, withSign_not,
    bne_self_eq_false, withSign_false]
  exact ⟨completeF_completes .., completeF_completes .., completeF_completes ..⟩

/-! ## Loading a constant -/

/-- Two writes of one register leave the second value. -/
theorem WritesX.trans {s t u : State} {rd : Reg} {v v' : Word} (h : WritesX s t rd v) (h' : WritesX t u rd v') :
    WritesX s u rd v' :=
  ⟨h'.1, fun r hr => (h'.2 r hr).trans (h.2 r hr)⟩

theorem KeepsNpu.trans {s t u : State} (h : KeepsNpu s t) (h' : KeepsNpu t u) : KeepsNpu s u :=
  ⟨⟨h'.1.1.trans h.1.1, h'.1.2.trans h.1.2⟩, fun k => (h'.2 k).trans (h.2 k)⟩

/-- `li` writes the constant: in one ADDI from x0, or as LUI's upper part with the low part added (42_rv32i_control.md R217). -/
theorem pseudo_li (s : State) (rd : Reg) (imm : Word) : ∃ t, execAll (expand (.li rd imm)) s = .next t ∧
    t.pc = s.pc + BitVec.ofNat 32 (4 * (expand (.li rd imm)).length) ∧ WritesX s t rd imm ∧
    KeepsF s t ∧ KeepsFcsr s t ∧ KeepsNpu s t ∧ KeepsMem s t ∧ KeepsHost s t := by
  by_cases hi : fitsI imm = true
  · have hexpand : expand (.li rd imm) = [.addi rd 0 imm] := by simp [expand, hi]
    rw [hexpand, execAll_singleton]
    exact completeX_completes_eq s rd (BitVec.zero_add imm)
  · have hexpand : expand (.li rd imm) = [.lui rd (imm - lowPart imm), .addi rd rd (lowPart imm)] := by simp [expand, hi]
    obtain ⟨t, hlui, hpc, hx, hf, hfcsr, hnpu, hmem, hhost⟩ :
        CompletesX s (exec (.lui rd (imm - lowPart imm)) s) rd (imm - lowPart imm) := completeX_completes ..
    obtain ⟨u, haddi, hpc', hx', hf', hfcsr', hnpu', hmem', hhost'⟩ :
        CompletesX t (exec (.addi rd rd (lowPart imm)) t) rd (t.readX rd + lowPart imm) := completeX_completes ..
    have hvalue : WritesX t u rd imm := by
      refine ⟨hx'.1.trans ?_, hx'.2⟩
      rw [hx.1]
      split
      · rfl
      · rw [BitVec.sub_add_cancel]
    rw [hexpand]
    refine ⟨u, ?_, ?_, hx.trans hvalue, fun r => (hf' r).trans (hf r), hfcsr'.trans hfcsr, hnpu.trans hnpu',
      fun a => (hmem' a).trans (hmem a), hhost'.1.trans hhost.1, hhost'.2.trans hhost.2⟩
    · rw [execAll_cons_of_next hlui, execAll_singleton, haddi]
    · rw [hpc', hpc, BitVec.add_assoc]
      rfl

/-! ## Operations on an x register -/

theorem ofInt_neg_toInt (a : Word) : 0#32 - a = BitVec.ofInt 32 (-a.toInt) := by
  rw [BitVec.ofInt_neg, BitVec.ofInt_toInt, BitVec.zero_sub]

/-- A word below one is zero. -/
theorem boolWord_lt_one (a : Word) : boolWord (decide (a.toNat < (1#32).toNat)) = if a = 0#32 then 1#32 else 0#32 := by
  rw [boolWord_decide]
  congr 1
  rw [eq_iff_iff, ← BitVec.toNat_inj]
  exact Nat.lt_one_iff

/-- A word above zero is not zero. -/
theorem boolWord_zero_lt (a : Word) : boolWord (decide ((0#32).toNat < a.toNat)) = if a = 0#32 then 0#32 else 1#32 := by
  rw [boolWord_decide, ← ite_not]
  congr 1
  rw [eq_iff_iff, ← BitVec.toNat_inj]
  exact Nat.not_lt.trans Nat.le_zero

theorem pseudo_integer (s : State) (rd rs : Reg) :
    CompletesX s (execAll (expand (.mv rd rs)) s) rd (s.readX rs) ∧
    CompletesX s (execAll (expand (.not rd rs)) s) rd (~~~s.readX rs) ∧
    CompletesX s (execAll (expand (.neg rd rs)) s) rd (BitVec.ofInt 32 (-(s.readX rs).toInt)) ∧
    CompletesX s (execAll (expand (.seqz rd rs)) s) rd (if s.readX rs = 0#32 then 1#32 else 0#32) ∧
    CompletesX s (execAll (expand (.snez rd rs)) s) rd (if s.readX rs = 0#32 then 0#32 else 1#32) := by
  simp only [expand, execAll_singleton]
  refine ⟨?_, ?_, ?_, ?_, ?_⟩
  · exact completeX_completes_eq s rd (BitVec.add_zero _)
  · exact completeX_completes_eq s rd BitVec.xor_allOnes
  · exact completeX_completes_eq s rd (ofInt_neg_toInt _)
  · exact completeX_completes_eq s rd (boolWord_lt_one _)
  · exact completeX_completes_eq s rd (boolWord_zero_lt _)

/-! ## Jumps and branches -/

/-- Clearing bit 0 is rounding down to an even number (42_rv32i_control.md R220). -/
theorem and_even_mask (v : Word) : v &&& 0xFFFFFFFE#32 = BitVec.ofNat 32 (2 * (v.toNat / 2)) := by
  apply BitVec.eq_of_getLsbD_eq; intro i hi
  rw [BitVec.getLsbD_and, show 0xFFFFFFFE#32 = ~~~BitVec.twoPow 32 0 from rfl, BitVec.getLsbD_not, BitVec.getLsbD_twoPow,
    BitVec.getLsbD_ofNat, show 2 * (v.toNat / 2) = 2 ^ 1 * (v.toNat / 2 ^ 1) by simp, Nat.testBit_two_pow_mul,
    Nat.testBit_div_two_pow]
  cases i with
  | zero => simp
  | succ i => simp [hi, BitVec.getLsbD]

/-- A jump that links x0 changes the pc alone. -/
theorem linkAndJump_zero_goesTo (s : State) (t : Word) : GoesTo s (linkAndJump s 0 t) t := setPc_goesTo s t

/-- JALR with x0 and no offset, the one that `jr` and `ret` expand to. -/
theorem exec_jalr_zero_goesTo (s : State) (rs : Reg) :
    GoesTo s (exec (.jalr 0 rs 0#32 0#3) s) (BitVec.ofNat 32 (2 * ((s.readX rs).toNat / 2))) := by
  simp only [exec, execJalr, BitVec.add_zero, and_even_mask]
  exact linkAndJump_zero_goesTo s _

theorem pseudo_control (s : State) (rs : Reg) (offset : Word) :
    GoesTo s (execAll (expand .nop) s) (s.pc + 4#32) ∧
    GoesTo s (execAll (expand (.beqz rs offset)) s) (if s.readX rs = 0#32 then s.pc + offset else s.pc + 4#32) ∧
    GoesTo s (execAll (expand (.bnez rs offset)) s) (if s.readX rs = 0#32 then s.pc + 4#32 else s.pc + offset) ∧
    GoesTo s (execAll (expand (.j offset)) s) (s.pc + offset) ∧
    GoesTo s (execAll (expand (.jr rs)) s) (BitVec.ofNat 32 (2 * ((s.readX rs).toNat / 2))) ∧
    GoesTo s (execAll (expand .ret) s) (BitVec.ofNat 32 (2 * ((s.readX 1).toNat / 2))) ∧
    LinksAndGoesTo s (execAll (expand (.call offset)) s) 1 (s.pc + 4#32) (s.pc + offset) := by
  simp only [expand, execAll_singleton]
  refine ⟨setPc_goesTo s _, ?_, ?_, linkAndJump_zero_goesTo s _, exec_jalr_zero_goesTo s rs, exec_jalr_zero_goesTo s 1,
    linkAndJump_links s 1 _⟩
  · have h := branchIf_goesTo s (decide (s.readX rs = 0#32)) offset
    simp only [decide_eq_true_eq] at h
    exact h
  · have h := branchIf_goesTo s (decide (s.readX rs ≠ 0#32)) offset
    simp only [decide_eq_true_eq, ite_not] at h
    exact h

/-- Settles O59: the expansions are well formed, and each runs as its one instruction does, `li` as one or two. -/
theorem pseudoInstructions : Obligations.PseudoInstructions :=
  ⟨expand_wf, pseudo_float, pseudo_li, pseudo_integer, pseudo_control⟩

end Sys2Proof.Machine
end

section
/-!
PROOFS of the R-type arithmetic (40_rv32i_alu.md R160 to R170). Each instruction ends in the shared completion of an x write; what
is left is that the word written is the one the rule names, and that a shift takes `x[rs2]` modulo 32.
-/

namespace Sys2Proof.Machine

/-- The low five bits of a shift operand are its value modulo 32 (R163, R167, R168). -/
theorem shiftAmount_eq_mod (b : Word) : shiftAmount b = b.toNat % 32 := by
  rw [shiftAmount, BitVec.extractLsb'_toNat, Nat.shiftRight_zero]

/-- A difference of words is the integer difference modulo 2^32 (R162). -/
theorem sub_eq_ofInt (a b : Word) : a - b = BitVec.ofInt 32 ((a.toNat : ℤ) - b.toNat) := by
  rw [Int.sub_eq_add_neg, BitVec.ofInt_add, BitVec.ofInt_neg, BitVec.ofInt_natCast, BitVec.ofInt_natCast,
    BitVec.ofNat_toNat, BitVec.ofNat_toNat, BitVec.setWidth_eq, BitVec.setWidth_eq, BitVec.sub_eq_add_neg]

/-- Settles O22: the ten values in the order of the rules, then the rows of the table. -/
theorem registerArithmetic : Obligations.RegisterArithmetic := by
  refine ⟨fun s rd rs1 rs2 => ⟨?_, ?_, ?_, ?_, ?_, ?_, ?_, ?_, ?_, ?_⟩, decodes_add, decodes_sub, decodes_sll, decodes_slt,
    decodes_sltu, decodes_xor, decodes_srl, decodes_sra, decodes_or, decodes_and⟩
  · exact completeX_completes_eq s rd (BitVec.add_def ..)
  · exact completeX_completes_eq s rd (sub_eq_ofInt ..)
  · exact completeX_completes_eq s rd (shiftAmount_eq_mod _ ▸ shiftLeft_eq_ofNat ..)
  · exact completeX_completes_eq s rd (boolWord_decide _)
  · exact completeX_completes_eq s rd (boolWord_decide _)
  · exact completeX_completes s rd _
  · exact completeX_completes_eq s rd (shiftAmount_eq_mod _ ▸ ushiftRight_eq_ofNat ..)
  · exact completeX_completes_eq s rd (shiftAmount_eq_mod _ ▸ sshiftRight_eq_ofInt ..)
  · exact completeX_completes s rd _
  · exact completeX_completes s rd _

end Sys2Proof.Machine
end

section
/-!
PROOFS of the integer loads and stores (41_rv32i_loadstore.md R190 to R199). The shared load and the shared store give the two
cases, completion when every byte is valid and the access fault otherwise; what is left is that the value loaded is the bytes
extended as the rule names, and that the bytes stored are those of `x[rs2]`.
-/

namespace Sys2Proof.Machine

/-! ## Loads and stores of valid bytes -/

/-- A load of valid bytes completes, with the value in another form. -/
theorem loadX_completes_eq (s : State) {n : Nat} (rd : Reg) {rs1 : Reg} {imm v : Word} {value : Word → Word}
    (h : AllValid s (s.readX rs1 + imm) n) (hv : value (s.readX rs1 + imm) = v) :
    CompletesX s (loadX s n rd rs1 imm value) rd v :=
  hv ▸ loadX_completes s rd rs1 imm value h

/-- A change of memory alone keeps every register. -/
theorem keepsRegs_withMem (s : State) (m : Memory) : KeepsRegs s { s with mem := m } :=
  ⟨fun _ => rfl, fun _ => rfl, rfl, ⟨rfl, rfl⟩, fun _ => rfl⟩

/-- A store to valid bytes whose write is `MemWrite(ea, n, v)` and changes memory alone completes (R199). -/
theorem storeAt_completes (s : State) {n : Nat} {rs1 : Reg} {imm v : Word} {write : Word → State}
    (h : AllValid s (s.readX rs1 + imm) n) (hwrites : ∀ a, WritesMem s (write a) a n v)
    (hmem : ∀ a, write a = { s with mem := (write a).mem }) :
    CompletesStore s (storeAt s n rs1 imm write) (s.readX rs1 + imm) n v := by
  set ea := s.readX rs1 + imm
  have hregs : KeepsRegs s (write ea) := hmem ea ▸ keepsRegs_withMem s _
  have hhost : KeepsHost s (write ea) := by rw [hmem ea]; exact ⟨rfl, rfl⟩
  have hpc : (write ea).pc = s.pc := by rw [hmem ea]
  rw [storeAt_next s rs1 imm write h]
  exact completesStore_of_writes s hregs hhost hpc (hwrites ea)

/-! ## The statements -/

/-- Settles O24: both extensions are the value of the bytes, signed or unsigned, narrowed to a word. -/
theorem loads : Obligations.Loads := by
  refine ⟨fun s rd rs1 imm => ?_, decodes_lb, decodes_lh, decodes_lw, decodes_lbu, decodes_lhu⟩
  simp only [exec, execLb, execLh, execLw, execLbu, execLhu]
  refine ⟨fun h => ⟨?lb, ?lbu⟩, fun h => ⟨?lbFault, ?lbuFault⟩, fun h => ⟨?lh, ?lhu⟩, fun h => ⟨?lhFault, ?lhuFault⟩,
    fun h => ?lw, fun h => ?lwFault⟩
  case lb => exact loadX_completes_eq s rd h rfl
  case lbu => exact loadX_completes_eq s rd h (BitVec.ofNat_toNat ..).symm
  case lh => exact loadX_completes_eq s rd h rfl
  case lhu => exact loadX_completes_eq s rd h (BitVec.ofNat_toNat ..).symm
  case lw => exact loadX_completes_eq s rd h (wordAt_eq_wordIn s _)
  all_goals exact loadX_faults s rd rs1 imm _ h

/-- Settles O25: each width's write is `WritesMem` of `x[rs2]` and changes memory alone. -/
theorem stores : Obligations.Stores := by
  refine ⟨fun s rs1 rs2 imm => ?_, decodes_sb, decodes_sh, decodes_sw⟩
  simp only [exec, execSb, execSh, execSw]
  refine ⟨fun h => ?sb, fun h => ?sbFault, fun h => ?sh, fun h => ?shFault, fun h => ?sw, fun h => ?swFault⟩
  case sb => exact storeAt_completes s h (fun a => putByte_writes s a _) fun _ => rfl
  case sh => exact storeAt_completes s h (fun a => putHalf_writes s a _) fun _ => rfl
  case sw => exact storeAt_completes s h (fun a => putWord_writes s a _) fun _ => rfl
  all_goals exact storeAt_faults s rs1 imm _ h

end Sys2Proof.Machine
end

section
/-!
PROOFS of the control transfer (42_rv32i_control.md R210 to R220). Each instruction is a branch on a comparison, the completion of an
x write or a link and jump, whose lemma gives the pc and the frame; what is left is that the branch's test is the comparison the rule
names and that JALR's mask clears bit 0.
-/

namespace Sys2Proof.Machine

/-- A branch on a decided condition goes where the condition itself says (R210). -/
theorem branchIf_decide_goesTo (s : State) (p : Prop) [Decidable p] (imm : Word) :
    GoesTo s (branchIf s (decide p) imm) (if p then s.pc + imm else s.pc + 4#32) := by
  have h := branchIf_goesTo s (decide p) imm
  simp only [decide_eq_true_eq] at h
  exact h

/-- JALR goes to the sum with bit 0 cleared, that is, rounded down to an even number, whatever `funct3` holds (R220). -/
theorem exec_jalr_links (s : State) (rd rs1 : Reg) (imm : Word) (funct3 : BitVec 3) :
    LinksAndGoesTo s (exec (.jalr rd rs1 imm funct3) s) rd (s.pc + 4#32)
      (BitVec.ofNat 32 (2 * ((s.readX rs1 + imm).toNat / 2))) := by
  simp only [exec, execJalr, and_even_mask]
  exact linkAndJump_links s rd _

/-! ## The statements -/

/-- Settles O27: each branch is `branchIf` of its comparison, `≥` being `≤` of the registers exchanged. -/
theorem branches : Obligations.Branches := by
  refine ⟨fun s rs1 rs2 imm => ⟨?beq, ?bne, ?blt, ?bge, ?bltu, ?bgeu⟩, decodes_beq, decodes_bne, decodes_blt, decodes_bge,
    decodes_bltu, decodes_bgeu⟩
  case beq => exact branchIf_decide_goesTo s (s.readX rs1 = s.readX rs2) imm
  case bne => exact branchIf_decide_goesTo s (s.readX rs1 ≠ s.readX rs2) imm
  case blt => exact branchIf_decide_goesTo s ((s.readX rs1).toInt < (s.readX rs2).toInt) imm
  case bge => exact branchIf_decide_goesTo s ((s.readX rs2).toInt ≤ (s.readX rs1).toInt) imm
  case bltu => exact branchIf_decide_goesTo s ((s.readX rs1).toNat < (s.readX rs2).toNat) imm
  case bgeu => exact branchIf_decide_goesTo s ((s.readX rs2).toNat ≤ (s.readX rs1).toNat) imm

/-- Settles O28: both are completions of an x write, and the operand of their rows is `immU`. -/
theorem upperImmediates : Obligations.UpperImmediates :=
  ⟨fun s rd imm => ⟨completeX_completes s rd imm, completeX_completes s rd (s.pc + imm)⟩, decodes_lui, decodes_auipc⟩

/-- Settles O29: both are `linkAndJump`, whose target is computed before the link is written, so `rd = rs1` is no case of its own. -/
theorem jumps : Obligations.Jumps :=
  ⟨fun s rd rs1 imm funct3 => ⟨linkAndJump_links s rd (s.pc + imm), exec_jalr_links s rd rs1 imm funct3⟩, decodes_jal,
    decodes_jalr⟩

end Sys2Proof.Machine
end

section
/-!
PROOFS of ECALL and EBREAK (43_rv32i_system.md R230, R231). What ECALL does is fixed by the one answer of the handler for the
machine state; each form of the handler has its law of `EcallHandler.answer`. A word decodes to either only if it is the one word
of its row.
-/

namespace Sys2Proof.Machine

/-- The words that decode to a well-formed instruction are its one encoding (30_encoding.md R144). -/
theorem decode_eq_ok_iff {i : Instr} (hwf : i.wf = true) (w : Word) : decode w = .ok i ↔ w = encode i :=
  ⟨fun h => (encode_of_decode h).symm, fun h => h ▸ decode_encode hwf⟩

/-! ## ECALL by the handler's answer -/

section
variable {s : State}

/-- ECALL goes on from the machine state the handler answers (60_exceptions.md R374). -/
theorem exec_ecall_of_answer_some {a : Arch} (h : s.ecallHandler.answer s.toArch = some a) :
    exec .ecall s = .next (s.resumeFrom a) := by
  simp only [exec, execEcall, deliver, h]

/-- ECALL ends the run where the handler stops (R374). -/
theorem exec_ecall_of_answer_none (h : s.ecallHandler.answer s.toArch = none) :
    exec .ecall s = .fault .environmentCall := by
  simp only [exec, execEcall, deliver, h]

/-- The state ECALL goes on in is the one answered, under the same memory map and handler. -/
theorem exec_ecall_resumes {a : Arch} (h : s.ecallHandler.answer s.toArch = some a) :
    ∃ t, exec .ecall s = .next t ∧ t.toArch = a ∧ KeepsHost s t :=
  ⟨s.resumeFrom a, exec_ecall_of_answer_some h, s.resumeFrom_toArch a, s.resumeFrom_memMap a, s.resumeFrom_ecallHandler a⟩

/-- Under `resume` ECALL is a move of the pc behind itself. -/
theorem exec_ecall_of_resume (h : s.ecallHandler = .resume) : exec .ecall s = .next (s.setPc (s.pc + 4#32)) :=
  exec_ecall_of_answer_some (by rw [h, answer_resume])

end

/-! ## EBREAK -/

/-- EBREAK ends the run with its own address, whatever the handler: its exception is not the one the host answers (R231, R362). -/
theorem exec_ebreak (s : State) : exec .ebreak s = .fault (.breakpoint s.pc) :=
  have hne : Fault.breakpoint s.pc ≠ .environmentCall := nofun
  deliver_of_ne_environmentCall hne s

/-! ## The statements -/

/-- Settles O31: each clause is ECALL at what its form of the handler answers, the last one the encoding of ECALL. -/
theorem environmentCall : Obligations.EnvironmentCall := by
  refine ⟨fun _ _ h => exec_ecall_resumes h, fun _ h => exec_ecall_of_answer_none h, fun s h => ?stop, fun s h => ?resume,
    fun s before after a h hfirst => ?listed, fun s rows h hrows => ?unlisted, fun s h => ?host, decode_eq_ok_iff rfl⟩
  case stop => exact exec_ecall_of_answer_none (by rw [h, answer_stop])
  case resume => exact exec_ecall_of_resume h ▸ setPc_goesTo s _
  case listed => exact exec_ecall_resumes (by rw [h, answer_table_of_mem hfirst])
  case unlisted => exact exec_ecall_of_answer_none (by rw [h, answer_table_of_not_mem hrows])
  case host =>
    have hanswer : s.ecallHandler.answer s.toArch = Config.ecallHandler s.toArch := by rw [h, answer_host]
    cases hc : Config.ecallHandler s.toArch with
    | none => exact exec_ecall_of_answer_none (hanswer.trans hc)
    | some a => exact exec_ecall_of_answer_some (hanswer.trans hc)

/-- Settles O32: EBREAK's fault by the delivery of its exception, its one word by its encoding. -/
theorem breakpoint : Obligations.Breakpoint :=
  ⟨exec_ebreak, decode_eq_ok_iff rfl⟩

end Sys2Proof.Machine
end

section
/-!
PROOFS of the M extension (44_m_extension.md R240 to R249). Each instruction ends in the shared completion of an x write, so a
statement is about the word written. The high half of a product and the low word beside it are the exact product narrowed to 64 bits,
which holds it. DIV and REM are the library's truncating `sdiv` and `srem`, but for DIV's zero divisor.
-/

namespace Sys2Proof.Machine

/-! ## Halves of an exact product -/

/-- `trunc_64(p)[63:32]` is `trunc_32(floor(p / 2^32))` (R242). -/
theorem highHalf_eq_ofInt (p : ℤ) : highHalf p = BitVec.ofInt 32 (p / 2 ^ 32) := by
  apply BitVec.eq_of_toNat_eq
  rw [highHalf, BitVec.extractLsb'_toNat, BitVec.toNat_ofInt, BitVec.toNat_ofInt, Nat.shiftRight_eq_div_pow]
  omega

theorem ofInt_eq_extractLsb' (p : ℤ) : BitVec.ofInt 32 p = (BitVec.ofInt 64 p).extractLsb' 0 32 := by
  apply BitVec.eq_of_toNat_eq
  rw [BitVec.extractLsb'_toNat, BitVec.toNat_ofInt, BitVec.toNat_ofInt, Nat.shiftRight_zero]
  omega

/-- The high half above the low word is the product narrowed to 64 bits (R249). -/
theorem highHalf_append_ofInt (p : ℤ) : highHalf p ++ BitVec.ofInt 32 p = BitVec.ofInt 64 p := by
  rw [highHalf, ofInt_eq_extractLsb']
  exact (BitVec.extractLsb'_append_extractLsb'_eq_extractLsb' (start₁ := 0) rfl).trans BitVec.extractLsb'_eq_self

/-! MUL's word is the low word of the product under each reading of the signs (R241). -/

theorem ofNat_mul_toNat (a b : Word) : BitVec.ofNat 32 (a.toNat * b.toNat) = a * b := by
  rw [BitVec.ofNat_mul, BitVec.ofNat_toNat, BitVec.ofNat_toNat, BitVec.setWidth_eq, BitVec.setWidth_eq]

theorem ofInt_mul_toInt (a b : Word) : BitVec.ofInt 32 (a.toInt * b.toInt) = a * b := by
  rw [BitVec.ofInt_mul, BitVec.ofInt_toInt, BitVec.ofInt_toInt]

theorem ofInt_mul_toInt_toNat (a b : Word) : BitVec.ofInt 32 (a.toInt * b.toNat) = a * b := by
  rw [BitVec.ofInt_mul, BitVec.ofInt_toInt, BitVec.ofInt_natCast, BitVec.ofNat_toNat, BitVec.setWidth_eq]

/-! The exact products fit in 64 bits (R242 to R244). -/

theorem highHalf_append_mul_signed (a b : Word) :
    (highHalf (a.toInt * b.toInt) ++ BitVec.ofNat 32 (a.toNat * b.toNat)).toInt = a.toInt * b.toInt := by
  have hlow : -2 ^ 62 ≤ a.toInt * b.toInt := BitVec.le_toInt_mul_toInt
  have hhigh : a.toInt * b.toInt ≤ 2 ^ 62 := BitVec.toInt_mul_toInt_le
  rw [ofNat_mul_toNat, ← ofInt_mul_toInt, highHalf_append_ofInt]
  exact BitVec.toInt_ofInt_eq_self (by decide) (by omega) (by omega)

theorem highHalf_append_mul_signed_unsigned (a b : Word) :
    (highHalf (a.toInt * b.toNat) ++ BitVec.ofNat 32 (a.toNat * b.toNat)).toInt = a.toInt * b.toNat := by
  have hb : b.toNat < 2 ^ 32 := b.isLt
  have hlow : -2 ^ 31 * (b.toNat : ℤ) ≤ a.toInt * b.toNat := Int.mul_le_mul_of_nonneg_right a.le_toInt b.toNat.cast_nonneg
  have hhigh : a.toInt * b.toNat ≤ 2 ^ 31 * (b.toNat : ℤ) :=
    Int.mul_le_mul_of_nonneg_right a.toInt_lt.le b.toNat.cast_nonneg
  rw [ofNat_mul_toNat, ← ofInt_mul_toInt_toNat, highHalf_append_ofInt]
  exact BitVec.toInt_ofInt_eq_self (by decide) (by omega) (by omega)

theorem highHalf_append_mul_unsigned (a b : Word) :
    (highHalf ((a.toNat : ℤ) * b.toNat) ++ BitVec.ofNat 32 (a.toNat * b.toNat)).toNat = a.toNat * b.toNat := by
  have hp : a.toNat * b.toNat < 2 ^ 32 * 2 ^ 32 := Nat.mul_lt_mul'' a.isLt b.isLt
  rw [← BitVec.ofInt_natCast, Nat.cast_mul, highHalf_append_ofInt, ← Nat.cast_mul, BitVec.ofInt_natCast]
  exact Nat.mod_eq_of_lt hp

/-! ## The quotient toward zero -/

theorem truncRat_neg (v : ℚ) : truncRat (-v) = -truncRat v := by
  rcases lt_trichotomy v 0 with h | rfl | h
  · rw [truncRat, truncRat, if_pos (by linarith), if_neg (by linarith), Int.floor_neg]
  · rfl
  · rw [truncRat, truncRat, if_neg (by linarith), if_pos h.le, Int.ceil_neg]

theorem truncRat_natCast_div (m n : ℕ) : truncRat ((m : ℚ) / n) = (m : ℤ).tdiv n := by
  rw [truncRat, if_pos (by positivity), Rat.floor_natCast_div_natCast, Int.tdiv_eq_ediv_of_nonneg m.cast_nonneg]

/-- The quotient of two integers truncated toward zero is their `tdiv`: both keep their sign with either operand's (R245). -/
theorem truncRat_intCast_div (a b : ℤ) : truncRat ((a : ℚ) / b) = a.tdiv b := by
  have hnat (n : ℕ) : truncRat ((a : ℚ) / n) = a.tdiv n := by
    obtain ⟨m, rfl | rfl⟩ := a.eq_nat_or_neg
    · rw [Int.cast_natCast, truncRat_natCast_div]
    · rw [Int.cast_neg, Int.cast_natCast, neg_div, truncRat_neg, truncRat_natCast_div, Int.neg_tdiv]
  obtain ⟨n, rfl | rfl⟩ := b.eq_nat_or_neg
  · rw [Int.cast_natCast, hnat]
  · rw [Int.cast_neg, Int.cast_natCast, div_neg, truncRat_neg, hnat, Int.tdiv_neg]

/-! ## The words of the divisions -/

section
variable {a b : Word}

/-- A test of a word's signed value is a test of the word. -/
theorem toInt_eq_iff {n : ℤ} {c : Word} (h : c.toInt = n) : a.toInt = n ↔ a = c := by
  rw [← h, BitVec.toInt_inj]

theorem toNat_eq_zero_iff : a.toNat = 0 ↔ a = 0#32 := BitVec.toNat_inj (y := 0#32)

theorem signed_overflow_iff : a.toInt = -2147483648 ∧ b.toInt = -1 ↔ a = 0x80000000#32 ∧ b = 0xFFFFFFFF#32 :=
  and_congr (toInt_eq_iff (by decide)) (toInt_eq_iff (by decide))

/-- DIV's word as R245 writes it. -/
theorem divSigned_eq_truncRat (a b : Word) : divSigned a b =
    if b = 0#32 then 0xFFFFFFFF#32 else if a = 0x80000000#32 ∧ b = 0xFFFFFFFF#32 then 0x80000000#32
      else BitVec.ofInt 32 (truncRat ((a.toInt : ℚ) / b.toInt)) := by
  simp only [divSigned, toInt_eq_iff BitVec.toInt_zero, signed_overflow_iff, truncRat_intCast_div]

/-- REM's word as R247 writes it. -/
theorem remSigned_eq_truncRat (a b : Word) : remSigned a b =
    if b = 0#32 then a else if a = 0x80000000#32 ∧ b = 0xFFFFFFFF#32 then 0#32
      else BitVec.ofInt 32 (a.toInt - b.toInt * truncRat ((a.toInt : ℚ) / b.toInt)) := by
  simp only [remSigned, toInt_eq_iff BitVec.toInt_zero, signed_overflow_iff, truncRat_intCast_div]

/-- DIVU's word as R246 writes it. -/
theorem divUnsigned_eq (a b : Word) :
    divUnsigned a b = if b = 0#32 then 0xFFFFFFFF#32 else BitVec.ofNat 32 (a.toNat / b.toNat) := by
  simp only [divUnsigned, toNat_eq_zero_iff]

/-- REMU's word as R248 writes it. -/
theorem remUnsigned_eq (a b : Word) : remUnsigned a b = if b = 0#32 then a else BitVec.ofNat 32 (a.toNat % b.toNat) := by
  simp only [remUnsigned, toNat_eq_zero_iff]

theorem ofInt_tdiv (a b : Word) : BitVec.ofInt 32 (a.toInt.tdiv b.toInt) = a.sdiv b :=
  BitVec.eq_of_toInt_eq (by rw [BitVec.toInt_ofInt, BitVec.toInt_sdiv])

theorem ofInt_tmod (a b : Word) : BitVec.ofInt 32 (a.toInt.tmod b.toInt) = a.srem b := by
  rw [← BitVec.toInt_srem, BitVec.ofInt_toInt]

/-- Off the zero divisor DIV is the library's truncating division, the signed overflow included. -/
theorem divSigned_eq_sdiv (hb : b ≠ 0#32) : divSigned a b = a.sdiv b := by
  rw [divSigned_eq_truncRat, if_neg hb, truncRat_intCast_div, ofInt_tdiv]
  split
  next hov => rw [hov.1, hov.2]; rfl
  next => rfl

/-- REM is the library's truncating remainder for every pair of operands. -/
theorem remSigned_eq_srem (a b : Word) : remSigned a b = a.srem b := by
  rw [remSigned_eq_truncRat, truncRat_intCast_div, ← Int.tmod_def, ofInt_tmod]
  split
  next hb => rw [hb, BitVec.srem_zero]
  next =>
    split
    next hov => rw [hov.1, hov.2]; rfl
    next => rfl

/-! ## The division laws -/

/-- Off the zero divisor and the signed overflow: dividend = divisor times quotient plus remainder (R247). -/
theorem divSigned_remSigned_law (hb : b ≠ 0#32) (hov : ¬(a = 0x80000000#32 ∧ b = 0xFFFFFFFF#32)) :
    a.toInt = b.toInt * (divSigned a b).toInt + (remSigned a b).toInt := by
  rw [divSigned_eq_sdiv hb, remSigned_eq_srem, BitVec.toInt_srem,
    BitVec.toInt_sdiv_of_ne_or_ne a b (not_and_or.mp hov), Int.mul_tdiv_add_tmod]

/-- The remainder is smaller than the divisor in magnitude (R247). -/
theorem remSigned_abs_lt (hb : b ≠ 0#32) : |(remSigned a b).toInt| < |b.toInt| := by
  have hpos : 0 < b.toInt.natAbs := Int.natAbs_pos.mpr (mt (toInt_eq_iff BitVec.toInt_zero).mp hb)
  rw [remSigned_eq_srem, BitVec.toInt_srem, Int.abs_eq_natAbs, Int.abs_eq_natAbs, Int.natAbs_tmod]
  exact Int.ofNat_lt.mpr (Nat.mod_lt _ hpos)

/-- The remainder is zero or has the dividend's sign (R247). -/
theorem remSigned_sign (a b : Word) :
    (remSigned a b).toInt = 0 ∨ ((remSigned a b).toInt < 0 ↔ a.toInt < 0) := by
  have hsign := Int.sign_tmod a.toInt b.toInt
  rw [remSigned_eq_srem, BitVec.toInt_srem]
  split at hsign
  next => exact .inl (Int.sign_eq_zero_iff_zero.mp hsign)
  next => exact .inr (by rw [← Int.sign_eq_neg_one_iff_neg, hsign, Int.sign_eq_neg_one_iff_neg])

/-- The unsigned division law (R249). -/
theorem divUnsigned_remUnsigned_law (hb : b ≠ 0#32) :
    a.toNat = b.toNat * (divUnsigned a b).toNat + (remUnsigned a b).toNat ∧ (remUnsigned a b).toNat < b.toNat := by
  have hpos : 0 < b.toNat := Nat.pos_of_ne_zero (mt toNat_eq_zero_iff.mp hb)
  rw [divUnsigned_eq, remUnsigned_eq, if_neg hb, if_neg hb, ← BitVec.udiv_def, ← BitVec.umod_def, BitVec.toNat_udiv,
    BitVec.toNat_umod]
  exact ⟨(Nat.div_add_mod ..).symm, Nat.mod_lt _ hpos⟩

end

/-! ## The statements -/

/-- Settles O33: MUL's word is the rule's, the three others are high halves of exact products. -/
theorem multiply : Obligations.Multiply := by
  refine ⟨fun s rd rs1 rs2 => ⟨?mul, ?mulh, ?mulhsu, ?mulhu⟩, decodes_mul, decodes_mulh, decodes_mulhsu, decodes_mulhu⟩
  case mul => exact completeX_completes s rd _
  case mulh => exact completeX_completes_eq s rd (highHalf_eq_ofInt _)
  case mulhsu => exact completeX_completes_eq s rd (highHalf_eq_ofInt _)
  case mulhu => exact completeX_completes_eq s rd ((highHalf_eq_ofInt _).trans (BitVec.ofInt_natCast 32 _))

/-- Settles O34: the words of the four rules, then the rows of the table. -/
theorem divide : Obligations.Divide := by
  refine ⟨fun s rd rs1 rs2 => ⟨?div, ?divu, ?rem, ?remu⟩, decodes_div, decodes_divu, decodes_rem, decodes_remu⟩
  case div => exact completeX_completes_eq s rd (divSigned_eq_truncRat ..)
  case divu => exact completeX_completes_eq s rd (divUnsigned_eq ..)
  case rem => exact completeX_completes_eq s rd (remSigned_eq_truncRat ..)
  case remu => exact completeX_completes_eq s rd (remUnsigned_eq ..)

/-- A completed x write to a register other than x0 is read back from the next state. -/
theorem completeX_readX (s : State) {rd : Reg} (v : Word) (hrd : rd ≠ 0#5) :
    ∃ t, completeX s rd v = .next t ∧ t.readX rd = v := by
  obtain ⟨t, hnext, -, ⟨hread, -⟩, -⟩ := completeX_completes s rd v
  exact ⟨t, hnext, hread.trans (if_neg hrd)⟩

/-- Settles O35: each result is read back as its word, and the laws are those of the words. -/
theorem multiplyDivideLaws : Obligations.MultiplyDivideLaws := by
  intro s rd rs1 rs2 hrd
  set a := s.readX rs1
  set b := s.readX rs2
  obtain ⟨q, hq, hqv⟩ := completeX_readX s (divSigned a b) hrd
  obtain ⟨r, hr, hrv⟩ := completeX_readX s (remSigned a b) hrd
  obtain ⟨qu, hqu, hquv⟩ := completeX_readX s (divUnsigned a b) hrd
  obtain ⟨ru, hru, hruv⟩ := completeX_readX s (remUnsigned a b) hrd
  obtain ⟨lo, hlo, hlov⟩ := completeX_readX s (BitVec.ofNat 32 (a.toNat * b.toNat)) hrd
  obtain ⟨h, hh, hhv⟩ := completeX_readX s (highHalf (a.toInt * b.toInt)) hrd
  obtain ⟨hs, hhs, hhsv⟩ := completeX_readX s (highHalf (a.toInt * b.toNat)) hrd
  obtain ⟨hu, hhu, hhuv⟩ := completeX_readX s (highHalf ((a.toNat : ℤ) * b.toNat)) hrd
  refine ⟨q, r, qu, ru, lo, h, hs, hu, hq, hr, hqu, hru, hlo, hh, hhs, hhu, ?_⟩
  simp only [hqv, hrv, hquv, hruv, hlov, hhv, hhsv, hhuv]
  exact ⟨divSigned_remSigned_law, fun hb => ⟨remSigned_abs_lt hb, remSigned_sign a b⟩, divUnsigned_remUnsigned_law,
    highHalf_append_mul_signed a b, highHalf_append_mul_signed_unsigned a b, highHalf_append_mul_unsigned a b⟩

end Sys2Proof.Machine
end

section
/-!
PROOFS about the binary32 patterns (45_f_arith.md R260, R261): the predicates in terms of the fields, and that a finite value has
one pattern but for the two zeros. A larger exponent field is a larger magnitude, so the magnitude fixes exponent and fraction.
-/

namespace Sys2Proof.Machine

/-! ## The predicates by the fields -/

theorem fpExp_eq_255_iff (p : Word) : fpExp p = 255 ↔ p.extractLsb' 23 8 = 0xFF#8 := BitVec.toNat_inj (y := 0xFF#8)

theorem fpFrac_eq_zero_iff (p : Word) : fpFrac p = 0 ↔ p.extractLsb' 0 23 = 0#23 := BitVec.toNat_inj (y := 0#23)

theorem isNaN_iff (p : Word) : isNaN p = true ↔ p.extractLsb' 23 8 = 0xFF#8 ∧ p.extractLsb' 0 23 ≠ 0#23 := by
  rw [isNaN, Bool.and_eq_true, beq_iff_eq, bne_iff_ne, fpExp_eq_255_iff, ne_eq, fpFrac_eq_zero_iff]

theorem isQNaN_iff (p : Word) : isQNaN p = true ↔ isNaN p = true ∧ p.getLsbD 22 = true := by
  rw [isQNaN, Bool.and_eq_true]

theorem isSNaN_iff (p : Word) : isSNaN p = true ↔ isNaN p = true ∧ p.getLsbD 22 = false := by
  rw [isSNaN, Bool.and_eq_true, Bool.not_eq_true']

theorem isInf_iff_fields (p : Word) : isInf p = true ↔ fpExp p = 255 ∧ fpFrac p = 0 := by
  rw [isInf, Bool.and_eq_true, beq_iff_eq, beq_iff_eq]

/-- An infinity is the infinity of its sign. -/
theorem eq_fpInf_of_isInf {p : Word} (h : isInf p = true) : p = fpInf (fpSign p) := by
  obtain ⟨he, hf⟩ := (isInf_iff_fields p).mp h
  cases hs : fpSign p
  · exact eq_of_fields hs he hf
  · exact eq_of_fields hs he hf

theorem isInf_iff (p : Word) : isInf p = true ↔ p = 0x7F800000#32 ∨ p = 0xFF800000#32 := by
  constructor
  · intro h
    have hp : p = fpInf (fpSign p) := eq_fpInf_of_isInf h
    cases hs : fpSign p <;> rw [hs] at hp
    · exact .inl hp
    · exact .inr hp
  · rintro (rfl | rfl) <;> rfl

theorem isZero_iff (p : Word) : isZero p = true ↔ p.extractLsb' 0 31 = 0#31 := by
  rw [isZero, Bool.and_eq_true, beq_iff_eq, beq_iff_eq, fpExp_eq, fpFrac_eq, ← BitVec.toNat_inj, BitVec.extractLsb'_toNat,
    BitVec.toNat_ofNat]
  omega

theorem isNaN_of_isInf {p : Word} (h : isInf p = true) : isNaN p = false := by
  rw [isNaN, ((isInf_iff_fields p).mp h).2]
  simp

theorem isNaN_of_isFinite {p : Word} (h : isFinite p = true) : isNaN p = false := by
  rw [isFinite, Bool.and_eq_true, Bool.not_eq_true'] at h
  exact h.1

/-- Settles O36: each predicate by its fields; the examples are evaluated. -/
theorem nanPatterns : Obligations.NanPatterns :=
  ⟨fun p => ⟨isNaN_iff p, isQNaN_iff p, isSNaN_iff p, isInf_iff p, isZero_iff p, rfl⟩, rfl, rfl,
    List.all_eq_true.mp rfl, List.all_eq_true.mp rfl⟩

/-! ## A finite value has one pattern -/

section
variable {p q : Word}

theorem fpUnits_of_subnormal (h : fpExp p = 0) : fpUnits p = fpFrac p := if_pos h

theorem fpUnits_of_normal (h : fpExp p ≠ 0) : fpUnits p = (2 ^ 23 + fpFrac p) * 2 ^ (fpExp p - 1) := if_neg h

/-- A magnitude is below that of the least normal number of the next exponent. -/
theorem fpUnits_lt_pow (p : Word) : fpUnits p < 2 ^ 23 * 2 ^ fpExp p := by
  have hf := fpFrac_lt p
  by_cases h : fpExp p = 0
  · rwa [fpUnits_of_subnormal h, h, pow_zero, mul_one]
  · have hexp : 2 ^ fpExp p = 2 * 2 ^ (fpExp p - 1) := by rw [← pow_succ', Nat.sub_add_cancel (by omega)]
    rw [fpUnits_of_normal h, hexp, ← mul_assoc]
    exact Nat.mul_lt_mul_of_pos_right (by omega) (by positivity)

theorem fpUnits_lt_of_fpExp_lt (h : fpExp p < fpExp q) : fpUnits p < fpUnits q :=
  calc fpUnits p < 2 ^ 23 * 2 ^ fpExp p := fpUnits_lt_pow p
    _ ≤ (2 ^ 23 + fpFrac q) * 2 ^ (fpExp q - 1) :=
      Nat.mul_le_mul (Nat.le_add_right ..) (Nat.pow_le_pow_right (by decide) (by omega))
    _ = fpUnits q := (fpUnits_of_normal (by omega)).symm

/-- The magnitude fixes exponent and fraction. -/
theorem fields_eq_of_fpUnits_eq (h : fpUnits p = fpUnits q) : fpExp p = fpExp q ∧ fpFrac p = fpFrac q := by
  have he : fpExp p = fpExp q := by
    rcases lt_trichotomy (fpExp p) (fpExp q) with hlt | he | hlt
    · exact absurd h (fpUnits_lt_of_fpExp_lt hlt).ne
    · exact he
    · exact absurd h (fpUnits_lt_of_fpExp_lt hlt).ne'
  refine ⟨he, ?_⟩
  by_cases h0 : fpExp q = 0
  · rwa [fpUnits_of_subnormal (he.trans h0), fpUnits_of_subnormal h0] at h
  · rw [fpUnits_of_normal (he ▸ h0), fpUnits_of_normal h0, he] at h
    exact Nat.add_left_cancel (Nat.mul_right_cancel (by positivity) h)

theorem fpVal_eq_iff : fpVal p = fpVal q ↔ fpInt p = fpInt q := by
  rw [fpVal_eq, fpVal_eq, div_left_inj' (by positivity), Int.cast_inj]

/-- A pattern that is no zero has its sign as the sign of its value. -/
theorem fpInt_neg_iff (h : isZero p = false) : fpInt p < 0 ↔ fpSign p = true := by
  have hpos : fpUnits p ≠ 0 := by rw [ne_eq, fpUnits_eq_zero, h]; decide
  unfold fpInt
  split
  · exact iff_of_true (by omega) ‹_›
  · exact iff_of_false (by omega) ‹_›

theorem isZero_eq_of_fpInt_eq (h : fpInt p = fpInt q) : isZero p = isZero q := by
  rw [Bool.eq_iff_iff, ← fpInt_eq_zero, ← fpInt_eq_zero, h]

theorem fpUnits_eq_of_fpInt_eq (h : fpInt p = fpInt q) : fpUnits p = fpUnits q := by
  rw [← Nat.cast_inj (R := ℤ), ← abs_fpInt, ← abs_fpInt, h]

/-- Patterns of the same value are the same pattern, or both zeros (R262). -/
theorem eq_or_isZero_of_fpVal_eq (h : fpVal p = fpVal q) : p = q ∨ (isZero p = true ∧ isZero q = true) := by
  have hint : fpInt p = fpInt q := fpVal_eq_iff.mp h
  have hzero : isZero p = isZero q := isZero_eq_of_fpInt_eq hint
  cases hp : isZero p
  · have hsign : fpSign p = fpSign q := by
      rw [Bool.eq_iff_iff, ← fpInt_neg_iff hp, ← fpInt_neg_iff (hzero ▸ hp), hint]
    obtain ⟨he, hf⟩ := fields_eq_of_fpUnits_eq (fpUnits_eq_of_fpInt_eq hint)
    exact .inl (eq_of_fields hsign he hf)
  · exact .inr ⟨rfl, hzero ▸ hp⟩

theorem fpVal_of_fpInt {n : ℤ} (h : fpInt p = n) : fpVal p = (n : ℚ) / 2 ^ 149 := h ▸ fpVal_eq p

end

/-- Settles O37: the injectivity, then each landmark from its magnitude in units of `2^-149`. -/
theorem finiteValues : Obligations.FiniteValues := by
  refine ⟨fun p q _ _ h => eq_or_isZero_of_fpVal_eq h, ?_, ?_, ?_, ?_, ?_, ?_, ?_⟩
  · rw [fpVal_of_fpInt (n := 2 ^ 149) (by decide)]; norm_num
  · rw [fpVal_of_fpInt (n := -2 ^ 149) (by decide)]; norm_num
  · rw [fpVal_of_fpInt (n := 2 ^ 150) (by decide)]; norm_num
  · rw [fpVal_of_fpInt (n := 2 ^ 148) (by decide)]; norm_num
  · rw [fpVal_of_fpInt (n := (2 ^ 24 - 1) * 2 ^ 253) (by decide)]; norm_num
  · rw [fpVal_of_fpInt (n := 2 ^ 23) (by decide)]; norm_num
  · rw [fpVal_of_fpInt (n := 1) (by decide)]; norm_num

end Sys2Proof.Machine
end

section
/-!
PROOFS of FLW and FSW (45_f_arith.md R265, R266): the shared guarded load and store, with a copy of 32 bits between them.
-/

namespace Sys2Proof.Machine

/-- A load into an f register of valid bytes completes with the word there (R265). -/
theorem exec_flw_completes {s : State} (rd : Reg) {rs1 : Reg} {imm : Word} (h : AllValid s (s.readX rs1 + imm) 4) :
    CompletesF s (exec (.flw rd rs1 imm) s) rd (wordIn s (s.readX rs1 + imm)) FFlags.none := by
  have hexec : exec (.flw rd rs1 imm) s = completeF s rd (wordIn s (s.readX rs1 + imm)) := guarded_load_ok s _ h
  exact hexec ▸ completeF_completes s rd _

/-- Settles O26: FLW by its guard, FSW by the shared store, whose write of a word changes memory alone. -/
theorem floatLoadStore : Obligations.FloatLoadStore := by
  refine ⟨fun s rd rs1 rs2 imm => ⟨fun h => ⟨exec_flw_completes rd h, ?store⟩, fun h => ⟨?loadFault, ?storeFault⟩⟩,
    decodes_flw, decodes_fsw⟩
  case store => exact storeAt_completes s h (fun a => putWord_writes s a _) fun _ => rfl
  case loadFault => exact guarded_load_fault s _ h
  case storeFault => exact guarded_store_fault s _ h

end Sys2Proof.Machine
end

section
/-!
PROOFS of the FP arithmetic, the fused multiply-adds and the conversions from integers (45_f_arith.md R267 to R277, 46_f_misc.md
R300, R301). A finite value is `fpInt` units of `2^-149`, so sums, products and the fused result are ratios of integers over a power
of two; `round` of the ratio, of the quotient of the units or of their root is `RoundedTo` of the real number. The other branches of
each function are the special cases of its rule, in the rule's order.
-/

namespace Sys2Proof.Machine

/-! ## Exact results as ratios -/

theorem fpVal_add (a b : Word) : fpVal a + fpVal b = ((fpInt a + fpInt b : ℤ) : ℚ) / (2 ^ 149 : ℕ) := by
  rw [fpVal_eq, fpVal_eq, ← add_div, ← Int.cast_add, Nat.cast_pow, Nat.cast_two]

theorem fpVal_mul (a b : Word) : fpVal a * fpVal b = ((fpInt a * fpInt b : ℤ) : ℚ) / (2 ^ 298 : ℕ) := by
  rw [fpVal_eq, fpVal_eq, div_mul_div_comm, ← pow_add, ← Int.cast_mul, Nat.cast_pow, Nat.cast_two]

/-- The addend over the denominator of the product. -/
theorem fpVal_eq_scaled (c : Word) : fpVal c = ((fpInt c * 2 ^ 149 : ℤ) : ℚ) / (2 ^ 298 : ℕ) := by
  have hpow : ((2 ^ 298 : ℕ) : ℚ) = 2 ^ 149 * 2 ^ 149 := by rw [← pow_add, Nat.cast_pow, Nat.cast_two]
  rw [hpow, Int.cast_mul, Int.cast_pow, Int.cast_two, mul_div_mul_right _ _ (by positivity), fpVal_eq]

theorem fpVal_mul_add (a b c : Word) :
    fpVal a * fpVal b + fpVal c = ((fpInt a * fpInt b + fpInt c * 2 ^ 149 : ℤ) : ℚ) / (2 ^ 298 : ℕ) := by
  rw [fpVal_mul, fpVal_eq_scaled, ← add_div, ← Int.cast_add]

/-- A ratio over a power of two is zero when its numerator is. -/
theorem ratio_eq_zero_iff (n : ℤ) (k : ℕ) : (n : ℚ) / (2 ^ k : ℕ) = 0 ↔ n = 0 := by
  rw [div_eq_zero_iff, Int.cast_eq_zero, or_iff_left (by positivity)]

theorem fpVal_add_eq_zero_iff (a b : Word) : fpVal a + fpVal b = 0 ↔ fpInt a + fpInt b = 0 := by
  rw [fpVal_add, ratio_eq_zero_iff]

theorem fpVal_mul_add_eq_zero_iff (a b c : Word) :
    fpVal a * fpVal b + fpVal c = 0 ↔ fpInt a * fpInt b + fpInt c * 2 ^ 149 = 0 := by
  rw [fpVal_mul_add, ratio_eq_zero_iff]

theorem fpVal_neg_iff {p : Word} (h : isZero p = false) : fpVal p < 0 ↔ fpSign p = true := by
  rw [fpVal_eq, div_lt_iff₀ (by positivity), zero_mul, Int.cast_lt_zero, fpInt_neg_iff h]

theorem abs_fpVal (p : Word) : |fpVal p| = (fpUnits p : ℚ) / 2 ^ 149 := by
  rw [fpVal_eq, abs_div, ← Int.cast_abs, abs_fpInt, abs_of_pos (by positivity : (0 : ℚ) < 2 ^ 149), Int.cast_natCast]

theorem fpUnits_pos {p : Word} (h : isZero p = false) : 0 < fpUnits p :=
  Nat.pos_of_ne_zero fun h0 => by rw [(fpUnits_eq_zero p).mp h0] at h; cases h

theorem fpInt_ne_zero {p : Word} (h : isZero p = false) : fpInt p ≠ 0 :=
  fun h0 => by rw [(fpInt_eq_zero p).mp h0] at h; cases h

theorem fpVal_ne_zero {p : Word} (h : isZero p = false) : fpVal p ≠ 0 := by
  rw [fpVal_eq]
  exact div_ne_zero (Int.cast_ne_zero.mpr (fpInt_ne_zero h)) (by positivity)

/-- A quotient is negative when the signs differ. -/
theorem fpVal_div_neg_iff {a b : Word} (ha : isZero a = false) (hb : isZero b = false) :
    fpVal a / fpVal b < 0 ↔ (fpSign a != fpSign b) = true := by
  have ha' := fpVal_neg_iff ha
  have hb' := fpVal_neg_iff hb
  have hpos {p : Word} (hp : isZero p = false) : 0 < fpVal p ↔ ¬fpVal p < 0 :=
    ⟨fun h => h.not_gt, fun h => lt_of_le_of_ne (not_lt.mp h) (fpVal_ne_zero hp).symm⟩
  rw [div_neg_iff, hpos ha, hpos hb, ha', hb']
  cases fpSign a <;> cases fpSign b <;> decide

/-! ## The patterns of the special cases -/

theorem fpInf_eq (sg : Bool) : fpInf sg = withSignBit sg 0x7F800000#32 := by cases sg <;> rfl

theorem fpZero_eq (sg : Bool) : fpZero sg = withSignBit sg 0x00000000#32 := by cases sg <;> rfl

/-! ## Each function delivers what its rule says

The branches of a function are those of its rule. All but the last are special cases, whose pattern and flags are written alike in
both; the last one rounds. -/

/-- The quotient of the units of two finite patterns, rounded, is the exact quotient rounded. -/
theorem round_div {a b : Word} (ha : isZero a = false) (hb : isZero b = false) :
    RoundedTo ((fpVal a / fpVal b : ℚ) : ℝ) (round (fpSign a != fpSign b) (.ratio (fpUnits a) (fpUnits b))).1
      (round (fpSign a != fpSign b) (.ratio (fpUnits a) (fpUnits b))).2 := by
  refine round_spec (x := .ratio _ _) ⟨fpUnits_pos ha, fpUnits_pos hb⟩ ?sign ?magnitude
  case sign => rw [Rat.cast_lt_zero, fpVal_div_neg_iff ha hb]
  case magnitude =>
    have habs : |fpVal a / fpVal b| = (fpUnits a : ℚ) / fpUnits b := by
      rw [abs_div, abs_fpVal, abs_fpVal, div_div_div_cancel_right₀ (by positivity)]
    rw [← Rat.cast_abs, habs, Magnitude.val]
    push_cast; rfl

/-- The root of the units of a positive finite pattern, rounded, is the real square root rounded. -/
theorem round_sqrt {a : Word} (hz : isZero a = false) (hs : fpSign a = false) :
    RoundedTo (Real.sqrt (fpVal a : ℝ)) (round false (.root (fpUnits a) (2 ^ 149))).1
      (round false (.root (fpUnits a) (2 ^ 149))).2 := by
  refine round_spec (x := .root _ _) ⟨fpUnits_pos hz, by positivity⟩ (iff_of_false (by decide) (Real.sqrt_nonneg _).not_gt) ?_
  have hval : fpVal a = (fpUnits a : ℚ) / 2 ^ 149 := by
    rw [← abs_fpVal, abs_of_nonneg (not_lt.mp ((fpVal_neg_iff hz).not.mpr (by simp [hs])))]
  rw [abs_of_nonneg (Real.sqrt_nonneg _), hval, Magnitude.val, Rat.cast_div, Rat.cast_natCast, Rat.cast_pow,
    Rat.cast_ofNat, Nat.cast_pow, Nat.cast_ofNat]

theorem fpAdd_rule (a b : Word) : AddRule a b (fpAdd a b).1 (fpAdd a b).2 := by
  generalize hr : fpAdd a b = r
  simp only [AddRule, fpVal_add_eq_zero_iff]
  simp only [fpAdd] at hr
  split_ifs at hr ⊢ with hnan hinf hsign ha hb hsum hzero <;> subst hr
  any_goals apply And.intro rfl rfl -- the special cases
  exact roundRatio_spec hsum (by positivity) (fpVal_add a b)

theorem fpMul_rule (a b : Word) : MulRule a b (fpMul a b).1 (fpMul a b).2 := by
  generalize hr : fpMul a b = r
  unfold MulRule
  simp only [fpMul, fpInf_eq, fpZero_eq] at hr
  split_ifs at hr ⊢ with hnan hinvalid hinf hzero <;> subst hr
  any_goals apply And.intro rfl rfl -- the special cases
  obtain ⟨ha, hb⟩ : isZero a = false ∧ isZero b = false := by simpa using hzero
  exact roundRatio_spec (mul_ne_zero (fpInt_ne_zero ha) (fpInt_ne_zero hb)) (by positivity) (fpVal_mul a b)

theorem fpDiv_rule (a b : Word) : DivRule a b (fpDiv a b).1 (fpDiv a b).2 := by
  generalize hr : fpDiv a b = r
  unfold DivRule
  simp only [fpDiv, fpInf_eq, fpZero_eq] at hr
  split_ifs at hr ⊢ with hnan hinvalid hinf hinf' hb ha <;> subst hr
  any_goals apply And.intro rfl rfl -- the special cases
  exact round_div (Bool.eq_false_iff.mpr ha) (Bool.eq_false_iff.mpr hb)

theorem fpSqrt_rule (a : Word) : SqrtRule a (fpSqrt a).1 (fpSqrt a).2 := by
  generalize hr : fpSqrt a = r
  unfold SqrtRule
  unfold fpSqrt at hr
  split_ifs at hr ⊢ with hnan hzero hsign hinf <;> subst hr
  any_goals apply And.intro rfl rfl -- the special cases
  exact round_sqrt (Bool.eq_false_iff.mpr hzero) (Bool.eq_false_iff.mpr hsign)

theorem fpFma_rule (a b c : Word) : FmaRule a b c (fpFma a b c).1 (fpFma a b c).2 := by
  generalize hr : fpFma a b c = r
  simp only [FmaRule, fpVal_mul_add_eq_zero_iff, Bool.or_assoc]
  simp only [fpFma, fpInf_eq, fpZero_eq, Bool.or_assoc] at hr
  split_ifs at hr ⊢ with hnan hinf hinvalid hc hsum hzero <;> subst hr
  any_goals apply And.intro rfl rfl -- the special cases
  · rw [Bool.and_eq_true, beq_iff_eq] at hzero
    exact ⟨congrArg (withSignBit · 0x00000000#32) hzero.2, rfl⟩
  · exact roundRatio_spec hsum (by positivity) (fpVal_mul_add a b c)

theorem fpOfInt_rule (n : ℤ) : OfIntRule n (fpOfInt n).1 (fpOfInt n).2 := by
  unfold OfIntRule fpOfInt
  split
  · exact ⟨rfl, rfl⟩
  · have h := roundRatio_spec (q := (n : ℚ)) ‹n ≠ 0› Nat.one_pos (by simp)
    rwa [Rat.cast_intCast] at h

/-! ## Words outside the rows of the opcode -/

section
variable {w : Word}

theorem decode_of_opcode_fp (ho : opcodeOf w = 0b1010011#7) : decode w = decodeFp w := by
  simp [decode, ho]

theorem decodeFsqrt_illegal (h2 : rs2Of w ≠ 0#5) : decodeFsqrt w = .error (.illegalInstruction w) := by
  unfold decodeFsqrt
  split
  · exact absurd ‹_› h2
  · rfl

theorem decodeFcvtFromInt_illegal (h2 : 2 ≤ (rs2Of w).toNat) : decodeFcvtFromInt w = .error (.illegalInstruction w) := by
  unfold decodeFcvtFromInt
  split
  · next h => exact absurd h2 (by rw [h]; decide)
  · next h => exact absurd h2 (by rw [h]; decide)
  · rfl

end

/-! ## The statements -/

/-- A result that obeys a rule, delivered by the shared completion of an f write. -/
theorem completeFFlags_delivers (s : State) (rd : Reg) {rule : Word → FFlags → Prop} {r : Word × FFlags} (h : rule r.1 r.2) :
    ∃ p fl, rule p fl ∧ CompletesF s (completeFFlags s rd r) rd p fl :=
  ⟨r.1, r.2, h, completeFFlags_completes s rd r⟩

/-- Settles O38: FSUB.S is the sum with the second operand negated, as R268 has it. -/
theorem floatAddSub : Obligations.FloatAddSub :=
  ⟨fun s rd _ _ _ => ⟨completeFFlags_delivers s rd (fpAdd_rule ..), completeFFlags_delivers s rd (fpAdd_rule ..)⟩,
    decodes_faddS, decodes_fsubS⟩

/-- Settles O39: the shared completion of an f write with what FMUL.S's rule delivers. -/
theorem floatMultiply : Obligations.FloatMultiply :=
  ⟨fun s rd _ _ _ => completeFFlags_delivers s rd (fpMul_rule ..), decodes_fmulS⟩

/-- Settles O40: the shared completion of an f write with what FDIV.S's rule delivers. -/
theorem floatDivide : Obligations.FloatDivide :=
  ⟨fun s rd _ _ _ => completeFFlags_delivers s rd (fpDiv_rule ..), decodes_fdivS⟩

/-- Settles O41: the rule, the row, and the words with another `rs2`. -/
theorem floatSquareRoot : Obligations.FloatSquareRoot := by
  refine ⟨fun s rd _ _ => completeFFlags_delivers s rd (fpSqrt_rule ..), decodes_fsqrtS, ?_⟩
  rintro w ⟨ho, h7, h2⟩
  simpa [decode_of_opcode_fp ho, decodeFp, h7] using decodeFsqrt_illegal h2

/-- Settles O42: the four differ in which operands are negated before the one function. -/
theorem fusedMultiplyAdd : Obligations.FusedMultiplyAdd := by
  refine ⟨fun s rd rs1 rs2 rs3 rm fmt => ⟨?_, ?_, ?_, ?_⟩, decodes_fmaddS, decodes_fmsubS, decodes_fnmsubS, decodes_fnmaddS⟩
  all_goals exact completeFFlags_delivers s rd (fpFma_rule ..)

/-- Settles O49: the exact integer rounded, the rows, and the words with another `rs2`. -/
theorem integerToFloat : Obligations.IntegerToFloat := by
  refine ⟨fun s rd rs1 rm => ⟨?_, ?_⟩, decodes_fcvtSW, decodes_fcvtSWu, ?_⟩
  · exact completeFFlags_delivers s rd (fpOfInt_rule _)
  · exact completeFFlags_delivers s rd (fpOfInt_rule _)
  · rintro w ⟨ho, h7, h2⟩
    simpa [decode_of_opcode_fp ho, decodeFp, h7] using decodeFcvtFromInt_illegal h2

end Sys2Proof.Machine
end

section
/-!
PROOFS of what FP arithmetic never does (45_f_arith.md R263, R264, R271): no NaN but the canonical one, no underflow of a sum, no
overflow or underflow of a square root, no division by zero but in FDIV.S. The key is what a rounding can deliver at all
(`RoundedTo.cases`): an infinity of a real of magnitude at least `2^127`, an underflow of a real below `2^-126` that is no
multiple of `2^-149`, or a finite pattern with NX or no flag.
-/

namespace Sys2Proof.Machine

/-! ## What a rounding delivers -/

/-- The only nearest integer of an integer is itself. -/
theorem nearestEven_natCast {n k : ℕ} (h : NearestEven n k) : n = k := by
  have hle : |(n : ℝ) - k| ≤ 1 / 2 := h.elim le_of_lt fun h => h.1.le
  have hlt : |(n : ℤ) - k| < 1 := by exact_mod_cast hle.trans_lt one_half_lt_one
  have hzero : (n : ℤ) - k = 0 := Int.abs_lt_one_iff.mp hlt
  omega

section
variable {y : ℝ} {e : ℤ} {k : ℕ}

/-- Rounding to 24 significant bits stays within the power-of-two bounds of the number. -/
theorem rounded24_bounds (hlo : (2 : ℝ) ^ e ≤ y) (hhi : y < 2 ^ (e + 1)) (hk : NearestEven (y / 2 ^ (e - 23)) k) :
    (2 : ℝ) ^ e ≤ k * 2 ^ (e - 23) ∧ (k : ℝ) * 2 ^ (e - 23) ≤ 2 ^ (e + 1) := by
  have hpos : (0 : ℝ) < 2 ^ (e - 23) := by positivity
  have h23 : (2 : ℝ) ^ e = (2 ^ 23 : ℕ) * 2 ^ (e - 23) := by
    rw [Nat.cast_pow, Nat.cast_two, ← zpow_natCast, ← zpow_add₀ two_ne_zero]; congr 1; omega
  have h24 : (2 : ℝ) ^ (e + 1) = (2 ^ 24 : ℕ) * 2 ^ (e - 23) := by
    rw [Nat.cast_pow, Nat.cast_two, ← zpow_natCast, ← zpow_add₀ two_ne_zero]; congr 1; omega
  have hge : 2 ^ 23 ≤ k := nearestEven_ge hk (by rwa [le_div_iff₀ hpos, ← h23])
  have hle : k ≤ 2 ^ 24 := nearestEven_le hk (by rwa [div_lt_iff₀ hpos, ← h24])
  rw [h23, h24]
  exact ⟨by gcongr, by gcongr⟩

end

section
variable {r : ℝ} {p : Word} {fl : FFlags}

/-- The three things a rounding can deliver. -/
theorem RoundedTo.cases (h : RoundedTo r p fl) :
    (isInf p = true ∧ fl = FFlags.overflow ∧ (2 : ℝ) ^ (127 : ℤ) ≤ |r|) ∨
    (isFinite p = true ∧ fl = FFlags.underflow ∧ r ≠ 0 ∧ |r| < 2 ^ (-126 : ℤ) ∧ ∀ n : ℕ, |r| ≠ n * 2 ^ (-149 : ℤ)) ∨
    (isFinite p = true ∧ (fl = FFlags.none ∨ fl = FFlags.inexact)) := by
  obtain ⟨e, k, u, hlo, hhi, hk, rfl, hbig, htiny, hnormal⟩ := h
  obtain ⟨hulo, huhi⟩ := rounded24_bounds hlo hhi hk
  rcases le_or_gt ((2 : ℝ) ^ (128 : ℤ)) (k * 2 ^ (e - 23)) with hu | hu
  · obtain ⟨rfl, rfl⟩ := hbig hu
    have he : 128 ≤ e + 1 := (zpow_le_zpow_iff_right₀ one_lt_two).mp (hu.trans huhi)
    refine .inl ⟨by split <;> rfl, rfl, le_trans ?_ hlo⟩
    exact zpow_le_zpow_right₀ one_le_two (by omega)
  rcases lt_or_ge ((k : ℝ) * 2 ^ (e - 23)) (2 ^ (-126 : ℤ)) with hv | hv
  · obtain ⟨m, hm, ⟨hfin, -⟩, rfl⟩ := htiny hv
    split
    · exact .inr (.inr ⟨hfin, .inl rfl⟩)
    next hne =>
    have he : e < -126 := (zpow_lt_zpow_iff_right₀ one_lt_two).mp (hulo.trans_lt hv)
    refine .inr (.inl ⟨hfin, rfl, ?_, hhi.trans_le (zpow_le_zpow_right₀ one_le_two (by omega)), fun n hn => hne ?_⟩)
    · rintro rfl
      rw [abs_zero] at hlo
      exact absurd hlo (by positivity : (0 : ℝ) < 2 ^ e).not_ge
    · rw [hn, mul_div_cancel_right₀ _ (by positivity)] at hm
      rw [hn, ← nearestEven_natCast hm]
  · obtain ⟨⟨hfin, -⟩, rfl⟩ := hnormal hv hu
    refine .inr (.inr ⟨hfin, ?_⟩)
    split
    · exact .inl rfl
    · exact .inr rfl

theorem RoundedTo.not_isNaN (h : RoundedTo r p fl) : isNaN p = false := by
  rcases h.cases with ⟨hinf, -⟩ | ⟨hfin, -⟩ | ⟨hfin, -⟩
  · exact isNaN_of_isInf hinf
  · exact isNaN_of_isFinite hfin
  · exact isNaN_of_isFinite hfin

theorem RoundedTo.dz (h : RoundedTo r p fl) : fl.dz = false := by
  rcases h.cases with ⟨-, rfl, -⟩ | ⟨-, rfl, -⟩ | ⟨-, rfl | rfl⟩ <;> rfl

/-- A real that is a whole number of units of `2^-149` does not underflow. -/
theorem RoundedTo.uf_of_units (h : RoundedTo r p fl) {n : ℕ} (hn : |r| = n * 2 ^ (-149 : ℤ)) : fl.uf = false := by
  rcases h.cases with ⟨-, rfl, -⟩ | ⟨-, rfl, -, -, hne⟩ | ⟨-, rfl | rfl⟩
  · rfl
  · exact absurd hn (hne n)
  · rfl
  · rfl

/-- A real between the least normal number and `2^127` neither overflows nor underflows. -/
theorem RoundedTo.of_uf_of_range (h : RoundedTo r p fl) (hlo : r ≠ 0 → 2 ^ (-126 : ℤ) ≤ |r|) (hhi : |r| < 2 ^ (127 : ℤ)) :
    fl.of = false ∧ fl.uf = false := by
  rcases h.cases with ⟨-, rfl, hge⟩ | ⟨-, rfl, h0, hlt, -⟩ | ⟨-, rfl | rfl⟩
  · exact absurd hge hhi.not_ge
  · exact absurd (hlo h0) hlt.not_ge
  · exact ⟨rfl, rfl⟩
  · exact ⟨rfl, rfl⟩

/-- A sum of two finite values is a whole number of units of `2^-149`. -/
theorem abs_fpVal_add (a b : Word) :
    |((fpVal a + fpVal b : ℚ) : ℝ)| = ((fpInt a + fpInt b).natAbs : ℝ) * 2 ^ (-149 : ℤ) := by
  rw [fpVal_add, Rat.cast_div, Rat.cast_intCast, abs_div, Nat.cast_natAbs, Int.cast_abs, zpow_neg, ← div_eq_mul_inv]
  norm_num

theorem fpVal_lt (a : Word) : fpVal a < 2 ^ 129 := by
  have hunits : fpUnits a < 2 ^ 129 * 2 ^ 149 :=
    calc fpUnits a < 2 ^ 23 * 2 ^ fpExp a := fpUnits_lt_pow a
      _ ≤ 2 ^ 23 * 2 ^ 255 := Nat.mul_le_mul_left _ (Nat.pow_le_pow_right (by decide) (Nat.le_of_lt_succ (fpExp_lt a)))
      _ = 2 ^ 129 * 2 ^ 149 := by rw [← pow_add, ← pow_add]
  calc fpVal a ≤ |fpVal a| := le_abs_self _
    _ = (fpUnits a : ℚ) / 2 ^ 149 := abs_fpVal a
    _ < 2 ^ 129 := by rw [div_lt_iff₀ (by positivity)]; exact_mod_cast hunits

/-- A positive value is at least one unit. -/
theorem le_fpVal_of_pos {a : Word} (h : 0 < fpVal a) : 1 / 2 ^ 149 ≤ fpVal a := by
  rw [fpVal_eq] at h ⊢
  have hint : 0 < fpInt a := by rwa [lt_div_iff₀ (by positivity), zero_mul, Int.cast_pos] at h
  gcongr
  exact_mod_cast hint

/-- The square root of a value, where it is not zero, is far inside the range of the normal numbers (R271). -/
theorem sqrt_fpVal_range (a : Word) :
    (Real.sqrt (fpVal a) ≠ 0 → (2 : ℝ) ^ (-126 : ℤ) ≤ |Real.sqrt (fpVal a)|) ∧
      |Real.sqrt (fpVal a)| < (2 : ℝ) ^ (127 : ℤ) := by
  rw [abs_of_nonneg (Real.sqrt_nonneg _)]
  constructor
  · intro h0
    have hpos : 0 < fpVal a := Rat.cast_pos.mp (Real.sqrt_ne_zero'.mp h0)
    have hge : ((1 / 2 ^ 149 : ℚ) : ℝ) ≤ fpVal a := Rat.cast_le.mpr (le_fpVal_of_pos hpos)
    refine Real.le_sqrt_of_sq_le (le_trans ?_ hge)
    norm_num
  · have hlt : (fpVal a : ℝ) < (2 ^ 129 : ℚ) := Rat.cast_lt.mpr (fpVal_lt a)
    refine (Real.sqrt_lt' (by positivity)).mpr (hlt.trans ?_)
    norm_num

end

/-! ## What an operation delivers -/

/-- What an operation of exact real result `r` can deliver, but for a division by zero: the canonical NaN with NV or no flag, a
special pattern that is no NaN, without a flag, or `r` rounded. -/
inductive Delivers (r : ℝ) : Word → FFlags → Prop where
  | nan (signaling : Bool) : Delivers r canonicalNaN (FFlags.when signaling FFlags.invalid)
  | special {p : Word} : isNaN p = false → Delivers r p FFlags.none
  | rounded {p : Word} {fl : FFlags} : RoundedTo r p fl → Delivers r p fl

section
variable {r : ℝ} {a b c p : Word} {fl : FFlags}

theorem Delivers.eq_canonicalNaN (h : Delivers r p fl) (hp : isNaN p = true) : p = canonicalNaN := by
  cases h with
  | nan => rfl
  | special hn => exact absurd hp (Bool.eq_false_iff.mp hn)
  | rounded hr => exact absurd hp (Bool.eq_false_iff.mp hr.not_isNaN)

theorem Delivers.of_nan {signaling : Bool} (h : p = canonicalNaN ∧ fl = FFlags.when signaling FFlags.invalid) :
    Delivers r p fl := by
  obtain ⟨rfl, rfl⟩ := h
  exact .nan signaling

theorem Delivers.of_special {q : Word} (h : p = q ∧ fl = FFlags.none) (hq : isNaN q = false) : Delivers r p fl := by
  obtain ⟨rfl, rfl⟩ := h
  exact .special hq

/-- A flag other than NV comes from the rounding alone: a NaN case signals at most NV, a special one nothing. -/
theorem Delivers.flag_of_rounded {flag : FFlags → Bool} (h : Delivers r p fl) (hinvalid : flag FFlags.invalid = false)
    (hnone : flag FFlags.none = false) (hr : RoundedTo r p fl → flag fl = false) : flag fl = false := by
  cases h with
  | nan signaling =>
    cases signaling
    · exact hnone
    · exact hinvalid
  | special => exact hnone
  | rounded h => exact hr h

theorem Delivers.dz (h : Delivers r p fl) : fl.dz = false :=
  h.flag_of_rounded (flag := FFlags.dz) rfl rfl RoundedTo.dz

theorem isNaN_withSignBit_inf (sg : Bool) : isNaN (withSignBit sg 0x7F800000#32) = false := by cases sg <;> rfl

theorem isNaN_withSignBit_zero (sg : Bool) : isNaN (withSignBit sg 0x00000000#32) = false := by cases sg <;> rfl

/-! ## What the rules deliver -/

theorem AddRule.delivers (h : AddRule a b p fl) : Delivers ((fpVal a + fpVal b : ℚ) : ℝ) p fl := by
  unfold AddRule at h
  split_ifs at h with hnan hinf hsign ha hb hsum hzero
  · exact .of_nan h
  · exact .of_nan (signaling := true) h
  · exact .of_special h (isNaN_of_isInf (Bool.and_eq_true_iff.mp hinf).1)
  · exact .of_special h (isNaN_of_isInf ha)
  · exact .of_special h (isNaN_of_isInf hb)
  · exact .of_special h (Bool.or_eq_false_iff.mp (Bool.eq_false_iff.mpr hnan)).1
  · exact .of_special h rfl
  · exact .rounded h

theorem MulRule.delivers (h : MulRule a b p fl) : Delivers ((fpVal a * fpVal b : ℚ) : ℝ) p fl := by
  unfold MulRule at h
  split_ifs at h with hnan hinvalid hinf hzero
  · exact .of_nan h
  · exact .of_nan (signaling := true) h
  · exact .of_special h (isNaN_withSignBit_inf _)
  · exact .of_special h (isNaN_withSignBit_zero _)
  · exact .rounded h

theorem SqrtRule.delivers (h : SqrtRule a p fl) : Delivers (Real.sqrt (fpVal a)) p fl := by
  unfold SqrtRule at h
  split_ifs at h with hnan hzero hsign hinf
  · exact .of_nan h
  · exact .of_special h (Bool.eq_false_iff.mpr hnan)
  · exact .of_nan (signaling := true) h
  · exact .of_special h (Bool.eq_false_iff.mpr hnan)
  · exact .rounded h

theorem FmaRule.delivers (h : FmaRule a b c p fl) : Delivers ((fpVal a * fpVal b + fpVal c : ℚ) : ℝ) p fl := by
  unfold FmaRule at h
  split_ifs at h with hnan hinf hinvalid hc hsum hzero
  · exact .of_nan h
  · exact .of_nan (signaling := true) h
  · exact .of_special h (isNaN_withSignBit_inf _)
  · exact .of_special h (isNaN_of_isInf hc)
  · exact .of_special h (isNaN_withSignBit_zero _)
  · exact .of_special h rfl
  · exact .rounded h

/-- A division by zero delivers an infinity; every other quotient is delivered as the other operations deliver theirs. -/
theorem DivRule.delivers (h : DivRule a b p fl) :
    isNaN p = false ∧ fl = FFlags.divByZero ∨ Delivers ((fpVal a / fpVal b : ℚ) : ℝ) p fl := by
  unfold DivRule at h
  split_ifs at h with hnan hinvalid ha hb hb0 ha0
  · exact .inr (.of_nan h)
  · exact .inr (.of_nan (signaling := true) h)
  · exact .inr (.of_special h (isNaN_withSignBit_inf _))
  · exact .inr (.of_special h (isNaN_withSignBit_zero _))
  · exact .inl ⟨h.1 ▸ isNaN_withSignBit_inf _, h.2⟩
  · exact .inr (.of_special h (isNaN_withSignBit_zero _))
  · exact .inr (.rounded h)

theorem OfIntRule.delivers {n : ℤ} (h : OfIntRule n p fl) : Delivers (n : ℝ) p fl := by
  unfold OfIntRule at h
  split_ifs at h with hzero
  · exact .of_special h rfl
  · exact .rounded h

/-- A sum never underflows: both operands are whole numbers of units (R263). -/
theorem AddRule.uf (h : AddRule a b p fl) : fl.uf = false :=
  h.delivers.flag_of_rounded (flag := FFlags.uf) rfl rfl fun hr => hr.uf_of_units (abs_fpVal_add a b)

/-- A square root never underflows (R271). -/
theorem SqrtRule.uf (h : SqrtRule a p fl) : fl.uf = false :=
  h.delivers.flag_of_rounded (flag := FFlags.uf) rfl rfl fun hr =>
    (hr.of_uf_of_range (sqrt_fpVal_range a).1 (sqrt_fpVal_range a).2).2

/-- A square root never overflows (R271). -/
theorem SqrtRule.of (h : SqrtRule a p fl) : fl.of = false :=
  h.delivers.flag_of_rounded (flag := FFlags.of) rfl rfl fun hr =>
    (hr.of_uf_of_range (sqrt_fpVal_range a).1 (sqrt_fpVal_range a).2).1

theorem DivRule.eq_canonicalNaN (h : DivRule a b p fl) (hp : isNaN p = true) : p = canonicalNaN := by
  rcases h.delivers with ⟨hn, -⟩ | hd
  · exact absurd hp (Bool.eq_false_iff.mp hn)
  · exact hd.eq_canonicalNaN hp

end

/-! ## The flags of the operations that do not round -/

theorem FFlags.when_dz (b : Bool) {x : FFlags} (h : x.dz = false) : (FFlags.when b x).dz = false := by
  cases b
  · rfl
  · exact h

theorem fpMin_dz (a b : Word) : (fpMin a b).2.dz = false := by
  unfold fpMin
  repeat' split
  all_goals exact FFlags.when_dz _ rfl

theorem fpMax_dz (a b : Word) : (fpMax a b).2.dz = false := by
  unfold fpMax
  repeat' split
  all_goals exact FFlags.when_dz _ rfl

theorem fpToInt_dz (lo hi : ℤ) (a : Word) : (fpToInt lo hi a).2.dz = false := by
  unfold fpToInt
  split
  · rfl
  split
  · rfl
  dsimp only
  split
  · rfl
  split
  · rfl
  · exact FFlags.when_dz _ rfl

/-! ## What is read back from the next state -/

section
variable {i : Instr} {s t : State} {rd : Reg}

theorem completeFFlags_readF {r : Word × FFlags} (h : completeFFlags s rd r = .next t) : t.readF rd = r.1 := by
  cases h
  exact State.writeF_readF_self s rd r.1

theorem completeFFlags_signals {r : Word × FFlags} (h : completeFFlags s rd r = .next t) : Signals s t r.2 := by
  cases h
  rfl

theorem completeXFlags_signals {v : Word} {fl : FFlags} (h : completeXFlags s rd v fl = .next t) : Signals s t fl := by
  cases h
  simp [Signals]

theorem Signals.dz {new : FFlags} (h : Signals s t new) (hnew : new.dz = false) : t.fcsr.fflags.dz = s.fcsr.fflags.dz := by
  rw [h, FFlags.union, hnew, Bool.or_false]

theorem Signals.uf {new : FFlags} (h : Signals s t new) (hnew : new.uf = false) : t.fcsr.fflags.uf = s.fcsr.fflags.uf := by
  rw [h, FFlags.union, hnew, Bool.or_false]

theorem Signals.of {new : FFlags} (h : Signals s t new) (hnew : new.of = false) : t.fcsr.fflags.of = s.fcsr.fflags.of := by
  rw [h, FFlags.union, hnew, Bool.or_false]

/-- Every instruction but FDIV.S leaves DZ: those outside R263's table leave `fcsr`, the others deliver flags without DZ. -/
theorem exec_dz (hi : i ≠ .ecall) (h : exec i s = .next t) (hdiv : i.mnemonic ≠ "FDIV.S") :
    t.fcsr.fflags.dz = s.fcsr.fflags.dz := by
  cases hs : i.signals
  · obtain ⟨-, -, hkeeps⟩ := (exec_effect hi h).signals
    exact congrArg (·.fflags.dz) (hkeeps hs)
  · cases i with
    | faddS rd rs1 rs2 rm => exact (completeFFlags_signals h).dz (fpAdd_rule ..).delivers.dz
    | fsubS rd rs1 rs2 rm => exact (completeFFlags_signals h).dz (fpAdd_rule ..).delivers.dz
    | fmulS rd rs1 rs2 rm => exact (completeFFlags_signals h).dz (fpMul_rule ..).delivers.dz
    | fdivS rd rs1 rs2 rm => exact absurd rfl hdiv
    | fsqrtS rd rs1 rm => exact (completeFFlags_signals h).dz (fpSqrt_rule ..).delivers.dz
    | fmaddS rd rs1 rs2 rs3 rm fmt => exact (completeFFlags_signals h).dz (fpFma_rule ..).delivers.dz
    | fmsubS rd rs1 rs2 rs3 rm fmt => exact (completeFFlags_signals h).dz (fpFma_rule ..).delivers.dz
    | fnmsubS rd rs1 rs2 rs3 rm fmt => exact (completeFFlags_signals h).dz (fpFma_rule ..).delivers.dz
    | fnmaddS rd rs1 rs2 rs3 rm fmt => exact (completeFFlags_signals h).dz (fpFma_rule ..).delivers.dz
    | fminS rd rs1 rs2 => exact (completeFFlags_signals h).dz (fpMin_dz ..)
    | fmaxS rd rs1 rs2 => exact (completeFFlags_signals h).dz (fpMax_dz ..)
    | feqS rd rs1 rs2 => exact (completeXFlags_signals h).dz (FFlags.when_dz _ rfl)
    | fltS rd rs1 rs2 => exact (completeXFlags_signals h).dz (FFlags.when_dz _ rfl)
    | fleS rd rs1 rs2 => exact (completeXFlags_signals h).dz (FFlags.when_dz _ rfl)
    | fcvtWS rd rs1 rm => exact (completeXFlags_signals h).dz (fpToInt_dz ..)
    | fcvtWuS rd rs1 rm => exact (completeXFlags_signals h).dz (fpToInt_dz ..)
    | fcvtSW rd rs1 rm => exact (completeFFlags_signals h).dz (fpOfInt_rule _).delivers.dz
    | fcvtSWu rd rs1 rm => exact (completeFFlags_signals h).dz (fpOfInt_rule _).delivers.dz
    | _ => exact absurd hs Bool.false_ne_true

/-- What FADD.S, FSUB.S and FSQRT.S leave of UF. -/
theorem exec_uf (h : exec i s = .next t) (hi : i.mnemonic ∈ ["FADD.S", "FSUB.S", "FSQRT.S"]) :
    t.fcsr.fflags.uf = s.fcsr.fflags.uf := by
  cases i with
  | faddS rd rs1 rs2 rm => exact (completeFFlags_signals h).uf (fpAdd_rule ..).uf
  | fsubS rd rs1 rs2 rm => exact (completeFFlags_signals h).uf (fpAdd_rule ..).uf
  | fsqrtS rd rs1 rm => exact (completeFFlags_signals h).uf (fpSqrt_rule ..).uf
  | _ => exact absurd (decide_eq_true hi) Bool.false_ne_true

/-- What FSQRT.S leaves of OF. -/
theorem exec_of (h : exec i s = .next t) (hi : i.mnemonic = "FSQRT.S") : t.fcsr.fflags.of = s.fcsr.fflags.of := by
  cases i with
  | fsqrtS rd rs1 rm => exact (completeFFlags_signals h).of (fpSqrt_rule ..).of
  | _ => exact absurd (decide_eq_true hi) Bool.false_ne_true

theorem completeFFlags_nan {r : Word × FFlags} (h : completeFFlags s rd r = .next t) (hrd : i.rdField = rd)
    (hr : isNaN r.1 = true → r.1 = canonicalNaN) (hn : isNaN (t.readF i.rdField) = true) :
    t.readF i.rdField = canonicalNaN := by
  subst hrd
  rw [completeFFlags_readF h] at hn ⊢
  exact hr hn

end

/-! ## The statements -/

/-- Settles O43: the result read back is the one of the instruction's function, whose rule has no other NaN. -/
theorem arithmeticNanIsCanonical : Obligations.ArithmeticNanIsCanonical := by
  intro i s t hi h
  cases i with
  | faddS rd rs1 rs2 rm =>
    exact completeFFlags_nan h (rdField_of (by simp [encode])) (fpAdd_rule ..).delivers.eq_canonicalNaN
  | fsubS rd rs1 rs2 rm =>
    exact completeFFlags_nan h (rdField_of (by simp [encode])) (fpAdd_rule ..).delivers.eq_canonicalNaN
  | fmulS rd rs1 rs2 rm =>
    exact completeFFlags_nan h (rdField_of (by simp [encode])) (fpMul_rule ..).delivers.eq_canonicalNaN
  | fdivS rd rs1 rs2 rm => exact completeFFlags_nan h (rdField_of (by simp [encode])) (fpDiv_rule ..).eq_canonicalNaN
  | fsqrtS rd rs1 rm => exact completeFFlags_nan h (rdField_of (by simp [encode])) (fpSqrt_rule ..).delivers.eq_canonicalNaN
  | fmaddS rd rs1 rs2 rs3 rm fmt =>
    exact completeFFlags_nan h (rdField_of (by simp [encode])) (fpFma_rule ..).delivers.eq_canonicalNaN
  | fmsubS rd rs1 rs2 rs3 rm fmt =>
    exact completeFFlags_nan h (rdField_of (by simp [encode])) (fpFma_rule ..).delivers.eq_canonicalNaN
  | fnmsubS rd rs1 rs2 rs3 rm fmt =>
    exact completeFFlags_nan h (rdField_of (by simp [encode])) (fpFma_rule ..).delivers.eq_canonicalNaN
  | fnmaddS rd rs1 rs2 rs3 rm fmt =>
    exact completeFFlags_nan h (rdField_of (by simp [encode])) (fpFma_rule ..).delivers.eq_canonicalNaN
  | _ => exact absurd hi Bool.false_ne_true

/-- Settles O44: UF and OF by the exact results of the sum and the root, DZ by the instructions that signal. -/
theorem flagsThatCannotBe : Obligations.FlagsThatCannotBe := fun _ _ _ hi h => ⟨exec_uf h, exec_of h, exec_dz hi h⟩

end Sys2Proof.Machine
end

section
/-!
PROOFS of the sign injections, the moves and the classification (46_f_misc.md R290 to R292, R302 to R304). Each ends in a shared
completion without a flag, so what is left is the pattern written: a sign injection by its bits, a class by the fields that make it.
-/

namespace Sys2Proof.Machine

/-! ## Words outside the rows of a `funct7` -/

/-- The illegal words of a `funct7` of the FP opcode are those that its own decoder rejects. -/
theorem illegal_fp {k : BitVec 7} {p : Word → Prop} {d : Word → Except Reject Instr}
    (hd : ∀ w, funct7Of w = k → decodeFp w = d w) (hp : ∀ w, p w → d w = .error (.illegalInstruction w)) :
    Illegal (fun w => opcodeOf w = 0b1010011#7 ∧ funct7Of w = k ∧ p w) := by
  rintro w ⟨ho, h7, hw⟩
  rw [decode_of_opcode_fp ho, hd w h7, hp w hw]

section
variable {w : Word}

theorem decodeFsgnj_illegal (h : 3 ≤ (funct3Of w).toNat) : decodeFsgnj w = .error (.illegalInstruction w) := by
  unfold decodeFsgnj
  split <;> simp_all

theorem decodeFmvXClass_illegal (h : 2 ≤ (funct3Of w).toNat) : decodeFmvXClass w = .error (.illegalInstruction w) := by
  unfold decodeFmvXClass
  split <;> simp_all

theorem decodeFmvWX_illegal (h : funct3Of w ≠ 0b000#3) : decodeFmvWX w = .error (.illegalInstruction w) := by
  unfold decodeFmvWX
  split
  · exact absurd ‹_› h
  · rfl

end

/-! ## The sign bit and the other 31 -/

section
variable (a b : Word)

theorem and_signMask : b &&& 0x80000000#32 = if fpSign b then 0x80000000#32 else 0#32 := BitVec.and_twoPow b 31

theorem fpSign_not : fpSign (~~~b) = !fpSign b := by simp [fpSign]

theorem withSign_true : withSign true a = (a &&& 0x7FFFFFFF#32) ||| 0x80000000#32 := by
  refine BitVec.eq_of_getLsbD_eq fun i hi => ?_
  rw [← withSign_false, BitVec.getLsbD_or, getLsbD_withSign _ _ hi, getLsbD_withSign _ _ hi,
    show 0x80000000#32 = BitVec.twoPow 32 31 from rfl, BitVec.getLsbD_twoPow]
  split
  · simp [show ¬31 = i by omega]
  · obtain rfl : i = 31 := by omega
    simp

/-- `{sign(b), a[30:0]}` by masks (R290). -/
theorem withSign_eq_or : withSign (fpSign b) a = (a &&& 0x7FFFFFFF#32) ||| (b &&& 0x80000000#32) := by
  rw [and_signMask]
  cases fpSign b
  · exact (withSign_false a).trans BitVec.or_zero.symm
  · exact withSign_true a

/-- The sign of `a` inverted where `b` is negative (R292). -/
theorem withSign_eq_xor : withSign (fpSign a != fpSign b) a = a ^^^ (b &&& 0x80000000#32) := by
  rw [and_signMask]
  cases fpSign b
  · rw [Bool.bne_false, withSign_self]
    exact BitVec.xor_zero.symm
  · rw [Bool.bne_true, withSign_not]
    rfl

end

/-- A completion of an f write without a flag, with the pattern in another form. -/
theorem completeF_completes_eq (s : State) (rd : Reg) {v v' : Word} (h : v = v') :
    CompletesF s (completeF s rd v) rd v' FFlags.none := h ▸ completeF_completes s rd v

/-- Settles O45: the three patterns by their bits, the rows, and the words with another `funct3`. -/
theorem signInjection : Obligations.SignInjection := by
  refine ⟨fun s rd rs1 rs2 => ⟨?_, ?_, ?_⟩, decodes_fsgnjS, decodes_fsgnjnS, decodes_fsgnjxS,
    illegal_fp (fun w h7 => by simp [decodeFp, h7]) fun w => decodeFsgnj_illegal⟩
  · exact completeF_completes_eq s rd (withSign_eq_or ..)
  · exact completeF_completes_eq s rd (fpSign_not (s.readF rs2) ▸ withSign_eq_or ..)
  · exact completeF_completes_eq s rd (withSign_eq_xor ..)

/-! ## The class of a pattern -/

section
variable {a : Word}

theorem fpClass_of_isSNaN (h : isSNaN a = true) : fpClass a = 8 := if_pos h

theorem fpClass_of_isQNaN (h : isQNaN a = true) : fpClass a = 9 := by
  obtain ⟨hn, hq⟩ := (isQNaN_iff a).mp h
  have hs : isSNaN a = false := by simp [isSNaN, hq]
  simp [fpClass, hn, hs]

/-- The classes of the finite patterns that are no zeros, by exponent field and sign. -/
theorem fpClass_of_isFinite (h : isFinite a = true) (hz : isZero a = false) :
    fpClass a = if fpExp a = 0 then (if fpSign a then 2 else 5) else (if fpSign a then 1 else 6) := by
  obtain ⟨hn, hi⟩ : isNaN a = false ∧ isInf a = false := by simpa [isFinite] using h
  simp [fpClass, isSNaN, hn, hi, hz]

theorem fpClass_of_subnormal (h : fpExp a = 0 ∧ fpFrac a ≠ 0) : fpClass a = if fpSign a then 2 else 5 := by
  obtain ⟨he, hf⟩ := h
  rw [fpClass_of_isFinite ((isFinite_iff a).mpr (by omega)) (by simp [isZero, hf]), if_pos he]

theorem fpClass_of_normal (h : 1 ≤ fpExp a ∧ fpExp a ≤ 254) : fpClass a = if fpSign a then 1 else 6 := by
  have he : fpExp a ≠ 0 := by omega
  rw [fpClass_of_isFinite ((isFinite_iff a).mpr (by omega)) (by simp [isZero, he]), if_neg he]

theorem fpClass_lt (a : Word) : fpClass a < 10 := by
  unfold fpClass
  repeat' split
  all_goals decide

/-- FCLASS.S writes the one bit of the class. -/
theorem exec_fclassS_completes {s : State} {rd rs1 rs2 : Reg} {k : ℕ} (h : fpClass (s.readF rs1) = k) :
    CompletesX s (exec (.fclassS rd rs1 rs2) s) rd (1#32 <<< k) :=
  completeX_completes_eq s rd (congrArg (1#32 <<< ·) h)

end

/-- Settles O51: the two copies, each row of the class table, and that there is always a class. -/
theorem movesAndClass : Obligations.MovesAndClass := by
  refine ⟨fun s rd rs1 rs2 => ⟨completeX_completes s rd _, completeF_completes s rd _, ?negInf, ?negNormal, ?negSubnormal,
    ?negZero, ?posZero, ?posSubnormal, ?posNormal, ?posInf, ?signaling, ?quiet, _, fpClass_lt _, exec_fclassS_completes rfl⟩,
    decodes_fmvXW, decodes_fmvWX, decodes_fclassS,
    illegal_fp (fun w h7 => by simp [decodeFp, h7]) fun w => decodeFmvXClass_illegal,
    illegal_fp (fun w h7 => by simp [decodeFp, h7]) fun w => decodeFmvWX_illegal⟩
  case negInf => exact fun h => exec_fclassS_completes (k := 0) (by rw [h]; rfl)
  case negNormal => exact fun hs h => exec_fclassS_completes (k := 1) (by rw [fpClass_of_normal h, if_pos hs])
  case negSubnormal => exact fun hs h => exec_fclassS_completes (k := 2) (by rw [fpClass_of_subnormal h, if_pos hs])
  case negZero => exact fun h => exec_fclassS_completes (k := 3) (by rw [h]; rfl)
  case posZero => exact fun h => exec_fclassS_completes (k := 4) (by rw [h]; rfl)
  case posSubnormal => exact fun hs h => exec_fclassS_completes (k := 5) (by rw [fpClass_of_subnormal h, hs]; rfl)
  case posNormal => exact fun hs h => exec_fclassS_completes (k := 6) (by rw [fpClass_of_normal h, hs]; rfl)
  case posInf => exact fun h => exec_fclassS_completes (k := 7) (by rw [h]; rfl)
  case signaling => exact fun h => exec_fclassS_completes (k := 8) (fpClass_of_isSNaN h)
  case quiet => exact fun h => exec_fclassS_completes (k := 9) (fpClass_of_isQNaN h)

end Sys2Proof.Machine
end

section
/-!
PROOFS of minimum, maximum and the comparisons (46_f_misc.md R293 to R297, R305). The relations of the statements are over the
rationals with the infinities at the ends; `fpOrder` gives each pattern an integer that orders alike, so that each of the functions is
a test of integers.
-/

namespace Sys2Proof.Machine

/-! ## The order of the patterns -/

section
variable (a b p : Word)

theorem abs_fpInt_lt : |fpInt p| < 2 ^ 278 := by
  rw [abs_fpInt]
  have hunits : fpUnits p < 2 ^ 278 :=
    calc fpUnits p < 2 ^ 23 * 2 ^ fpExp p := fpUnits_lt_pow p
      _ ≤ 2 ^ 23 * 2 ^ 255 := Nat.mul_le_mul_left _ (Nat.pow_le_pow_right (by decide) (Nat.le_of_lt_succ (fpExp_lt p)))
      _ = 2 ^ 278 := by rw [← pow_add]
  exact_mod_cast hunits

theorem fpOrder_posInf : fpOrder 0x7F800000#32 = 2 ^ 278 := (if_pos (by decide)).trans (if_neg (by decide))

theorem fpOrder_negInf : fpOrder 0xFF800000#32 = -2 ^ 278 := (if_pos (by decide)).trans (if_pos (by decide))

variable {p} in
theorem fpOrder_of_not_isInf (h : ¬isInf p = true) : fpOrder p = fpInt p := if_neg h

/-- `+∞` alone is at the upper end. -/
theorem fpOrder_lt_iff : fpOrder p < 2 ^ 278 ↔ p ≠ 0x7F800000#32 := by
  by_cases h : isInf p = true
  · rcases (isInf_iff p).mp h with rfl | rfl
    · exact iff_of_false fpOrder_posInf.not_lt (not_not.mpr rfl)
    · exact iff_of_true (fpOrder_negInf.trans_lt (neg_lt_self (by positivity))) (by decide)
  · rw [fpOrder_of_not_isInf h]
    exact iff_of_true (abs_lt.mp (abs_fpInt_lt p)).2 fun hp => h ((isInf_iff p).mpr (.inl hp))

/-- `-∞` alone is at the lower end. -/
theorem lt_fpOrder_iff : -2 ^ 278 < fpOrder p ↔ p ≠ 0xFF800000#32 := by
  by_cases h : isInf p = true
  · rcases (isInf_iff p).mp h with rfl | rfl
    · exact iff_of_true ((neg_lt_self (by positivity)).trans_eq fpOrder_posInf.symm) (by decide)
    · exact iff_of_false fpOrder_negInf.not_gt (not_not.mpr rfl)
  · rw [fpOrder_of_not_isInf h]
    exact iff_of_true (abs_lt.mp (abs_fpInt_lt p)).1 fun hp => h ((isInf_iff p).mpr (.inr hp))

theorem fpOrder_le : fpOrder p ≤ 2 ^ 278 := by
  by_cases h : p = 0x7F800000#32
  · exact h ▸ fpOrder_posInf.le
  · exact ((fpOrder_lt_iff p).mpr h).le

theorem le_fpOrder : -2 ^ 278 ≤ fpOrder p := by
  by_cases h : p = 0xFF800000#32
  · exact h ▸ fpOrder_negInf.ge
  · exact ((lt_fpOrder_iff p).mpr h).le

theorem fpVal_lt_iff : fpVal a < fpVal b ↔ fpInt a < fpInt b := by
  rw [fpVal_eq, fpVal_eq, div_lt_div_iff_of_pos_right (by positivity), Int.cast_lt]

/-- The less-than of values is the less-than of `fpOrder`, the infinities included. -/
theorem fpLt_iff : FpLt a b ↔ fpOrder a < fpOrder b := by
  unfold FpLt
  split_ifs with ha hb
  · rcases (isInf_iff a).mp ha with rfl | rfl
    · rw [fpOrder_posInf]
      exact iff_of_false (fun h => absurd h.1 (by decide)) (fpOrder_le b).not_gt
    · rw [fpOrder_negInf, lt_fpOrder_iff]
      exact and_iff_right (by decide)
  · rcases (isInf_iff b).mp hb with rfl | rfl
    · rw [fpOrder_posInf, fpOrder_lt_iff]
      exact iff_of_true (by decide) fun h => ha (h ▸ hb)
    · rw [fpOrder_negInf]
      exact iff_of_false (by decide) (le_fpOrder a).not_gt
  · rw [fpOrder_of_not_isInf ha, fpOrder_of_not_isInf hb, fpVal_lt_iff]

variable {a b} in
/-- Only the infinity itself is as far as an infinity. -/
theorem eq_of_isInf_of_fpOrder_eq (ha : isInf a = true) (h : fpOrder a = fpOrder b) : a = b := by
  rcases (isInf_iff a).mp ha with rfl | rfl
  · exact (not_not.mp ((fpOrder_lt_iff b).not.mp (h ▸ fpOrder_posInf.not_lt))).symm
  · exact (not_not.mp ((lt_fpOrder_iff b).not.mp (h ▸ fpOrder_negInf.not_gt))).symm

/-- The equality of values is the equality of `fpOrder`, the infinities included. -/
theorem fpEqual_iff : FpEqual a b ↔ fpOrder a = fpOrder b := by
  unfold FpEqual
  split_ifs with hinf
  · refine ⟨congrArg fpOrder, fun h => ?_⟩
    rcases Bool.or_eq_true_iff.mp hinf with ha | hb
    · exact eq_of_isInf_of_fpOrder_eq ha h
    · exact (eq_of_isInf_of_fpOrder_eq hb h.symm).symm
  · obtain ⟨ha, hb⟩ := not_or.mp (Bool.or_eq_true_iff.not.mp hinf)
    rw [fpOrder_of_not_isInf ha, fpOrder_of_not_isInf hb, fpVal_eq_iff]

theorem fpLess_iff : fpLess a b = true ↔ FpBefore a b := by
  rw [fpLess, FpBefore, fpLt_iff, Bool.or_eq_true, decide_eq_true_iff, Bool.and_eq_true, beq_iff_eq, beq_iff_eq]

end

/-! ## Minimum and maximum -/

section
variable {s : State} {rd rs1 rs2 : Reg} {a b p : Word}

/-- Every branch of the minimum signals NV for a signaling NaN (R293). -/
theorem fpMin_flags (a b : Word) : (fpMin a b).2 = FFlags.when (isSNaN a || isSNaN b) FFlags.invalid := by
  unfold fpMin
  repeat' split
  all_goals rfl

/-- Every branch of the maximum signals NV for a signaling NaN (R294). -/
theorem fpMax_flags (a b : Word) : (fpMax a b).2 = FFlags.when (isSNaN a || isSNaN b) FFlags.invalid := by
  unfold fpMax
  repeat' split
  all_goals rfl

theorem exec_fminS_completes (h : (fpMin (s.readF rs1) (s.readF rs2)).1 = p) :
    CompletesF s (exec (.fminS rd rs1 rs2) s) rd p
      (FFlags.when (isSNaN (s.readF rs1) || isSNaN (s.readF rs2)) FFlags.invalid) :=
  h ▸ fpMin_flags _ _ ▸ completeFFlags_completes s rd _

theorem exec_fmaxS_completes (h : (fpMax (s.readF rs1) (s.readF rs2)).1 = p) :
    CompletesF s (exec (.fmaxS rd rs1 rs2) s) rd p
      (FFlags.when (isSNaN (s.readF rs1) || isSNaN (s.readF rs2)) FFlags.invalid) :=
  h ▸ fpMax_flags _ _ ▸ completeFFlags_completes s rd _

theorem fpMin_numbers (ha : isNaN a = false) (hb : isNaN b = false) : (fpMin a b).1 = if fpLess a b then a else b := by
  simp only [fpMin, ha, hb, Bool.false_and, Bool.false_eq_true, if_false]
  split <;> rfl

theorem fpMax_numbers (ha : isNaN a = false) (hb : isNaN b = false) : (fpMax a b).1 = if fpLess a b then b else a := by
  simp only [fpMax, ha, hb, Bool.false_and, Bool.false_eq_true, if_false]
  split <;> rfl

theorem decodeFminmax_illegal {w : Word} (h : 2 ≤ (funct3Of w).toNat) :
    decodeFminmax w = .error (.illegalInstruction w) := by
  unfold decodeFminmax
  split <;> simp_all

end

/-- Settles O46: by which operands are NaNs, and for two numbers by which comes first. -/
theorem minimumMaximum : Obligations.MinimumMaximum := by
  refine ⟨fun s rd rs1 rs2 => ⟨?nans, ?nanLeft, ?nanRight, ?before, ?notBefore⟩, decodes_fminS, decodes_fmaxS,
    illegal_fp (fun w h7 => by simp [decodeFp, h7]) fun w => decodeFminmax_illegal⟩
  case nans =>
    exact fun ha hb => ⟨exec_fminS_completes (by simp [fpMin, ha, hb, canonicalNaN]),
      exec_fmaxS_completes (by simp [fpMax, ha, hb, canonicalNaN])⟩
  case nanLeft =>
    exact fun ha hb => ⟨exec_fminS_completes (by simp [fpMin, ha, hb]), exec_fmaxS_completes (by simp [fpMax, ha, hb])⟩
  case nanRight =>
    exact fun ha hb => ⟨exec_fminS_completes (by simp [fpMin, ha, hb]), exec_fmaxS_completes (by simp [fpMax, ha, hb])⟩
  case before =>
    intro ha hb h
    have hless := (fpLess_iff ..).mpr h
    exact ⟨exec_fminS_completes ((fpMin_numbers ha hb).trans (if_pos hless)),
      exec_fmaxS_completes ((fpMax_numbers ha hb).trans (if_pos hless))⟩
  case notBefore =>
    intro ha hb h
    have hless := (fpLess_iff ..).not.mpr h
    exact ⟨exec_fminS_completes ((fpMin_numbers ha hb).trans (if_neg hless)),
      exec_fmaxS_completes ((fpMax_numbers ha hb).trans (if_neg hless))⟩

/-! ## Comparisons -/

section
variable {s : State} {rd rs1 rs2 : Reg} {yes : Bool}

theorem exec_feqS_completes (h : (fpEq (s.readF rs1) (s.readF rs2)).1 = yes) :
    CompletesXSignals s (exec (.feqS rd rs1 rs2) s) rd (if yes then 1#32 else 0#32)
      (FFlags.when (isSNaN (s.readF rs1) || isSNaN (s.readF rs2)) FFlags.invalid) :=
  h ▸ completeXFlags_completes s rd _ _

theorem exec_fltS_completes (h : (fpLt (s.readF rs1) (s.readF rs2)).1 = yes) :
    CompletesXSignals s (exec (.fltS rd rs1 rs2) s) rd (if yes then 1#32 else 0#32)
      (FFlags.when (isNaN (s.readF rs1) || isNaN (s.readF rs2)) FFlags.invalid) :=
  h ▸ completeXFlags_completes s rd _ _

theorem exec_fleS_completes (h : (fpLe (s.readF rs1) (s.readF rs2)).1 = yes) :
    CompletesXSignals s (exec (.fleS rd rs1 rs2) s) rd (if yes then 1#32 else 0#32)
      (FFlags.when (isNaN (s.readF rs1) || isNaN (s.readF rs2)) FFlags.invalid) :=
  h ▸ completeXFlags_completes s rd _ _

theorem decodeFcmp_illegal {w : Word} (h : 3 ≤ (funct3Of w).toNat) : decodeFcmp w = .error (.illegalInstruction w) := by
  unfold decodeFcmp
  split <;> simp_all

end

/-- Settles O47: each case of the statement is one of the order of the two integers `fpOrder`. -/
theorem comparisons : Obligations.Comparisons := by
  refine ⟨fun s rd rs1 rs2 => ⟨?nan, ?less, ?equal, ?greater, ?total⟩, decodes_feqS, decodes_fltS, decodes_fleS,
    illegal_fp (fun w h7 => by simp [decodeFp, h7]) fun w => decodeFcmp_illegal⟩
  case nan =>
    exact fun hn => ⟨exec_feqS_completes (by simp [fpEq, hn]), exec_fltS_completes (by simp [fpLt, hn]),
      exec_fleS_completes (by simp [fpLe, hn])⟩
  case less =>
    intro hn h
    rw [fpLt_iff] at h
    exact ⟨exec_feqS_completes (by simp [fpEq, hn, h.ne]), exec_fltS_completes (by simp [fpLt, hn, h]),
      exec_fleS_completes (by simp [fpLe, hn, h.le])⟩
  case equal =>
    intro hn h
    rw [fpEqual_iff] at h
    exact ⟨exec_feqS_completes (by simp [fpEq, hn, h]), exec_fltS_completes (by simp [fpLt, hn, h]),
      exec_fleS_completes (by simp [fpLe, hn, h])⟩
  case greater =>
    intro hn h
    rw [fpLt_iff] at h
    exact ⟨exec_feqS_completes (by simp [fpEq, hn, h.ne']), exec_fltS_completes (by simp [fpLt, hn, h.le]),
      exec_fleS_completes (by simp [fpLe, hn, h])⟩
  case total =>
    intro _
    rw [fpLt_iff, fpEqual_iff, fpLt_iff]
    exact lt_trichotomy ..

end Sys2Proof.Machine
end

section
/-!
PROOFS of the conversions to integers and of the exact round trip (46_f_misc.md R298 to R301, R306). A finite value is a whole number
of units of `2^-149`, so truncating it is an integer division. An integer of magnitude up to `2^24` has no bit below its 24
significant ones, so rounding it changes nothing.
-/

namespace Sys2Proof.Machine

/-! ## From a float to an integer -/

theorem truncRat_fpVal (a : Word) : truncRat (fpVal a) = fpTrunc a := by
  have h := truncRat_intCast_div (fpInt a) (2 ^ 149)
  rwa [Int.cast_pow, Int.cast_two, ← fpVal_eq] at h

/-- An integer is the value when it is as many units. -/
theorem intCast_eq_fpVal_iff (n : ℤ) (a : Word) : (n : ℚ) = fpVal a ↔ n * 2 ^ 149 = fpInt a := by
  rw [fpVal_eq, eq_div_iff (by positivity), ← Int.cast_inj (α := ℚ), Int.cast_mul, Int.cast_pow, Int.cast_two]

theorem fpToInt_rule (lo hi : ℤ) (a : Word) : ToIntRule lo hi a (fpToInt lo hi a).1 (fpToInt lo hi a).2 := by
  generalize hr : fpToInt lo hi a = r
  simp only [ToIntRule, truncRat_fpVal]
  simp only [fpToInt] at hr
  split_ifs at hr ⊢ with hnan hinf hsign habove hbelow hexact <;> subst hr
  any_goals apply And.intro rfl rfl -- the special cases and the saturation
  · have hunits := (intCast_eq_fpVal_iff ..).mp hexact
    exact ⟨rfl, if_neg fun hne => absurd hunits (of_decide_eq_true hne)⟩
  · have hunits := (intCast_eq_fpVal_iff ..).not.mp hexact
    exact ⟨rfl, if_pos (decide_eq_true hunits)⟩

theorem decodeFcvtToInt_illegal {w : Word} (h : 2 ≤ (rs2Of w).toNat) :
    decodeFcvtToInt w = .error (.illegalInstruction w) := by
  unfold decodeFcvtToInt
  split <;> simp_all

/-- An integer that obeys a rule with its flags, delivered by the shared completion of an x write. -/
theorem completeXFlags_delivers (s : State) (rd : Reg) {rule : ℤ → FFlags → Prop} {r : ℤ × FFlags} (h : rule r.1 r.2) :
    ∃ n fl, rule n fl ∧ CompletesXSignals s (completeXFlags s rd (BitVec.ofInt 32 r.1) r.2) rd (BitVec.ofInt 32 n) fl :=
  ⟨r.1, r.2, h, completeXFlags_completes s rd _ _⟩

/-- Settles O48: the two ranges of the one rule, the rows, and the words with another `rs2`. -/
theorem floatToInteger : Obligations.FloatToInteger := by
  refine ⟨fun s rd rs1 rm => ⟨?_, ?_⟩, decodes_fcvtWS, decodes_fcvtWuS,
    illegal_fp (fun w h7 => by simp [decodeFp, h7]) fun w => decodeFcvtToInt_illegal⟩
  · exact completeXFlags_delivers s rd (fpToInt_rule (-2147483648) 2147483647 _)
  · exact completeXFlags_delivers s rd (fpToInt_rule 0 4294967295 _)

/-! ## Exact roundings -/

section
variable {r : ℝ} {p : Word} {fl : FFlags} {n : ℤ}

/-- A real of the normal range whose 24 significant bits are all of it is delivered as it is, without a flag. -/
theorem RoundedTo.encodes_of_exact (h : RoundedTo r p fl) (hlo : 2 ^ (-126 : ℤ) ≤ |r|) (hhi : |r| < 2 ^ (128 : ℤ))
    (hbits : ∀ e : ℤ, (2 : ℝ) ^ e ≤ |r| → ∃ j : ℕ, |r| / 2 ^ (e - 23) = j) : Encodes r p |r| ∧ fl = FFlags.none := by
  obtain ⟨e, k, u, he, -, hk, rfl, -, -, hnormal⟩ := h
  obtain ⟨j, hj⟩ := hbits e he
  rw [hj] at hk
  have hu : (k : ℝ) * 2 ^ (e - 23) = |r| := by
    rw [← nearestEven_natCast hk, ← hj, div_mul_cancel₀ _ (by positivity)]
  rw [hu] at hnormal
  obtain ⟨henc, hfl⟩ := hnormal hlo hhi
  exact ⟨henc, hfl.trans (if_pos rfl)⟩

/-- What encodes the magnitude of `r` with the sign of `r` has the value `r`. -/
theorem Encodes.fpVal_eq (h : Encodes r p |r|) : (fpVal p : ℝ) = r := by
  obtain ⟨-, hsign, habs⟩ := h
  rcases abs_eq_abs.mp habs with hv | hv
  · exact hv
  cases hz : isZero p
  · have hneg : (fpVal p : ℝ) < 0 ↔ r < 0 := by rw [Rat.cast_lt_zero, fpVal_neg_iff hz, hsign]
    have hv0 : (fpVal p : ℝ) ≠ 0 := Rat.cast_ne_zero.mpr (fpVal_ne_zero hz)
    rcases lt_or_gt_of_ne hv0 with hlt | hgt
    · linarith [hneg.mp hlt]
    · linarith [hneg.mpr (by linarith)]
  · have hv0 : (fpVal p : ℝ) = 0 := by simp [Machine.fpVal_eq, (fpInt_eq_zero p).mpr hz]
    linarith

/-- A natural number up to `2^24` has no bit below its 24 significant ones. -/
theorem exists_nat_scaled {m : ℕ} {e : ℤ} (hm : m ≤ 2 ^ 24) (he : (2 : ℝ) ^ e ≤ m) : ∃ j : ℕ, (m : ℝ) / 2 ^ (e - 23) = j := by
  have hm' : (m : ℝ) ≤ 2 ^ (24 : ℤ) := by exact_mod_cast hm
  have h24 : e ≤ 24 := (zpow_le_zpow_iff_right₀ one_lt_two).mp (he.trans hm')
  rcases h24.lt_or_eq with hlt | rfl
  · obtain ⟨k, hk⟩ := Int.eq_ofNat_of_zero_le (show 0 ≤ 23 - e by omega)
    refine ⟨m * 2 ^ k, ?_⟩
    rw [show e - 23 = -(k : ℤ) by omega, zpow_neg, div_inv_eq_mul, zpow_natCast, Nat.cast_mul, Nat.cast_pow, Nat.cast_two]
  · refine ⟨2 ^ 23, ?_⟩
    rw [le_antisymm hm' he]
    norm_num

/-- An integer of magnitude up to `2^24` converts exactly (R306). -/
theorem fpOfInt_exact (h : |n| ≤ 2 ^ 24) :
    isFinite (fpOfInt n).1 = true ∧ fpVal (fpOfInt n).1 = n ∧ (fpOfInt n).2 = FFlags.none := by
  have hrule := fpOfInt_rule n
  unfold OfIntRule at hrule
  split_ifs at hrule with h0
  · obtain ⟨hp, hfl⟩ := hrule
    refine ⟨hp ▸ by decide, ?_, hfl⟩
    rw [hp, h0, fpVal_of_fpInt (n := 0) (by decide)]
    simp
  have hm : |(n : ℝ)| = n.natAbs := by rw [Nat.cast_natAbs, Int.cast_abs]
  have hpos : (1 : ℝ) ≤ n.natAbs := by exact_mod_cast Int.natAbs_pos.mpr h0
  have hle : n.natAbs ≤ 2 ^ 24 := by rw [Int.abs_eq_natAbs] at h; exact_mod_cast h
  have hle' : (n.natAbs : ℝ) ≤ 2 ^ 24 := by exact_mod_cast hle
  obtain ⟨henc, hfl⟩ := hrule.encodes_of_exact
    (by rw [hm]; exact (zpow_le_one_of_nonpos₀ one_le_two (by decide)).trans hpos)
    (by rw [hm]; exact hle'.trans_lt (by norm_num))
    (by rw [hm]; exact fun e => exists_nat_scaled hle)
  exact ⟨henc.1, by exact_mod_cast henc.fpVal_eq, hfl⟩

theorem truncRat_intCast (n : ℤ) : truncRat n = n := by
  rw [truncRat, Int.floor_intCast, Int.ceil_intCast, ite_self]

/-- A finite pattern with an integer of the range as its value converts to that integer, without a flag. -/
theorem ToIntRule.eq_of_intCast {lo hi m : ℤ} (h : ToIntRule lo hi p m fl) (hfin : isFinite p = true) (hval : fpVal p = n)
    (hlo : lo ≤ n) (hhi : n ≤ hi) : m = n ∧ fl = FFlags.none := by
  obtain ⟨hnan, hinf⟩ : isNaN p = false ∧ isInf p = false := by simpa [isFinite] using hfin
  rw [ToIntRule, hval, truncRat_intCast, if_neg (by simp [hnan]), if_neg (by simp [hinf]), if_neg hhi.not_gt,
    if_neg hlo.not_gt] at h
  obtain ⟨rfl, hfl⟩ := h
  exact ⟨rfl, hfl.trans (if_pos rfl)⟩

end

/-! ## There and back -/

theorem Signals.keepsFcsr {s t : State} (h : Signals s t FFlags.none) : KeepsFcsr s t := by
  rw [Signals, FFlags.union_none] at h
  exact h

/-- Settles O50: the pattern written is exactly the integer, so truncating it gives the integer back. -/
theorem smallIntegersRoundTrip : Obligations.SmallIntegersRoundTrip := by
  intro s fd xd rs1 rm rm' hle hxd
  set n := (s.readX rs1).toInt with hn
  obtain ⟨hfin, hval, hfl⟩ := fpOfInt_exact hle
  obtain ⟨t, ht, -, ⟨hread, -⟩, hsig, -⟩ := completeFFlags_completes s fd (fpOfInt n)
  obtain ⟨m, fl, hrule, u, hu, -, ⟨hback, -⟩, hsig', -⟩ :=
    completeXFlags_delivers t xd (fpToInt_rule (-2147483648) 2147483647 (t.readF fd))
  rw [hread] at hrule
  obtain ⟨hlo, hhi⟩ := abs_le.mp hle
  obtain ⟨rfl, rfl⟩ := hrule.eq_of_intCast hfin hval (by omega) (by omega)
  have hfcsr : KeepsFcsr s t := (hfl ▸ hsig).keepsFcsr
  refine ⟨t, u, ht, hread ▸ hval, hfcsr, hu, ?_, hsig'.keepsFcsr.trans hfcsr⟩
  rw [hback, if_neg hxd, hn, BitVec.ofInt_toInt]

end Sys2Proof.Machine
end

section
/-!
PROOFS of the NPU's scalar and accumulator instructions, reductions and vector moves (47_npu.md R324 to R326, R328, R330 to R338).
The shared completions give the frames. A loop that only reads carries a number from element to element, so over valid elements it
ends with the sum, or the greatest, of the elements' numbers.
-/

namespace Sys2Proof.Machine

/-! ## Values -/

/-- `clamp` as a maximum of a minimum (R339). -/
theorem clamp_eq_max_min (v : ℤ) {lo hi : ℤ} (h : lo ≤ hi) : clamp v lo hi = max lo (min hi v) := by
  unfold clamp
  split_ifs <;> omega

/-- RELU's word is the greater of zero and the signed operand (R332). -/
theorem relu_eq_max (a : Word) : (if a.toInt < 0 then 0#32 else a) = BitVec.ofInt 32 (max a.toInt 0) := by
  split
  next h => rw [max_eq_right h.le]; rfl
  next h => rw [max_eq_left (not_lt.mp h), BitVec.ofInt_toInt]

/-- Settles O57: each value in the form of its rule; the rows, with any `rs2` field. -/
theorem npuScalars : Obligations.NpuScalars := by
  refine ⟨fun s rd rs1 rs2 => ⟨?relu, ?qmul, ?clamp, ?gelu⟩, decodes_npuRelu, decodes_npuQmul, decodes_npuClamp,
    decodes_npuGelu⟩
  case relu => exact completeX_completes_eq s rd (relu_eq_max _)
  case qmul => exact completeX_completes s rd _
  case clamp => exact completeX_completes_eq s rd (congrArg _ (clamp_eq_max_min _ (by decide)))
  case gelu => exact completeX_completes s rd _

/-! ## Addresses and the ends of the loops -/

/-- The elements of an array of bytes. -/
theorem elemAddr_one (a : Word) (i : ℕ) : elemAddr a 1 i = a + BitVec.ofNat 32 i := by rw [elemAddr, Nat.one_mul]

theorem afterReads_of_ok {β : Type} {s : State} {r : Except Fault β} {b : β} (h : r = .ok b) (k : β → State) :
    afterReads s r k = .next (k b).advance := by rw [h]; rfl

/-! ## The accumulator -/

theorem writeAcc_completes (s : State) (v : BitVec 64) : CompletesAcc s (.next (s.writeAcc v).advance) v :=
  ⟨_, rfl, rfl, ⟨rfl, rfl⟩, fun _ => rfl, fun _ => rfl, rfl, fun _ => rfl, fun _ => rfl, rfl, rfl⟩

/-- Over valid bytes NPU.VMAC's loop ends with the dot product (R326). -/
theorem ascending_vmac {s : State} {a b : Word} {n : ℕ}
    (h : ∀ i, i < n → AllValid s (elemAddr a 1 i) 1 ∧ AllValid s (elemAddr b 1 i) 1) :
    ascending (vmacElem s a b) 0 n =
      .ok (∑ i ∈ Finset.range n, (s.byteAt (elemAddr a 1 i)).toInt * (s.byteAt (elemAddr b 1 i)).toInt) := by
  refine ascending_ok
    (fun k => ∑ i ∈ Finset.range k, (s.byteAt (elemAddr a 1 i)).toInt * (s.byteAt (elemAddr b 1 i)).toInt) fun i hi => ?_
  obtain ⟨ha, hb⟩ := h i hi
  rw [vmacElem_ok _ ha hb, Finset.sum_range_succ]

theorem exec_npuRstacc_completes (s : State) (rd rs1 rs2 : Reg) :
    ∃ t, exec (.npuRstacc rd rs1 rs2) s = .next t ∧ t.pc = s.pc + 4#32 ∧ WritesX s t rd s.accLo ∧ WritesAcc t 0#64 ∧
      KeepsF s t ∧ KeepsFcsr s t ∧ KeepsV s t ∧ KeepsMem s t ∧ KeepsHost s t := by
  refine ⟨_, rfl, by simp, writesX_writeX s rd s.accLo, ⟨rfl, rfl⟩, ?_⟩
  simp [KeepsF, KeepsFcsr, KeepsV, KeepsMem, KeepsHost]

theorem decode_of_opcode_npu {w : Word} (ho : opcodeOf w = 0b0001011#7) : decode w = decodeNpu w := by
  simp [decode, ho]

theorem decodeNpuScalar_illegal {w : Word} (i : Instr) (h7 : funct7Of w ≠ 0b0000000#7) :
    decodeNpuScalar w i = .error (.illegalInstruction w) := if_neg h7

/-- Settles O52: both sums are `accPlus` of the exact number added; the rows, then the words of NPU.RSTACC's `funct3` outside its
row. -/
theorem npuAccumulator : Obligations.NpuAccumulator := by
  refine ⟨fun s rd rs1 rs2 => ⟨writeAcc_completes s _, fun h => ?vmac, exec_npuRstacc_completes s rd rs1 rs2⟩,
    decodes_npuMacc, decodes_npuVmac, decodes_npuRstacc, ?illegal⟩
  case vmac =>
    have hsum := ascending_vmac (s := s) (a := s.readX rs1) (b := s.readX rs2) (n := elemCount s rd) fun i hi => by
      simpa only [elemAddr_one, allValid_one] using h i hi
    simp only [exec, execNpuVmac, afterReads_of_ok hsum, elemAddr_one]
    exact writeAcc_completes s _
  case illegal =>
    rintro w ⟨ho, h3, h7⟩
    simp only [decode_of_opcode_npu ho, decodeNpu, h3, decodeNpuScalar_illegal _ h7]

/-! ## The reductions -/

/-- Over valid words NPU.VREDUCE's loop ends with the sum (R330). -/
theorem ascending_vreduce {s : State} {a : Word} {n : ℕ} (h : ∀ i, i < n → AllValid s (elemAddr a 4 i) 4) :
    ascending (vreduceElem s a) 0 n = .ok (∑ i ∈ Finset.range n, (wordIn s (elemAddr a 4 i)).toInt) := by
  refine ascending_ok (fun k => ∑ i ∈ Finset.range k, (wordIn s (elemAddr a 4 i)).toInt) fun i hi => ?_
  rw [vreduceElem_ok _ (h i hi), Finset.sum_range_succ, wordAt_eq_wordIn]

/-- Over valid words NPU.VMAX's loop ends with the greatest of its start and the words (R331). -/
theorem ascending_vmax {s : State} {a : Word} {n : ℕ} (init : ℤ) (h : ∀ i, i < n → AllValid s (elemAddr a 4 i) 4) :
    ascending (vmaxElem s a) init n =
      .ok ((Finset.range n).fold max init fun i => (wordIn s (elemAddr a 4 i)).toInt) := by
  refine ascending_ok (fun k => (Finset.range k).fold max init fun i => (wordIn s (elemAddr a 4 i)).toInt) fun i hi => ?_
  rw [vmaxElem_ok _ (h i hi), Finset.range_add_one, Finset.fold_insert Finset.notMem_range_self, max_comm, wordAt_eq_wordIn]

/-- The greatest of some words from the least signed word on is one of them. -/
theorem exists_fold_max_eq {n : ℕ} (hn : 0 < n) (v : ℕ → Word) : ∃ k, k < n ∧ (∀ i, i < n → (v i).toInt ≤ (v k).toInt) ∧
    ((Finset.range n).fold max (-2147483648) fun i => (v i).toInt) = (v k).toInt := by
  obtain ⟨k, hk, hmax⟩ := Finset.exists_max_image (Finset.range n) (fun i => (v i).toInt)
    (Finset.nonempty_range_iff.mpr hn.ne')
  have hleast : -2147483648 ≤ (v k).toInt := (v k).le_toInt
  refine ⟨k, Finset.mem_range.mp hk, fun i hi => hmax i (Finset.mem_range.mpr hi), le_antisymm ?_ ?_⟩
  · exact (Finset.fold_max_le _).mpr ⟨hleast, hmax⟩
  · exact (Finset.le_fold_max _).mpr (.inr ⟨k, hk, le_rfl⟩)

/-- Over some elements NPU.VMAX is its loop. -/
theorem exec_npuVmax_of_pos {s : State} {rd rs1 rs2 : Reg} (h : 0 < elemCount s rs2) : exec (.npuVmax rd rs1 rs2) s =
    afterReads s (ascending (vmaxElem s (s.readX rs1)) (-2147483648) (elemCount s rs2)) fun best =>
      s.writeX rd (BitVec.ofInt 32 best) := if_neg h.ne'

/-- Settles O53: the parameter by the guard of its word, the reductions by what their loops end with. -/
theorem npuReductions : Obligations.NpuReductions := by
  refine ⟨fun s rd rs1 rs2 => ⟨fun h => ?vrsqrt, fun h => guarded_load_fault s _ h,
    fun h => ⟨?vreduce, fun hn => ?vmaxEmpty, fun hn => ?vmax⟩⟩, decodes_npuVrsqrt, decodes_npuVreduce, decodes_npuVmax⟩
  case vrsqrt =>
    simp only [exec, execNpuVrsqrt, guarded_load_ok s _ h]
    exact completeX_completes s rd _
  case vreduce =>
    have hexec : exec (.npuVreduce rd rs1 rs2) s = completeX s rd _ := afterReads_of_ok (ascending_vreduce h) _
    exact hexec ▸ completeX_completes s rd _
  case vmaxEmpty =>
    have hexec : exec (.npuVmax rd rs1 rs2) s = completeX s rd Config.vmaxEmpty := if_pos hn
    exact hexec ▸ completeX_completes s rd _
  case vmax =>
    obtain ⟨k, hk, hmax, hfold⟩ := exists_fold_max_eq hn fun i => wordIn s (elemAddr (s.readX rs1) 4 i)
    have hexec : exec (.npuVmax rd rs1 rs2) s = completeX s rd _ :=
      (exec_npuVmax_of_pos hn).trans (afterReads_of_ok (ascending_vmax _ h) _)
    refine ⟨k, hk, hmax, ?_⟩
    exact hexec ▸ completeX_completes_eq s rd ((congrArg _ hfold).trans (BitVec.ofInt_toInt ..))

/-! ## The vector moves -/

/-- The vector register is the field modulo 4 (R337, R338). -/
theorem vregIndex_eq_mod (r : Reg) : vregIndex r = BitVec.ofNat 2 (r.toNat % 4) := by
  apply BitVec.eq_of_toNat_eq
  rw [vregIndex, BitVec.extractLsb'_toNat, BitVec.toNat_ofNat, Nat.shiftRight_zero]
  omega

/-- NPU.LDVEC of valid bytes (R337). -/
theorem exec_npuLdvec_completes {s : State} (rd : Reg) {rs1 : Reg} {imm : Word} (h : AllValid s (s.readX rs1 + imm) 4) :
    ∃ t, exec (.npuLdvec rd rs1 imm) s = .next t ∧ t.pc = s.pc + 4#32 ∧
      t.readV (vregIndex rd) = wordIn s (s.readX rs1 + imm) ∧ (∀ k, k ≠ vregIndex rd → t.readV k = s.readV k) ∧
      KeepsX s t ∧ KeepsF s t ∧ KeepsFcsr s t ∧ KeepsAcc s t ∧ KeepsMem s t ∧ KeepsHost s t :=
  ⟨_, guarded_load_ok s _ h, rfl, s.writeV_readV_self _ _, fun _ hk => s.writeV_readV_of_ne _ hk, fun _ => rfl,
    fun _ => rfl, rfl, ⟨rfl, rfl⟩, fun _ => rfl, rfl, rfl⟩

/-- Settles O58: NPU.LDVEC by its guard, NPU.STVEC by the shared store, both at the field modulo 4. -/
theorem npuVectorMoves : Obligations.NpuVectorMoves := by
  refine ⟨fun s rd rs1 rs2 imm => ?_, decodes_npuLdvec, decodes_npuStvec⟩
  simp only [← vregIndex_eq_mod]
  refine ⟨fun h => ⟨exec_npuLdvec_completes rd h, ?store⟩, fun h => ⟨?loadFault, ?storeFault⟩⟩
  case store => exact storeAt_completes s h (fun a => putWord_writes s a _) fun _ => rfl
  case loadFault => exact guarded_load_fault s _ h
  case storeFault => exact guarded_store_fault s _ h

end Sys2Proof.Machine
end

section
/-!
PROOFS of the array instructions that write memory (47_npu.md R322, R327, R329). Each is a run of element writes from the start
state, one after another. A byte is what the last element that covers it wrote; so arrays that do not overlap otherwise than in place
have source elements that no earlier write touches, and destination elements that no later one does.
-/

namespace Sys2Proof.Machine

/-! ## Runs of element writes -/

/-- The state after the writes of the first elements, each made on the state the writes before left. -/
def writesFrom (s : State) (write : ℕ → State → State) : ℕ → State
  | 0 => s
  | i + 1 => write i (writesFrom s write i)

/-- Element `i` of an array at `dst` is written with a value read from the state before, and memory alone changes. -/
structure WritesElems (write : ℕ → State → State) (dst : Word) (size : ℕ) (value : State → ℕ → Word) : Prop where
  writes : ∀ i t, WritesMem t (write i t) (dst + BitVec.ofNat 32 (size * i)) size (value t i)
  memOnly : ∀ i t, write i t = { t with mem := (write i t).mem }

/-- A byte of an element lies before every byte of a later element. -/
theorem elem_offset_lt {size e i j k : ℕ} (he : e < i) (hj : j < size) : size * e + j < size * i + k :=
  calc size * e + j < size * (e + 1) := by rw [Nat.mul_succ]; omega
    _ ≤ size * i := Nat.mul_le_mul_left size he
    _ ≤ size * i + k := Nat.le_add_right ..

/-- Byte `j` of element `i` is byte `size * i + j` of the array. -/
theorem elem_byte_addr (a : Word) (size i j : ℕ) :
    a + BitVec.ofNat 32 (size * i) + BitVec.ofNat 32 j = a + BitVec.ofNat 32 (size * i + j) := by
  rw [BitVec.add_assoc, BitVec.ofNat_add]

section
variable {s : State} {write : ℕ → State → State} {src dst : Word} {size n i j k : ℕ} {value : State → ℕ → Word}

theorem WritesElems.writesFrom_eq (h : WritesElems write dst size value) (n : ℕ) :
    writesFrom s write n = { s with mem := (writesFrom s write n).mem } := by
  induction n with
  | zero => rfl
  | succ n ih =>
    have hlast : writesFrom s write (n + 1) = { writesFrom s write n with mem := (writesFrom s write (n + 1)).mem } :=
      h.memOnly n _
    rw [ih] at hlast
    exact hlast

theorem WritesElems.allValid_iff (h : WritesElems write dst size value) (n : ℕ) (a : Word) (m : ℕ) :
    AllValid (writesFrom s write n) a m ↔ AllValid s a m :=
  allValid_congr s (by rw [h.writesFrom_eq n]) a m

/-- A loop whose elements succeed by their writes alone ends with the run of them. -/
theorem eq_writesFrom_of_ascending {body : ℕ → State → Except Fault State} {t : State}
    (hbody : ∀ i x y, body i x = .ok y → y = write i x) (h : ascending body s n = .ok t) : t = writesFrom s write n :=
  ascending_inv (fun i x => x = writesFrom s write i) rfl
    (fun i x y _ hx hy => (hbody i x y hy).trans (congrArg (write i) hx)) h

/-- A byte that no element from `i` up to `k` covers is left by their writes. -/
theorem WritesElems.byteAt_of_ne (h : WritesElems write dst size value) (hik : i ≤ k) {b : Word}
    (hb : ∀ e j, i ≤ e → e < k → j < size → b ≠ dst + BitVec.ofNat 32 (size * e + j)) :
    (writesFrom s write k).byteAt b = (writesFrom s write i).byteAt b := by
  induction k, hik using Nat.le_induction with
  | base => rfl
  | succ k hik ih =>
    have hlast : (writesFrom s write (k + 1)).byteAt b = (writesFrom s write k).byteAt b :=
      (h.writes k _).2 b fun j hj => by rw [elem_byte_addr]; exact hb k j hik (Nat.lt_succ_self k) hj
    exact hlast.trans (ih fun e j he hek => hb e j he (by omega))

/-- A run of element writes that moves on completes in order. -/
theorem WritesElems.completesInOrder (h : WritesElems write dst size value) :
    CompletesInOrder s (.next (writesFrom s write n).advance) dst size n value := by
  refine ⟨writesFrom s write, _, rfl, rfl, fun i _ => h.writes i _, fun _ => rfl, fun b hb => ?_, ?_, ?_, ?_⟩
  · exact h.byteAt_of_ne n.zero_le fun e j _ he hj => hb _ (elem_offset_lt (k := 0) he hj)
  · rw [h.writesFrom_eq n]; rfl
  · rw [h.writesFrom_eq n]; exact keepsRegs_withMem s (writesFrom s write n).mem
  · rw [h.writesFrom_eq n]; exact ⟨rfl, rfl⟩

/-- What element `i` wrote, the later elements leave. -/
theorem WritesElems.byteAt_dst (h : WritesElems write dst size value) (hn : size * n ≤ 2 ^ 32) (hi : i < n) (hj : j < size) :
    (writesFrom s write n).byteAt (dst + BitVec.ofNat 32 (size * i) + BitVec.ofNat 32 j) =
      (writesFrom s write (i + 1)).byteAt (dst + BitVec.ofNat 32 (size * i) + BitVec.ofNat 32 j) := by
  refine h.byteAt_of_ne hi fun e j' he hen hj' => ?_
  have hbefore : size * i + j < size * e + j' := elem_offset_lt he hj
  have hend : size * e + j' < size * n := elem_offset_lt (k := 0) hen hj'
  rw [elem_byte_addr]
  exact offset_ne dst (by omega) (by omega) hbefore.ne

/-- In place, or where the arrays share no byte, the elements before element `i` leave its source. -/
theorem WritesElems.byteAt_src (h : WritesElems write dst size value) (hn : size * n ≤ 2 ^ 32)
    (hoverlap : src = dst ∨ ∀ i j, i < size * n → j < size * n → src + BitVec.ofNat 32 i ≠ dst + BitVec.ofNat 32 j)
    (hi : i < n) (hj : j < size) :
    (writesFrom s write i).byteAt (src + BitVec.ofNat 32 (size * i) + BitVec.ofNat 32 j) =
      s.byteAt (src + BitVec.ofNat 32 (size * i) + BitVec.ofNat 32 j) := by
  refine h.byteAt_of_ne i.zero_le fun e j' _ he hj' => ?_
  have hbefore : size * e + j' < size * i + j := elem_offset_lt he hj'
  have hend : size * i + j < size * n := elem_offset_lt (k := 0) hi hj
  rw [elem_byte_addr]
  rcases hoverlap with rfl | hapart
  · exact offset_ne src (by omega) (by omega) hbefore.ne'
  · exact hapart _ _ hend (by omega)

end

/-- A word is fixed by its four bytes. -/
theorem wordIn_congr {s t : State} {a : Word}
    (h : ∀ j, j < 4 → t.byteAt (a + BitVec.ofNat 32 j) = s.byteAt (a + BitVec.ofNat 32 j)) : wordIn t a = wordIn s a := by
  have h0 : t.byteAt a = s.byteAt a := by simpa using h 0 (by omega)
  have h1 : t.byteAt (a + 1#32) = s.byteAt (a + 1#32) := h 1 (by omega)
  have h2 : t.byteAt (a + 2#32) = s.byteAt (a + 2#32) := h 2 (by omega)
  have h3 : t.byteAt (a + 3#32) = s.byteAt (a + 3#32) := h 3 (by omega)
  rw [wordIn, wordIn, h0, h1, h2, h3]

/-! ## NPU.VEXP -/

section
variable {s t : State} {src dst : Word} {n : ℕ} {rd rs1 rs2 : Reg}

/-- The write of one element of NPU.VEXP (R327). -/
def vexpWrite (src dst : Word) (i : ℕ) (t : State) : State :=
  t.putWord (elemAddr dst 4 i) (Config.expQ16 (t.wordAt (elemAddr src 4 i)))

theorem vexpWrite_writesElems (src dst : Word) : WritesElems (vexpWrite src dst) dst 4
    (fun m i => Config.expQ16 (wordIn m (src + BitVec.ofNat 32 (4 * i)))) :=
  ⟨fun _ t => putWord_writes t _ _, fun _ _ => rfl⟩

theorem ascending_vexp (h : ∀ i, i < n → AllValid s (elemAddr src 4 i) 4 ∧ AllValid s (elemAddr dst 4 i) 4) :
    ascending (vexpElem src dst) s n = .ok (writesFrom s (vexpWrite src dst) n) := by
  refine ascending_ok (writesFrom s (vexpWrite src dst)) fun i hi => ?_
  obtain ⟨hsrc, hdst⟩ := h i hi
  have hvalid := (vexpWrite_writesElems src dst).allValid_iff (s := s) i
  exact vexpElem_ok ((hvalid _ 4).mpr hsrc) ((hvalid _ 4).mpr hdst)

theorem vexpElem_eq_ok {i : ℕ} {u : State} (h : vexpElem src dst i t = .ok u) : u = vexpWrite src dst i t := by
  rcases vexpElem_cases src dst i t with ⟨-, -, he⟩ | ⟨-, he⟩ | ⟨-, -, he⟩ <;> rw [he] at h <;> cases h
  rfl

theorem exec_npuVexp_next (h : exec (.npuVexp rd rs1 rs2) s = .next t) :
    t = (writesFrom s (vexpWrite (s.readX rs1) (s.readX rs2)) (s.readX rd).toNat).advance := by
  simp only [exec, execNpuVexp] at h
  obtain ⟨u, hu, rfl⟩ := afterReads_next h fun e he => by
    obtain ⟨a, -, rfl | rfl⟩ := vexp_fault he <;> simp
  exact congrArg State.advance (eq_writesFrom_of_ascending (fun _ _ _ => vexpElem_eq_ok) hu)

end

/-! ## NPU.VMUL -/

section
variable {s t : State} {src dst : Word} {k : ℤ} {n : ℕ} {rd rs1 rs2 : Reg}

/-- The write of one element of NPU.VMUL (R329). -/
def vmulWrite (src dst : Word) (k : ℤ) (i : ℕ) (t : State) : State :=
  t.putByte (elemAddr dst 1 i) (vmulValue (t.byteAt (elemAddr src 1 i)) k)

theorem vmulWrite_byteAt (src dst : Word) (k : ℤ) (i : ℕ) (t : State) :
    (vmulWrite src dst k i t).byteAt (dst + BitVec.ofNat 32 i) = vmulValue (t.byteAt (src + BitVec.ofNat 32 i)) k := by
  rw [vmulWrite, elemAddr_one, elemAddr_one, State.putByte_byteAt_self]

theorem extractLsb'_ofInt (v : ℤ) : (BitVec.ofInt 32 v).extractLsb' 0 8 = BitVec.ofInt 8 v := by
  apply BitVec.eq_of_toNat_eq
  rw [BitVec.extractLsb'_toNat, BitVec.toNat_ofInt, BitVec.toNat_ofInt, Nat.shiftRight_zero]
  omega

/-- NPU.VMUL's byte is the low byte of the scaled and clamped number. -/
theorem vmulValue_eq (v : Byte) (k : ℤ) :
    vmulValue v k = (BitVec.ofInt 32 (max (-128) (min 127 (v.toInt * k / 65536)))).extractLsb' 0 8 := by
  rw [vmulValue, clamp_eq_max_min _ (by decide), extractLsb'_ofInt]

/-- Clamped to a signed byte, the number is the value of its byte (R329). -/
theorem toInt_vmulValue (v : Byte) (k : ℤ) : (vmulValue v k).toInt = max (-128) (min 127 (v.toInt * k / 65536)) := by
  rw [vmulValue, clamp_eq_max_min _ (by decide)]
  exact BitVec.toInt_ofInt_eq_self (by decide) (by omega) (by omega)

theorem vmulWrite_writesElems (src dst : Word) (k : ℤ) : WritesElems (vmulWrite src dst k) dst 1
    (fun m i => BitVec.ofInt 32 (max (-128) (min 127 ((m.byteAt (src + BitVec.ofNat 32 i)).toInt * k / 65536)))) := by
  refine ⟨fun _ t => ?_, fun _ _ => rfl⟩
  simp only [vmulWrite, vmulValue_eq, elemAddr_one src]
  exact putByte_writes t _ _

theorem ascending_vmul (h : ∀ i, i < n → AllValid s (elemAddr src 1 i) 1 ∧ AllValid s (elemAddr dst 1 i) 1) :
    ascending (vmulElem src dst k) s n = .ok (writesFrom s (vmulWrite src dst k) n) := by
  refine ascending_ok (writesFrom s (vmulWrite src dst k)) fun i hi => ?_
  obtain ⟨hsrc, hdst⟩ := h i hi
  have hvalid := (vmulWrite_writesElems src dst k).allValid_iff (s := s) i
  exact vmulElem_ok ((hvalid _ 1).mpr hsrc) ((hvalid _ 1).mpr hdst)

theorem vmulElem_eq_ok {i : ℕ} {u : State} (h : vmulElem src dst k i t = .ok u) : u = vmulWrite src dst k i t := by
  rcases vmulElem_cases src dst k i t with ⟨-, -, he⟩ | ⟨-, he⟩ | ⟨-, -, he⟩ <;> rw [he] at h <;> cases h
  rfl

theorem exec_npuVmul_next (h : exec (.npuVmul rd rs1 rs2) s = .next t) :
    t = (writesFrom s (vmulWrite (s.readX rs1) (s.readX rs2) s.accLo.toInt) (s.readX rd).toNat).advance := by
  simp only [exec, execNpuVmul] at h
  obtain ⟨u, hu, rfl⟩ := afterReads_next h fun e he => by
    obtain ⟨a, -, rfl | rfl⟩ := vmul_fault he <;> simp
  exact congrArg State.advance (eq_writesFrom_of_ascending (fun _ _ _ => vmulElem_eq_ok) hu)

end

/-! ## The statements -/

/-- Settles O54: over valid elements both loops are their runs of writes. -/
theorem npuArraysInOrder : Obligations.NpuArraysInOrder := by
  refine ⟨fun s rd rs1 rs2 => ⟨fun h => ?vexp, fun h => ?vmul⟩, decodes_npuVexp, decodes_npuVmul⟩
  case vexp =>
    have hexec : exec (.npuVexp rd rs1 rs2) s = .next (writesFrom s _ _).advance := afterReads_of_ok (ascending_vexp h) _
    exact hexec ▸ (vexpWrite_writesElems ..).completesInOrder
  case vmul =>
    have hvalid : ∀ i, i < elemCount s rd →
        AllValid s (elemAddr (s.readX rs1) 1 i) 1 ∧ AllValid s (elemAddr (s.readX rs2) 1 i) 1 := fun i hi => by
      simpa only [elemAddr_one, allValid_one] using h i hi
    have hexec : exec (.npuVmul rd rs1 rs2) s = .next (writesFrom s _ _).advance :=
      afterReads_of_ok (ascending_vmul hvalid) _
    exact hexec ▸ (vmulWrite_writesElems ..).completesInOrder

/-- Settles O55: the element's destination is as its own write left it, and the value written is of a source element that no
write before it touched. -/
theorem npuArraysElementwise : Obligations.NpuArraysElementwise := by
  refine fun s t rd rs1 rs2 => ⟨fun hexec hn hoverlap i hi => ?vexp, fun hexec hoverlap i hi => ?vmul⟩
  case vexp =>
    obtain rfl := exec_npuVexp_next hexec
    have hrun := vexpWrite_writesElems (s.readX rs1) (s.readX rs2)
    have hdst : wordIn (writesFrom s _ (s.readX rd).toNat) _ = wordIn (writesFrom s _ (i + 1)) _ :=
      wordIn_congr fun j hj => hrun.byteAt_dst hn hi hj
    have hsrc : wordIn (writesFrom s (vexpWrite (s.readX rs1) (s.readX rs2)) i) _ = wordIn s _ :=
      wordIn_congr fun j hj => hrun.byteAt_src hn hoverlap hi hj
    exact hdst.trans ((hrun.writes i _).wordIn_eq.trans (congrArg Config.expQ16 hsrc))
  case vmul =>
    obtain rfl := exec_npuVmul_next hexec
    have hrun := vmulWrite_writesElems (s.readX rs1) (s.readX rs2) s.accLo.toInt
    have hn : 1 * (s.readX rd).toNat ≤ 2 ^ 32 := by omega
    have hdst := hrun.byteAt_dst (s := s) hn hi one_pos
    have hsrc := hrun.byteAt_src (s := s) (src := s.readX rs1) hn (by simpa only [Nat.one_mul] using hoverlap) hi one_pos
    simp only [Nat.one_mul, BitVec.add_zero] at hdst hsrc
    rw [byteAt_advance, hdst, writesFrom, vmulWrite_byteAt, hsrc, toInt_vmulValue]

end Sys2Proof.Machine
end

section
/-!
PROOFS of the access faults of the array instructions (47_npu.md R321, R323; 60_exceptions.md R364). The elements before the first
invalid one are an array whose loop succeeds; the whole loop comes to the invalid element behind it and ends with its fault.
-/

namespace Sys2Proof.Machine

/-! ## A loop that comes to a fault -/

/-- A loop ends with the fault of element `k` when the loop over the elements before `k` succeeds. -/
theorem ascending_error_of_ok {β : Type} {body : ℕ → β → Except Fault β} {init b : β} {n k : ℕ} {e : Fault} (hk : k < n)
    (h : ascending body init k = .ok b) (he : body k b = .error e) : ascending body init n = .error e := by
  induction n, hk using Nat.le_induction with
  | base => rw [ascending, h]; exact he
  | succ n _ ih => rw [ascending, ih]

/-- An access fault of the loop ends the run (60_exceptions.md R362). -/
theorem afterReads_of_error {β : Type} {s : State} {r : Except Fault β} {e : Fault} (h : r = .error e)
    (he : e ≠ .environmentCall) (k : β → State) : afterReads s r k = .fault e := by
  rw [h]
  exact deliver_of_ne_environmentCall he s

/-! ## The faults of one element -/

section
variable {s : State} {a b : Word} {i : ℕ}

theorem vmacElem_fault_left (sum : ℤ) (ha : ¬AllValid s (elemAddr a 1 i) 1) :
    vmacElem s a b i sum = .error (.loadAccessFault (elemAddr a 1 i)) := by
  simp only [vmacElem, guardLoad_error s ha]; rfl

theorem vmacElem_fault_right (sum : ℤ) (ha : AllValid s (elemAddr a 1 i) 1) (hb : ¬AllValid s (elemAddr b 1 i) 1) :
    vmacElem s a b i sum = .error (.loadAccessFault (elemAddr b 1 i)) := by
  simp only [vmacElem, guardLoad_ok s ha, guardLoad_error s hb]; rfl

theorem vreduceElem_fault_at (sum : ℤ) (ha : ¬AllValid s (elemAddr a 4 i) 4) :
    vreduceElem s a i sum = .error (.loadAccessFault (elemAddr a 4 i)) := by
  simp only [vreduceElem, guardLoad_error s ha]; rfl

theorem vmaxElem_fault_at (best : ℤ) (ha : ¬AllValid s (elemAddr a 4 i) 4) :
    vmaxElem s a i best = .error (.loadAccessFault (elemAddr a 4 i)) := by
  simp only [vmaxElem, guardLoad_error s ha]; rfl

end

section
variable {t : State} {src dst : Word} {i : ℕ}

theorem vexpElem_fault_src (hs : ¬AllValid t (elemAddr src 4 i) 4) :
    vexpElem src dst i t = .error (.loadAccessFault (elemAddr src 4 i)) := by
  simp only [vexpElem, guardLoad_error t hs]; rfl

theorem vexpElem_fault_dst (hs : AllValid t (elemAddr src 4 i) 4) (hd : ¬AllValid t (elemAddr dst 4 i) 4) :
    vexpElem src dst i t = .error (.storeAccessFault (elemAddr dst 4 i)) := by
  simp only [vexpElem, guardLoad_ok t hs, guardStore_error t hd]; rfl

theorem vmulElem_fault_src {k : ℤ} (hs : ¬AllValid t (elemAddr src 1 i) 1) :
    vmulElem src dst k i t = .error (.loadAccessFault (elemAddr src 1 i)) := by
  simp only [vmulElem, guardLoad_error t hs]; rfl

theorem vmulElem_fault_dst {k : ℤ} (hs : AllValid t (elemAddr src 1 i) 1) (hd : ¬AllValid t (elemAddr dst 1 i) 1) :
    vmulElem src dst k i t = .error (.storeAccessFault (elemAddr dst 1 i)) := by
  simp only [vmulElem, guardLoad_ok t hs, guardStore_error t hd]; rfl

end

/-! ## The faults of the instructions -/

section
variable {s : State} {rd rs1 rs2 : Reg} {k : ℕ} {e : Fault}

theorem exec_npuVmac_fault (hk : k < elemCount s rd) (he : e ≠ .environmentCall)
    (hbefore : ∀ i, i < k → AllValid s (elemAddr (s.readX rs1) 1 i) 1 ∧ AllValid s (elemAddr (s.readX rs2) 1 i) 1)
    (hat : ∀ sum, vmacElem s (s.readX rs1) (s.readX rs2) k sum = .error e) :
    exec (.npuVmac rd rs1 rs2) s = .fault e :=
  afterReads_of_error (ascending_error_of_ok hk (ascending_vmac hbefore) (hat _)) he _

theorem exec_npuVreduce_fault (hk : k < elemCount s rs2) (he : e ≠ .environmentCall)
    (hbefore : ∀ i, i < k → AllValid s (elemAddr (s.readX rs1) 4 i) 4)
    (hat : ∀ sum, vreduceElem s (s.readX rs1) k sum = .error e) : exec (.npuVreduce rd rs1 rs2) s = .fault e :=
  afterReads_of_error (ascending_error_of_ok hk (ascending_vreduce hbefore) (hat _)) he _

theorem exec_npuVmax_fault (hk : k < elemCount s rs2) (he : e ≠ .environmentCall)
    (hbefore : ∀ i, i < k → AllValid s (elemAddr (s.readX rs1) 4 i) 4)
    (hat : ∀ best, vmaxElem s (s.readX rs1) k best = .error e) : exec (.npuVmax rd rs1 rs2) s = .fault e :=
  (exec_npuVmax_of_pos (Nat.zero_lt_of_lt hk)).trans
    (afterReads_of_error (ascending_error_of_ok hk (ascending_vmax _ hbefore) (hat _)) he _)

/-- The element is reached in a state with the same valid bytes. -/
theorem exec_npuVexp_fault (hk : k < elemCount s rd) (he : e ≠ .environmentCall)
    (hbefore : ∀ i, i < k → AllValid s (elemAddr (s.readX rs1) 4 i) 4 ∧ AllValid s (elemAddr (s.readX rs2) 4 i) 4)
    (hat : ∀ t, (∀ a, AllValid t a 4 ↔ AllValid s a 4) → vexpElem (s.readX rs1) (s.readX rs2) k t = .error e) :
    exec (.npuVexp rd rs1 rs2) s = .fault e := by
  have hvalid := fun a => (vexpWrite_writesElems (s.readX rs1) (s.readX rs2)).allValid_iff (s := s) k a 4
  exact afterReads_of_error (ascending_error_of_ok hk (ascending_vexp hbefore) (hat _ hvalid)) he _

/-- The element is reached in a state with the same valid bytes. -/
theorem exec_npuVmul_fault (hk : k < elemCount s rd) (he : e ≠ .environmentCall)
    (hbefore : ∀ i, i < k → AllValid s (elemAddr (s.readX rs1) 1 i) 1 ∧ AllValid s (elemAddr (s.readX rs2) 1 i) 1)
    (hat : ∀ t, (∀ a, AllValid t a 1 ↔ AllValid s a 1) →
      vmulElem (s.readX rs1) (s.readX rs2) s.accLo.toInt k t = .error e) :
    exec (.npuVmul rd rs1 rs2) s = .fault e := by
  have hvalid := fun a => (vmulWrite_writesElems (s.readX rs1) (s.readX rs2) s.accLo.toInt).allValid_iff (s := s) k a 1
  exact afterReads_of_error (ascending_error_of_ok hk (ascending_vmul hbefore) (hat _ hvalid)) he _

end

/-- Settles O56: each clause is the fault of element `k` behind elements that are valid. -/
theorem npuArrayFaults : Obligations.NpuArrayFaults := by
  intro s rd rs1 rs2 k
  refine ⟨?bytes, fun hk hbefore => ⟨fun ha => ?vexpSrc, fun ha hb => ?vexpDst⟩, fun hk hbefore ha => ⟨?vreduce, ?vmax⟩⟩
  case bytes =>
    simp only [← elemAddr_one]
    refine fun hk hbefore => ⟨fun ha => ⟨?vmacLeft, ?vmulSrc⟩, fun ha hb => ⟨?vmacRight, ?vmulDst⟩⟩
    case vmacLeft => exact exec_npuVmac_fault hk nofun hbefore fun _ => vmacElem_fault_left _ ha
    case vmacRight => exact exec_npuVmac_fault hk nofun hbefore fun _ => vmacElem_fault_right _ ha hb
    case vmulSrc => exact exec_npuVmul_fault hk nofun hbefore fun _ hv => vmulElem_fault_src (mt (hv _).mp ha)
    case vmulDst =>
      exact exec_npuVmul_fault hk nofun hbefore fun _ hv => vmulElem_fault_dst ((hv _).mpr ha) (mt (hv _).mp hb)
  case vexpSrc => exact exec_npuVexp_fault hk nofun hbefore fun _ hv => vexpElem_fault_src (mt (hv _).mp ha)
  case vexpDst =>
    exact exec_npuVexp_fault hk nofun hbefore fun _ hv => vexpElem_fault_dst ((hv _).mpr ha) (mt (hv _).mp hb)
  case vreduce => exact exec_npuVreduce_fault hk nofun hbefore fun _ => vreduceElem_fault_at _ ha
  case vmax => exact exec_npuVmax_fault hk nofun hbefore fun _ => vmaxElem_fault_at _ ha

end Sys2Proof.Machine
end

section
/-!
PROOFS about the exceptions (60_exceptions.md R360, R375). A step ends without a next state in its fetch, in its decoding or in the
instruction, and what the instruction can stop with is `Stops` (Laws/Effects.lean).
-/

namespace Sys2Proof.Machine

/-! ## Where a step stops -/

section
variable {s : State} {e : Fault}

/-- The two exceptions of the fetch with their conditions (20_memory.md R80, R81). -/
theorem fetch_error_cases (h : fetch s = .error e) :
    (e = .instructionAddressMisaligned s.pc ∧ s.pc.toNat % 4 ≠ 0) ∨
      (e = .instructionAccessFault s.pc ∧ ¬AllValid s s.pc 4) := by
  by_cases ha : s.pc.extractLsb' 0 2 = 0#2
  · by_cases hv : AllValid s s.pc 4
    · rw [fetch_ok s ha hv] at h; cases h
    · rw [fetch_invalid s ha hv] at h; cases h; exact .inr ⟨rfl, hv⟩
  · rw [fetch_misaligned s ha] at h; cases h; exact .inl ⟨rfl, mt (low_bits_zero s.pc).mpr ha⟩

/-- What a step is: its fetch's exception, the decoder's rejection, or the instruction. -/
theorem step_cases (s : State) :
    (∃ e, fetch s = .error e ∧ step s = .fault e) ∨
    (∃ r, decode (wordIn s s.pc) = .error r ∧ step s = .fault (.illegalInstruction (wordIn s s.pc))) ∨
    ∃ i, decode (wordIn s s.pc) = .ok i ∧ step s = exec i s := by
  cases hf : fetch s with
  | error e => exact .inl ⟨e, rfl, step_of_fetch_error hf⟩
  | ok w =>
    obtain rfl := fetch_eq_wordIn hf
    cases hd : decode (wordIn s s.pc) with
    | error r => exact .inr (.inl ⟨r, rfl, by simp only [step, hf, hd]; rfl⟩)
    | ok i => exact .inr (.inr ⟨i, rfl, step_of_fetch s hf hd⟩)

/-- A word that is rejected matches no row (30_encoding.md R135). -/
theorem no_row_of_decode_error {w : Word} {r : Reject} (h : decode w = .error r) :
    ∀ row ∈ opcodeTable, w &&& row.mask ≠ row.pattern := by
  intro row hrow hw
  obtain ⟨i, hi, -⟩ := decode_of_row hrow hw
  rw [h] at hi
  cases hi

theorem step_not_refused (s : State) (r : Refusal) : step s ≠ .refused r := by
  rcases step_cases s with ⟨e, -, hs⟩ | ⟨_, -, hs⟩ | ⟨i, -, hs⟩ <;> rw [hs]
  · nofun
  · nofun
  · exact exec_not_refused i s r

end

/-! ## The statements -/

/-- Settles O18: the faults by where the step stops, those of the instruction by its reasons to stop. -/
theorem exceptionsAreTheSeven : Obligations.ExceptionsAreTheSeven := by
  refine ⟨step_not_refused, fun s e h => ?_⟩
  rcases step_cases s with ⟨e', hfetch, hs⟩ | ⟨r, hdecode, hs⟩ | ⟨i, hdecode, hs⟩ <;> rw [hs] at h
  · cases h
    rcases fetch_error_cases hfetch with ⟨rfl, hpc⟩ | ⟨rfl, hvalid⟩
    · exact ⟨rfl, hpc⟩
    · exact ⟨rfl, hvalid⟩
  · cases h
    exact ⟨rfl, no_row_of_decode_error hdecode⟩
  · cases exec_fault h with
    | load a n hreads hn hvalid => exact ⟨i, n, hdecode, hreads, hn, hvalid⟩
    | store a n hwrites hn hvalid => exact ⟨i, n, hdecode, hwrites, hn, hvalid⟩
    | breakpoint hi => exact ⟨rfl, hi ▸ hdecode⟩
    | call hi hanswer => exact ⟨hi ▸ hdecode, hanswer⟩

/-- An instruction that stops is ECALL or EBREAK, or reaches memory, of which some byte is then invalid. -/
theorem Stops.isSystem_or_access {i : Instr} {s : State} {o : Result} (h : Stops i s o) :
    i.isSystem = true ∨ ((i.readsMemory = true ∨ i.writesMemory = true) ∧ ∃ a n, ¬AllValid s a n) := by
  cases h with
  | load a n hr _ hv => exact .inr ⟨.inl hr, a, n, hv⟩
  | store a n hw _ hv => exact .inr ⟨.inr hw, a, n, hv⟩
  | breakpoint hi => exact .inl (hi ▸ by decide)
  | call hi _ => exact .inl (hi ▸ by decide)

/-- Settles O19: without an access, or where all of memory is valid, no reason to stop is left. -/
theorem nothingElseTraps : Obligations.NothingElseTraps := by
  intro i s hsystem h
  rcases exec_completes_or_stops i s with hnext | hstops
  · exact hnext
  rcases hstops.isSystem_or_access with hi | ⟨haccess, a, n, hinvalid⟩
  · rw [hsystem] at hi; cases hi
  rcases h with ⟨hr, hw⟩ | hvalid
  · simp [hr, hw] at haccess
  · exact absurd (fun i _ => hvalid _) hinvalid

end Sys2Proof.Machine
end
